-- ==== Sys2Proof/Word.lean ====
section
/-! DEFINITION. The word types of the Sahrix SX940 and their plainest arithmetic (spec 00 R2, R6). -/

namespace Sys2Proof

/-- One byte. -/
abbrev Byte := BitVec 8

/-- A 32-bit word: a direct slot of a bundle (R46), a lineage tag (R72). -/
abbrev Word32 := BitVec 32

/-- A 64-bit word: a scalar register (R78), a control register (R93). -/
abbrev Word64 := BitVec 64

/-- A vector register, a port of the palette, a drain-queue entry: 512 bytes (R46, R192, R271). -/
abbrev Vec512 := BitVec 4096

/-- One entry of a mask stack: bit i governs byte i of a vector register (R159). -/
abbrev MaskEntry := BitVec 512

/-- A bundle, a seal bundle or a horizontal control word (R46, R58, R66). -/
abbrev Word256 := BitVec 256

end Sys2Proof
end

