-- ==== Sys2Proof/Machine/Bits.lean ====
section
/-! DEFINITION. Bytes, hashes and lineage functions (spec 00 R2; 03 R71; 08 R171; 10 R218, R219; 12 R266). -/

namespace Sys2Proof.Machine

/-! ### Bytes -/

/-- The value of bytes, least significant first (R2). -/
def leNat : List Byte → Nat
  | [] => 0
  | b :: bs => b.toNat + 256 * leNat bs

/-- The n low bytes of a value, least significant first (R2). -/
def leBytes : Nat → Nat → List Byte
  | 0, _ => []
  | n + 1, x => BitVec.ofNat 8 (x % 256) :: leBytes n (x / 256)

/-- The bytes of a vector register or port. -/
def vecBytes (v : Vec512) : List Byte := leBytes 512 v.toNat

/-- The vector whose byte image starts with these bytes. -/
def bytesVec (bs : List Byte) : Vec512 := BitVec.ofNat 4096 (leNat (bs.take 512))

/-- Field of n bytes at offset o of a byte image. -/
def byteField (bs : List Byte) (o n : Nat) : Nat := leNat ((bs.drop o).take n)

/-- Every byte of a range is zero. -/
def zeroBytes (bs : List Byte) (o n : Nat) : Bool := ((bs.drop o).take n).all (· == 0)

/-- Element i of width w bits of a register image; packed elements share a byte (R20, R61). -/
def element (v : Vec512) (w i : Nat) : Nat := (v.toNat / 2 ^ (w * i)) % 2 ^ w

/-- The register image of elements of width w, element 0 lowest. -/
def packElems (w : Nat) : List Nat → Nat
  | [] => 0
  | x :: xs => x % 2 ^ w + 2 ^ w * packElems w xs

/-- A bit mask of n consecutive ones from bit lo, in a width of 512. -/
def byteRun (lo n : Nat) : BitVec 512 := BitVec.ofNat 512 ((2 ^ n - 1) * 2 ^ lo)

/-- The 4,096-bit mask that has all eight bits of byte i where bit i of m is 1. -/
def spreadMask (m : BitVec 512) : Vec512 :=
  let rec go : Nat → Nat → Nat
    | 0, _ => 0
    | n + 1, x => (if x % 2 == 1 then 255 else 0) + 256 * go n (x / 2)
  BitVec.ofNat 4096 (go 512 m.toNat)

/-- The bytes of `new` where the mask has a 1, and those of `old` elsewhere. -/
def mergeVec (m : BitVec 512) (old new : Vec512) : Vec512 :=
  if m == BitVec.allOnes 512 then new
  else
    let k := spreadMask m
    (new &&& k) ||| (old &&& ~~~k)

/-- Sign extension of a field to an integer. -/
def sextInt {n : Nat} (x : BitVec n) : Int := x.toInt

/-- Round up to a multiple. -/
def ceilDiv (a b : Nat) : Nat := (a + b - 1) / b

/-- The number rounded down to a multiple of n. -/
def alignDown (a n : Nat) : Nat := a - a % n

/-! ### Lineage (R71, R72, R168, R171) -/

/-- `mix32` of R71. -/
def mix32 (x : Word32) : Word32 :=
  let x := x ^^^ (x >>> 16)
  let x := x * 0x7FEB352D#32
  let x := x ^^^ (x >>> 15)
  let x := x * 0x846CA68B#32
  x ^^^ (x >>> 16)

/-- `rotl32` of R71. -/
def rotl32 (x : Word32) (n : Nat) : Word32 := (x <<< n) ||| (x >>> (32 - n))

/-- `rotl64` of R71. -/
def rotl64 (x : Word64) (n : Nat) : Word64 := (x <<< n) ||| (x >>> (64 - n))

/-- The start of `cr.fold` (R73). -/
def foldStart : Word64 := 0x243F6A8885A308D3

/-- One step of the fold (R73). -/
def foldStep (f : Word64) (t : Word32) : Word64 :=
  rotl64 f 9 ^^^ (t.setWidth 64 * 0x9E3779B97F4A7C15#64)

/-- The identity of an operation (R72). -/
def opid (index slot opcode12 destcode : Nat) : Word32 :=
  BitVec.ofNat 32 ((index % 256) * 2 ^ 24 + slot * 2 ^ 20 + opcode12 * 2 ^ 8 + destcode)

/-- The tag of an operation (R72). -/
def opTag (id l1 l2 l3 : Word32) : Word32 :=
  mix32 (id ^^^ rotl32 l1 7 ^^^ rotl32 l2 13 ^^^ rotl32 l3 19)

/-- The entry tag of a register with code bank << 6 | number (R165, R168). -/
def canonTag (code : Nat) : Word32 :=
  mix32 (BitVec.ofNat 32 (0x5EA10000 + (code / 64) * 256 + code % 64))

/-- The entry tag of a register with a write in flight (R168). -/
def pendingTag (code : Nat) : Word32 := canonTag code ^^^ 0x80000000#32

/-- The digest of a bundle address (R171). -/
def digest (addr : Nat) : BitVec 16 :=
  let a := addr / 32
  (mix32 (BitVec.ofNat 32 (a % 2 ^ 32) ^^^ BitVec.ofNat 32 (a / 2 ^ 32))).setWidth 16

/-! ### Address hashes (R218, R219) -/

/-- `fold(x, k)` of R218 over at most n groups. -/
def foldHash (k : Nat) : Nat → Nat → Nat
  | 0, _ => 0
  | n + 1, x => if x == 0 then 0 else (x % 2 ^ k) ^^^ foldHash k n (x / 2 ^ k)

/-- The local L2 slice of a PA in a single-quadrant partition (R218). -/
def localSlice (pa : Nat) : Nat := foldHash 4 12 (pa / 128)

/-- The L2 slice of a PA in the device-wide partition (R218). -/
def wideSlice (pa : Nat) : Nat := foldHash 7 7 (pa / 128)

/-- The stack of an interleaved PA (R219). -/
def stackOf (pa : Nat) : Nat := foldHash 3 15 (pa / 512)

/-- The home memory slice of a PA (R219, R220): the slice-local view names it in PA [50:43]. -/
def homeSlice (pa : Nat) : Nat :=
  if pa / 2 ^ 51 % 2 == 1 then (pa / 2 ^ 43) % 256
  else stackOf pa * 32 + foldHash 6 7 (pa / 4096) / 2

/-- The pseudo-channel of an interleaved PA in its memory slice (R219). -/
def pseudoChannel (pa : Nat) : Nat := foldHash 6 7 (pa / 4096) % 2

/-- The compute die of a quadrant (R7). -/
def computeDie (quad : Nat) : Nat := quad / 4

/-- The base die of a PA (R7, R219). -/
def homeDie (pa : Nat) : Nat := homeSlice pa / 32

/-! ### CRC-32C (R266) -/

/-- Eight shift steps of the reflected polynomial. -/
def crcBits : Nat → Word32 → Word32
  | 0, c => c
  | n + 1, c => crcBits n (if c.getLsbD 0 then (c >>> 1) ^^^ 0x82F63B78#32 else c >>> 1)

/-- The running state after one byte. -/
def crcByte (c : Word32) (b : Byte) : Word32 := crcBits 8 (c ^^^ b.setWidth 32)

/-- The running state after bytes in ascending order. -/
def crcFeed (c : Word32) (bs : List Byte) : Word32 := bs.foldl crcByte c

/-- The CRC-32C of bytes. -/
def crc32c (bs : List Byte) : Word32 := crcFeed 0xFFFFFFFF#32 bs ^^^ 0xFFFFFFFF#32

/-! ### Lists -/

/-- The list with element i changed. -/
def updAt {α : Type} (xs : List α) (i : Nat) (f : α → α) : List α :=
  match xs[i]? with
  | some x => xs.set i (f x)
  | none => xs

/-- A function that may fail over a list: every result, or the first failure. -/
def allOk {α β ε : Type} (f : α → Except ε β) (todo : List α) : Except ε (List β) :=
  todo.foldr (fun item rest => match f item with
    | .ok y => rest.map fun done => y :: done
    | .error why => .error why) (.ok [])

/-- Value of an association list. -/
def assoc {α : Type} (xs : List (Nat × α)) (k : Nat) : Option α :=
  match xs.find? (fun p => p.1 == k) with
  | some p => some p.2
  | none => none

/-- Association list with one key set. -/
def assocSet {α : Type} (xs : List (Nat × α)) (k : Nat) (v : α) : List (Nat × α) :=
  (k, v) :: xs.filter fun p => p.1 != k

end Sys2Proof.Machine
end

