-- ==== Sys2Proof/Config.lean ====
section
/-! DEFINITION. What an implementation fixes, and the free values: constants with no body, of which
nothing can be proved but that they are values. -/

namespace Sys2Proof.Config

/-- A byte that the manual leaves undefined (R198: the rest of a compressed frame), drawn by the
free-value counter of the state (log 15). -/
opaque freeByte : Nat → BitVec 8

/-- What a memory or a stash holds when a reset has left it undefined (R303), as a list of addresses and bytes,
drawn by the free-value counter (log 15). -/
opaque undefinedCells : Nat → List (Nat × BitVec 8)

/-- A byte of a context area whose meaning belongs to the stepping (R286), of a save and at an offset of the area (log 16). -/
opaque ctxByte : Nat → Nat → BitVec 8

/-- The tag that the device's AES-256-GCM key gives for a nonce and the authenticated bytes (R301).
The key is held by the device and never leaves it, so the tag is a free function (log 14). -/
opaque loaderTag : BitVec 96 → List (BitVec 8) → BitVec 128

/-- The 96-bit nonce of a cache entry (R301), drawn by the free-value counter (log 14). -/
opaque loaderNonce : Nat → BitVec 96

/-- Whether a tie under RNE between two values of a format without a fraction goes to the greater magnitude (R23, R27): both
fractions are empty, so the spec names neither. The argument is the exponent of the lesser magnitude (log 23). -/
opaque tieUp : Int → Bool

/-- Physical tiles of the package (R7, R8). -/
def physTiles : Nat := 288

/-- Tiles of a quadrant's mesh (R7). -/
def quadTiles : Nat := 36

/-- Logical tiles of a quadrant (R14). -/
def quadLogical : Nat := 32

/-- Bytes of a context area (R285). -/
def ctxBytes : Nat := 1188 * 1024

/-- Contexts that the 24 MiB of a compute die's context store hold (R7, R287). -/
def storedContexts : Nat := 20

/-- Elements of the boundary buffer (R203). -/
def boundaryLimit : Nat := 21845

/-- Operations the M engine queue of a tile holds (R182). -/
def mqLimit : Nat := 16

/-- Copy and mill commands outstanding on a tile (R260). -/
def cpLimit : Nat := 16

/-- Sends outstanding on a tile (R390). -/
def sendLimit : Nat := 16

/-- Waiter entries of a memory slice (R245). -/
def waiterLimit : Nat := 8192

/-- Launch-queue entries of a memory slice (R248). -/
def launchLimit : Nat := 64

/-- Halted commands of a quadrant (R264). -/
def haltedLimit : Nat := 256

/-- Commands of a reduction engine (R376). -/
def reductionLimit : Nat := 64

/-- Open frames of a write-combining buffer (R200). -/
def wcLimit : Nat := 512

/-- Skew buffer of a port channel, in bytes (R295). -/
def skewBytes : Nat := 65536

/-- The lease a fill or renewal grants, in beats of the logical clock (R212). -/
def lease : Nat := 4096

end Sys2Proof.Config
end

