-- ==== Sys2Proof/Syntax.lean ====
section
/-! DEFINITION. The instructions and events of the SX940: one constructor of Instr for each row of
spec/opcode_table.json, with the operands that spec 04 (R79-R95) gives each operation, and for an
event the data that the event brings with it. -/

namespace Sys2Proof

/-- The slots of a bundle, with the slot codes of R72. -/
inductive Slot where
  | c | sa | sb | va | vb | m | l | d | t
deriving DecidableEq, Repr

/-- The slot code of R72. -/
def Slot.code : Slot → Nat
  | .c => 0 | .sa => 1 | .sb => 2 | .va => 3 | .vb => 4 | .m => 5 | .l => 6 | .d => 7 | .t => 8

/-- The cause codes of R280. -/
inductive Cause where
  | bundleReserved | syllableKind | opcodeUndefined | opcodeStepping | opcodeRemoved | hcwEmpty
  | engineAbsent | fetchXlate | fetchEcc | sealFormat | privileged
  | transferPlace | successor | targetEmpty | commitPlace | maskStack | loopNest | blockLength
  | sealPersist | storeBuffer | readEarly | pairDiverge | tileRetired | transient | queueHalt
  | xlateNotpresent | xlatePerm | align | compressedAccess | eccUncorrectable | memsideKind
  | ringConfig | mergeConflict | remoteWindow
  | queueOverflow | queueUnderflow | mmaShape | mmaXlate | boundaryOverflow | chainShape
  | tdefRange | tdefAlias | tdefFormat | tidInvalid | transformPort | copyCheck | copyXlate | peerAcc
  | errandTemplate | poolRecord | groupInvalid | counterAlign | reduceParam | netPort | netLength
  | fpInvalid | fpOverflow | fpUnderflow | fpInexact | intOverflow | formatInvalid
  | trap | breakpoint | preempt | preemptForced | hang | slip | partitionFence | inject
deriving DecidableEq, Repr

/-- The seven-bit code of a cause (R280). -/
def Cause.code : Cause → BitVec 7
  | .bundleReserved => 0x01 | .syllableKind => 0x02 | .opcodeUndefined => 0x03
  | .opcodeStepping => 0x04 | .opcodeRemoved => 0x05 | .hcwEmpty => 0x06 | .engineAbsent => 0x07
  | .fetchXlate => 0x08 | .fetchEcc => 0x09 | .sealFormat => 0x0A | .privileged => 0x0B
  | .transferPlace => 0x10 | .successor => 0x11 | .targetEmpty => 0x12 | .commitPlace => 0x13
  | .maskStack => 0x14 | .loopNest => 0x15 | .blockLength => 0x16
  | .sealPersist => 0x20 | .storeBuffer => 0x21 | .readEarly => 0x22 | .pairDiverge => 0x23
  | .tileRetired => 0x24 | .transient => 0x25 | .queueHalt => 0x26
  | .xlateNotpresent => 0x30 | .xlatePerm => 0x31 | .align => 0x32 | .compressedAccess => 0x33
  | .eccUncorrectable => 0x34 | .memsideKind => 0x35 | .ringConfig => 0x37
  | .mergeConflict => 0x38 | .remoteWindow => 0x39
  | .queueOverflow => 0x40 | .queueUnderflow => 0x41 | .mmaShape => 0x42 | .mmaXlate => 0x43
  | .boundaryOverflow => 0x44 | .chainShape => 0x45 | .tdefRange => 0x46 | .tdefAlias => 0x47
  | .tdefFormat => 0x48 | .tidInvalid => 0x49 | .transformPort => 0x4A | .copyCheck => 0x4B
  | .copyXlate => 0x4C | .peerAcc => 0x4D
  | .errandTemplate => 0x50 | .poolRecord => 0x51 | .groupInvalid => 0x52 | .counterAlign => 0x53
  | .reduceParam => 0x55 | .netPort => 0x56 | .netLength => 0x57
  | .fpInvalid => 0x60 | .fpOverflow => 0x62 | .fpUnderflow => 0x63 | .fpInexact => 0x64
  | .intOverflow => 0x65 | .formatInvalid => 0x66
  | .trap => 0x70 | .breakpoint => 0x71 | .preempt => 0x72 | .preemptForced => 0x73
  | .hang => 0x74 | .slip => 0x75 | .partitionFence => 0x76 | .inject => 0x77

/-- The size codes of the L slot (R83): 1, 2, 4 or 8 bytes. -/
inductive MemSize where
  | b | h | w | d
deriving DecidableEq, Repr

/-- The operations of `amo` and `amoc` (R85). -/
inductive AmoOp where
  | add | min | max | minu | maxu | band | bor | bxor | swap | cas
deriving DecidableEq, Repr

/-- The conditions of `amoc`, `scmp` and `vcmp` (R86). -/
inductive Cond where
  | eq | ne | lt | ge | ltu | geu
deriving DecidableEq, Repr

/-- The two mask stacks, by the syllable position they belong to (R159). -/
inductive MaskUnit where
  | va | vb
deriving DecidableEq, Repr

/-- The fields of a horizontal control word that R58 does not fix: everything but class, opcode,
immediate B and the reserved bits. -/
structure Hcw where
  imm : Bool
  round : BitVec 3
  sat : Bool
  uns : Bool
  dst : BitVec 6
  src1 : BitVec 6
  src2 : BitVec 6
  src3 : BitVec 6
  reloc : BitVec 4
  fmt : BitVec 8
  shape : BitVec 8
  pen : Bool
  pq : BitVec 3
  psense : Bool
  immA : BitVec 64
deriving DecidableEq, Repr

/-- The engines that copy tensors: a tile's (R262) or a command processor's (R134). -/
inductive CopyEngine where
  | tile (t : Nat)
  | cp (quad : Nat)
deriving DecidableEq, Repr

/-- The base-die units that an internal error can stop (R289): the mill that serves a command, by its serial
number, the reduction engine, or the write-combining buffer. -/
inductive BaseUnit where
  | mill (n : Nat)
  | reduction
  | writeCombining
deriving DecidableEq, Repr

/-- The voltage and frequency islands that the device may lower (R302). -/
inductive Island where
  | tile (t : Nat)
  | l2 (quad : Nat)
  | base (die : Nat)
deriving DecidableEq, Repr

/-- The operating points of an island (R302). -/
inductive OpPoint where
  | p1750 | p1400 | p1050 | p0700 | off
deriving DecidableEq, Repr

/-- A DATA frame of a peer link as it arrives with a good FCS (R298). -/
structure DataFrame where
  ch : BitVec 5
  first : Bool
  last : Bool
  queue : Bool
  seq : BitVec 32
  arg : BitVec 64
  payload : List Byte
deriving DecidableEq, Repr

/-- One pairing message (R154). -/
structure PairMsg where
  tile : BitVec 8
  seq : BitVec 48
  fold : BitVec 64
  crc : BitVec 32
deriving DecidableEq, Repr

/-- Why a frame is not taken (R298). -/
inductive FrameFate where
  | badFcs | unexpectedSeq | unknownType
deriving DecidableEq, Repr

/-- A finding of the self-test: one scalar ALU or vector unit of a physical tile that failed (R62). -/
structure BadUnit where
  tile : Nat
  vector : Bool
  unit : BitVec 2
deriving DecidableEq, Repr

/-- The steps of the SX940: one constructor for each row of spec/opcode_table.json. A tile is named
by its physical number, quadrant × 36 + row × 6 + column; a queue by quadrant and number. -/
inductive Instr where
  -- events of a tile's pipeline
  | bundleIssue (t : Nat)
  | delayedStart (t : Nat)
  | sealComparison (t : Nat)
  | orderPoint (t : Nat)
  | blockReplay (t : Nat)
  | blockRerun (t : Nat)
  | tileRetirement (t : Nat)
  | engineInstanceFailure (t : Nat) (vector : Bool) (unit : BitVec 2)
  | stashFill (t : Nat)
  | lineRecall (line : Nat)
  | valueDelivery (n : Nat)
  | cwaitReply (t : Nat)
  | waiterConfirm (n : Nat)
  | cwaitRetry (t : Nat)
  | launchQueueDrain (slice : Nat) (part : Nat)
  | taskPick (t : Nat) (idle : Nat)
  | preemptForced (t : Nat)
  | watchdogExpiry (t : Nat)
  | frameStart (p : Nat)
  | relRelease (t : Nat)
  -- engine events
  | mmaExecute (t : Nat)
  | mzeroExecute (t : Nat)
  | mloadExecute (t : Nat)
  | mdrainExecute (t : Nat)
  | drainEntryFill (t : Nat)
  | peerAdditionApply (t : Nat)
  | peerAck (t : Nat)
  | chainStep (t : Nat)
  | copyChunk (e : CopyEngine)
  | millBlockPush (t : Nat) (g : BitVec 3)
  | millBlockPull (t : Nat) (g : BitVec 3)
  | reductionChunk (die : Nat)
  | wcPartialWrite (p : Nat) (t : BitVec 10) (frame : Nat) (off : BitVec 6) (bytes : List (BitVec 9 × BitVec 8))
  | wcTimeout (die : Nat) (n : Nat)
  | patrolScrub (die : Nat) (found : List Nat)
  | eccUncorrectable (line : Nat)
  | engineInternalError (die : Nat) (unit : BaseUnit)
  -- command processor
  | launch (quad queue : Nat)
  | launchStartRelease (quad queue : Nat)
  | launchComplete (p n : Nat)
  | graph (quad queue : Nat)
  | graphNodeComplete (quad n node : Nat)
  | counterAdd (quad queue : Nat)
  | counterWait (quad queue : Nat)
  | counterWaitRelease (quad queue : Nat)
  | copy (quad queue : Nat)
  | fencePacket (quad queue : Nat)
  | ttLoad (quad queue : Nat)
  | ttStart (quad queue : Nat)
  | ttStop (quad queue : Nat)
  | ttSwap (quad queue : Nat)
  | ttRead (quad queue : Nat)
  | notifyWrite (quad queue : Nat) (wridx : BitVec 32)
  | queueResume (quad queue : Nat)
  -- partition and device
  | mergeRoundOpen (p : Nat)
  | mergeRoundClose (p : Nat)
  | tlbInvalidate (quad : Nat)
  | tlbInvalidateDone (quad : Nat)
  | resumeHalted (quad : Nat) (token : BitVec 16)
  | abandonHalted (quad : Nat) (token : BitVec 16)
  | partitionHalt (p : Nat)
  | partitionResume (p : Nat)
  | partitionFence (p : Nat)
  | revive (p : Nat) (ctx : Nat)
  | deviceReset
  | powerOnReset
  | selfTest (bad : List BadUnit)
  | partitionLayout (v : BitVec 8)
  | partitionReset (p : Nat)
  | loaderCheckSeal
  | loaderLoadEntry
  | powerCapAdjust (i : Island) (p : OpPoint)
  | registerWrite (off : Nat) (v : BitVec 64) (be : BitVec 8) (priv : Bool)
  -- ports
  | channelEnable (port ch : Nat)
  | channelDisable (port ch : Nat)
  | rdmaRead (conn : Nat) (addr : BitVec 56) (len : Nat)
  | rdmaWrite (conn : Nat) (addr : BitVec 56) (data : List Byte)
  | queueTransportRead (src : Nat) (seq : BitVec 16) (addr : BitVec 64) (len : Nat)
  | queueTransportWrite (src : Nat) (seq : BitVec 16) (addr : BitVec 64) (data : List Byte)
  | data (port : Nat) (src : BitVec 8) (f : DataFrame)
  | ack (port : Nat) (src : BitVec 8) (seq : BitVec 32)
  | credit (port : Nat) (src : BitVec 8) (ch : BitVec 5) (reset : Bool) (n : BitVec 32)
  | pair (port : Nat) (src : BitVec 8) (seq : BitVec 32) (msgs : List PairMsg)
  | messageSend (port ch : Nat)
  | ackTimer (port : Nat)
  | resendTimeout (port : Nat)
  | pairTimeout (t : Nat)
  | linkTraining (port : Nat)
  | linkDown (port : Nat)
  | ptpMessage (port : Nat) (tick : BitVec 64)
  | ptpLockLoss
  -- C slot (R79)
  | nop
  | bprep (b : BitVec 3) (off : BitVec 23)
  | bprepi (b : BitVec 3) (n : BitVec 6)
  | xfer (b : BitVec 3) (q : BitVec 3)
  | xferF (b : BitVec 3) (q : BitVec 3)
  | xferMz (b : BitVec 3) (u : MaskUnit)
  | xferMnz (b : BitVec 3) (u : MaskUnit)
  | call (b : BitVec 3)
  | lmark (n : BitVec 6) (len : BitVec 8)
  | lmarkImm (count : BitVec 12) (len : BitVec 8)
  | ilock (n : BitVec 6) (lines : BitVec 16)
  | iunlock (n : BitVec 6) (lines : BitVec 16)
  | wait (ld st cp mx : BitVec 5)
  | rel (n : BitVec 20)
  | done
  | yield
  | trap (code : BitVec 8)
  | brk (tag : BitVec 16)
  | inj (slot : BitVec 6) (k : BitVec 2) (d : BitVec 8) (step : BitVec 6)
  -- M slot (R81)
  | mma (a : BitVec 3) (tA tB : BitVec 10) (c : BitVec 3)
  | mzero (a : BitVec 3)
  | mdrain (a : BitVec 3) (t : BitVec 10) (dq : BitVec 2)
  | mdrainRed (a : BitVec 3) (t : BitVec 10) (tile : BitVec 10) (aM : BitVec 3)
  | mload (a : BitVec 3) (n : BitVec 6)
  | chset (bd : BitVec 4) (n : BitVec 6)
  | chsetImm (bd : BitVec 4) (v : BitVec 16)
  | chrun (n m : BitVec 6)
  | chstep (n : BitVec 6)
  | chstepPick (n m : BitVec 6)
  -- L slot (R83)
  | ld (d base : BitVec 6) (sz : MemSize) (signed : Bool) (off : BitVec 10)
  | st (n base : BitVec 6) (sz : MemSize) (off : BitVec 10)
  | vld (v : BitVec 5) (base stride : BitVec 6)
  | vst (v : BitVec 5) (base stride : BitVec 6)
  | stq (dq : BitVec 2) (t : BitVec 10) (c : BitVec 6)
  | racq (d : BitVec 6) (g : BitVec 3)
  | rpub (g : BitVec 3)
  | rget (d : BitVec 6) (g : BitVec 3)
  | rrel (g : BitVec 3)
  | sflush (base : BitVec 6) (lines : BitVec 14)
  | sinv (base : BitVec 6) (lines : BitVec 14)
  -- D slot (R84)
  | cpy (tD tS : BitVec 10) (c : BitVec 6)
  | msub (g : BitVec 3) (t : BitVec 10) (n : BitVec 6)
  | mret (g : BitVec 3) (t : BitVec 10) (n : BitVec 6)
  | cadd (a n : BitVec 6)
  | caddImm (a : BitVec 6) (v : BitVec 13)
  | cwait (a t m : BitVec 6) (b : BitVec 3)
  | cread (d a : BitVec 6)
  | amo (op : AmoOp) (wide : Bool) (d a n : BitVec 6)
  | amoc (op : AmoOp) (cc : Cond) (d a n : BitVec 6)
  | mred (p c : BitVec 6)
  | fence (before after : BitVec 6)
  | spawn (a : BitVec 6)
  | join (g : BitVec 16)
  | leave (g : BitVec 16)
  | tdef (t : BitVec 10) (d : BitVec 6)
  | tdrop (t : BitVec 10)
  | nsend (port ch : BitVec 5) (a l : BitVec 6)
  | nrecv (port ch : BitVec 5) (a l : BitVec 6)
  | nsendq (port ch : BitVec 5) (dq : BitVec 2)
  -- T slot (R89)
  | tmovPortV (p : BitVec 6) (v : BitVec 5)
  | tmovVPort (v : BitVec 5) (p : BitVec 6)
  | tmovPortPort (d p : BitVec 6)
  | tmovPortS (p : BitVec 6) (n : BitVec 6)
  | tmovSPort (n : BitVec 6) (p : BitVec 6)
  -- palette triggers (R91, R273)
  | qntQ | qntQs | qntDq | qntAmax
  | trnE8 | trnE16 | trnE32 | trnE4
  | crcInit | crcV | crcS | crcFin
  | hshKey | hshNb | hshId | hshBkt
  | topK | topGo | topIdx | topClr
  -- scalar control words (R92)
  | sadd (h : Hcw) | ssub (h : Hcw) | smul (h : Hcw) | smulh (h : Hcw) | smulhu (h : Hcw)
  | sand (h : Hcw) | sor (h : Hcw) | sxor (h : Hcw) | sandn (h : Hcw)
  | sshl (h : Hcw) | sshr (h : Hcw) | ssar (h : Hcw)
  | smin (h : Hcw) | smax (h : Hcw) | sminu (h : Hcw) | smaxu (h : Hcw)
  | sclz (h : Hcw) | sctz (h : Hcw) | spopc (h : Hcw)
  | ssel (h : Hcw) | sli (h : Hcw) | smov (h : Hcw) | sext (h : Hcw)
  | scmp (h : Hcw) | sqop (h : Hcw) | sgetc (h : Hcw) | ssetc (h : Hcw) | slget (h : Hcw)
  -- vector control words (R94)
  | vadd (h : Hcw) | vsub (h : Hcw) | vmul (h : Hcw) | vfma (h : Hcw) | vfms (h : Hcw)
  | vmin (h : Hcw) | vmax (h : Hcw) | vminn (h : Hcw) | vmaxn (h : Hcw)
  | vabs (h : Hcw) | vneg (h : Hcw) | vcvt (h : Hcw)
  | vand (h : Hcw) | vor (h : Hcw) | vxor (h : Hcw)
  | vshl (h : Hcw) | vshr (h : Hcw) | vsar (h : Hcw)
  | vcmp (h : Hcw) | vsel (h : Hcw)
  | mpush (h : Hcw) | minv (h : Hcw) | mpop (h : Hcw)
  | vredsum (h : Hcw) | vredmax (h : Hcw) | vredmin (h : Hcw)
  | vbcast (h : Hcw) | vmov (h : Hcw) | vtrn (h : Hcw) | vrot (h : Hcw)
  | vfrexp (h : Hcw) | vldexp (h : Hcw) | vmacw (h : Hcw) | vpopq (h : Hcw)
  -- the remaining events
  | resultLands (t : Nat)
  | hostPortLinkTraining
  | frameNotTaken (port : Nat) (src : BitVec 8) (why : FrameFate)
deriving DecidableEq, Repr

end Sys2Proof
end

