-- ==== Sys2Proof/WellFormed.lean ====
section
/-! DEFINITION. Which terms of Instr stand for an operation of the hardware: the operand limits of
spec 04 (R78-R95), the field rules of a control word (R58, R92-R95), and for an event the range of the
unit it names. -/

namespace Sys2Proof

/-- What a register field of a control word names (R92, R94). -/
inductive FieldUse where
  | none | s | v | q | cc | table
deriving DecidableEq, Repr

/-- How a control word uses immediate A (R92, R94). -/
inductive ImmUse where
  | src2      -- only as source 2, with imm
  | value     -- sli: any value, imm 0
  | creg      -- sgetc, ssetc: [7:0] a control register
  | width     -- sext: source 2, and 1-64 with imm
  | rot       -- vrot: source 2, and 0-1023 with imm
  | fmt       -- vcvt: [7:0] the source format
  | sel       -- vfrexp: [0]
  | dq        -- vpopq: [1:0]
deriving DecidableEq, Repr

/-- One row of the tables of R92 and R94. -/
structure HcwRow where
  cls : BitVec 4
  op : BitVec 8
  dst : FieldUse
  src1 : FieldUse
  src2 : FieldUse
  src3 : FieldUse
  mI : Bool := false
  mS : Bool := false
  mU : Bool := false
  mR : Bool := false
  uNeedsS : Bool := false
  immUse : ImmUse := .src2
  fmtUse : Bool := true
deriving DecidableEq, Repr

/-- The row of a class-1 opcode (R92). -/
def sRow (op : BitVec 8) (dst src1 src2 src3 : FieldUse) : HcwRow :=
  { cls := 1, op := op, dst := dst, src1 := src1, src2 := src2, src3 := src3, fmtUse := false }

/-- The row of a class-2 opcode (R94). -/
def vRow (op : BitVec 8) (dst src1 src2 src3 : FieldUse) : HcwRow :=
  { cls := 2, op := op, dst := dst, src1 := src1, src2 := src2, src3 := src3 }

/-- The control word an operation of the S or V slot is issued from, or none for any other term. -/
def Instr.hcw : Instr → Option Hcw
  | .sadd h | .ssub h | .smul h | .smulh h | .smulhu h | .sand h | .sor h | .sxor h | .sandn h
  | .sshl h | .sshr h | .ssar h | .smin h | .smax h | .sminu h | .smaxu h | .sclz h | .sctz h
  | .spopc h | .ssel h | .sli h | .smov h | .sext h | .scmp h | .sqop h | .sgetc h | .ssetc h
  | .slget h => some h
  | .vadd h | .vsub h | .vmul h | .vfma h | .vfms h | .vmin h | .vmax h | .vminn h | .vmaxn h
  | .vabs h | .vneg h | .vcvt h | .vand h | .vor h | .vxor h | .vshl h | .vshr h | .vsar h
  | .vcmp h | .vsel h | .mpush h | .minv h | .mpop h | .vredsum h | .vredmax h | .vredmin h
  | .vbcast h | .vmov h | .vtrn h | .vrot h | .vfrexp h | .vldexp h | .vmacw h | .vpopq h => some h
  | _ => none

/-- The row of R92 or R94 that an operation of the S or V slot has. -/
def Instr.row : Instr → Option HcwRow
  | .sadd _ => some { sRow 0x01 .s .s .s .none with mI := true, mS := true, mU := true, uNeedsS := true }
  | .ssub _ => some { sRow 0x02 .s .s .s .none with mI := true, mS := true, mU := true, uNeedsS := true }
  | .smul _ => some { sRow 0x03 .s .s .s .none with mI := true, mS := true, mU := true, uNeedsS := true }
  | .smulh _ => some { sRow 0x04 .s .s .s .none with mI := true, mU := true }
  | .smulhu _ => some { sRow 0x05 .s .s .s .none with mI := true }
  | .sand _ => some { sRow 0x08 .s .s .s .none with mI := true }
  | .sor _ => some { sRow 0x09 .s .s .s .none with mI := true }
  | .sxor _ => some { sRow 0x0A .s .s .s .none with mI := true }
  | .sandn _ => some { sRow 0x0B .s .s .s .none with mI := true }
  | .sshl _ => some { sRow 0x0C .s .s .s .none with mI := true, mS := true, mU := true, uNeedsS := true }
  | .sshr _ => some { sRow 0x0D .s .s .s .none with mI := true }
  | .ssar _ => some { sRow 0x0E .s .s .s .none with mI := true, mU := true }
  | .smin _ => some { sRow 0x10 .s .s .s .none with mI := true, mU := true }
  | .smax _ => some { sRow 0x11 .s .s .s .none with mI := true, mU := true }
  | .sminu _ => some { sRow 0x12 .s .s .s .none with mI := true }
  | .smaxu _ => some { sRow 0x13 .s .s .s .none with mI := true }
  | .sclz _ => some (sRow 0x14 .s .s .none .none)
  | .sctz _ => some (sRow 0x15 .s .s .none .none)
  | .spopc _ => some (sRow 0x16 .s .s .none .none)
  | .ssel _ => some { sRow 0x18 .s .s .s .q with mI := true }
  | .sli _ => some { sRow 0x19 .s .none .none .none with immUse := .value }
  | .smov _ => some (sRow 0x1A .s .s .none .none)
  | .sext _ => some { sRow 0x1B .s .s .s .none with mI := true, immUse := .width }
  | .scmp _ => some { sRow 0x20 .q .s .s .cc with mI := true }
  | .sqop _ => some (sRow 0x21 .q .q .q .table)
  | .sgetc _ => some { sRow 0x28 .s .none .none .none with immUse := .creg }
  | .ssetc _ => some { sRow 0x29 .none .s .none .none with immUse := .creg }
  | .slget _ => some (sRow 0x2A .s .none .none .none)
  | .vadd _ => some { vRow 0x01 .v .v .v .none with mI := true, mR := true, mS := true, mU := true }
  | .vsub _ => some { vRow 0x02 .v .v .v .none with mI := true, mR := true, mS := true, mU := true }
  | .vmul _ => some { vRow 0x03 .v .v .v .none with mI := true, mR := true, mS := true, mU := true }
  | .vfma _ => some { vRow 0x04 .v .v .v .v with mR := true, mS := true }
  | .vfms _ => some { vRow 0x05 .v .v .v .v with mR := true, mS := true }
  | .vmin _ => some { vRow 0x06 .v .v .v .none with mI := true, mU := true }
  | .vmax _ => some { vRow 0x07 .v .v .v .none with mI := true, mU := true }
  | .vminn _ => some { vRow 0x08 .v .v .v .none with mI := true }
  | .vmaxn _ => some { vRow 0x09 .v .v .v .none with mI := true }
  | .vabs _ => some { vRow 0x0A .v .v .none .none with mS := true }
  | .vneg _ => some { vRow 0x0B .v .v .none .none with mS := true }
  | .vcvt _ => some { vRow 0x0C .v .v .none .none with mR := true, mS := true, immUse := .fmt }
  | .vand _ => some { vRow 0x10 .v .v .v .none with mI := true }
  | .vor _ => some { vRow 0x11 .v .v .v .none with mI := true }
  | .vxor _ => some { vRow 0x12 .v .v .v .none with mI := true }
  | .vshl _ => some { vRow 0x13 .v .v .v .none with mI := true, mS := true, mU := true }
  | .vshr _ => some { vRow 0x14 .v .v .v .none with mI := true }
  | .vsar _ => some { vRow 0x15 .v .v .v .none with mI := true }
  | .vcmp _ => some { vRow 0x18 .v .v .v .cc with mI := true }
  | .vsel _ => some (vRow 0x19 .v .v .v .v)
  | .mpush _ => some (vRow 0x1A .none .v .none .none)
  | .minv _ => some { vRow 0x1B .none .none .none .none with fmtUse := false }
  | .mpop _ => some { vRow 0x1C .none .none .none .none with fmtUse := false }
  | .vredsum _ => some { vRow 0x20 .v .v .none .none with mR := true }
  | .vredmax _ => some (vRow 0x21 .v .v .none .none)
  | .vredmin _ => some (vRow 0x22 .v .v .none .none)
  | .vbcast _ => some (vRow 0x24 .v .s .none .none)
  | .vmov _ => some (vRow 0x25 .v .v .none .none)
  | .vtrn _ => some (vRow 0x26 .v .v .none .none)
  | .vrot _ => some { vRow 0x27 .v .v .s .none with mI := true, immUse := .rot }
  | .vfrexp _ => some { vRow 0x28 .v .v .none .none with immUse := .sel }
  | .vldexp _ => some { vRow 0x29 .v .v .v .none with mR := true }
  | .vmacw _ => some { vRow 0x2A .v .v .v .none with mS := true, mU := true }
  | .vpopq _ => some { vRow 0x2B .v .none .none .none with immUse := .dq, fmtUse := false }
  | _ => none

/-- A register field is in the range its use allows (R58, R92, R94). -/
def FieldUse.ok (u : FieldUse) (f : BitVec 6) : Bool :=
  match u with
  | .none => f == 0
  | .s => true
  | .v => f.extractLsb' 5 1 == 0
  | .q => f.extractLsb' 3 3 == 0
  | .cc => decide (f.toNat < 6)
  | .table => f.extractLsb' 4 2 == 0

/-- A relocation flag may be set only for a field that names a register (R58). -/
def FieldUse.relocOk (u : FieldUse) (flag : Bool) : Bool :=
  match u with
  | .none | .cc | .table => !flag
  | .s | .v | .q => true

/-- The control register numbers of R93. -/
def cregNumber (n : Nat) : Bool :=
  decide (n ≤ 0x0E) || (decide (0x10 ≤ n) && decide (n ≤ 0x1B))

/-- Immediate A is what the opcode and imm allow (R92, R94); the width of a replicated immediate of a
vector operation is checked at issue, where the format is known. -/
def ImmUse.ok (u : ImmUse) (imm : Bool) (a : BitVec 64) : Bool :=
  match u with
  | .src2 => imm || a == 0
  | .value => !imm
  | .creg => !imm && a.extractLsb' 8 56 == 0 && cregNumber (a.extractLsb' 0 8).toNat
  | .width => if imm then decide (1 ≤ a.toNat) && decide (a.toNat ≤ 64) else a == 0
  | .rot => if imm then decide (a.toNat ≤ 1023) else a == 0
  | .fmt => !imm && a.extractLsb' 8 56 == 0
  | .sel => !imm && a.extractLsb' 1 63 == 0
  | .dq => !imm && a.extractLsb' 2 62 == 0

/-- The checks of R58, R92, R94 and R95 on one control word, for the row of its opcode; everything that
does not depend on `cr.vshape`. -/
def Hcw.ok (h : Hcw) (r : HcwRow) : Bool :=
  (r.mI || !h.imm) && (r.mS || !h.sat) && (r.mU || !h.uns) && (!r.uNeedsS || h.sat || !h.uns)
  && (if r.mR then decide (h.round.toNat ≤ 5) else h.round == 0)
  && r.dst.ok h.dst && r.src1.ok h.src1
  && (if h.imm then h.src2 == 0 else r.src2.ok h.src2) && r.src3.ok h.src3
  && r.dst.relocOk (h.reloc.getLsbD 3) && r.src1.relocOk (h.reloc.getLsbD 2)
  && (if h.imm then !h.reloc.getLsbD 1 else r.src2.relocOk (h.reloc.getLsbD 1))
  && r.src3.relocOk (h.reloc.getLsbD 0)
  && (r.fmtUse || (h.fmt == 0 && h.shape == 0))
  && (h.pen || (h.pq == 0 && !h.psense))
  && r.immUse.ok h.imm h.immA

/-- A palette port that exists (R90). -/
def portExists (p : BitVec 6) : Bool := decide (p.toNat < 0x28)

/-- A port that a `tmov` may write: offsets +0 to +5 (R90). -/
def portWritable (p : BitVec 6) : Bool := portExists p && decide ((p.extractLsb' 0 3).toNat < 6)

/-- A port that a `tmov` may read: offsets +6 and +7 (R90). -/
def portReadable (p : BitVec 6) : Bool := portExists p && decide (6 ≤ (p.extractLsb' 0 3).toNat)

/-- The T-slot forms name only ports of the right direction (R90). -/
def Instr.portsOk : Instr → Bool
  | .tmovPortV p _ => portWritable p
  | .tmovVPort _ p => portReadable p
  | .tmovPortPort d p => portWritable d && portReadable p
  | .tmovPortS p _ => portWritable p
  | .tmovSPort _ p => portReadable p
  | _ => true

/-- The limits of the direct-slot operand fields (R79-R88): what the decoder refuses with
OPCODE_UNDEFINED. -/
def Instr.fieldsOk : Instr → Bool
  | .lmark n len => decide (1 ≤ len.toNat) && decide (len.toNat ≤ 64) && n != 0
  | .lmarkImm _ len => decide (1 ≤ len.toNat) && decide (len.toNat ≤ 64)
  | .inj slot k d step => decide (slot.toNat ≤ 8) && k != 0 && d != 0 && step != 0
  | .chset _ n => n != 0
  | .ld _ _ sz signed _ => !(signed && sz == .d)
  | .cwait _ _ m _ => decide (m.toNat ≤ 62)
  | .amo op _ _ _ n => !(op == .cas && n == 63)
  | .amoc op _ _ _ n => op != .cas && decide (n.toNat ≤ 62)
  | _ => true

/-- A physical tile number (R7). -/
def tileOk (t : Nat) : Bool := decide (t < Config.physTiles)

/-- The units an event names exist (R7, R127, R219, R295). -/
def Instr.unitsOk : Instr → Bool
  | .bundleIssue t | .delayedStart t | .sealComparison t | .orderPoint t | .blockReplay t
  | .blockRerun t | .tileRetirement t | .stashFill t | .cwaitReply t | .cwaitRetry t
  | .preemptForced t | .watchdogExpiry t | .relRelease t | .mmaExecute t | .mzeroExecute t
  | .mloadExecute t | .mdrainExecute t | .drainEntryFill t | .peerAdditionApply t | .peerAck t
  | .chainStep t | .pairTimeout t | .resultLands t => tileOk t
  | .taskPick t _ | .millBlockPush t _ | .millBlockPull t _ => tileOk t
  | .engineInstanceFailure t _ u => tileOk t && decide (u.toNat < 3)
  | .lineRecall l | .eccUncorrectable l => decide (l < 2 ^ 45)
  | .launchQueueDrain sl p => decide (sl < 256) && decide (p < 8)
  | .copyChunk (.tile t) => tileOk t
  | .copyChunk (.cp q) => decide (q < 8)
  | .patrolScrub d ls => decide (d < 8) && ls.all fun l => decide (l < 2 ^ 45)
  | .reductionChunk d | .wcTimeout d _
  | .engineInternalError d _ => decide (d < 8)
  | .launch q n | .launchStartRelease q n | .graph q n | .counterAdd q n | .counterWait q n
  | .counterWaitRelease q n | .copy q n | .fencePacket q n | .ttLoad q n | .ttStart q n
  | .ttStop q n | .ttSwap q n | .ttRead q n | .notifyWrite q n _ | .queueResume q n =>
      decide (q < 8) && decide (n < 64)
  | .graphNodeComplete q _ _ | .tlbInvalidate q | .tlbInvalidateDone q | .resumeHalted q _
  | .abandonHalted q _ => decide (q < 8)
  | .wcPartialWrite p _ _ _ _ | .frameStart p | .launchComplete p _ | .mergeRoundOpen p | .mergeRoundClose p | .partitionHalt p
  | .partitionResume p | .partitionFence p | .partitionReset p => decide (p < 8)
  | .revive p _ => decide (p < 8)
  | .selfTest bad => bad.all fun b => tileOk b.tile && decide (b.unit.toNat < 3)
  | .powerCapAdjust (.tile t) _ => tileOk t
  | .powerCapAdjust (.l2 q) p | .powerCapAdjust (.base q) p =>
      decide (q < 8) && (p == .p1750 || p == .p1400)
  | .channelEnable p c | .channelDisable p c | .messageSend p c => decide (p < 16) && decide (c < 32)
  | .data p _ _ | .ack p _ _ | .credit p _ _ _ _ | .pair p _ _ _ | .ackTimer p | .resendTimeout p
  | .linkTraining p | .linkDown p | .frameNotTaken p _ _ => decide (p < 16)
  | .ptpMessage p _ => decide (p ≤ 1)
  | .registerWrite off _ _ _ => decide (off < 2 ^ 52)
  | _ => true

/-- The term stands for an operation or event of the hardware. -/
def Instr.wf (i : Instr) : Bool :=
  (match i.hcw, i.row with
   | some h, some r => h.ok r
   | _, _ => true)
  && i.fieldsOk && i.portsOk && i.unitsOk

end Sys2Proof
end

