-- ==== Sys2Proof/Decode.lean ====
section
/-! DEFINITION. The decoder of the direct slots, of the syllables and of the control words, total on any
bits and rejecting by the cause of R76; after it the encoder, written from the same tables. -/

namespace Sys2Proof

/-! ### Fields -/

/-- The `len` bits of a slot word from bit `lo`. -/
abbrev fld (w : Word32) (lo len : Nat) : BitVec len := w.extractLsb' lo len

/-- The `len` bits from bit `lo` are zero (R77). -/
def zeroBits (w : Word32) (lo len : Nat) : Bool := w.extractLsb' lo len == 0#len

/-- An operation whose word has the required zero bits, or OPCODE_UNDEFINED (R77). -/
def needs (ok : Bool) (i : Instr) : Except Cause Instr :=
  if ok then .ok i else .error .opcodeUndefined

/-! ### The direct slots -/

/-- The C slot (R79, R80, R180). -/
def decodeC (w : Word32) : Except Cause Instr :=
  match fld w 26 6 with
  | 0x00#6 => needs (zeroBits w 0 26) .nop
  | 0x01#6 => needs true (.bprep (fld w 23 3) (fld w 0 23))
  | 0x02#6 => needs (zeroBits w 0 17) (.bprepi (fld w 17 3) (fld w 20 6))
  | 0x03#6 =>
    let b := fld w 23 3
    let q := fld w 20 3
    needs (zeroBits w 0 19) (if fld w 19 1 == 0 then .xfer b q else .xferF b q)
  | 0x04#6 =>
    let b := fld w 23 3
    let u : MaskUnit := if fld w 18 1 == 0 then .va else .vb
    needs (zeroBits w 20 3 && zeroBits w 0 18) (if fld w 19 1 == 0 then .xferMz b u else .xferMnz b u)
  | 0x05#6 => needs (zeroBits w 0 23) (.call (fld w 23 3))
  | 0x06#6 =>
    if fld w 20 6 == 0 then
      needs (Instr.fieldsOk (.lmarkImm (fld w 8 12) (fld w 0 8))) (.lmarkImm (fld w 8 12) (fld w 0 8))
    else
      needs (zeroBits w 8 12 && Instr.fieldsOk (.lmark (fld w 20 6) (fld w 0 8)))
        (.lmark (fld w 20 6) (fld w 0 8))
  | 0x07#6 => needs (zeroBits w 16 4) (.ilock (fld w 20 6) (fld w 0 16))
  | 0x08#6 => needs (zeroBits w 16 4) (.iunlock (fld w 20 6) (fld w 0 16))
  | 0x09#6 => needs (zeroBits w 20 6) (.wait (fld w 15 5) (fld w 10 5) (fld w 5 5) (fld w 0 5))
  | 0x0A#6 => needs (zeroBits w 20 6) (.rel (fld w 0 20))
  | 0x0B#6 => needs (zeroBits w 0 26) .done
  | 0x0C#6 => needs (zeroBits w 0 26) .yield
  | 0x0D#6 => needs (zeroBits w 8 18) (.trap (fld w 0 8))
  | 0x0E#6 => needs (zeroBits w 16 10) (.brk (fld w 0 16))
  | 0x0F#6 =>
    let i := Instr.inj (fld w 20 6) (fld w 18 2) (fld w 10 8) (fld w 0 6)
    needs (zeroBits w 6 4 && i.fieldsOk) i
  | _ => .error .opcodeUndefined

/-- The M slot (R81). -/
def decodeM (w : Word32) : Except Cause Instr :=
  match fld w 26 6 with
  | 0x01#6 => needs true (.mma (fld w 23 3) (fld w 13 10) (fld w 3 10) (fld w 0 3))
  | 0x02#6 => needs (zeroBits w 0 23) (.mzero (fld w 23 3))
  | 0x03#6 => needs (zeroBits w 0 11) (.mdrain (fld w 23 3) (fld w 13 10) (fld w 11 2))
  | 0x04#6 => needs true (.mdrainRed (fld w 23 3) (fld w 13 10) (fld w 3 10) (fld w 0 3))
  | 0x05#6 => needs (zeroBits w 0 17) (.mload (fld w 23 3) (fld w 17 6))
  | 0x08#6 =>
    if fld w 16 6 == 0 then needs true (.chsetImm (fld w 22 4) (fld w 0 16))
    else needs (zeroBits w 0 16) (.chset (fld w 22 4) (fld w 16 6))
  | 0x09#6 => needs (zeroBits w 0 14) (.chrun (fld w 20 6) (fld w 14 6))
  | 0x0A#6 =>
    if fld w 13 1 == 0 then needs (zeroBits w 14 6 && zeroBits w 0 13) (.chstep (fld w 20 6))
    else needs (zeroBits w 0 13) (.chstepPick (fld w 20 6) (fld w 14 6))
  | _ => .error .opcodeUndefined

/-- The size codes of R83. -/
def decodeSize (c : BitVec 3) : Option MemSize :=
  match c with
  | 0b000#3 => some .b
  | 0b001#3 => some .h
  | 0b010#3 => some .w
  | 0b011#3 => some .d
  | _ => none

/-- The L slot (R83). -/
def decodeL (w : Word32) : Except Cause Instr :=
  match fld w 26 6 with
  | 0x01#6 =>
    match decodeSize (fld w 11 3) with
    | some sz =>
      let i := Instr.ld (fld w 20 6) (fld w 14 6) sz (fld w 10 1 == 1) (fld w 0 10)
      needs i.fieldsOk i
    | none => .error .opcodeUndefined
  | 0x02#6 =>
    match decodeSize (fld w 11 3) with
    | some sz => needs (zeroBits w 10 1) (.st (fld w 20 6) (fld w 14 6) sz (fld w 0 10))
    | none => .error .opcodeUndefined
  | 0x03#6 => needs (zeroBits w 0 9) (.vld (fld w 21 5) (fld w 15 6) (fld w 9 6))
  | 0x04#6 => needs (zeroBits w 0 9) (.vst (fld w 21 5) (fld w 15 6) (fld w 9 6))
  | 0x05#6 => needs (zeroBits w 0 8) (.stq (fld w 24 2) (fld w 14 10) (fld w 8 6))
  | 0x06#6 => needs (zeroBits w 0 17) (.racq (fld w 20 6) (fld w 17 3))
  | 0x07#6 => needs (zeroBits w 20 6 && zeroBits w 0 17) (.rpub (fld w 17 3))
  | 0x08#6 => needs (zeroBits w 0 17) (.rget (fld w 20 6) (fld w 17 3))
  | 0x09#6 => needs (zeroBits w 20 6 && zeroBits w 0 17) (.rrel (fld w 17 3))
  | 0x0A#6 => needs (zeroBits w 20 6) (.sflush (fld w 14 6) (fld w 0 14))
  | 0x0B#6 => needs (zeroBits w 20 6) (.sinv (fld w 14 6) (fld w 0 14))
  | _ => .error .opcodeUndefined

/-- The operations of R85. -/
def decodeAmoOp (c : BitVec 4) : Option AmoOp :=
  match c with
  | 0#4 => some .add
  | 1#4 => some .min
  | 2#4 => some .max
  | 3#4 => some .minu
  | 4#4 => some .maxu
  | 5#4 => some .band
  | 6#4 => some .bor
  | 7#4 => some .bxor
  | 8#4 => some .swap
  | 9#4 => some .cas
  | _ => none

/-- The conditions of R86. -/
def decodeCond (c : Nat) : Option Cond :=
  match c with
  | 0 => some .eq
  | 1 => some .ne
  | 2 => some .lt
  | 3 => some .ge
  | 4 => some .ltu
  | 5 => some .geu
  | _ => none

/-- The D slot (R84, R85, R88). -/
def decodeD (w : Word32) : Except Cause Instr :=
  match fld w 26 6 with
  | 0x01#6 => needs true (.cpy (fld w 16 10) (fld w 6 10) (fld w 0 6))
  | 0x02#6 => needs (zeroBits w 0 7) (.msub (fld w 23 3) (fld w 13 10) (fld w 7 6))
  | 0x03#6 => needs (zeroBits w 0 7) (.mret (fld w 23 3) (fld w 13 10) (fld w 7 6))
  | 0x04#6 =>
    if fld w 13 1 == 0 then needs (zeroBits w 0 13) (.cadd (fld w 20 6) (fld w 14 6))
    else needs (zeroBits w 14 6) (.caddImm (fld w 20 6) (fld w 0 13))
  | 0x05#6 =>
    let i := Instr.cwait (fld w 20 6) (fld w 14 6) (fld w 8 6) (fld w 5 3)
    needs (zeroBits w 0 5 && i.fieldsOk) i
  | 0x06#6 => needs (zeroBits w 0 14) (.cread (fld w 20 6) (fld w 14 6))
  | 0x07#6 =>
    match decodeAmoOp (fld w 4 4) with
    | some op =>
      let i := Instr.amo op (fld w 2 1 == 1) (fld w 20 6) (fld w 14 6) (fld w 8 6)
      needs (zeroBits w 3 1 && zeroBits w 0 2 && i.fieldsOk) i
    | none => .error .opcodeUndefined
  | 0x08#6 =>
    match decodeAmoOp (fld w 4 4), decodeCond (fld w 0 4).toNat with
    | some op, some cc =>
      let i := Instr.amoc op cc (fld w 20 6) (fld w 14 6) (fld w 8 6)
      needs i.fieldsOk i
    | _, _ => .error .opcodeUndefined
  | 0x09#6 => needs (zeroBits w 0 14) (.mred (fld w 20 6) (fld w 14 6))
  | 0x0A#6 => needs (zeroBits w 0 14) (.fence (fld w 20 6) (fld w 14 6))
  | 0x0B#6 => needs (zeroBits w 0 20) (.spawn (fld w 20 6))
  | 0x0C#6 => needs (zeroBits w 16 10) (.join (fld w 0 16))
  | 0x0D#6 => needs (zeroBits w 16 10) (.leave (fld w 0 16))
  | 0x0E#6 => needs (zeroBits w 0 10) (.tdef (fld w 16 10) (fld w 10 6))
  | 0x0F#6 => needs (zeroBits w 0 16) (.tdrop (fld w 16 10))
  | 0x10#6 => needs (zeroBits w 0 4) (.nsend (fld w 21 5) (fld w 16 5) (fld w 10 6) (fld w 4 6))
  | 0x11#6 => needs (zeroBits w 0 4) (.nrecv (fld w 21 5) (fld w 16 5) (fld w 10 6) (fld w 4 6))
  | 0x12#6 => needs (zeroBits w 0 14) (.nsendq (fld w 21 5) (fld w 16 5) (fld w 14 2))
  | _ => .error .opcodeUndefined

/-- A 6-bit field that names a vector register has bit 5 clear (R78). -/
def vField (f : BitVec 6) : Bool := f.extractLsb' 5 1 == 0#1

/-- A form of the T slot: its unused bits and v field first (OPCODE_UNDEFINED), then its ports
(TRANSFORM_PORT), in the order of R76. -/
def needsPorts (ok : Bool) (i : Instr) : Except Cause Instr :=
  if !ok then .error .opcodeUndefined
  else if !i.portsOk then .error .transformPort
  else .ok i

/-- The T slot (R89, R90). -/
def decodeT (w : Word32) : Except Cause Instr :=
  match fld w 26 6 with
  | 0x01#6 => needsPorts (zeroBits w 0 14 && vField (fld w 14 6)) (.tmovPortV (fld w 20 6) (fld w 14 5))
  | 0x02#6 => needsPorts (zeroBits w 0 14 && vField (fld w 20 6)) (.tmovVPort (fld w 20 5) (fld w 14 6))
  | 0x03#6 => needsPorts (zeroBits w 0 14) (.tmovPortPort (fld w 20 6) (fld w 14 6))
  | 0x04#6 => needsPorts (zeroBits w 0 14) (.tmovPortS (fld w 20 6) (fld w 14 6))
  | 0x05#6 => needsPorts (zeroBits w 0 14) (.tmovSPort (fld w 20 6) (fld w 14 6))
  | _ => .error .opcodeUndefined

/-! ### Control words -/

/-- The class-1 opcodes of R92. -/
def scalarOp (op : BitVec 8) (h : Hcw) : Option Instr :=
  match op with
  | 0x01#8 => some (.sadd h)
  | 0x02#8 => some (.ssub h)
  | 0x03#8 => some (.smul h)
  | 0x04#8 => some (.smulh h)
  | 0x05#8 => some (.smulhu h)
  | 0x08#8 => some (.sand h)
  | 0x09#8 => some (.sor h)
  | 0x0A#8 => some (.sxor h)
  | 0x0B#8 => some (.sandn h)
  | 0x0C#8 => some (.sshl h)
  | 0x0D#8 => some (.sshr h)
  | 0x0E#8 => some (.ssar h)
  | 0x10#8 => some (.smin h)
  | 0x11#8 => some (.smax h)
  | 0x12#8 => some (.sminu h)
  | 0x13#8 => some (.smaxu h)
  | 0x14#8 => some (.sclz h)
  | 0x15#8 => some (.sctz h)
  | 0x16#8 => some (.spopc h)
  | 0x18#8 => some (.ssel h)
  | 0x19#8 => some (.sli h)
  | 0x1A#8 => some (.smov h)
  | 0x1B#8 => some (.sext h)
  | 0x20#8 => some (.scmp h)
  | 0x21#8 => some (.sqop h)
  | 0x28#8 => some (.sgetc h)
  | 0x29#8 => some (.ssetc h)
  | 0x2A#8 => some (.slget h)
  | _ => none

/-- The class-2 opcodes of R94. -/
def vectorOp (op : BitVec 8) (h : Hcw) : Option Instr :=
  match op with
  | 0x01#8 => some (.vadd h)
  | 0x02#8 => some (.vsub h)
  | 0x03#8 => some (.vmul h)
  | 0x04#8 => some (.vfma h)
  | 0x05#8 => some (.vfms h)
  | 0x06#8 => some (.vmin h)
  | 0x07#8 => some (.vmax h)
  | 0x08#8 => some (.vminn h)
  | 0x09#8 => some (.vmaxn h)
  | 0x0A#8 => some (.vabs h)
  | 0x0B#8 => some (.vneg h)
  | 0x0C#8 => some (.vcvt h)
  | 0x10#8 => some (.vand h)
  | 0x11#8 => some (.vor h)
  | 0x12#8 => some (.vxor h)
  | 0x13#8 => some (.vshl h)
  | 0x14#8 => some (.vshr h)
  | 0x15#8 => some (.vsar h)
  | 0x18#8 => some (.vcmp h)
  | 0x19#8 => some (.vsel h)
  | 0x1A#8 => some (.mpush h)
  | 0x1B#8 => some (.minv h)
  | 0x1C#8 => some (.mpop h)
  | 0x20#8 => some (.vredsum h)
  | 0x21#8 => some (.vredmax h)
  | 0x22#8 => some (.vredmin h)
  | 0x24#8 => some (.vbcast h)
  | 0x25#8 => some (.vmov h)
  | 0x26#8 => some (.vtrn h)
  | 0x27#8 => some (.vrot h)
  | 0x28#8 => some (.vfrexp h)
  | 0x29#8 => some (.vldexp h)
  | 0x2A#8 => some (.vmacw h)
  | 0x2B#8 => some (.vpopq h)
  | _ => none

/-- The free fields of a control word (R58). -/
def hcwFields (w : Word256) : Hcw :=
  { imm := w.extractLsb' 243 1 == 1#1
    round := w.extractLsb' 240 3
    sat := w.extractLsb' 239 1 == 1#1
    uns := w.extractLsb' 238 1 == 1#1
    dst := w.extractLsb' 230 6
    src1 := w.extractLsb' 224 6
    src2 := w.extractLsb' 218 6
    src3 := w.extractLsb' 212 6
    reloc := w.extractLsb' 208 4
    fmt := w.extractLsb' 200 8
    shape := w.extractLsb' 192 8
    pen := w.extractLsb' 191 1 == 1#1
    pq := w.extractLsb' 188 3
    psense := w.extractLsb' 187 1 == 1#1
    immA := w.extractLsb' 0 64 }

/-- A control word of class 1 or 2 (R58, R92, R94, R95). Class 0 is HCW_EMPTY; an unassigned opcode or
a field out of its rule is OPCODE_UNDEFINED. -/
def decodeHcw (w : Word256) : Except Cause Instr :=
  let h := hcwFields w
  let found :=
    match w.extractLsb' 252 4 with
    | 1#4 => scalarOp (w.extractLsb' 244 8) h
    | 2#4 => vectorOp (w.extractLsb' 244 8) h
    | _ => none
  if w.extractLsb' 252 4 == 0#4 then .error .hcwEmpty
  else
    match found with
    | some i =>
      match i.row with
      | some r =>
        if w.extractLsb' 236 2 == 0#2 && w.extractLsb' 128 59 == 0#59 && w.extractLsb' 64 64 == 0#64
            && h.ok r then .ok i
        else .error .opcodeUndefined
      | none => .error .opcodeUndefined
    | none => .error .opcodeUndefined

/-- The class of a decoded control word: 1 scalar, 2 vector, 0 for a term that is neither. -/
def Instr.cls (i : Instr) : BitVec 4 :=
  match i.row with
  | some r => r.cls
  | none => 0

/-- A control word issued from an S syllable must be of class 1, from a V syllable of class 2 (R56). -/
def decodeSyllableHcw (cls : BitVec 4) (w : Word256) : Except Cause Instr :=
  match decodeHcw w with
  | .ok i => if i.cls == cls then .ok i else .error .opcodeUndefined
  | .error c => .error c

/-! ### Syllables, headers and seals -/

/-- A syllable that issues: the table index and the rotation (R56). -/
structure Syllable where
  index : BitVec 9
  rot : BitVec 5
deriving DecidableEq, Repr

/-- A syllable: none where it is empty (R56, R77). -/
def decodeSyllable (w : BitVec 16) : Except Cause (Option Syllable) :=
  match w.extractLsb' 14 2 with
  | 0b00#2 => if w.extractLsb' 0 14 == 0#14 then .ok none else .error .syllableKind
  | 0b01#2 => .ok (some ⟨w.extractLsb' 5 9, w.extractLsb' 0 5⟩)
  | _ => .error .syllableKind

/-- The header of a bundle (R47). -/
structure Header where
  stall : BitVec 4
  pmark : Bool
  eob : Bool
  presC : Bool
  presS : Bool
  presV : Bool
  presM : Bool
  presL : Bool
  presD : Bool
  presT : Bool
  dlyM : BitVec 2
  dlyL : BitVec 2
  dlyD : BitVec 2
  dlyT : BitVec 2
deriving DecidableEq, Repr

/-- The header word's fields (R47). -/
def headerOf (w : Word32) : Header :=
  { stall := fld w 28 4, pmark := fld w 27 1 == 1, eob := fld w 26 1 == 1
    presC := fld w 24 1 == 1, presS := fld w 23 1 == 1, presV := fld w 22 1 == 1
    presM := fld w 21 1 == 1, presL := fld w 20 1 == 1, presD := fld w 19 1 == 1
    presT := fld w 18 1 == 1
    dlyM := fld w 16 2, dlyL := fld w 14 2, dlyD := fld w 12 2, dlyT := fld w 10 2 }

/-- The greatest start delay of a bundle (R68). -/
def Header.maxDelay (h : Header) : Nat :=
  max (max h.dlyM.toNat h.dlyL.toNat) (max h.dlyD.toNat h.dlyT.toNat)

/-- The slot words of a bundle (R46). -/
def bundleWord (b : Word256) (s : Slot) : Word32 :=
  match s with
  | .c => b.extractLsb' 192 32
  | .sa | .sb => b.extractLsb' 160 32
  | .va | .vb => b.extractLsb' 128 32
  | .m => b.extractLsb' 96 32
  | .l => b.extractLsb' 64 32
  | .d => b.extractLsb' 32 32
  | .t => b.extractLsb' 0 32

/-- The header word of a bundle (R46). -/
def headerWord (b : Word256) : Word32 := b.extractLsb' 224 32

/-- The requirements of R47 and of R48 on absent slots; `brk` with a stall is BUNDLE_RESERVED too. -/
def bundleReservedOk (b : Word256) : Bool :=
  let w := headerWord b
  let h := headerOf w
  zeroBits w 25 1 && zeroBits w 0 10
  && (h.presM || h.dlyM == 0) && (h.presL || h.dlyL == 0)
  && (h.presD || h.dlyD == 0) && (h.presT || h.dlyT == 0)
  && (h.presC || bundleWord b .c == 0) && (h.presS || bundleWord b .sa == 0)
  && (h.presV || bundleWord b .va == 0) && (h.presM || bundleWord b .m == 0)
  && (h.presL || bundleWord b .l == 0) && (h.presD || bundleWord b .d == 0)
  && (h.presT || bundleWord b .t == 0)

/-- One direct slot (R48, R76): what its word decodes to. -/
def decodeSlot (sl : Slot) (w : Word32) : Except Cause Instr :=
  match sl with
  | .c => decodeC w
  | .m => decodeM w
  | .l => decodeL w
  | .d => decodeD w
  | .t => decodeT w
  | .sa | .sb | .va | .vb => .error .opcodeUndefined

/-- The seal bundle (R66). -/
structure Seal where
  fold : BitVec 64
  liveS : BitVec 64
  liveV : BitVec 32
  liveA : BitVec 8
  liveQ : BitVec 8
  digT : BitVec 16
  digF : BitVec 16
  len : BitVec 8
  sbound : BitVec 6
  smode : BitVec 2
  sfmt : BitVec 16
  low : BitVec 16
deriving DecidableEq, Repr

/-- The fields of a seal bundle (R66). -/
def sealOf (b : Word256) : Seal :=
  { fold := b.extractLsb' 192 64, liveS := b.extractLsb' 128 64, liveV := b.extractLsb' 96 32
    liveA := b.extractLsb' 88 8, liveQ := b.extractLsb' 80 8, digT := b.extractLsb' 64 16
    digF := b.extractLsb' 48 16, len := b.extractLsb' 40 8, sbound := b.extractLsb' 34 6
    smode := b.extractLsb' 32 2, sfmt := b.extractLsb' 16 16, low := b.extractLsb' 0 16 }

/-- The requirements of R66 that a seal keeps by itself. -/
def Seal.ok (s : Seal) : Bool :=
  decide (s.sbound.toNat ≤ 32) && s.smode != 3 && s.sfmt == 0x0002 && s.low == 0

/-! ### The encoder -/

/-- Where the bits of an instruction stand: a slot word, or a control word of the kernel's table. -/
inductive Code where
  | slot (sl : Slot) (w : Word32)
  | hcw (w : Word256)
deriving DecidableEq, Repr

/-- One bit of a field. -/
def bit (b : Bool) : BitVec 1 := if b then 1#1 else 0#1

/-- The size code of R83. -/
def MemSize.code : MemSize → BitVec 3
  | .b => 0 | .h => 1 | .w => 2 | .d => 3

/-- The operation code of R85. -/
def AmoOp.code : AmoOp → BitVec 4
  | .add => 0 | .min => 1 | .max => 2 | .minu => 3 | .maxu => 4 | .band => 5 | .bor => 6 | .bxor => 7
  | .swap => 8 | .cas => 9

/-- The condition code of R86. -/
def Cond.code : Cond → BitVec 4
  | .eq => 0 | .ne => 1 | .lt => 2 | .ge => 3 | .ltu => 4 | .geu => 5

/-- The unit bit of `xfer.mz` (R79). -/
def MaskUnit.bit : MaskUnit → BitVec 1
  | .va => 0 | .vb => 1

/-- The control word of an operation's row and fields (R58, R95). -/
def encodeHcw (r : HcwRow) (h : Hcw) : Word256 :=
  r.cls ++ r.op ++ bit h.imm ++ h.round ++ bit h.sat ++ bit h.uns ++ 0#2 ++ h.dst ++ h.src1 ++ h.src2
    ++ h.src3 ++ h.reloc ++ h.fmt ++ h.shape ++ bit h.pen ++ h.pq ++ bit h.psense ++ 0#59 ++ 0#64
    ++ h.immA

/-- The C-slot word of an operation (R79, R180). -/
def encodeC : Instr → Option Word32
  | .nop => some 0
  | .bprep b off => some (0x01#6 ++ b ++ off)
  | .bprepi b s => some (0x02#6 ++ s ++ b ++ 0#17)
  | .xfer b q => some (0x03#6 ++ b ++ q ++ 0#1 ++ 0#19)
  | .xferF b q => some (0x03#6 ++ b ++ q ++ 1#1 ++ 0#19)
  | .xferMz b u => some (0x04#6 ++ b ++ 0#3 ++ 0#1 ++ u.bit ++ 0#18)
  | .xferMnz b u => some (0x04#6 ++ b ++ 0#3 ++ 1#1 ++ u.bit ++ 0#18)
  | .call b => some (0x05#6 ++ b ++ 0#23)
  | .lmark n len => some (0x06#6 ++ n ++ 0#12 ++ len)
  | .lmarkImm c len => some (0x06#6 ++ 0#6 ++ c ++ len)
  | .ilock n lines => some (0x07#6 ++ n ++ 0#4 ++ lines)
  | .iunlock n lines => some (0x08#6 ++ n ++ 0#4 ++ lines)
  | .wait ld st cp mx => some (0x09#6 ++ 0#6 ++ ld ++ st ++ cp ++ mx)
  | .rel n => some (0x0A#6 ++ 0#6 ++ n)
  | .done => some (0x0B#6 ++ 0#26)
  | .yield => some (0x0C#6 ++ 0#26)
  | .trap c => some (0x0D#6 ++ 0#18 ++ c)
  | .brk t => some (0x0E#6 ++ 0#10 ++ t)
  | .inj sl k d step => some (0x0F#6 ++ sl ++ k ++ d ++ 0#4 ++ step)
  | _ => none

/-- The M-slot word of an operation (R81). -/
def encodeM : Instr → Option Word32
  | .mma a tA tB c => some (0x01#6 ++ a ++ tA ++ tB ++ c)
  | .mzero a => some (0x02#6 ++ a ++ 0#23)
  | .mdrain a t dq => some (0x03#6 ++ a ++ t ++ dq ++ 0#11)
  | .mdrainRed a t tile aM => some (0x04#6 ++ a ++ t ++ tile ++ aM)
  | .mload a n => some (0x05#6 ++ a ++ n ++ 0#17)
  | .chset bd n => some (0x08#6 ++ bd ++ n ++ 0#16)
  | .chsetImm bd v => some (0x08#6 ++ bd ++ 0#6 ++ v)
  | .chrun n m => some (0x09#6 ++ n ++ m ++ 0#14)
  | .chstep n => some (0x0A#6 ++ n ++ 0#6 ++ 0#1 ++ 0#13)
  | .chstepPick n m => some (0x0A#6 ++ n ++ m ++ 1#1 ++ 0#13)
  | _ => none

/-- The L-slot word of an operation (R83). -/
def encodeL : Instr → Option Word32
  | .ld d base sz sg off => some (0x01#6 ++ d ++ base ++ sz.code ++ bit sg ++ off)
  | .st n base sz off => some (0x02#6 ++ n ++ base ++ sz.code ++ 0#1 ++ off)
  | .vld v base r => some (0x03#6 ++ v ++ base ++ r ++ 0#9)
  | .vst v base r => some (0x04#6 ++ v ++ base ++ r ++ 0#9)
  | .stq dq t c => some (0x05#6 ++ dq ++ t ++ c ++ 0#8)
  | .racq d g => some (0x06#6 ++ d ++ g ++ 0#17)
  | .rpub g => some (0x07#6 ++ 0#6 ++ g ++ 0#17)
  | .rget d g => some (0x08#6 ++ d ++ g ++ 0#17)
  | .rrel g => some (0x09#6 ++ 0#6 ++ g ++ 0#17)
  | .sflush base lines => some (0x0A#6 ++ 0#6 ++ base ++ lines)
  | .sinv base lines => some (0x0B#6 ++ 0#6 ++ base ++ lines)
  | _ => none

/-- The D-slot word of an operation (R84). -/
def encodeD : Instr → Option Word32
  | .cpy tD tS c => some (0x01#6 ++ tD ++ tS ++ c)
  | .msub g t n => some (0x02#6 ++ g ++ t ++ n ++ 0#7)
  | .mret g t n => some (0x03#6 ++ g ++ t ++ n ++ 0#7)
  | .cadd a n => some (0x04#6 ++ a ++ n ++ 0#1 ++ 0#13)
  | .caddImm a v => some (0x04#6 ++ a ++ 0#6 ++ 1#1 ++ v)
  | .cwait a t m b => some (0x05#6 ++ a ++ t ++ m ++ b ++ 0#5)
  | .cread d a => some (0x06#6 ++ d ++ a ++ 0#14)
  | .amo op wide d a n => some (0x07#6 ++ d ++ a ++ n ++ op.code ++ 0#1 ++ bit wide ++ 0#2)
  | .amoc op cc d a n => some (0x08#6 ++ d ++ a ++ n ++ op.code ++ cc.code)
  | .mred p c => some (0x09#6 ++ p ++ c ++ 0#14)
  | .fence before after => some (0x0A#6 ++ before ++ after ++ 0#14)
  | .spawn a => some (0x0B#6 ++ a ++ 0#20)
  | .join g => some (0x0C#6 ++ 0#10 ++ g)
  | .leave g => some (0x0D#6 ++ 0#10 ++ g)
  | .tdef t d => some (0x0E#6 ++ t ++ d ++ 0#10)
  | .tdrop t => some (0x0F#6 ++ t ++ 0#16)
  | .nsend p ch a l => some (0x10#6 ++ p ++ ch ++ a ++ l ++ 0#4)
  | .nrecv p ch a l => some (0x11#6 ++ p ++ ch ++ a ++ l ++ 0#4)
  | .nsendq p ch dq => some (0x12#6 ++ p ++ ch ++ dq ++ 0#14)
  | _ => none

/-- The T-slot word of an operation (R89). -/
def encodeT : Instr → Option Word32
  | .tmovPortV p v => some (0x01#6 ++ p ++ 0#1 ++ v ++ 0#14)
  | .tmovVPort v p => some (0x02#6 ++ 0#1 ++ v ++ p ++ 0#14)
  | .tmovPortPort d p => some (0x03#6 ++ d ++ p ++ 0#14)
  | .tmovPortS p n => some (0x04#6 ++ p ++ n ++ 0#14)
  | .tmovSPort n p => some (0x05#6 ++ n ++ p ++ 0#14)
  | _ => none

/-- The slot word or control word of an operation; an event or a palette trigger has no word of its own
(a trigger is started by a write of its port, R90). -/
def encode (i : Instr) : Option Code :=
  match encodeC i with
  | some w => some (.slot .c w)
  | none =>
    match encodeM i with
    | some w => some (.slot .m w)
    | none =>
      match encodeL i with
      | some w => some (.slot .l w)
      | none =>
        match encodeD i with
        | some w => some (.slot .d w)
        | none =>
          match encodeT i with
          | some w => some (.slot .t w)
          | none =>
            match i.row, i.hcw with
            | some r, some h => some (.hcw (encodeHcw r h))
            | _, _ => none

/-- What a word decodes to, with the cause that refuses it. -/
def decode : Code → Except Cause Instr
  | .slot sl w => decodeSlot sl w
  | .hcw w => decodeHcw w

/-! ### The host's view of an encoding -/

/-- The operations of one bundle, the control words of its syllables all being `hcw`; `none` where a
check of R76 that needs no machine state refuses the bundle. -/
def bundleOps (b hcw : Word256) : Option (List (Slot × Instr)) :=
  let h := headerOf (headerWord b)
  let direct (p : Bool) (sl : Slot) : Option (List (Slot × Instr)) :=
    if p then
      match decodeSlot sl (bundleWord b sl) with
      | .ok i => some [(sl, i)]
      | .error _ => none
    else some []
  let syl (sl : Slot) (w : BitVec 16) (cls : BitVec 4) : Option (List (Slot × Instr)) :=
    match decodeSyllable w with
    | .ok none => some []
    | .ok (some _) =>
      match decodeSyllableHcw cls hcw with
      | .ok i => some [(sl, i)]
      | .error _ => none
    | .error _ => none
  if bundleReservedOk b then
    match direct h.presC .c, syl .sa (b.extractLsb' 160 16) 1, syl .sb (b.extractLsb' 176 16) 1,
        syl .va (b.extractLsb' 128 16) 2, syl .vb (b.extractLsb' 144 16) 2, direct h.presM .m,
        direct h.presL .l, direct h.presD .d, direct h.presT .t with
    | some c, some sa, some sb, some va, some vb, some m, some l, some d, some t =>
      some (c ++ sa ++ sb ++ va ++ vb ++ m ++ l ++ d ++ t)
    | _, _, _, _, _, _, _, _, _ => none
  else none

/-- The instruction of a table word: bits 255:0 are one bundle as memory holds it (R46), bits 511:256
the control word its syllable names. A bundle of exactly one operation answers that operation. -/
def decodeTableWord (nbits w : Nat) : Option Instr :=
  let v := w % 2 ^ nbits
  match bundleOps (BitVec.ofNat 256 v) (BitVec.ofNat 256 (v / 2 ^ 256)) with
  | some [(_, i)] => some i
  | _ => none

end Sys2Proof
end

