-- ==== Sys2Proof/Machine/State.lean ====
section
/-! DEFINITION. The state of the SX940 as plain data, the reasons a step can stop, and the state after
reset. Every structure names the rules of spec/ that give its fields. -/

namespace Sys2Proof.Machine

/-! ### Registers -/

/-- A tagged register (R165). -/
inductive Reg where
  | s (n : BitVec 6)
  | v (n : BitVec 5)
  | a (n : BitVec 3)
  | q (n : BitVec 3)
  | b (n : BitVec 3)
  | mask (u : MaskUnit)
  | bd (n : BitVec 4)
  | g (n : BitVec 3)
  | dq (n : BitVec 2)
deriving DecidableEq, Repr

/-- A target buffer: the address of a bundle and its prefetched copy, or empty (R157). The copy is
absent where the target did not translate. -/
structure Target where
  addr : Nat
  copy : Option Word256
deriving DecidableEq, Repr

/-- An accumulator: its 4,096 elements in row-major order, the poison of R190 with its cause, the number of the
operation that left it (0 once it has surfaced) and the VA it failed at, and the flags of R37 that have not
surfaced, by the number of their operation. -/
structure Acc where
  elems : List (BitVec 36) := List.replicate 4096 0
  poison : Option Cause := none
  poisonAt : Nat := 0
  poisonVa : Nat := 0
  flags : List (Nat × BitVec 6) := []
deriving DecidableEq, Repr

/-- Loop state (R161): remaining count, address of the body, its length, and the bundles of the current
pass issued so far. `armed` is false until the block that holds the `lmark` has ended. -/
structure Loop where
  count : Nat
  body : Nat
  len : Nat
  done : Nat
  armed : Bool
deriving DecidableEq, Repr

/-- One ring of a tile (R215, R216, R217): configuration, indices, counts, the counters of the slot
tags, the tags of its slots, and whether a mill serves a side. -/
structure Ring where
  lslot : BitVec 5 := 0
  lcount : BitVec 3 := 0
  en : Bool := false
  base : BitVec 13 := 0
  free : Nat := 0
  filled : Nat := 0
  acq : Nat := 0
  pub : Nat := 0
  get : Nat := 0
  rel : Nat := 0
  heldP : Nat := 0
  heldC : Nat := 0
  freed : Nat := 0
  published : Nat := 0
  freeTags : List Word32 := []
  fillTags : List Word32 := []
  millP : Bool := false
  millC : Bool := false
deriving DecidableEq, Repr

/-- One entry of a drain queue: its data, the format code and the scale offset of the drain (R192). -/
structure DrainEntry where
  data : Vec512 := 0
  fmt : BitVec 8 := 0
  off : Int := 0
deriving DecidableEq, Repr

/-- A drain queue (R193): reserved entries, how many of them are filled, the index of the oldest, popped
entries that `stq` keeps occupied until its commit (R417), and the 32 entries. -/
structure DrainQueue where
  reserved : Nat := 0
  leaving : Nat := 0
  filled : Nat := 0
  head : Nat := 0
  entries : List DrainEntry := List.replicate 32 {}
deriving DecidableEq, Repr

/-- The boundary of the chain engine (R203), after reset of shape (1, 1, 1) and holding +0; and the flags of
its steps that have not surfaced (R206). -/
structure Boundary where
  l : Nat := 1
  f : Nat := 1
  r : Nat := 1
  elems : List (BitVec 36) := [0]
  flags : List (Nat × BitVec 6) := []
deriving DecidableEq, Repr

/-- The ports of one palette unit (R271). -/
structure PalUnit where
  a : Vec512 := 0
  cfg : Word64 := 0
  res : Vec512 := 0
  st : Word64 := 0
deriving DecidableEq, Repr

/-- The palette (R271-R273): the five units, and the state of CRC, HSH and TOP. -/
structure Palette where
  qnt : PalUnit := {}
  trn : PalUnit := {}
  crc : PalUnit := {}
  hsh : PalUnit := {}
  top : PalUnit := {}
  crcState : Word32 := 0
  key : Word64 := 0
  nb : Word32 := 0
  k : Nat := 0
  fmt : BitVec 8 := 0
  best : List (Nat × Nat) := []
  base : Nat := 0
  count : Nat := 0
deriving DecidableEq, Repr

/-- The register state that a block entry checkpoints (R175, R404). `tags` is indexed by bank << 6 | number
(R165); `scaleOff` holds the tensor ids whose running offset is not 0 (R202); `recv` the bytes taken
from held stream channels, by port and channel (R391, R392). -/
structure Regs where
  s : List Word64 := List.replicate 64 0
  v : List Vec512 := List.replicate 32 0
  q : List Bool := List.replicate 8 false
  a : List Acc := List.replicate 8 {}
  b : List (Option Target) := List.replicate 8 none
  maskA : List MaskEntry := []
  maskB : List MaskEntry := []
  bd : List (BitVec 16) := List.replicate 16 0
  loop : Option Loop := none
  rings : List Ring := List.replicate 8 {}
  dqs : List DrainQueue := List.replicate 4 {}
  bound : Boundary := {}
  pal : Palette := {}
  scaleOff : List (Nat × Int) := []
  recv : List (Nat × Nat) := []
  fpflags : BitVec 6 := 0
  uflow : BitVec 13 := 0
  oflow : BitVec 13 := 0
  vshape : BitVec 16 := 0x0143
  round : BitVec 3 := 1
  fptrap : BitVec 6 := 0
  debug : Bool := false
  pbound : BitVec 16 := 4096
  tags : List Word32 := List.replicate 256 0
deriving DecidableEq, Repr

/-! ### Operations in flight -/

/-- What lands at the end of a beat (R52). -/
inductive Wr where
  | s (n : BitVec 6) (val : Word64)
  | v (n : BitVec 5) (val mask : Vec512)
  | q (n : BitVec 3) (val : Bool)
  | b (n : BitVec 3) (t : Target)
  | bd (n : BitVec 4) (val : BitVec 16)
  | maskPush (u : MaskUnit) (e : MaskEntry)
  | maskTop (u : MaskUnit) (e : MaskEntry)
  | maskPop (u : MaskUnit)
  | loop (l : Loop)
  | creg (n : Nat) (val : Word64)
  | port (p : BitVec 6) (data : Vec512)
  | res (unit : Nat) (res : Option Vec512) (st : Word64)
  | none
deriving DecidableEq, Repr

/-- A result in flight: the beat at whose end it lands, the block it belongs to, its place in program
order (bundle ordinal and slot code), the write, the registers whose tag it sets, the tag, the flags it
raises, and its bundle's address. `caught` is that a shadow latch keeps it until its task resumes (R275). -/
structure Landing where
  due : Nat
  blk : Nat
  ord : Nat
  slot : Nat
  wr : Wr
  dests : List Reg
  tag : Word32
  flags : BitVec 6
  addr : Nat
  caught : Bool := false
deriving DecidableEq, Repr

/-- A direct-slot operation that waits for its start beat (R50, R274), with the rounding mode of its issue (R41). `caught` is that it
has found a fault in the window of R276: it stays a pending start until its task resumes. -/
structure Delayed where
  due : Nat
  blk : Nat
  ord : Nat
  slot : Slot
  idx : Nat
  op : Instr
  addr : Nat
  round : BitVec 3 := 1
  caught : Bool := false
deriving DecidableEq, Repr

/-- A register lock of R53, with the value and tag once the responder has replied; `ord` and `beat` are the bundle ordinal and
the start beat of its operation. `away` is that its task has been restored before the value was present (R277). -/
structure Lock where
  reg : BitVec 6
  serial : Nat
  blk : Nat
  ord : Nat
  beat : Nat
  tag : Word32
  value : Option Word64
  line : Option Nat
  away : Bool := false
deriving DecidableEq, Repr

/-- A tensor descriptor (R256). -/
structure Desc where
  base : Nat
  range : Nat
  metaVa : Nat
  fmt : BitVec 8
  rank : Nat
  writable : Bool
  compressed : Bool
  autoscale : Bool
  checked : Bool
  saturate : Bool
  scale : Int
  thresh : Nat
  ext : List Nat
  stride : List Int
  seed : Word64
  wait : Nat
deriving DecidableEq, Repr

/-- The work of one M operation with its captured operands (R183). `mma` names the accumulator it writes and the
one it reads, which an `inj` can make differ (R180). `red` keeps whether its addition has
left the tile; `chain` the address of the program or step, the index value, the captured `bd` values,
and its progress: the next step and the step count once the header is read. -/
inductive MWork where
  | mma (a src : BitVec 3) (dA dB : Desc) (pa pb : Word64)
  | mzero (a : BitVec 3)
  | mload (a : BitVec 3) (va : Nat)
  | drain (a : BitVec 3) (d : Desc) (tid : Nat) (dq : BitVec 2) (first count : Nat) (mode : BitVec 3)
  | red (a : BitVec 3) (float : Bool) (peer : Nat) (aM : BitVec 3) (left : Bool)
  | chain (va : Nat) (single pick : Bool) (idx : Word64) (bds : List (BitVec 16)) (next : Nat)
      (count : Option Nat)
deriving DecidableEq, Repr

/-- The operand buffer of an `mma` (R188): the rows of A and B as element codes with their scale offsets, none outside the
extents; why a fetch failed and where; whether every line was resident in the stash; and the lines that its fetch has pinned in
their L2 slices. -/
structure MmaBuf where
  a : List (List (Option (Nat × Int))) := []
  b : List (List (Option (Nat × Int))) := []
  fail : Option (Cause × Nat) := none
  resident : Bool := true
  pins : List Nat := []
deriving DecidableEq, Repr

/-- A queued M operation (R182): its serial number, block, bundle address, the commands it waits for
under fences (R240), the cycle it began on and the first one it may begin on, the operand buffer of an `mma` (R188), and the
progress of a drain: the entries filled, its counts (R185, R192, R42) and the offset it read. `idx` counts the M operations that the
task has started, and `beat` is its start beat. -/
structure MOp where
  serial : Nat
  idx : Nat
  beat : Nat := 0
  blk : Nat
  addr : Nat
  work : MWork
  waits : List Nat
  waitBlk : Option Nat
  began : Option Nat := none
  ready : Nat := 0
  buf : Option MmaBuf := none
  filled : Nat := 0
  unders : Nat := 0
  overs : Nat := 0
  off : Int := 0
deriving DecidableEq, Repr

/-- An addition of `mdrain.red` on its way to a tile (R197). -/
structure PeerAdd where
  src : Nat
  serial : Nat
  aM : BitVec 3
  float : Bool
  elems : List (BitVec 36)
deriving DecidableEq, Repr

/-- A copy command (R260-R265): its engine's order is its place in the list. `chunk` is the next chunk;
`addOnly` that only the counter add is left; `token` is set while it is halted. -/
structure CopyCmd where
  serial : Nat
  part : Nat
  dst : Desc
  src : Desc
  counter : Option Nat
  round : BitVec 3
  wcw : Nat
  chunk : Nat := 0
  addOnly : Bool := false
  token : Option (BitVec 16) := none
  waits : List Nat
  waitBlk : Option Nat
  owner : Nat
  tids : BitVec 64
deriving DecidableEq, Repr

/-- A mill attached to a ring (R268, R269). `chunk` counts the chunks of its block that a pulling mill has committed (R263). -/
structure Mill where
  serial : Nat
  part : Nat
  g : BitVec 3
  push : Bool
  desc : Desc
  die : Nat
  next : Nat
  left : Nat
  chunk : Nat := 0
  wcw : Nat
  tid : Nat
  token : Option (BitVec 16) := none
  waits : List Nat
  waitBlk : Option Nat
deriving DecidableEq, Repr

/-- A send that has not left its tile (R296, R390): address, bytes and the queue data of `nsendq`. `left` is that step 3 of its block
has ended, requeued or suspended the task since (R311). -/
structure Send where
  serial : Nat
  task : Word64
  tile : Nat
  port : Nat
  ch : Nat
  va : Nat
  len : Nat
  data : Option (List Byte)
  part : Nat
  addr : Nat
  waits : List Nat
  waitBlk : Option Nat
  left : Bool := false
deriving DecidableEq, Repr

/-- Effects held until the block's order point (R174). A store names its bundle, its VA and its physical bytes; `window` the
tile's own stash offsets; `entry` is a popped drain entry on its way into a tensor; `take` the bytes that `nrecv`
takes from a channel; each names its bundle. -/
inductive Held where
  | store (bundle va : Nat) (cells : List Host.Cell)
  | window (bundle va : Nat) (cells : List Host.Cell)
  | entry (bundle : Nat) (q : BitVec 2) (d : Desc) (e : DrainEntry) (row col : Nat) (wcw : Nat) (cells : List Host.Cell)
  | take (bundle : Nat) (port ch n : Nat) (va : Nat) (cells : List Host.Cell)
  | publish (g : BitVec 3)
  | release (g : BitVec 3)
  | ringCfg (n : Nat) (v : Word64)
  | flush (va lines : Nat)
  | inval (va lines : Nat)
deriving DecidableEq, Repr

/-- A line or counter that the block has read (R235): its physical line, the write stamp it had, and
whether it is memory-side; a counter names its word of the line. -/
structure ReadEntry where
  line : Nat
  wts : Nat
  side : Bool
  word : Option Nat := none
deriving DecidableEq, Repr

/-- An ordering that a fence has set up (R240): the after paths, the commands to wait for, and the block
whose O accesses are to be performed. -/
structure FenceDep where
  after : BitVec 6
  waits : List Nat
  waitBlk : Option Nat
  blk : Nat
deriving DecidableEq, Repr

/-- What a `cwait` has read on its start beat: the counter's VA and PA, the target, the two save masks and the resume
target (R117, R346). -/
structure CwaitArgs where
  va : Nat
  pa : Nat
  target : Word64
  mask0 : Word64
  mask1 : Word64
  resume : Nat
deriving DecidableEq, Repr

/-- The D-slot operation of an E bundle after its start (R70, R237). -/
inductive EState where
  | waiting
  | cwaitSent (c : CwaitArgs)
  | cwaitRetry (c : CwaitArgs) (due : Nat)
  | cwaitWaiter (c : CwaitArgs) (n : Nat)
deriving DecidableEq, Repr

/-- The end that an E bundle's C slot holds (R70, R173); an atomic suspends its task in a merge round
(R253). -/
inductive BlockEnd where
  | go | done | yield | trap (code : BitVec 8) | suspend
deriving DecidableEq, Repr

/-- Steps of an E bundle between its issue and the next bundle (R70, R235). -/
inductive Phase where
  | open        -- the block is issuing
  | compare     -- the E bundle has issued; its comparison is due at `compareAt`
  | order       -- the seal has passed; the order point is next
  | commit      -- the order point is reached; the D-slot operation and the end follow
deriving DecidableEq, Repr

/-- The block in progress (R65, R168-R180, R235). `mFirst` is the number of M operations that the task had started when it was
entered. `heldAt` gives the place in program order of each of the held effects, which stand in that order (R174, R234). `resumed` is the
ordinal of the bundle at which the task has resumed in it (R395); `yielded` is that a `yield` has saved its task, whose record waits for
a general slot (R452). -/
structure Block where
  seq : Nat := 0
  start : Nat := 0
  idx : Nat := 0
  entered : Bool := false
  run : Nat := 1
  replay : Bool := false
  pendingRead : Bool := false
  folds : List (Nat × Nat × Word32) := []
  reads : List Nat := []
  writes : List (Nat × Nat × Nat) := []
  stores : Nat := 0
  held : List Held := []
  heldAt : List (Nat × Nat) := []
  readSet : List ReadEntry := []
  taken : Option Nat := none
  takenCopy : Option Word256 := none
  hasXfer : Bool := false
  ending : BlockEnd := .go
  eAddr : Nat := 0
  eWord : Word256 := 0
  sealWord : Word256 := 0
  eOp : Option Instr := none
  eDue : Nat := 0
  eDelay : Nat := 0
  compareAt : Nat := 0
  nextAt : Nat := 0
  phase : Phase := .open
  eState : EState := .waiting
  bodyLast : Bool := false
  hasFenceO : Bool := false
  succMiss : Bool := false
  foldMiss : Bool := false
  relAt : Option Nat := none
  blame : Bool := false
  missAt : Nat := 0
  resumed : Option Nat := none
  yielded : Bool := false
  stale : Bool := false
  birth : Nat := 0
  mFirst : Nat := 0
deriving DecidableEq, Repr

/-- An armed or spent `inj` (R180, R307): source, bundles still to go, step, slot, the C word and the
distance; the bundle whose read is to be corrupted; and whether the firing has entered the record of its block. -/
structure Inj where
  slot : Nat
  k : Nat
  left : Nat
  step : Nat
  word : Word32
  d : Nat
  blk : Nat
  seen : Bool := false
deriving DecidableEq, Repr

/-- A firing of an `inj` for the record of its block (R307): the bundle whose read it names, whether that read took another
register (R181), whether its record has been written, and whether a replay had corrected it before the block ran again for its read
set. -/
structure InjHit where
  inj : Inj
  addr : Nat
  bad : Bool
  logged : Bool := false
  cured : Bool := false
deriving DecidableEq, Repr

/-- The class letters of R279. -/
inductive FaultClass where
  | d | s | a | u | k | b | e | v | f
deriving DecidableEq, Repr

/-- A fault that has stopped the chain engine (R207): its cause, the number and bundle of the operation, the
VA it failed at, and the step. -/
structure MFault where
  cause : Cause
  idx : Nat
  addr : Nat
  va : Nat
  step : Nat
deriving DecidableEq, Repr

/-- A task's request to stop that takes the place of the next bundle (R232, R276, R281). -/
inductive StopDue where
  | fault (c : Cause) (cls : FaultClass) (addr data : Nat) (info : Word64)
  | preempt (forced : Bool)
deriving DecidableEq, Repr

/-- A continuation record (R110). -/
structure Record where
  resume : Nat := 0
  raf : Bool := false
  errand : Bool := false
  tt : Bool := false
  hasctx : Bool := false
  ctx : Word64 := 0
  taskid : Word64 := 0
  argA : Word64 := 0
  argB : Word64 := 0
  prio : BitVec 2 := 0
  depth : BitVec 4 := 0
  kernel : BitVec 16 := 0
  groups : List (BitVec 16) := [0, 0, 0, 0]
deriving DecidableEq, Repr

/-- A line that a merge-mode task has written: its VA, its byte mask and its bytes (R253). -/
structure PrivLine where
  va : Nat
  mask : BitVec 128
  data : BitVec 1024
deriving DecidableEq, Repr

/-- An operation that a merge round holds until its close (R253, R254). -/
inductive MergeOp where
  | amo (ctx : Word64) (d : BitVec 6) (op : AmoOp) (wide : Bool) (va : Nat) (x y : Word64) (addr : Nat)
  | amoc (ctx : Word64) (d : BitVec 6) (op : AmoOp) (cc : Cond) (va : Nat) (x : Word64) (tmpl addr : Nat)
  | copy (tile : Nat) (c : CopyCmd)
  | add (va : Nat) (n : Word64) (addr : Nat)
  | group (g : BitVec 16) (up : Bool)
  | enqueue (r : Record) (fresh : Bool)
  | waiter (pa : Nat) (target : Word64) (r : Record)
  | entry (d : Desc) (xs : List (Nat × Nat)) (off : Int) (wcw : Nat)
deriving DecidableEq, Repr

/-- The context of a task, on its tile or saved (R113, R285). `pcCopy` is the prefetched copy that a taken
transfer issues (R321), `loopBuf` what the loop buffer holds (R163); `ringMem` the ring areas of a saved
context (R285), and `ringPoison` their poisoned lines. `place` is `cr.tile` as the placement set it (R16). `injHits` are the firings
of the block in progress (R307); `wrote` gives, while a result or a start is outstanding, the code, bundle ordinal and slot of every
register write that has started (R55). A stop that is due keeps the block whose operation raised it, and waits for a comparison that passes where a
replay has come between (R276); `stopStep` is the chain step that its record names (R207). -/
structure Task where
  record : Record := {}
  part : Nat := 0
  gpos : Word64 := 0x10
  place : Word64 := 0
  regs : Regs := {}
  ckpt : Option Regs := none
  testEn : Bool := false
  hcw : List Word256 := []
  pc : Nat := 0
  pcCopy : Option (Nat × Word256) := none
  loopBuf : List (Nat × Word256) := []
  nextIssue : Nat := 0
  ord : Nat := 0
  blk : Block := {}
  landings : List Landing := []
  delayed : List Delayed := []
  unread : List Delayed := []
  wrote : List (Nat × Nat × Nat) := []
  locks : List Lock := []
  mq : List MOp := []
  mills : List Mill := []
  fences : List FenceDep := []
  inj : Option Inj := none
  injHits : List InjHit := []
  stop : Option StopDue := none
  stopFrom : Option Nat := none
  stopBlk : Option Nat := none
  stopStep : Nat := 0
  stopHeld : Bool := false
  locked : List Nat := []
  priv : List PrivLine := []
  cause : Option Cause := none
  stopAddr : Nat := 0
  stopInfo : Word64 := 0
  stopBeat : Nat := 0
  mStarted : Nat := 0
  mFault : Option MFault := none
  acks : List (Nat × Bool) := []
  ringMem : List Host.Cell := []
  ringPoison : List Nat := []
deriving DecidableEq, Repr

/-! ### Tiles -/

/-- The states of a line in a stash (R212). -/
inductive LineState where
  | shared | owned | dirty | poisoned
deriving DecidableEq, Repr

/-- A line that a stash holds, in a way of its set (R210, R212, R215). -/
structure StashLine where
  line : Nat
  st : LineState
  lease : Nat
  wts : Nat
  data : BitVec 1024
  way : Nat := 0
deriving DecidableEq, Repr

/-- The life of a physical tile (R14, R179). -/
inductive TileLife where
  | service | retiring | retired | spare
deriving DecidableEq, Repr

/-- Why a tile's hold line is raised (R51). -/
inductive HoldReason where
  | miss (lines : List Nat) | gang | ringEmpty | ringFull | recv (port ch : Nat) | lock (r : BitVec 6) | drainFill | rel | waitOp | fence
  | storeApply | table | cwait | spawn | yieldSlot | context | pairing | copyRoom
deriving DecidableEq, Repr

/-- What the operation that is now starting belongs to (log 1): its tile, slot, bundle index, bundle
address, bundle ordinal, rotation and start beat, the rounding mode of its bundle's issue, whether its bundle is the block's E bundle,
and whether it starts under a start delay, and as one of an earlier block. -/
structure OpCtx where
  tile : Nat := 0
  slot : Slot := .c
  idx : Nat := 0
  addr : Nat := 0
  ord : Nat := 0
  rot : BitVec 5 := 0
  beat : Nat := 0
  round : BitVec 3 := 1
  eob : Bool := false
  late : Bool := false
  older : Bool := false
deriving DecidableEq, Repr

/-- A block whose seal has passed under pairing and whose agreement is pending (R154, R155): its message, the task as the block
was entered and as its seal has passed, what its operation of R69 belongs to, what the block holds back, whether it has disagreed
once, and since when its message is out. `stays` is that its task waits at it; `applied` that its agreement has come and its held
effects have applied; `lock` is the lock that stands for its operation of R69 until that starts. -/
structure PairBlock where
  seq : BitVec 48
  fold : Word64
  crc : Word32
  before : Task
  after : Task := {}
  ctx : OpCtx := {}
  held : List Held
  readSet : List ReadEntry
  again : Bool
  since : Nat
  stays : Bool := false
  applied : Bool := false
  lock : Option Nat := none
deriving DecidableEq, Repr

/-- A cached leaf translation (R230): the base of its page, log2 of its size, the page's PA and the
leaf's permission bits [6:2]. -/
structure TlbEntry where
  part : Nat
  va : Nat
  size : Nat
  pa : Nat
  perm : BitVec 5
deriving DecidableEq, Repr

/-- A physical tile (R7). `beat` is `cr.beat`, and `held` the cycles in which the hold line was raised,
so that the tile's cycle count is their sum (R3), `heldTick` the last tick of it in which that was so (R152); `clock` is the logical clock of R212; `req` the cycle
on which a pre-emption request arrived (R282). `asked` are the lines that its held access has requested and that no slice has
answered, `fills` the lines that have been answered to it (R213, R308); `ringPoison` the poisoned lines of the ring areas, by
stash offset (R225); `micro` is its micro-TLB, the newest leaf first (R230); `was`
the logical number that a retired tile had, under which what it has issued is logged (R14, R264). -/
structure Tile where
  life : TileLife := .service
  was : Option Nat := none
  beat : Nat := 0
  held : Nat := 0
  heldTick : Option Nat := none
  clock : Nat := 0
  hold : Option HoldReason := none
  task : Option Task := none
  stash : List StashLine := []
  asked : List Nat := []
  fills : List StashLine := []
  ringMem : List Host.Cell := []
  ringPoison : List Nat := []
  micro : List TlbEntry := []
  -- cr.slotmap and the instances present (R62-R64)
  sa : BitVec 2 := 0
  sb : BitVec 2 := 1
  va : BitVec 2 := 0
  vb : BitVec 2 := 1
  splits : Bool := false
  splitv : Bool := false
  scalars : List Bool := [true, true, true]
  vectors : List Bool := [true, true, true]
  failing : List (Bool × Nat) := []
  stamps : List Nat := []
  copyQ : List CopyCmd := []
  copyHalted : List CopyCmd := []
  sends : List Send := []
  peerIn : List PeerAdd := []
  req : Option Nat := none
  watch : Nat := 0
  point : OpPoint := .p1750
  pairPend : List PairBlock := []
  pairIn : List PairMsg := []
  pairSeq : Nat := 0
  pairAgain : Bool := false
  gangLead : Option Nat := none
deriving DecidableEq, Repr

/-! ### Quadrants, partitions and the device -/

/-- Performance record of one L2 slice (R226). -/
structure SlicePerf where
  req : Word64 := 0
  hwm : BitVec 9 := 0
  occ : BitVec 9 := 0
  cerr : Word32 := 0
  miss : Word32 := 0
deriving DecidableEq, Repr

/-- A packet that a queue has started and that has not completed (R129). -/
inductive PktWork where
  | launch (n : Nat)
  | graph (n : Nat)
  | copy (serial : Nat)
  | ttStart | ttStop | ttSwap
deriving DecidableEq, Repr

/-- A packet as a command processor has read it from its slot (R130): the slot's address and its bytes. -/
structure Packet where
  slot : Nat
  bytes : List Byte
deriving DecidableEq, Repr

/-- What a queue's command processor waits for at a packet: a start counter, a free general slot for the tasks of a
LAUNCH, or the counter of a COUNTER_WAIT (R132, R134). -/
inductive PktStall where
  | start (k : Packet)
  | create (k : Packet) (n : Nat)
  | wait (k : Packet)
deriving DecidableEq, Repr

/-- One user-mode queue (R127-R129, R135); its descriptor and slots lie in memory. `rewritten` is set once the host
has rewritten the descriptor of a halted queue. -/
structure Queue where
  wridx : BitVec 32 := 0
  awake : Bool := false
  halted : Bool := false
  rewritten : Bool := false
  live : List PktWork := []
  stall : Option PktStall := none
deriving DecidableEq, Repr

/-- A node of a running graph (R136, R137): its predecessor count and what remains of it, whether it runs, how often
it has become ready again meanwhile, and of the activation that runs its type, the launch or copy command, the
counter and target it waits for, and the successors that its completion names. -/
structure GNode where
  preds : Nat
  left : Nat
  running : Bool := false
  again : Nat := 0
  kind : Nat := 0
  job : Nat := 0
  counter : Nat := 0
  target : Nat := 0
  names : List Nat := []
deriving DecidableEq, Repr

/-- A GRAPH in progress, with the packet it came from (R136-R138). -/
structure Graph where
  n : Nat
  queue : Nat
  packet : Packet
  nodesVa : Nat
  traceVa : Nat
  traceLen : Nat
  tracePos : Nat := 0
  nodes : List GNode
deriving DecidableEq, Repr

/-- A halted command with its resume token (R264, R265). -/
inductive HaltedRef where
  | tileCopy (tile serial : Nat)
  | cpCopy (serial : Nat)
  | mill (tile serial : Nat)
  | reduce (die serial : Nat)
  | wcFrame (die part va : Nat)
deriving DecidableEq, Repr

/-- A quadrant (R7): its control page (R12, R226, R265, R290, R306), mesh map (R14), operating point of its L2 (R302), command processor
(R127-R138), shared translation cache (R230) and halted commands (R264). -/
structure Quad where
  root : BitVec 36 := 0
  en : Bool := false
  iva : BitVec 36 := 0
  icount : BitVec 16 := 0
  busy : Bool := false
  lwd : BitVec 6 := 24
  lbase : BitVec 46 := 0
  llen : BitVec 6 := 0
  lwr : Word64 := 0
  lctr : BitVec 49 := 0
  halt : Bool := false
  evt : Bool := false
  reviveVa : BitVec 46 := 0
  ten : Bool := false
  wcwait : Word32 := 2048
  pair : Bool := false
  mg : Bool := false
  tt : Bool := false
  lk : BitVec 5 := 10
  gbase : BitVec 36 := 0
  qbase : BitVec 41 := 0
  mbase : BitVec 40 := 0
  mlen : BitVec 5 := 0
  abandon : Bool := false
  token : BitVec 16 := 0
  setup : Bool := true
  point : OpPoint := .p1750
  perf : List SlicePerf := List.replicate 16 {}
  mesh : List (Option (BitVec 6)) :=
    (List.range 32).map fun i => some (BitVec.ofNat 3 (i / 6) ++ BitVec.ofNat 3 (i % 6))
  queues : List Queue := List.replicate 64 {}
  copyQ : List CopyCmd := []
  copyHalted : List CopyCmd := []
  graphs : List Graph := []
  tlb : List TlbEntry := []
  invalidating : List (Nat × Nat) := []
  halted : List (BitVec 16 × HaltedRef) := []
  nextToken : BitVec 16 := 0
deriving DecidableEq, Repr

/-- Where a record of the commons stands (R120). -/
inductive SlotKind where
  | general
  | reserved (d : BitVec 4)
  | ret (tile : Nat)
deriving DecidableEq, Repr

/-- A record of the commons: its slot, its place in the order of its level (returned records
enter below every other), and the logical stamp of the write it follows (log 11). -/
structure Queued where
  record : Record
  slot : SlotKind
  stamp : Nat
deriving DecidableEq, Repr

/-- An entry of a timetable (R143). -/
structure TtEntry where
  entry : Nat
  argA : Word64
  ctx : Word64
  kernel : BitVec 16
  lead : Nat
  size : Nat
  stride : Word32
deriving DecidableEq, Repr

/-- A timetable (R142, R143). -/
structure Timetable where
  entries : List TtEntry
  len : Nat
  limit : Nat
  ctxSize : Nat
deriving DecidableEq, Repr

/-- The frames of a partition (R141, R146). `ended` is the tick on which the last task of the frame in progress ended. -/
structure Frames where
  table : Timetable
  anchor : Nat
  frame : Nat
  start : Nat
  slip : Nat
  stopping : Bool
  ended : Option Nat := none
deriving DecidableEq, Repr

/-- What the tasks of a LAUNCH take from it (R131). -/
structure LaunchSpec where
  entry : Nat
  argA : Nat
  argAStep : Int
  argB : Word64
  count : Nat
  kernel : BitVec 16
  ctx : Nat
  ctxStep : Nat
  counter : Nat
  value : Nat
  groups : List (BitVec 16)
  start : Nat
  target : Nat
  prio : BitVec 2
  rel : Bool
deriving DecidableEq, Repr

/-- A LAUNCH, or the kernel node of a graph: its first task id, how many of its tasks it has created, and the ids of
those that have ended (R132, R133, R137). -/
structure Launch where
  n : Nat
  spec : LaunchSpec
  first : Word64
  quad : Nat
  queue : Nat
  packet : Packet
  node : Bool
  made : Nat := 0
  ended : List Word64 := []
deriving DecidableEq, Repr

/-- A kernel that the loader has loaded (R301): its id, the image's VA, the offset and count of its
control words, and the image's generation and steppings. -/
structure Kernel where
  id : BitVec 16
  img : Nat
  text : Nat
  hcw : List Word256
  gen : Nat
  steppings : List (BitVec 16)
deriving DecidableEq, Repr

/-- A merge round (R252-R254): its tasks, those still running, the log entries written and the
operations held, each with the task id that holds it. -/
structure MergeRound where
  members : List Word64
  running : List Word64
  log : List (Word64 × PrivLine)
  ops : List (Word64 × MergeOp)
deriving DecidableEq, Repr

/-- A partition (R11). -/
structure Part where
  tensors : List (Nat × Desc) := []
  commons : List Queued := []
  run : List Nat := [0, 0, 0, 0]
  nextId : Word64 := 1
  kernels : List Kernel := []
  launches : List Launch := []
  nextLaunch : Nat := 1
  nextGraph : Nat := 1
  nextCopy : Nat := 1
  table : Option Timetable := none
  nextTable : Option Timetable := none
  pendingStart : Option Nat := none
  frames : Option Frames := none
  busy : List (Nat × Word64) := []
  round : Option MergeRound := none
  deferred : List MergeOp := []
  entering : List (Record × Bool) := []
  fenced : Option Cause := none
deriving DecidableEq, Repr

/-- The stamps and the owner that an L2 slice, or a memory slice for a memory-side line, keeps for a line
(R212, R218, R235). `words` holds the stamp of the last write of each 8-byte word that has been written, so that a counter is
judged by its own writes. -/
structure DirLine where
  line : Nat
  wts : Nat := 0
  rts : Nat := 0
  owner : Option Nat := none
  words : List (Nat × Nat) := []
deriving DecidableEq, Repr

/-- A waiter of a counter (R117, R118). A provisional waiter belongs to a tile; `stamp` is that of the write that reached its
target. -/
structure Waiter where
  n : Nat
  pa : Nat
  part : Nat
  target : Word64
  confirmed : Bool
  reached : Bool
  tile : Nat
  record : Record
  stamp : Nat := 0
deriving DecidableEq, Repr

/-- A launch-queue entry of a memory slice (R248): a record on its way into the commons. -/
structure LaunchEntry where
  slice : Nat
  part : Nat
  record : Record
  stamp : Nat
deriving DecidableEq, Repr

/-- An operation that has reached its memory slice and waits behind a held line (R248), or an `amoc` that
waits there for a launch-queue entry. -/
inductive SliceOp where
  | add (tile : Option Nat) (n : Word64)
  | amo (tile serial : Nat) (op : AmoOp) (wide : Bool) (x y : Word64)
  | amoc (tile serial : Nat) (op : AmoOp) (cc : Cond) (x : Word64) (r : Record)
  | store (tile : Nat) (cells : List Host.Cell)
  | group (tile : Option Nat) (g : Nat) (up : Bool)
deriving DecidableEq, Repr

/-- An operation that waits at its slice, in order of arrival (R248), the task and the bundle that it is of, and the VA it acts on; `l2` is that it executes at an
L2 slice, and `counted` that the slice's request queue has accepted it (R218, R226). `left` is that step 3 of the block has ended,
requeued or suspended the task since (R311). -/
structure HeldLine where
  serial : Nat
  line : Nat
  pa : Nat
  part : Nat
  op : SliceOp
  task : Word64 := 0
  va : Nat := 0
  addr : Nat := 0
  l2 : Bool := false
  counted : Bool := false
  left : Bool := false
deriving DecidableEq, Repr

/-- A value on its way back to a tile (R53, R277): the tile and the lock it is for, or the context area
of a task that has left. -/
structure Reply where
  n : Nat
  tile : Nat
  serial : Nat
  task : Word64
  value : Word64
deriving DecidableEq, Repr

/-- A command of a reduction engine (R250, R251). -/
structure ReduceCmd where
  serial : Nat
  part : Nat
  tile : Nat
  owner : Nat
  dst : Nat
  count : Nat
  srcs : List Nat
  addVal : Word64
  counter : Option Nat
  chunk : Nat := 0
  addOnly : Bool := false
  token : Option (BitVec 16) := none
  waits : List Nat
  waitBlk : Option Nat
deriving DecidableEq, Repr

/-- An `mred` whose engine has not read its parameter block, since fences hold it back or the engine has no room (R240, R376). `left`
is that step 3 of its block has ended, requeued or suspended the task since (R311). -/
structure ReduceAsk where
  serial : Nat
  part : Nat
  tile : Nat
  owner : Nat
  va : Nat
  counter : Option Nat
  addr : Nat
  waits : List Nat
  waitBlk : Option Nat
  left : Bool := false
deriving DecidableEq, Repr

/-- An open frame of a write-combining buffer (R200): the frame's PA and VA, its metadata, the buffered
bytes in arrival order, the scale offset they carry, and the time at which it closes. -/
structure WcFrame where
  part : Nat
  desc : Desc
  frame : Nat
  bytes : List (Nat × Byte)
  off : Int
  deadline : Nat
deriving DecidableEq, Repr

/-- A base die (R7): its reduction engine, its write-combining buffer with the frames that have halted, its
operating point (R302), and the engines that an internal error has stopped (R289). -/
structure Die where
  reduceQ : List ReduceCmd := []
  reduceHalted : List ReduceCmd := []
  wc : List WcFrame := []
  wcHalted : List WcFrame := []
  point : OpPoint := .p1750
  stopped : List BaseUnit := []
deriving DecidableEq, Repr

/-- A port channel (R295-R297): its entry, the bytes in its skew buffer, the bytes left of each message there
with its credits, the queue messages it has taken,
the task that holds it for stream receives, and the credits the sender at this end holds (R298). -/
structure Channel where
  en : Bool := false
  dep : Bool := false
  part : BitVec 3 := 0
  sbase : BitVec 52 := 0
  slen : Word32 := 0
  rlen : Word32 := 0
  rbase : BitVec 52 := 0
  actr : BitVec 49 := 0
  skew : List Byte := []
  spans : List (Nat × Nat) := []
  m : Nat := 0
  holder : Option Nat := none
  credits : Nat := 0
deriving DecidableEq, Repr

/-- A frame of a peer link (R298). -/
inductive LinkFrame where
  | data (f : DataFrame)
  | ack (seq : BitVec 32)
  | credit (ch : BitVec 5) (reset : Bool) (n : BitVec 32)
  | pair (seq : BitVec 32) (msgs : List PairMsg)
deriving DecidableEq, Repr

/-- A peer port (R295-R298): whether its link is up, the port number it has learned, its sequence numbers, the frames that it
holds to send again (`acked` of them acknowledged, but of a message that is not whole yet), the CREDIT frames that wait for the
link, the frames taken since its last ACK with the tick of the first one, the tick of the last ACK that advanced, the frames that
come again after a message whose CRC differed, the message being put together, the pairing messages to send, whether those that it
had sent in vain have passed to the other link, and its channels. -/
structure Port where
  up : Bool := false
  learned : Option (BitVec 8) := none
  sendSeq : BitVec 32 := 0
  recvSeq : BitVec 32 := 0
  unacked : List LinkFrame := []
  acked : Nat := 0
  waiting : List LinkFrame := []
  sinceAck : Nat := 0
  takenAt : Nat := 0
  ackAt : Nat := 0
  again : Nat := 0
  part : List Byte := []
  partCh : Nat := 0
  partLen : Nat := 0
  partCrc : Word32 := 0
  partArg : Word64 := 0
  partQueue : Bool := false
  partFirst : BitVec 32 := 0
  pairOut : List PairMsg := []
  passed : Bool := false
  chans : List Channel := List.replicate 32 {}
deriving DecidableEq, Repr

/-- What has left the package: frames of peer ports, answers on RoCE v2 connections and on the queue
transport. -/
inductive Output where
  | frame (port : Nat) (dst : BitVec 8) (f : LinkFrame)
  | rdmaData (conn : Nat) (bytes : List Byte)
  | rdmaDone (conn : Nat)
  | rdmaNak (conn : Nat)
  | answer (src : Nat) (bytes : List Byte)
deriving DecidableEq, Repr

/-- A source of the queue transport (R292): the sequence number expected next and the recorded answers,
newest first. -/
structure QtSource where
  src : Nat
  expect : BitVec 16
  answers : List (BitVec 16 × List Byte) := []
deriving DecidableEq, Repr

/-- A save of a context (R285, R286), by partition and address: the number that its stepping's bytes carry, and the task, of which
the area in memory holds everything that R285 gives a place. `spoiled` is that the save failed and left nothing usable. -/
structure SavedCtx where
  part : Nat
  va : Nat
  task : Task
  mark : Nat := 0
  spoiled : Bool := false
deriving DecidableEq, Repr

/-- The registers that no step changes (R294, R1): the access code "Fixed", and the ordering code. -/
structure Fixed where
  stepping : BitVec 16 := 0x00A1
  latency : BitVec 16 := 0x0001
  pairable : Bool := false
deriving DecidableEq, Repr

/-- The device page (R294) and the loader mailbox (R301). -/
structure Device where
  mode : BitVec 2 := 0
  rate : BitVec 2 := 0
  ptp : Bool := false
  ready : Bool := false
  layout : BitVec 8 := 0
  resv : BitVec 14 := 0
  resvOpen : Bool := true
  cap : BitVec 16 := 2400
  img : BitVec 52 := 0
  ent : BitVec 52 := 0
  status : BitVec 8 := 0
  op : Bool := false
  lpart : BitVec 3 := 0
deriving DecidableEq, Repr

/-- An event that the agenda holds, after a number of reference ticks (log 1). -/
structure Sched where
  ticks : Nat
  ev : Instr
deriving DecidableEq, Repr

/-- The machine. `mem` is the level below the stashes: L2 and HBM (R209, R218); `clockMax` the greatest
logical stamp given so far (log 10); `free` numbers the free values (log 15). `stores` holds, for each compute
die, the areas whose saves its context store still holds, by partition and VA, the newest first (R7, R287). -/
structure State where
  fixed : Fixed := {}
  dev : Device := {}
  mem : List Host.Cell := []
  poison : List Nat := []
  dir : List DirLine := []
  tiles : List Tile :=
    List.replicate 8 (List.replicate 32 ({} : Tile) ++ List.replicate 4 { life := .spare }) |>.flatten
  quads : List Quad := List.replicate 8 {}
  parts : List Part := List.replicate 8 {}
  dies : List Die := List.replicate 8 {}
  ports : List Port := List.replicate 16 {}
  waiters : List Waiter := []
  launchQ : List LaunchEntry := []
  heldLines : List HeldLine := []
  asks : List ReduceAsk := []
  replies : List Reply := []
  saved : List SavedCtx := []
  stores : List (List (Nat × Nat)) := [[], []]
  qt : List QtSource := []
  outputs : List Output := []
  refTick : Nat := 0
  ptpLock : Bool := false
  clockMax : Nat := 0
  serial : Nat := 1
  free : Nat := 0
  agenda : List Sched := []
  cur : OpCtx := {}
deriving DecidableEq, Repr

/-! ### Outcomes of a step -/

/-- Why a step stops with a fault. Every fault and trap of the spec is a state of the machine (a stopped
task, a record in a log), so none of them stands here. -/
inductive Fault where
  /-- Raised by step when the event at the head of the agenda names a unit that does not exist: no such
  event can come about. Safe. -/
  | illFormed
deriving DecidableEq, Repr

/-- Why a step has no meaning. -/
inductive Refusal where
  /-- Raised by an arm of exec that has no meaning yet. Safe. -/
  | notModelled (mnemonic : String)
deriving DecidableEq, Repr

/-- The machine right after power-on or device reset (R303), every field at the value of its default. -/
def State.reset : State := {}

end Sys2Proof.Machine
end

