-- ==== Sys2Proof/Machine/Mem.lean ====
section
/-! DEFINITION. Memory as a list of cells in one canonical form, the physical address map, the control
pages as they are read, and translation (spec 10 R209, R226-R230). -/

namespace Sys2Proof.Machine

open Host (Cell)

/-! ### Cells -/

/-- What an address that no cell lists reads as (log 3). -/
def Memory.unlisted : Byte := 0

/-- One byte of memory. -/
def Memory.read : List Cell → Nat → Byte
  | [], _ => Memory.unlisted
  | (k, b) :: r, a => if a == k then b else if a < k then Memory.unlisted else Memory.read r a

/-- Memory with one byte written, in the canonical form. -/
def Memory.write : List Cell → Nat → Byte → List Cell
  | [], a, b => if b == Memory.unlisted then [] else [(a, b)]
  | (k, c) :: r, a, b =>
    if a < k then (if b == Memory.unlisted then (k, c) :: r else (a, b) :: (k, c) :: r)
    else if a == k then (if b == Memory.unlisted then r else (a, b) :: r)
    else (k, c) :: Memory.write r a b

/-- Memory with several bytes written, the later ones over the earlier. -/
def Memory.writes (m : List Cell) (cs : List Cell) : List Cell :=
  cs.foldl (fun m c => Memory.write m c.1 c.2) m

/-- The canonical form: addresses rise, and no cell holds what an unlisted address reads as. -/
def Memory.wf : List Cell → Bool
  | [] => true
  | (k, b) :: r =>
    (b != Memory.unlisted) && (match r with | [] => true | (j, _) :: _ => decide (k < j)) && Memory.wf r

/-- n bytes from an address. -/
def Memory.range (m : List Cell) (a n : Nat) : List Byte :=
  (List.range n).map fun i => Memory.read m (a + i)

/-- The cells that put bytes at an address. -/
def cellsAt (a : Nat) (bs : List Byte) : List Cell := bs.zipIdx.map fun (b, i) => (a + i, b)

/-! ### The physical address map -/

/-- The slice-local reservation c per pseudo-channel, in bytes (R209, R294). -/
def State.resvBytes (s : State) : Nat := s.dev.resv.toNat * 65536

/-- End of the interleaved view (R209). -/
def State.hbmEnd (s : State) : Nat := 512 * (768 * 1048576 - s.resvBytes)

/-- Base of the control range (R209). -/
def ctrlBase : Nat := 0x7FFF000000000

/-- A PA range that lies wholly within one populated range (R209, R222). -/
def State.populated (s : State) (pa n : Nat) : Bool :=
  decide (pa + n ≤ s.hbmEnd)
  || (decide (ctrlBase ≤ pa) && decide (pa + n ≤ ctrlBase + 0x10000))
  || (decide (2 ^ 51 ≤ pa) && decide (pa + n ≤ 2 ^ 52) && (pa / 2 ^ 30) % 4096 == 0
      && decide (pa % 2 ^ 30 + n ≤ s.resvBytes))

/-- A PA of the control range. -/
def isCtrl (pa : Nat) : Bool := decide (ctrlBase ≤ pa) && decide (pa < ctrlBase + 0x10000)

/-- One 8-byte word of a control page (R12, R226, R265, R290, R306). -/
def Quad.word (q : Quad) (off : Nat) : Word64 :=
  let b (x : Bool) : BitVec 1 := if x then 1 else 0
  if 0x400 ≤ off ∧ off < 0x600 then
    let p := q.perf.getD ((off - 0x400) / 32) {}
    match (off - 0x400) % 32 with
    | 0 => p.req
    | 8 => p.hwm.setWidth 64
    | 16 => p.occ.setWidth 64
    | 24 => p.cerr ++ p.miss
    | _ => 0
  else
    match off with
    | 0x000 => 0#12 ++ q.root ++ 0#15 ++ b q.en
    | 0x008 => 0#12 ++ q.iva ++ q.icount
    | 0x010 => 0#62 ++ b q.busy ++ 0#1
    | 0x018 => 0#58 ++ q.lwd
    | 0x020 => 0#12 ++ q.lbase ++ q.llen
    | 0x028 => q.lwr
    | 0x030 => 0#12 ++ q.lctr ++ 0#3
    | 0x038 => 0#61 ++ b q.halt ++ 0#1 ++ b q.evt
    | 0x040 => 0#12 ++ q.reviveVa ++ 0#6
    | 0x048 => 0#63 ++ b q.ten
    | 0x050 => 0#32 ++ q.wcwait
    | 0x058 => 0#56 ++ b q.pair ++ b q.mg ++ b q.tt ++ q.lk
    | 0x060 => 0#12 ++ q.gbase ++ 0#16
    | 0x068 => 0#12 ++ q.qbase ++ 0#11
    | 0x070 => 0#12 ++ q.mbase ++ 0#7 ++ q.mlen
    | 0x800 => 0#47 ++ b q.abandon ++ q.token
    | _ => 0

/-- One byte of the control range; the bytes beyond the eight pages read zero (R209). -/
def State.ctrlByte (s : State) (pa : Nat) : Byte :=
  let o := pa - ctrlBase
  if o < 0x8000 then
    ((s.quads.getD (o / 0x1000) {}).word (alignDown (o % 0x1000) 8)).extractLsb' (8 * (o % 8)) 8
  else 0

/-- The bits of an 8-byte word of a control page that privileged code alone may write. -/
def rwpBits (off : Nat) : Word64 :=
  match off with
  | 0x000 => 0x000FFFFFFFFF0001
  | 0x008 => 0x000FFFFFFFFFFFFF
  | 0x010 => 1
  | 0x018 => 0x3F
  | 0x020 => 0x000FFFFFFFFFFFFF
  | 0x030 => 0x000FFFFFFFFFFFF8
  | 0x038 => 7
  | 0x040 => 0x000FFFFFFFFFFFC1
  | 0x048 => 1
  | 0x050 => 0xFFFFFFFF
  | 0x058 => 0xFF
  | 0x060 => 0x000FFFFFFFFF0000
  | 0x068 => 0x000FFFFFFFFFF800
  | 0x070 => 0x000FFFFFFFFFF01F
  | 0x800 => 0x1FFFF
  | _ => 0

/-- A write of a byte of the control range from code that is not privileged touches an RW-P field (R4,
R226). -/
def ctrlPrivileged (pa : Nat) : Bool :=
  let o := pa - ctrlBase
  decide (o < 0x8000)
    && (rwpBits (alignDown (o % 0x1000) 8)).extractLsb' (8 * (o % 8)) 8 != 0#8

/-- A write of n bytes from code that is not privileged touches an RW-P field. -/
def ctrlPrivilegedIn (pa n : Nat) : Bool := (List.range n).any fun i => ctrlPrivileged (pa + i)

/-- A written byte of a performance record: ones clear, except in the queue depth (R4, R226). -/
def SlicePerf.clear (p : SlicePerf) (o : Nat) (b : Byte) : SlicePerf :=
  let m : Word64 := ~~~((b.setWidth 64) <<< (8 * (o % 8)))
  match alignDown (o % 32) 8 with
  | 0 => { p with req := p.req &&& m }
  | 8 => { p with hwm := p.hwm &&& m.setWidth 9 }
  | 24 => { p with cerr := p.cerr &&& m.extractLsb' 32 32, miss := p.miss &&& m.setWidth 32 }
  | _ => p

/-- The effect of a byte written to the control range without privilege: a W1C field clears, every other
field keeps its value. -/
def State.ctrlClear (s : State) (pa : Nat) (b : Byte) : State :=
  let o := pa - ctrlBase
  let off := o % 0x1000
  if o < 0x8000 ∧ 0x400 ≤ off ∧ off < 0x600 then
    { s with quads := updAt s.quads (o / 0x1000) fun q =>
        { q with perf := updAt q.perf ((off - 0x400) / 32) fun p => p.clear off b } }
  else s

/-! ### Lines -/

/-- The line of a PA (R210). -/
def lineOf (pa : Nat) : Nat := pa / 128

/-- The lines that n bytes from a PA touch. -/
def linesOf (pa n : Nat) : List Nat :=
  (List.range (lineOf (pa + n - 1) + 1 - lineOf pa)).map fun i => lineOf pa + i

/-- A line is poisoned below the stashes (R225). -/
def State.poisoned (s : State) (line : Nat) : Bool := s.poison.contains line

/-- The stamps and owner of a line. -/
def State.dirLine (s : State) (line : Nat) : DirLine :=
  match s.dir.find? fun d => d.line == line with
  | some d => d
  | none => { line := line }

/-- The stamps and owner of a line set. -/
def State.setDir (s : State) (d : DirLine) : State :=
  { s with dir := d :: s.dir.filter fun e => e.line != d.line }

/-- A stash's copy of a line (R212). -/
def Tile.lineAt (t : Tile) (line : Nat) : Option StashLine := t.stash.find? fun l => l.line == line

/-- Byte i of a line's data. -/
def lineByte (d : BitVec 1024) (i : Nat) : Byte := d.extractLsb' (8 * i) 8

/-- One byte as a party that L2 keeps coherent sees it: an owning stash's data, otherwise the level
below (R212, R230). -/
def State.cohByte (s : State) (pa : Nat) : Byte :=
  if isCtrl pa then s.ctrlByte pa
  else
    match (s.dirLine (lineOf pa)).owner with
    | some t =>
      match (s.tiles.getD t {}).lineAt (lineOf pa) with
      | some l => lineByte l.data (pa % 128)
      | none => Memory.read s.mem pa
    | none => Memory.read s.mem pa

/-- n bytes as L2 keeps them coherent. -/
def State.cohBytes (s : State) (pa n : Nat) : List Byte := (List.range n).map fun i => s.cohByte (pa + i)

/-- A line is poisoned for a party that L2 keeps coherent: in the owning stash or below (R225). -/
def State.cohPoisoned (s : State) (line : Nat) : Bool :=
  match (s.dirLine line).owner with
  | some t =>
    match (s.tiles.getD t {}).lineAt line with
    | some l => l.st == .poisoned
    | none => s.poisoned line
  | none => s.poisoned line

/-! ### Translation -/

/-- A leaf translation (R227, R228): the PA, the permission bits [6:2] of the entry (C, MS, X, W, R from
high to low), and the page's base and log2 size. -/
structure Leaf where
  pa : Nat
  perm : BitVec 5
  page : Nat
  size : Nat
deriving DecidableEq, Repr

def Leaf.r (l : Leaf) : Bool := l.perm.getLsbD 0
def Leaf.w (l : Leaf) : Bool := l.perm.getLsbD 1
def Leaf.x (l : Leaf) : Bool := l.perm.getLsbD 2
def Leaf.ms (l : Leaf) : Bool := l.perm.getLsbD 3
def Leaf.c (l : Leaf) : Bool := l.perm.getLsbD 4

/-- The stash window (R211). -/
def inWindow (va : Nat) : Bool := decide (0xFFFFFFFF00000 ≤ va) && decide (va < 2 ^ 52)

/-- Base of the stash window (R211, R216). -/
def windowBase : Nat := 0xFFFFFFFF00000

/-- log2 of what an entry of a level maps, and of the alignment of the table a pointer of the level names
(R227). -/
def levelShift : Nat → Nat
  | 3 => 39
  | 2 => 30
  | 1 => 21
  | _ => 16

/-- log2 of a level's table alignment (R227). -/
def tableShift : Nat → Nat
  | 3 => 16
  | 2 => 12
  | 1 => 12
  | _ => 8

/-- Entries of a level's table (R227). -/
def levelEntries : Nat → Nat
  | 3 => 8192
  | 2 => 512
  | 1 => 512
  | _ => 32

/-- One step of the walk at a level, and the levels below it (R227, R228). -/
def State.walk (s : State) (va : Nat) : Nat → Nat → Except Cause Leaf
  | level, table =>
    let ea := table + 8 * ((va / 2 ^ levelShift level) % levelEntries level)
    if !s.populated ea 8 then .error .xlateNotpresent
    else if s.cohPoisoned (lineOf ea) then .error .eccUncorrectable
    else
      let e := BitVec.ofNat 64 (leNat (s.cohBytes ea 8))
      let pa := (e.extractLsb' 8 44).toNat * 256
      if !e.getLsbD 0 || e.extractLsb' 52 12 != 0#12 || e.getLsbD 7 then .error .xlateNotpresent
      else if e.getLsbD 1 then
        if level == 3 || pa % 2 ^ levelShift level != 0 || !s.populated pa (2 ^ levelShift level) then
          .error .xlateNotpresent
        else
          .ok { pa := pa + va % 2 ^ levelShift level, perm := e.extractLsb' 2 5
                page := va / 2 ^ levelShift level * 2 ^ levelShift level, size := levelShift level }
      else
        match level with
        | 0 => .error .xlateNotpresent
        | below + 1 =>
          if e.extractLsb' 2 5 != 0#5 || pa % 2 ^ tableShift below != 0 then .error .xlateNotpresent
          else s.walk va below pa

/-- The quadrant of a physical tile (R7). -/
def quadOf (t : Nat) : Nat := t / 36

/-- A unit that translates, as a number: a quadrant's engines and command processor are below 8, and each tile, which has a
micro-TLB of its own, comes after them (R230). -/
def tileUnit (t : Nat) : Nat := 8 + t

/-- The quadrant whose shared cache and walks a unit uses. -/
def unitQuad (u : Nat) : Nat := if u < 8 then u else quadOf (u - 8)

/-- The cached leaf of an address among some. -/
def leafIn (es : List TlbEntry) (part va : Nat) : Option Leaf :=
  match es.find? fun e => e.part == part && e.va == va / 2 ^ e.size * 2 ^ e.size with
  | some e => some { pa := e.pa + va % 2 ^ e.size, perm := e.perm, page := e.va, size := e.size }
  | none => none

/-- The micro-TLB of a unit: a quadrant's own has none. -/
def State.microOf (s : State) (u : Nat) : List TlbEntry := if u < 8 then [] else (s.tiles.getD (u - 8) {}).micro

/-- A leaf that a unit's micro-TLB or the shared translation cache of its quadrant holds (R230). -/
def State.cached (s : State) (unit part va : Nat) : Option Leaf :=
  match leafIn (s.microOf unit) part va with
  | some l => some l
  | none => leafIn (s.quads.getD (unitQuad unit) {}).tlb part va

/-- Translation of a partition's VA by a unit: the cached leaf or a walk (R226, R227, R230). The window is never translated
(R211). -/
def State.xlate (s : State) (unit part va : Nat) : Except Cause Leaf :=
  let q := s.quads.getD part {}
  if 2 ^ 52 ≤ va then .error .xlateNotpresent
  else if inWindow va then .error .xlateNotpresent
  else if !q.en then .error .xlateNotpresent
  else
    match s.cached unit part va with
    | some l => .ok l
    | none => s.walk va 3 (q.root.toNat * 65536)

/-- Cached leaves with one more as the newest, at most n. -/
def addLeaf (es : List TlbEntry) (part n : Nat) (l : Leaf) : List TlbEntry :=
  ({ part := part, va := l.page, size := l.size, pa := l.pa / 2 ^ l.size * 2 ^ l.size, perm := l.perm } ::
    es.filter fun e => !(e.part == part && e.va == l.page && e.size == l.size)).take n

/-- A leaf in the caches of a unit: 8,192 in its quadrant's, and 64 in a tile's micro-TLB (R230, log 17). -/
def State.cacheLeaf (s : State) (unit part : Nat) (l : Leaf) : State :=
  { s with
    quads := updAt s.quads (unitQuad unit) fun q => { q with tlb := addLeaf q.tlb part 8192 l }
    tiles := if unit < 8 then s.tiles else updAt s.tiles (unit - 8) fun x => { x with micro := addLeaf x.micro part 64 l } }

/-- The caches of a unit after a translation of an address. -/
def State.touchTlb (s : State) (unit part va : Nat) : State :=
  match s.xlate unit part va with
  | .ok l => s.cacheLeaf unit part l
  | .error _ => s

/-- What an access needs of its leaf (R229). -/
inductive Need where
  | read | write | both | fetch
deriving DecidableEq, Repr

/-- The permission of R229. -/
def Leaf.allows (l : Leaf) : Need → Bool
  | .read => l.r
  | .write => l.w
  | .both => l.r && l.w
  | .fetch => l.x

/-- Translation with the permission check of R229. -/
def State.access (s : State) (quad part va : Nat) (need : Need) : Except Cause Leaf :=
  match s.xlate quad part va with
  | .ok l => if l.allows need then .ok l else .error .xlatePerm
  | .error c => .error c

/-- The PA of each byte of a VA range under one need, or the first failure with its VA (R229). Each 64 KiB
unit is translated once. -/
def State.accessRange (s : State) (quad part va n : Nat) (need : Need) :
    Except (Cause × Nat) (List (Nat × Leaf)) :=
  let units := (List.range ((va + n - 1) / 65536 + 1 - va / 65536)).map fun i => va / 65536 + i
  units.foldr (fun u acc =>
    let lo := max va (u * 65536)
    let hi := min (va + n) ((u + 1) * 65536)
    match s.access quad part lo need with
    | .error c => .error (c, lo)
    | .ok l =>
      match acc with
      | .error e => .error e
      | .ok rest => .ok (((List.range (hi - lo)).map fun i =>
          (l.pa + i, { l with pa := l.pa + i })) ++ rest)) (.ok [])

end Sys2Proof.Machine
end

