-- ==== Sys2Proof/Machine/Cache.lean ====
section
/-! DEFINITION. Tiles by number, stashes with their leases and ownership, coherent writes of engines, and
the waiters that a write wakes (spec 10 R210-R213, R218, R225; 11 R243, R248; 06 R118). -/

namespace Sys2Proof.Machine

open Host (Cell)

/-! ### Tiles -/

/-- A physical tile. -/
def State.tile (s : State) (t : Nat) : Tile := s.tiles.getD t {}

/-- The state with a tile replaced. -/
def State.setTile (s : State) (t : Nat) (x : Tile) : State := { s with tiles := s.tiles.set t x }

/-- The state with a tile changed. -/
def State.modTile (s : State) (t : Nat) (f : Tile → Tile) : State := s.setTile t (f (s.tile t))

/-- The mesh identifier of a physical tile (R13). -/
def meshOf (t : Nat) : BitVec 9 :=
  BitVec.ofNat 3 (quadOf t) ++ BitVec.ofNat 3 (t % 36 / 6) ++ BitVec.ofNat 3 (t % 6)

/-- The partition that holds a quadrant under the layout in force (R11, R294). -/
def State.partOf (s : State) (quad : Nat) : Nat := if s.dev.layout == 0 then 0 else quad

/-- The quadrants of a partition (R10). -/
def State.quadsOf (s : State) (p : Nat) : List Nat := if s.dev.layout == 0 then List.range 8 else [p]

/-- The physical tiles of a partition. -/
def State.tilesOf (s : State) (p : Nat) : List Nat :=
  (List.range Config.physTiles).filter fun t => s.partOf (quadOf t) == p

/-- The physical tile that a logical tile number is bound to (R13, R14). -/
def State.physOf (s : State) (n : Nat) : Option Nat :=
  match (s.quads.getD (n / 32) {}).mesh.getD (n % 32) none with
  | some m => some (n / 32 * 36 + (m.extractLsb' 3 3).toNat * 6 + (m.extractLsb' 0 3).toNat)
  | none => none

/-- The logical number of a physical tile, none for a spare or retired one. -/
def State.logicalOf (s : State) (t : Nat) : Option Nat :=
  (List.range 32).findSome? fun i =>
    if s.physOf (quadOf t * 32 + i) == some t then some (quadOf t * 32 + i) else none

/-- Cycles of a tile (R3): its beats and the cycles in which the hold line was raised. -/
def Tile.cyc (t : Tile) : Nat := t.beat + t.held

/-- A tile's beat counter moved to a beat; the logical clock advances with it (R212). -/
def Tile.toBeat (t : Tile) (b : Nat) : Tile :=
  let n := max t.beat b - t.beat
  { t with beat := t.beat + n, clock := t.clock + n, watch := t.watch + n, hold := none }

/-- A cycle in which the hold line is raised (R51). -/
def Tile.raise (t : Tile) (h : HoldReason) : Tile :=
  { t with held := t.held + 1, watch := t.watch + 1, hold := some h }

/-! ### Stash lines -/

/-- Bytes of a line as one value. -/
def bytesLine (bs : List Byte) : BitVec 1024 := BitVec.ofNat 1024 (leNat bs)

/-- A line below the stashes. -/
def State.memLine (s : State) (line : Nat) : BitVec 1024 :=
  bytesLine (if isCtrl (line * 128) then (List.range 128).map fun i => s.ctrlByte (line * 128 + i)
             else Memory.range s.mem (line * 128) 128)

/-- Bytes put over a line's data. -/
def patchLine (line : Nat) (d : BitVec 1024) (cs : List Cell) : BitVec 1024 :=
  cs.foldl (fun d c =>
    if lineOf c.1 == line then
      (d &&& ~~~((255#1024) <<< (8 * (c.1 % 128)))) ||| BitVec.ofNat 1024 (c.2.toNat * 2 ^ (8 * (c.1 % 128)))
    else d) d

/-- An enabled ring's area in stash offsets (R215). -/
def Ring.area (r : Ring) : Nat × Nat :=
  (r.base.toNat * 128, 2 ^ r.lcount.toNat * 2 ^ r.lslot.toNat)

/-- A stash offset lies in an enabled ring of the tile (R211). -/
def Tile.inRing (t : Tile) (o : Nat) : Bool :=
  match t.task with
  | some k => k.regs.rings.any fun r => r.en && decide (r.area.1 ≤ o) && decide (o < r.area.1 + r.area.2)
  | none => false

/-- Bytes written into a tile's ring areas; a line written whole is no longer poisoned (R225). -/
def Tile.writeRing (t : Tile) (cs : List Cell) : Tile :=
  let whole (l : Nat) : Bool := decide (128 ≤ ((cs.filter fun c => c.1 / 128 == l).map (·.1)).dedup.length)
  { t with ringMem := Memory.writes t.ringMem cs, ringPoison := t.ringPoison.filter fun l => !whole l }

/-- The way of a set lies in the area of an enabled ring (R210, R215). -/
def Tile.ringWay (t : Tile) (set way : Nat) : Bool := t.inRing (way * 65536 + set * 128)

/-- The ways of a set that may cache lines (R210, R215). -/
def Tile.ways (t : Tile) (set : Nat) : List Nat := (List.range 12).filter fun w => !t.ringWay set w

/-- A D line written back to the level below; the owner is the tile. -/
def State.writeBack (s : State) (l : StashLine) : State :=
  match l.st with
  | .dirty => { s with
                  mem := Memory.writes s.mem (cellsAt (l.line * 128) ((List.range 128).map (lineByte l.data)))
                  poison := s.poison.filter fun x => x != l.line }
  | .poisoned => { s with poison := if s.poison.contains l.line then s.poison else l.line :: s.poison }
  | _ => s

/-- The stash of a tile without a line. -/
def Tile.dropLine (t : Tile) (line : Nat) : Tile :=
  { t with stash := t.stash.filter fun l => l.line != line }

/-- The stash of a tile with a line as its most recently used. -/
def Tile.putLine (t : Tile) (l : StashLine) : Tile :=
  { t with stash := l :: t.stash.filter fun e => e.line != l.line }

/-- The stash of a tile with a line it holds replaced; its place in the order of use stays. -/
def Tile.setLine (t : Tile) (l : StashLine) : Tile :=
  { t with stash := t.stash.map fun e => if e.line == l.line then l else e }

/-- A line evicted from a stash: a dirty one is written back, the poison of an owned one travels with it, a copy that the tile
does not own goes without a trace, and L2 no longer names the tile its owner (R210, R214, R225). -/
def State.evict (s : State) (t : Nat) (l : StashLine) : State :=
  let d := s.dirLine l.line
  let s := if d.owner == some t then (s.writeBack l).setDir { d with owner := none } else s
  s.modTile t fun x => x.dropLine l.line

/-- A line placed in a stash: it keeps its way, or takes the lowest free way of its set that may cache, or that of the least
recently used line there, which is evicted (R210, log 18). -/
def State.place (s : State) (t : Nat) (l : StashLine) : State :=
  let x := s.tile t
  let set := l.line % 512
  let same := x.stash.filter fun e => e.line % 512 == set
  let ways := x.ways set
  match x.lineAt l.line, ways.find? fun w => !same.any fun e => e.way == w,
      (same.filter fun e => ways.contains e.way).getLast? with
  | some e, _, _ => s.modTile t fun x => x.putLine { l with way := e.way }
  | none, some w, _ => s.modTile t fun x => x.putLine { l with way := w }
  | none, none, some e => (s.evict t e).modTile t fun x => x.putLine { l with way := e.way }
  | none, none, none => s

/-- Cached lines of a stash in the ways that its rings cover, written back and evicted; a poisoned ring line is no more once no
enabled ring covers it (R215, R225). -/
def State.trimStash (s : State) (t : Nat) : State :=
  let x := s.tile t
  let s := (x.stash.filter fun l => x.ringWay (l.line % 512) l.way).foldl (fun s l => s.evict t l) s
  s.modTile t fun x => { x with ringPoison := x.ringPoison.filter fun l => x.inRing (l * 128) }

/-- Lines of a stash as the most recently used ones: a hit counts as a use (R188, R210). -/
def State.useLines (s : State) (t : Nat) (lines : List Nat) : State :=
  s.modTile t fun x => lines.foldl (fun x n => match x.lineAt n with
    | some l => x.putLine l
    | none => x) x

/-- The owner's line written back; it keeps a leased copy, and none where the line is poisoned (R212, log 94). -/
def State.recall (s : State) (line : Nat) : State :=
  let d := s.dirLine line
  match d.owner with
  | none => s
  | some t =>
    match (s.tile t).lineAt line with
    | none => s.setDir { d with owner := none }
    | some l =>
      let s := s.writeBack l
      let lease := (s.tile t).clock + Config.lease
      let s := s.modTile t fun x =>
        if l.st == .poisoned then x.dropLine line
        else x.setLine { l with st := .shared, lease := lease }
      s.setDir { d with owner := none, rts := max d.rts lease }

/-- A fill or renewal: the line's current value under a lease (R212). -/
def State.fillShared (s : State) (t line : Nat) : State :=
  let s := if (s.dirLine line).owner == some t then s else s.recall line
  let d := s.dirLine line
  if d.owner == some t then s
  else
    let s := s.modTile t fun x => { x with clock := max x.clock d.wts }
    let lease := (s.tile t).clock + Config.lease
    let st : LineState := if s.poisoned line then .poisoned else .shared
    let s := s.setDir { d with rts := max d.rts lease }
    s.place t { line := line, st := st, lease := lease, wts := d.wts, data := s.memLine line }

/-- A read of a line, with the stamp that the reader's own grant or write has put in place of the one that it had: nobody else
has written the line (R235, log 36). -/
def ReadEntry.restamp (e : ReadEntry) (line a b : Nat) : ReadEntry :=
  if e.line == line && !e.side && e.wts == a then { e with wts := b } else e

/-- The read sets of a tile's block and of its pending blocks, as a grant or a write of the tile's own leaves them. -/
def Tile.restamp (x : Tile) (line a b : Nat) : Tile :=
  { x with
    task := x.task.map fun k => { k with blk := { k.blk with readSet := k.blk.readSet.map fun e => e.restamp line a b } }
    pairPend := x.pairPend.map fun p => { p with readSet := p.readSet.map fun e => e.restamp line a b } }

/-- A grant of ownership (R212): the write stamp is max(clock, rts + 1), and the clock becomes it. -/
def State.fillOwned (s : State) (t line : Nat) : State :=
  if (s.dirLine line).owner == some t then s
  else
    let s := s.recall line
    let d := s.dirLine line
    let wts := max (s.tile t).clock (d.rts + 1)
    let s := s.modTile t fun x => { x.restamp line d.wts wts with clock := wts }
    let st : LineState := if s.poisoned line then .poisoned else .owned
    let s := s.setDir { d with wts := wts, owner := some t }
    let s := { s with clockMax := max s.clockMax wts }
    s.place t { line := line, st := st, lease := 0, wts := wts, data := s.memLine line }

/-- The quadrant and the local number of the L2 slice that serves a line for a partition's quadrant (R218). -/
def State.sliceFor (s : State) (quad line : Nat) : Nat × Nat :=
  if s.dev.layout == 0 then (wideSlice (line * 128) / 16, wideSlice (line * 128) % 16)
  else (quad, localSlice (line * 128))

/-- A counter that saturates. -/
def bump {w : Nat} (x : BitVec w) (n : Nat) : BitVec w := BitVec.ofNat w (min (x.toNat + n) (2 ^ w - 1))

/-- The performance record of a slice changed. -/
def State.modPerf (s : State) (x : Nat × Nat) (f : SlicePerf → SlicePerf) : State :=
  { s with quads := updAt s.quads x.1 fun q => { q with perf := updAt q.perf x.2 f } }

/-- Requests for lines that the L2 slices accept into their queues (R226, R308). Which of them go to HBM is not stated: a
free value (log 38). -/
def State.enterSlices (s : State) (quad : Nat) (lines : List Nat) : State :=
  let s := lines.zipIdx.foldl (fun (s : State) (x : Nat × Nat) =>
    let miss : Nat := if (Config.freeByte (s.free + x.2)).getLsbD 0 then 1 else 0
    s.modPerf (s.sliceFor quad x.1) fun p =>
      let occ := min (p.occ.toNat + 1) 256
      { p with req := bump p.req 1, occ := BitVec.ofNat 9 occ, hwm := BitVec.ofNat 9 (max p.hwm.toNat occ)
               miss := bump p.miss miss }) s
  { s with free := s.free + lines.length }

/-- Requests that the slices have answered (R226). -/
def State.leaveSlices (s : State) (quad : Nat) (lines : List Nat) : State :=
  lines.foldl (fun s l => s.modPerf (s.sliceFor quad l) fun p => { p with occ := p.occ - 1 }) s

/-- A batch of requests for lines that reaches the L2 slices and is answered: each slice takes all of its requests into
its queue before it answers one (R226, R308). -/
def State.request (s : State) (quad : Nat) (lines : List Nat) : State :=
  (s.enterSlices quad lines).leaveSlices quad lines

/-- Requests that a slice has accepted and not answered (R226). -/
def State.sliceDepth (s : State) (x : Nat × Nat) : Nat := (((s.quads.getD x.1 {}).perf.getD x.2 {}).occ).toNat

/-- A held access of a tile requests the lines that it has neither requested nor received. The requests of a load for one
slice enter its queue together, as soon as all of them fit; those of stores one by one (R226, R308). -/
def State.askLines (s : State) (t : Nat) (lines : List Nat) (batch : Bool) : State :=
  let x := s.tile t
  let quad := quadOf t
  let new := lines.dedup.filter fun l => !x.asked.contains l && !(x.fills.any fun e => e.line == l)
  let groups := if batch then ((new.map fun l => s.sliceFor quad l).dedup).map fun y => new.filter fun l => s.sliceFor quad l == y
    else new.map fun l => [l]
  groups.foldl (fun s g =>
    if s.sliceDepth (s.sliceFor quad (g.headD 0)) + g.length ≤ 256 then
      (s.enterSlices quad g).modTile t fun x => { x with asked := x.asked ++ g }
    else s) s

/-- What a tile's access has requested and received, given up: the access is over. -/
def State.clearFills (s : State) (t : Nat) : State :=
  let s := s.leaveSlices (quadOf t) (s.tile t).asked
  s.modTile t fun x => { x with asked := [], fills := [] }

/-- Requests that parties other than the loads, stores and atomics of a tile send to the slices of a quadrant while an
event comes about, and the errors that are corrected in a stash, a ring or a slice meanwhile. The registers count them, and the
spec does not say how many there are (R224, R226): free values (log 38, log 40). -/
def State.others (s : State) (quad : Nat) : State :=
  let up (q : Nat) (x : SlicePerf × Nat) : SlicePerf :=
    let b (i : Nat) : Nat := (Config.freeByte (s.free + 64 * q + 4 * x.2 + i)).toNat
    let n := b 0 + 256 * b 1
    let fixed := (Config.freeByte (s.free + 512 + 16 * q + x.2)).toNat
    { x.1 with cerr := bump x.1.cerr fixed, req := bump x.1.req n, hwm := BitVec.ofNat 9 (max x.1.hwm.toNat (min n (b 2 + b 3 % 2)))
               miss := bump x.1.miss (min n (b 3)) }
  { s with
    free := s.free + 640
    quads := s.quads.zipIdx.map fun (q, i) =>
      if s.dev.layout == 0 || i == quad then { q with perf := q.perf.zipIdx.map (up i) } else q }

/-- The same for accesses that translate in a partition at given addresses; those to memory-side pages reach no L2
slice (R223). -/
def State.othersOn (s : State) (quad part : Nat) (vas : List Nat) : State :=
  if vas.all fun va => match s.xlate quad part va with
    | .ok l => l.ms
    | .error _ => true
  then s else s.others quad

/-- A unit's translation of an address: a leaf that no cache of it holds is walked for (R230). -/
def State.translates (s : State) (quad part va : Nat) : State :=
  (if (s.cached quad part va).isSome then s else s.others (unitQuad quad)).touchTlb quad part va

/-- A tile reads a memory-side line at its slice: its clock rises to the line's write stamp, and the line's read stamp to
the clock, so that a later write follows the read in the order of path O (R234, R241, log 32). -/
def State.readSide (s : State) (t line : Nat) : State :=
  let d := s.dirLine line
  let s := s.modTile t fun x => { x with clock := max x.clock d.wts }
  s.setDir { d with rts := max d.rts (s.tile t).clock }

/-- A stash line that a load hits: owned, dirty, or leased at the tile's clock (R212). -/
def StashLine.hits (l : StashLine) (clock : Nat) : Bool :=
  match l.st with
  | .shared => decide (clock ≤ l.lease)
  | .owned | .dirty | .poisoned => true

/-- Every dirty line of a partition's stashes written back and kept owned: what a fence or a full
synchronisation with O in its before set makes visible to every path (R240, log 10). -/
def State.writeBackAll (s : State) (part : Nat) : State :=
  (s.tilesOf part).foldl (fun s t =>
    (s.tile t).stash.foldl (fun s l =>
      if l.st == .dirty then
        (s.writeBack l).modTile t fun x => x.setLine { l with st := .owned }
      else s) s) s

/-! ### Waiters and memory-side writes -/

/-- Records in the launch queue of a memory slice (R248). -/
def State.launchCount (s : State) (slice : Nat) : Nat := (s.launchQ.filter fun e => e.slice == slice).length

/-- A confirmed waiter's record on its way to the commons (R118): it takes an entry of the slice's launch queue, or waits for
one (R248). -/
def State.wake (s : State) (w : Waiter) (stamp : Nat) : State :=
  if Config.launchLimit ≤ s.launchCount (homeSlice w.pa) then
    { s with waiters := s.waiters.map fun x => if x.n == w.n then { x with reached := true, stamp := stamp } else x }
  else { s with
    waiters := s.waiters.filter fun x => x.n != w.n
    launchQ := s.launchQ ++ [{ slice := homeSlice w.pa, part := w.part, record := w.record, stamp := stamp }] }

/-- The waiters that wait for an entry of a launch queue take those that are free, in their order (R248). -/
def State.wakeReached (s : State) : State :=
  (s.waiters.filter fun w => w.confirmed && w.reached).foldl (fun s w => s.wake w w.stamp) s

/-- Waiter entries of a memory slice in use, those that the tasks of merge rounds are to have at the close among them (R245,
R253). -/
def State.waiterCount (s : State) (slice : Nat) : Nat :=
  (s.waiters.filter fun w => homeSlice w.pa == slice).length
  + ((s.parts.map fun p => match p.round with
      | some r => (r.ops.filter fun o => match o.2 with
          | .waiter pa _ _ => homeSlice pa == slice
          | _ => false).length
      | none => 0).sum)

/-- The waiters on a word tested against its new value, in the order they were confirmed (R118, R243). -/
def State.testWaiters (s : State) (pa stamp : Nat) : State :=
  let v := leNat (Memory.range s.mem pa 8)
  s.waiters.foldl (fun s w =>
    if w.pa == pa && decide (w.target.toNat ≤ v) then
      if w.confirmed then (if w.reached then s else s.wake w stamp)
      else { s with waiters := s.waiters.map fun x => if x.n == w.n then { x with reached := true } else x }
    else s) s

/-- A line that takes the stamp of a write of some of its bytes; one that is written whole loses its poison (R212, R225). -/
def State.markWritten (s : State) (l : Nat) (cs : List Cell) : State :=
  let d := s.dirLine l
  let w := max d.wts d.rts + 1
  let ws := (cs.map fun c => c.1 % 128 / 8).dedup
  let s := s.setDir { d with wts := w, words := ws.foldl (fun m i => assocSet m i w) d.words }
  let whole := decide (128 ≤ (cs.map (·.1)).dedup.length)
  { s with clockMax := max s.clockMax w
           poison := if whole then s.poison.filter fun x => x != l else s.poison }

/-- What follows a write of bytes below the stashes: the lines take a new write stamp, and the waiters of written words are tested
(R212, R243). -/
def State.noteWrites (s : State) (lines : List Nat) (cs : List Cell) : State :=
  let s := lines.foldl (fun s l => s.markWritten l (cs.filter fun c => lineOf c.1 == l)) s
  if s.waiters.isEmpty then s
  else ((cs.map fun c => alignDown c.1 8).dedup).foldl (fun s pa => s.testWaiters pa (s.dirLine (lineOf pa)).wts) s

/-- Bytes that an engine, a memory slice or the host writes below the stashes: owners are recalled, the bytes outside the control
range are written, a whole line clears its poison, and the control bytes act (R212, R225, R243). Bytes for a field that only a privileged
writer may write are dropped, without a fault: the model's choice (R4, log 89). -/
def State.lowWrite (s : State) (cs : List Cell) : State :=
  let plain := cs.filter fun c => !isCtrl c.1
  let lines := (plain.map fun c => lineOf c.1).dedup
  let s := lines.foldl (fun s l => s.recall l) s
  let s := { s with mem := Memory.writes s.mem plain }.noteWrites lines plain
  (cs.filter fun c => isCtrl c.1).foldl (fun s c => s.ctrlClear c.1 c.2) s

/-- Bytes that an engine reads below the stashes. -/
def State.lowBytes (s : State) (pa n : Nat) : List Byte :=
  (List.range n).map fun i =>
    if isCtrl (pa + i) then s.ctrlByte (pa + i) else Memory.read s.mem (pa + i)

end Sys2Proof.Machine
end

