-- ==== Sys2Proof/Machine/Records.lean ====
section
/-! DEFINITION. Continuation records as bytes, counters and their adds, and the partition fault log, and the containment of a partition (spec
06 R110, R111; 11 R243; 13 R279, R290, R291). -/

namespace Sys2Proof.Machine

open Host (Cell)

/-! ### Continuation records (R110) -/

/-- One bit as a number. -/
def bitNat (b : Bool) : Nat := if b then 1 else 0

/-- Bytes 0-55 of a record. -/
def Record.head (r : Record) : List Byte :=
  leBytes 8 (alignDown (r.resume % 2 ^ 52) 32 + bitNat r.raf * 16 + bitNat r.errand * 8 + bitNat r.tt * 4
    + bitNat r.hasctx * 2 + 1)
  ++ leBytes 8 r.ctx.toNat ++ leBytes 8 r.taskid.toNat ++ leBytes 8 r.argA.toNat
  ++ leBytes 8 r.argB.toNat
  ++ leBytes 8 (r.prio.toNat * 2 ^ 20 + r.depth.toNat * 2 ^ 16 + r.kernel.toNat)
  ++ ((List.range 4).map fun g => leBytes 2 (r.groups.getD g 0).toNat).flatten

/-- The 64 bytes of a record, its CRC over bytes 0-55 (R110, R112). -/
def Record.bytes (r : Record) : List Byte :=
  r.head ++ leBytes 4 (crc32c r.head).toNat ++ leBytes 2 1 ++ leBytes 2 0

/-- The record that 64 bytes hold. -/
def recordOf (bs : List Byte) : Record :=
  let w0 := byteField bs 0 8
  let w5 := byteField bs 40 8
  { resume := alignDown (w0 % 2 ^ 52) 32
    raf := w0.testBit 4, errand := w0.testBit 3, tt := w0.testBit 2, hasctx := w0.testBit 1
    ctx := BitVec.ofNat 64 (byteField bs 8 8)
    taskid := BitVec.ofNat 64 (byteField bs 16 8)
    argA := BitVec.ofNat 64 (byteField bs 24 8)
    argB := BitVec.ofNat 64 (byteField bs 32 8)
    prio := BitVec.ofNat 2 (w5 / 2 ^ 20), depth := BitVec.ofNat 4 (w5 / 2 ^ 16)
    kernel := BitVec.ofNat 16 w5
    groups := (List.range 4).map fun g => BitVec.ofNat 16 (byteField bs (48 + 2 * g) 2) }

/-- A kernel that the partition has loaded (R301). -/
def State.kernel (s : State) (p : Nat) (id : BitVec 16) : Option Kernel :=
  (s.parts.getD p {}).kernels.find? fun k => k.id == id

/-- The checks of R111 on 64 bytes: valid, rfmt, the CRC, every must-be-0 field, the context address, the
kernel, the groups, and tt. -/
def State.recordOk (s : State) (p : Nat) (bs : List Byte) : Bool :=
  let w0 := byteField bs 0 8
  let w5 := byteField bs 40 8
  let r := recordOf bs
  w0.testBit 0 && decide (w0 < 2 ^ 52) && decide (w5 < 2 ^ 22)
  && byteField bs 60 2 == 1 && byteField bs 62 2 == 0
  && byteField bs 56 4 == (crc32c (bs.take 56)).toNat
  && r.ctx != 0 && r.ctx.toNat % 64 == 0
  && (s.kernel p r.kernel).isSome
  && r.groups.all (fun g => decide (g.toNat < 4096))
  && (!r.tt || (s.quads.getD p {}).tt)

/-! ### Counters (R243) -/

/-- An add to a 64-bit counter, saturating (R243). -/
def satAdd (a n : Nat) : Nat := min (a + n) (2 ^ 64 - 1)

/-- A locked run keeps a line: one that it has read at its memory slice, or has read and owns (R236). -/
def State.lockKeeps (s : State) (u : Nat) (b : Block) (line : Nat) : Bool :=
  decide (3 ≤ b.run) && b.readSet.any fun r => r.line == line && (r.side || (s.dirLine line).owner == some u)

/-- A line that a locked run of another tile keeps: other writes wait for its order point (R236). -/
def State.lineLocked (s : State) (by_ : Option Nat) (line : Nat) : Bool :=
  s.tiles.zipIdx.any fun (x, u) => some u != by_ && match x.task with
    | some k => s.lockKeeps u k.blk line
    | none => false

/-- A line that a locked run of another tile keeps from a block: always from a run that is not locked, and from a locked
run that began later (R236). -/
def State.lineKept (s : State) (t : Nat) (b : Block) (line : Nat) : Bool :=
  s.tiles.zipIdx.any fun (x, u) => u != t && match x.task with
    | some k => s.lockKeeps u k.blk line && (decide (b.run < 3) || decide (k.blk.birth < b.birth))
    | none => false

/-- A locked run on tile u of `s` has lost a line that it keeps in `s'`, or finds it written (R236). -/
def State.lockLost (s s' : State) (u : Nat) (b : Block) : Bool :=
  decide (3 ≤ b.run) && b.readSet.any fun r =>
    if r.side then (s.dirLine r.line).wts != (s'.dirLine r.line).wts
    else (s.dirLine r.line).owner == some u && (s'.dirLine r.line).owner != some u

/-- Some locked run of `s` has lost a line that it keeps in `u`, or finds it written (R236). -/
def State.breaksLock (s u : State) : Bool :=
  s.tiles.zipIdx.any fun (x, t) => match x.task with
    | some k => s.lockLost u t k.blk
    | none => false

/-- A locked run of another tile, to which the run of tile t has to give way, has lost a line that it keeps in `u`, or finds it
written (R236). -/
def State.breaksFor (s u : State) (t : Nat) : Bool :=
  let older (b : Block) : Bool := match (s.tile t).task with
    | some k => decide (3 ≤ k.blk.run) && decide (k.blk.birth < b.birth)
    | none => false
  s.tiles.zipIdx.any fun (x, v) => v != t && match x.task with
    | some k => s.lockLost u v k.blk && !older k.blk
    | none => false

/-- A line on which operations wait: behind an `amoc` without a launch-queue entry (R248), or behind a locked
run (R236). -/
def State.lineHeld (s : State) (by_ : Option Nat) (line : Nat) : Bool :=
  s.heldLines.any (fun h => h.line == line) || s.lineLocked by_ line

/-- A line's write stamp raised to the greatest given: the write that follows publishes everything below
(R241, log 10). -/
def State.stampLine (s : State) (line : Nat) : State :=
  let d := s.dirLine line
  s.setDir { d with wts := max d.wts s.clockMax }

/-- The add at the counter's home slice: the word takes the saturated sum, and its waiters are tested; an
add to a held line waits behind the operation that holds it (R243, R248). -/
def State.addAt (s : State) (tile : Option Nat) (p pa n : Nat) : State :=
  if s.lineHeld tile (lineOf pa) then
    { s with heldLines := s.heldLines ++
        [{ serial := s.serial, line := lineOf pa, pa := pa, part := p, op := .add tile (BitVec.ofNat 64 n) }]
             serial := s.serial + 1 }
  else (s.stampLine (lineOf pa)).lowWrite (cellsAt pa (leBytes 8 (satAdd (leNat (s.lowBytes pa 8)) n)))

/-- Where a counter lies: 8-byte aligned, translated with the need given, on a memory-side page (R223,
R243). -/
def State.counterPa (s : State) (quad p va : Nat) (need : Need) : Except Cause Nat :=
  if va % 8 != 0 then .error .counterAlign
  else
    match s.access quad p va need with
    | .error c => .error c
    | .ok l => if !l.ms then .error .memsideKind
               else if s.cohPoisoned (lineOf l.pa) then .error .eccUncorrectable else .ok l.pa

/-- An add of a party that is no tile to a counter it has found. While a merge round is open it is held until the close, since the
tasks of the round see counters as they stood at its opening (R253, R254, log 47). -/
def State.addOrHold (s : State) (p va pa n : Nat) : State :=
  match (s.parts.getD p {}).round with
  | some _ => { s with parts := updAt s.parts p fun x =>
      { x with deferred := x.deferred ++ [.add va (BitVec.ofNat 64 n) 0] } }
  | none => s.addAt none p pa n

/-- An add to the counter at a VA (R241, R243). -/
def State.counterAdd (s : State) (quad p va n : Nat) : Except Cause State :=
  match s.counterPa quad p va .write with
  | .error c => .error c
  | .ok pa => .ok (s.addOrHold p va pa n)

/-! ### The fault log (R279, R290, R291) -/

/-- The class byte of headers and records: the character code of the letter that R279 gives the class (log 25). -/
def FaultClass.code : FaultClass → Nat
  | .d => 0x44 | .s => 0x53 | .a => 0x41 | .u => 0x55 | .k => 0x4B | .b => 0x42 | .e => 0x45 | .v => 0x56 | .f => 0x46

/-- The fields of a fault-log record (R291). -/
structure LogRec where
  cause : Cause
  cls : FaultClass
  clamp : Bool := false
  transient : Bool := false
  tile : Option Nat := none
  task : Word64 := 0
  bundle : Nat := 0
  data : Nat := 0
  a : Nat := 0
  b : Nat := 0
  c : Nat := 0
deriving DecidableEq, Repr

/-- The logical number under which a tile's records are logged: that of a retired tile stays (R14, R264). -/
def State.logicalLog (s : State) (t : Nat) : Nat := ((s.logicalOf t).or (s.tile t).was).getD 0xFFFF

/-- The 64 bytes of a record; an event of no tile has logical tile and mesh 0xFFFF (R291, log 25). -/
def State.logBytes (s : State) (r : LogRec) : List Byte :=
  let logical := match r.tile with
    | some t => s.logicalLog t
    | none => 0xFFFF
  let mesh := match r.tile with
    | some t => (meshOf t).toNat
    | none => 0xFFFF
  leBytes 8 s.refTick ++ leBytes 1 r.cause.code.toNat ++ leBytes 1 r.cls.code
  ++ leBytes 2 (bitNat r.clamp + 2 * bitNat r.transient) ++ leBytes 2 logical ++ leBytes 2 mesh
  ++ leBytes 8 r.task.toNat ++ leBytes 8 r.bundle ++ leBytes 8 r.data ++ leBytes 8 r.a ++ leBytes 8 r.b
  ++ leBytes 8 r.c

/-- A record written to a partition's fault log on path H, where the log is on and translates; lwr
increments, and the log's counter takes 1 (R290, R291). A record whose cause and class have no code takes the bytes given. -/
def State.logAs (s : State) (p : Nat) (r : LogRec) (codes : Option (Byte × Byte)) : State :=
  let q := s.quads.getD p {}
  if q.llen == 0 then s
  else
    let va := q.lbase.toNat * 64 + 64 * (q.lwr.toNat % 2 ^ q.llen.toNat)
    let bs := s.logBytes r
    let bs := match codes with
      | some (c, f) => (bs.set 8 c).set 9 f
      | none => bs
    let s := match s.access p p va .write with
      | .ok l => s.lowWrite (cellsAt l.pa bs)
      | .error _ => s
    let s := { s with quads := updAt s.quads p fun q => { q with lwr := q.lwr + 1 } }
    if q.lctr == 0 then s
    else
      match s.counterAdd p p (q.lctr.toNat * 8) 1 with
      | .ok s' => s'
      | .error _ => s

/-- A record of a cause and a class written to a partition's fault log. -/
def State.log (s : State) (p : Nat) (r : LogRec) : State := s.logAs p r none

/-! ### Groups (R125, R126, R359) -/

/-- VA of a group's entry in the group table of its partition (R125). -/
def State.groupVa (s : State) (p g : Nat) : Nat := (s.quads.getD p {}).gbase.toNat * 65536 + 16 * g

/-- A group's count changed by one at the slice of its entry; a count that reaches 0 adds 1 to the group's drain counter,
publishing (R241). An update of a poisoned entry is dropped and logged (R126). -/
def State.groupApply (s : State) (p g : Nat) (up : Bool) (pa : Nat) : State :=
  if s.cohPoisoned (lineOf pa) then
    s.log p { cause := .eccUncorrectable, cls := .v, data := s.groupVa p g, b := g }
  else
    let old := leNat (s.cohBytes pa 4)
    let new := if up then min (old + 1) (2 ^ 32 - 1) else old - 1
    let drain := leNat (s.cohBytes (pa + 8) 8)
    if !up && old == 0 then s
    else
      let s := (s.stampLine (lineOf pa)).lowWrite (cellsAt pa (leBytes 4 new))
      if up || new != 0 || drain == 0 then s
      else
        match (s.writeBackAll p).counterAdd p p drain 1 with
        | .ok s' => s'
        | .error c => s.log p { cause := c, cls := .v, data := drain, b := g }

/-- An update of a group's count that no D-slot operation makes: as an `amo`, it waits at its slice behind a held line (R248,
R359). One whose entry cannot be reached is dropped and logged (R126). -/
def State.groupUpdate (s : State) (p g : Nat) (up : Bool) : State :=
  let va := s.groupVa p g
  match s.access p p va .both with
  | .error c => s.log p { cause := c, cls := .v, data := va, b := g }
  | .ok l =>
    if s.lineHeld none (lineOf l.pa) then
      { s with heldLines := s.heldLines ++
          [{ serial := s.serial, line := lineOf l.pa, pa := l.pa, part := p, op := .group none g up, va := va, l2 := !l.ms }]
               serial := s.serial + 1 }
    else (if l.ms then s else s.request p [lineOf l.pa]).groupApply p g up l.pa

/-- A record's groups counted, or a task removed from each group it holds (R126). -/
def State.groupsUpdate (s : State) (p : Nat) (gs : List (BitVec 16)) (up : Bool) : State :=
  gs.foldl (fun s g => if g == 0 then s else s.groupUpdate p g.toNat up) s

/-! ### Containment of a partition (R289) -/

/-- VA of a queue's descriptor (R127). -/
def State.queueVa (s : State) (quad n : Nat) : Nat := (s.quads.getD quad {}).qbase.toNat * 2048 + 32 * n

/-- A queue's status byte written; a queue whose descriptor cannot be reached stays as it is (R135). -/
def State.queueStatus (s : State) (quad n : Nat) (status : Nat) : State :=
  let va := s.queueVa quad n
  match s.access quad (s.partOf quad) va .both with
  | .error _ => s
  | .ok l =>
    if s.cohPoisoned (lineOf l.pa) || s.cohByte (l.pa + 9) == BitVec.ofNat 8 status then s
    else s.lowWrite [(l.pa + 9, BitVec.ofNat 8 status)]

/-- An enabled queue (R127). -/
def State.queueEnabled (s : State) (quad n : Nat) : Bool :=
  match s.access quad (s.partOf quad) (s.queueVa quad n) .read with
  | .error _ => false
  | .ok l => (s.cohByte (l.pa + 8)).getLsbD 7

/-- A partition fenced by a cause of class F: a record is logged, no tile commits further, pending paired blocks
are discarded, and its queues halt with status 6 (R289). -/
def State.fencePart (s : State) (p : Nat) (r : LogRec) : State :=
  if (s.parts.getD p {}).fenced.isSome then s
  else
    let s := s.log p { r with cls := .f }
    let s : State := { s with parts := updAt s.parts p fun x => { x with fenced := some r.cause } }
    let s := (s.tilesOf p).foldl (fun s t => s.modTile t fun x => { x with pairPend := [] }) s
    (s.quadsOf p).foldl (fun s q => (List.range 64).foldl (fun s n =>
      let s : State := { s with quads := updAt s.quads q fun x => { x with queues := updAt x.queues n fun y =>
        { y with awake := false, halted := true, rewritten := false } } }
      if s.queueEnabled q n then s.queueStatus q n 6 else s) s) s

/-- A partition that is fenced. -/
def State.fenced (s : State) (p : Nat) : Bool := (s.parts.getD p {}).fenced.isSome

end Sys2Proof.Machine
end

