-- ==== Sys2Proof/Machine/Context.lean ====
section
/-! DEFINITION. The sections of a context area as bytes, and the registers that they hold (spec 13 R285, R286). The table of R285
gives the sections and the fields named in the header; the places inside them that it leaves to the stepping are the model's
(log 16). -/

namespace Sys2Proof.Machine

open Host (Cell)

/-! ### The table of R285 -/

/-- Offset and size of the sections, in the order of the table. -/
def ctxTable : List (Nat × Nat) :=
  [(0, 0x1000), (0x1000, 0x1000), (0x2000, 0x2000), (0x4000, 0x4000), (0x8000, 0x4000), (0xC000, 0x4000), (0x10000, 0x2000),
   (0x12000, 0x6000), (0x18000, 0x24000), (0x3C000, 0x18000), (0x54000, 0x10000), (0x64000, 0x80000), (0xE4000, 0x45000)]

/-- Offset of a section. -/
def ctxAt (n : Nat) : Nat := (ctxTable.getD n (0, 0)).1

/-- Bytes of a section. -/
def ctxLen (n : Nat) : Nat := (ctxTable.getD n (0, 0)).2

/-- Places in the header: the group slots, the control state, the flags of the block, the pending target, the values forwarded by
responders with their presence bits (R277), and what belongs to the stepping. -/
def hdrGroups : Nat := 320
def hdrCtl : Nat := 328
def hdrFlags : Nat := 876
def hdrTaken : Nat := 880
def hdrReplies : Nat := 888
def hdrPriv : Nat := 2048

/-- The bytes of a save that belong to the stepping: free values of that save (R286, log 16). -/
def steppingBytes (mark off n : Nat) : List Byte := (List.range n).map fun i => Config.ctxByte mark (off + i)

/-- A signed value of a field of w bits. -/
def signedField (w x : Nat) : Int := if 2 ^ (w - 1) ≤ x % 2 ^ w then (x % 2 ^ w : Int) - 2 ^ w else x % 2 ^ w

/-! ### Registers as bytes -/

/-- Values of n bytes each, one after another. -/
def fieldsBytes (n : Nat) (xs : List Nat) : List Byte := (xs.map fun x => leBytes n x).flatten

/-- The c values of n bytes each from offset o. -/
def fieldsAt (bs : List Byte) (o n c : Nat) : List Nat := (List.range c).map fun i => byteField bs (o + n * i) n

/-- Elements of w bits packed from offset o of a byte image, as many as n bytes hold. -/
def packedAt (bs : List Byte) (o n w : Nat) : List Nat :=
  let x := byteField bs o n
  (List.range (8 * n / w)).map fun i => x / 2 ^ (w * i) % 2 ^ w

/-- Target buffers: the address with bit 0 as the valid bit. -/
def targetNat : Option Target → Nat
  | none => 0
  | some x => alignDown (x.addr % 2 ^ 52) 32 + 1

/-- A target buffer from its bytes; the prefetched copy is that of the old contents where the address is the same. -/
def targetOf (old : Option Target) (x : Nat) : Option Target :=
  if x % 2 == 0 then none
  else
    let a := alignDown (x % 2 ^ 52) 32
    some { addr := a, copy := old.bind fun y => if y.addr == a then y.copy else none }

/-- Loop state. -/
def loopBytes : Option Loop → List Byte
  | none => leBytes 40 0
  | some l => leBytes 8 (1 + 2 * bitNat l.armed) ++ fieldsBytes 8 [l.count, l.body, l.len, l.done]

/-- Loop state from its bytes. -/
def loopOf (bs : List Byte) (o : Nat) : Option Loop :=
  if byteField bs o 8 % 2 == 0 then none
  else some { armed := (byteField bs o 8).testBit 1, count := byteField bs (o + 8) 8, body := byteField bs (o + 16) 8
              len := byteField bs (o + 24) 8, done := byteField bs (o + 32) 8 }

/-- The pointers of a ring (R216). -/
def Ring.pointers (r : Ring) : List Byte :=
  fieldsBytes 1 [r.free, r.filled, r.acq, r.pub, r.get, r.rel, r.heldP, r.heldC] ++ fieldsBytes 4 [r.freed, r.published]

/-- A ring with its configuration and its pointers from bytes. -/
def Ring.restored (r : Ring) (cfg : Word64) (bs : List Byte) (o : Nat) : Ring :=
  let f (i : Nat) : Nat := byteField bs (o + i) 1
  { r with
    lslot := cfg.extractLsb' 40 5, lcount := cfg.extractLsb' 37 3, en := cfg.getLsbD 32, base := cfg.extractLsb' 7 13
    free := f 0, filled := f 1, acq := f 2, pub := f 3, get := f 4, rel := f 5, heldP := f 6, heldC := f 7
    freed := byteField bs (o + 8) 4, published := byteField bs (o + 12) 4 }

/-- The pointers of a drain queue, and the format and scale offset of its entries (R193). -/
def DrainQueue.pointers (q : DrainQueue) : List Byte :=
  fieldsBytes 1 [q.reserved, q.leaving, q.filled, q.head]
  ++ fieldsBytes 1 (q.entries.map fun e => e.fmt.toNat) ++ fieldsBytes 1 (q.entries.map fun e => (e.off % 256).toNat)

/-- A drain queue with its pointers from bytes. -/
def DrainQueue.restored (q : DrainQueue) (bs : List Byte) (o : Nat) : DrainQueue :=
  { reserved := byteField bs o 1, leaving := byteField bs (o + 1) 1, filled := byteField bs (o + 2) 1
    head := byteField bs (o + 3) 1
    entries := q.entries.zipIdx.map fun (e, i) =>
      { e with fmt := BitVec.ofNat 8 (byteField bs (o + 4 + i) 1), off := signedField 8 (byteField bs (o + 36 + i) 1) } }

/-- Target buffers, `bd` registers, loop state, ring and drain-queue pointers, and the shape of the boundary: 548 bytes. -/
def Regs.ctlBytes (r : Regs) : List Byte :=
  fieldsBytes 8 (r.b.map targetNat) ++ fieldsBytes 2 (r.bd.map (·.toNat)) ++ loopBytes r.loop
  ++ (r.rings.map Ring.pointers).flatten ++ (r.dqs.map DrainQueue.pointers).flatten
  ++ fieldsBytes 4 [r.bound.l, r.bound.f, r.bound.r]

/-- Registers with the control state that bytes hold, under ring configurations. -/
def Regs.withCtl (r : Regs) (cfgs : List Word64) (bs : List Byte) (o : Nat) : Regs :=
  { r with
    b := r.b.zipIdx.map fun (x, i) => targetOf x (byteField bs (o + 8 * i) 8)
    bd := (fieldsAt bs (o + 64) 2 16).map (BitVec.ofNat 16)
    loop := loopOf bs (o + 96)
    rings := r.rings.zipIdx.map fun (x, i) => x.restored (cfgs.getD i 0) bs (o + 136 + 16 * i)
    dqs := r.dqs.zipIdx.map fun (x, i) => x.restored bs (o + 264 + 68 * i)
    bound := { r.bound with
      l := byteField bs (o + 536) 4, f := byteField bs (o + 540) 4, r := byteField bs (o + 544) 4 } }

/-- The section of `s`, `q` and tags (R285). -/
def Regs.sSection (r : Regs) : List Byte :=
  fieldsBytes 8 (r.s.map (·.toNat)) ++ leBytes 8 (packElems 1 (r.q.map bitNat)) ++ fieldsBytes 4 (r.tags.map (·.toNat))

/-- Registers with that section. -/
def Regs.withS (r : Regs) (bs : List Byte) : Regs :=
  { r with
    s := (fieldsAt bs 0 8 64).map (BitVec.ofNat 64)
    q := (List.range 8).map fun n => (byteField bs 512 1).testBit n
    tags := (fieldsAt bs 520 4 256).map (BitVec.ofNat 32) }

/-- The section of `v`. -/
def Regs.vSection (r : Regs) : List Byte := fieldsBytes 512 (r.v.map (·.toNat))

/-- Registers with that section. -/
def Regs.withV (r : Regs) (bs : List Byte) : Regs := { r with v := (fieldsAt bs 0 512 32).map (BitVec.ofNat 4096) }

/-- One palette unit. -/
def PalUnit.bytes (u : PalUnit) : List Byte := vecBytes u.a ++ vecBytes u.res ++ fieldsBytes 8 [u.cfg.toNat, u.st.toNat]

/-- One palette unit from its bytes. -/
def palUnitOf (bs : List Byte) (o : Nat) : PalUnit :=
  { a := BitVec.ofNat 4096 (byteField bs o 512), res := BitVec.ofNat 4096 (byteField bs (o + 512) 512)
    cfg := BitVec.ofNat 64 (byteField bs (o + 1024) 8), st := BitVec.ofNat 64 (byteField bs (o + 1032) 8) }

/-- The palette. -/
def Palette.bytes (p : Palette) : List Byte :=
  ([p.qnt, p.trn, p.crc, p.hsh, p.top].map PalUnit.bytes).flatten
  ++ fieldsBytes 8 [p.crcState.toNat, p.key.toNat, p.nb.toNat, p.k, p.fmt.toNat, p.base, p.count, p.best.length]
  ++ (p.best.map fun x => fieldsBytes 8 [x.1, x.2]).flatten

/-- The palette from its bytes. -/
def paletteOf (bs : List Byte) (o : Nat) : Palette :=
  let w (i : Nat) : Nat := byteField bs (o + 5200 + 8 * i) 8
  { qnt := palUnitOf bs o, trn := palUnitOf bs (o + 1040), crc := palUnitOf bs (o + 2080), hsh := palUnitOf bs (o + 3120)
    top := palUnitOf bs (o + 4160)
    crcState := BitVec.ofNat 32 (w 0), key := BitVec.ofNat 64 (w 1), nb := BitVec.ofNat 32 (w 2), k := w 3
    fmt := BitVec.ofNat 8 (w 4), base := w 5, count := w 6
    best := (List.range (min (w 7) 16)).map fun i => (w (8 + 2 * i), w (9 + 2 * i)) }

/-- One mask stack in 1 KiB, the top first. -/
def stackBytes (st : List MaskEntry) : List Byte :=
  (fieldsBytes 64 (st.map fun e : BitVec 512 => e.toNat) ++ List.replicate 1024 0).take 1024

/-- Mask stacks 2 KiB, palette state 10 KiB, running scale offsets 768 bytes (R202); and the depths of the stacks. -/
def Regs.unitSection (r : Regs) : List Byte :=
  stackBytes r.maskA ++ stackBytes r.maskB
  ++ (r.pal.bytes ++ List.replicate 10240 0).take 10240
  ++ leBytes 768 (packElems 6 ((List.range 1024).map fun t => (((assoc r.scaleOff t).getD 0) % 64).toNat))
  ++ fieldsBytes 1 [r.maskA.length, r.maskB.length]

/-- Registers with that section. -/
def Regs.withUnits (r : Regs) (bs : List Byte) : Regs :=
  let stack (o d : Nat) : List MaskEntry := (fieldsAt bs o 64 (min d 16)).map fun x => BitVec.ofNat 512 x
  { r with
    maskA := stack 0 (byteField bs 13056 1), maskB := stack 1024 (byteField bs 13057 1)
    pal := paletteOf bs 2048
    scaleOff := (packedAt bs 12288 768 6).zipIdx.filterMap fun (x, t) => if x == 0 then none else some (t, signedField 6 x) }

/-- The accumulators, 18 KiB each. -/
def Regs.aSection (r : Regs) : List Byte :=
  (r.a.map fun x => leBytes 18432 (packElems 36 (x.elems.map (·.toNat)))).flatten

/-- Registers with that section. -/
def Regs.withA (r : Regs) (bs : List Byte) : Regs :=
  { r with a := r.a.zipIdx.map fun (x, i) => { x with elems := (packedAt bs (18432 * i) 18432 36).map (BitVec.ofNat 36) } }

/-- The boundary buffer. -/
def Regs.boundSection (r : Regs) : List Byte := leBytes 98304 (packElems 36 (r.bound.elems.map (·.toNat)))

/-- Registers with that section, under the shape that the boundary has. -/
def Regs.withBound (r : Regs) (bs : List Byte) : Regs :=
  { r with bound := { r.bound with
      elems := ((packedAt bs 0 98304 36).take (r.bound.l * r.bound.f * r.bound.r)).map (BitVec.ofNat 36) } }

/-- The drain queues' entry data, 16 KiB each (R193). -/
def Regs.dqSection (r : Regs) : List Byte :=
  (r.dqs.map fun q => fieldsBytes 512 (q.entries.map fun e => e.data.toNat)).flatten

/-- Registers with that section. -/
def Regs.withDq (r : Regs) (bs : List Byte) : Regs :=
  { r with dqs := r.dqs.zipIdx.map fun (q, j) => { q with entries := q.entries.zipIdx.map fun (e, i) =>
      { e with data := BitVec.ofNat 4096 (byteField bs (16384 * j + 512 * i) 512) } } }

/-- The stash offset that the section of the ring areas begins with. -/
def ringStart : Nat := 0x40000

/-- The areas of the enabled rings: the stash offset and the bytes of each. -/
def Regs.ringAreas (r : Regs) : List (Nat × Nat) :=
  (r.rings.filter fun x => x.en).map fun x => (x.base.toNat * 128, 2 ^ x.lcount.toNat * 2 ^ x.lslot.toNat)

/-- The addresses of the locked lines, with all ones in the entries that hold none (log 16). -/
def lockedBytes (lines : List Nat) : List Byte :=
  fieldsBytes 8 ((List.range 1024).map fun i => match lines[i]? with
    | some l => l * 128
    | none => 2 ^ 64 - 1)

/-- The locked lines that such a section names. -/
def lockedOf (bs : List Byte) : List Nat :=
  ((fieldsAt bs 0 8 1024).filter fun x => x % 128 == 0).map (· / 128)

/-- The control registers that a checkpoint keeps: 80 bytes. -/
def Regs.cregBytes (r : Regs) (cfgs : List Word64) : List Byte :=
  fieldsBytes 2 [r.vshape.toNat, r.round.toNat, r.fpflags.toNat, r.fptrap.toNat, bitNat r.debug, r.pbound.toNat, r.uflow.toNat,
    r.oflow.toNat]
  ++ fieldsBytes 8 (cfgs.map (·.toNat))

/-- Registers with those control registers. -/
def Regs.withCregs (r : Regs) (bs : List Byte) (o : Nat) : Regs :=
  let f (i : Nat) : Nat := byteField bs (o + 2 * i) 2
  { r with
    vshape := BitVec.ofNat 16 (f 0), round := BitVec.ofNat 3 (f 1), fpflags := BitVec.ofNat 6 (f 2)
    fptrap := BitVec.ofNat 6 (f 3), debug := (f 4).testBit 0, pbound := BitVec.ofNat 16 (f 5)
    uflow := BitVec.ofNat 13 (f 6), oflow := BitVec.ofNat 13 (f 7) }

/-! ### The checkpoint (R175, R285) -/

/-- Places in the checkpoint: the section of `s` with the control state and the control registers behind it, then the other
sections in their order. -/
def ckCtl : Nat := 0x800
def ckCregs : Nat := 0xC00
def ckV : Nat := 0x1000
def ckUnits : Nat := 0x5000
def ckA : Nat := 0x9000
def ckBound : Nat := 0x2D000

/-- Bytes followed by zeros up to a length. -/
def padTo (n : Nat) (bs : List Byte) : List Byte := bs ++ List.replicate (n - bs.length) 0

/-- The checkpoint of a block, under the ring configurations that it holds. -/
def Regs.ckptSection (r : Regs) (cfgs : List Word64) : List Byte :=
  padTo ckV (padTo ckCregs (padTo ckCtl r.sSection ++ r.ctlBytes) ++ r.cregBytes cfgs)
  ++ r.vSection ++ padTo 0x4000 r.unitSection ++ r.aSection ++ r.boundSection

/-- The checkpoint that bytes hold. -/
def Regs.withCkpt (r : Regs) (bs : List Byte) : Regs :=
  let cfgs := (fieldsAt bs (ckCregs + 16) 8 8).map (BitVec.ofNat 64)
  let r := (((r.withS bs).withCtl cfgs bs ckCtl).withCregs bs ckCregs).withV (bs.drop ckV)
  ((r.withUnits (bs.drop ckUnits)).withA (bs.drop ckA)).withBound (bs.drop ckBound)

/-- An HCW table of 512 entries (R60). -/
def hcwTable (xs : List Word256) : List Word256 := (List.range 512).map fun i => xs.getD i 0

/-- The entries of the `.hcw` section of a task's kernel (R60, R301). -/
def State.hcwOf (s : State) (p : Nat) (id : BitVec 16) : List Word256 :=
  match s.kernel p id with
  | some x => x.hcw
  | none => []

end Sys2Proof.Machine
end

