-- ==== Sys2Proof/Machine/Flags.lean ====
section
/-! DEFINITION. The arithmetic flags of `cr.fpflags` and the causes they trap with (spec 02 R34, R35). -/

namespace Sys2Proof.Machine

/-- The flags an operation raises, in the layout of `cr.fpflags` [5:0] (R34). -/
abbrev FpFlags := BitVec 6

/-- Invalid (R34). -/
def FpFlags.nv : FpFlags := 0b000001
/-- Overflow; it always raises inexact too (R35). -/
def FpFlags.ofx : FpFlags := 0b010100
/-- Underflow (R30). -/
def FpFlags.uf : FpFlags := 0b001000
/-- Inexact. -/
def FpFlags.nx : FpFlags := 0b010000
/-- Integer overflow (R32). -/
def FpFlags.io : FpFlags := 0b100000
/-- Bits 1 and 63:6 are reserved (R34). -/
def FpFlags.legal : FpFlags := 0b111101

/-- The flag `f` where `b` holds. -/
def FpFlags.when (b : Bool) (f : FpFlags) : FpFlags := if b then f else 0

/-- The cause of the lowest set bit (R34, R35). -/
def FpFlags.lowestCause (f : FpFlags) : Option Cause :=
  if f.getLsbD 0 then some .fpInvalid
  else if f.getLsbD 2 then some .fpOverflow
  else if f.getLsbD 3 then some .fpUnderflow
  else if f.getLsbD 4 then some .fpInexact
  else if f.getLsbD 5 then some .intOverflow
  else none

/-- The trap that flags raise under the enables of `cr.fptrap` (R35). -/
def fpTrapCause (raised enables : FpFlags) : Option Cause := (raised &&& enables).lowestCause

end Sys2Proof.Machine
end

