-- ==== Sys2Proof/Machine/Float.lean ====
section
/-! DEFINITION. Format codes, exact values, rounding, conversion and floating arithmetic (spec 02 R18-R44). -/

namespace Sys2Proof.Machine

/-! ### Formats -/

/-- The rounding modes of R27. -/
inductive Round where
  | rne | rtz | rdn | rup | rna
deriving DecidableEq, Repr

/-- The mode of a three-bit code (R27). -/
def roundOf (c : BitVec 3) : Option Round :=
  match c with
  | 1#3 => some .rne
  | 2#3 => some .rtz
  | 3#3 => some .rdn
  | 4#3 => some .rup
  | 5#3 => some .rna
  | _ => none

/-- A floating format: sign, exponent and fraction bits, bias, whether it has infinities, and whether it
is one of the P3109 formats of R23 or an IEEE one of R21. -/
structure FloatFmt where
  signed : Bool
  ebits : Nat
  fbits : Nat
  bias : Int
  hasInf : Bool
  p3109 : Bool
deriving DecidableEq, Repr

/-- An element format (R18). -/
inductive Format where
  | float (f : FloatFmt)
  | int (width : Nat) (signed : Bool)
deriving DecidableEq, Repr

def fp32 : FloatFmt := ⟨true, 8, 23, 127, true, false⟩
def bf16 : FloatFmt := ⟨true, 8, 7, 127, true, false⟩
def fp16 : FloatFmt := ⟨true, 5, 10, 15, true, false⟩
def a36 : FloatFmt := ⟨true, 9, 26, 255, true, false⟩

/-- A P3109 format: unsigned, infinities, precision (R18, R23). -/
def p3109Fmt (uns inf : Bool) (p : Nat) : FloatFmt :=
  let e := if uns then 9 - p else 8 - p
  ⟨!uns, e, p - 1, 2 ^ (e - 1), inf, true⟩

/-- The code of A36 (R18). -/
def a36Code : BitVec 8 := 0x20

/-- The format of a code; none for an invalid one (R18, R19). A36 is not among them: it stands only
where an accumulator does. -/
def formatOf (c : BitVec 8) : Option Format :=
  match c with
  | 0x01#8 => some (.float fp32)
  | 0x02#8 => some (.float bf16)
  | 0x03#8 => some (.float fp16)
  | 0x08#8 => some (.int 8 true)
  | 0x09#8 => some (.int 8 false)
  | 0x0A#8 => some (.int 16 true)
  | 0x0B#8 => some (.int 16 false)
  | 0x0C#8 => some (.int 32 true)
  | 0x0D#8 => some (.int 4 true)
  | 0x0E#8 => some (.int 4 false)
  | _ =>
    if c.extractLsb' 5 3 == 0b100#3 && c.extractLsb' 0 3 != 0#3 then
      some (.float (p3109Fmt (c.getLsbD 4) (c.getLsbD 3) (c.extractLsb' 0 3).toNat))
    else none

/-- Bits of an encoding of a floating format. -/
def FloatFmt.width (f : FloatFmt) : Nat := (if f.signed then 1 else 0) + f.ebits + f.fbits

/-- Bits of an element. -/
def Format.width : Format → Nat
  | .float f => f.width
  | .int w _ => w

def Format.isFloat : Format → Bool
  | .float _ => true
  | .int _ _ => false

/-! ### Exact values -/

/-- What an encoding stands for: a number (−1)^neg · m · 2^e, an infinity or a NaN. -/
inductive Val where
  | fin (neg : Bool) (m : Nat) (e : Int)
  | inf (neg : Bool)
  | nan (signalling : Bool)
deriving DecidableEq, Repr

/-- The greatest finite code without its sign (R21, R24). -/
def FloatFmt.maxCode (f : FloatFmt) : Nat :=
  if f.p3109 then
    if f.signed then (if f.hasInf then 0x7E else 0x7F) else (if f.hasInf then 0xFD else 0xFE)
  else (2 ^ f.ebits - 1) * 2 ^ f.fbits - 1

/-- The canonical NaN (R21, R24). -/
def FloatFmt.nanCode (f : FloatFmt) : Nat :=
  if f.p3109 then (if f.signed then 0x80 else 0xFF)
  else (2 ^ f.ebits - 1) * 2 ^ f.fbits + 2 ^ (f.fbits - 1)

/-- The sign bit of a code, where the format has one. -/
def FloatFmt.signCode (f : FloatFmt) (neg : Bool) : Nat :=
  if neg && f.signed then 2 ^ (f.ebits + f.fbits) else 0

/-- An infinity's code (R21, R24). -/
def FloatFmt.infCode (f : FloatFmt) (neg : Bool) : Nat := f.maxCode + 1 + f.signCode neg

/-- The least exponent of a normal number. -/
def FloatFmt.emin (f : FloatFmt) : Int := 1 - f.bias

/-- The value of a code (R21, R23, R24). -/
def FloatFmt.decode (f : FloatFmt) (c : Nat) : Val :=
  let neg := f.signed && c.testBit (f.ebits + f.fbits)
  let mag := if f.signed then c % 2 ^ (f.ebits + f.fbits) else c
  let e := mag / 2 ^ f.fbits
  let fr := mag % 2 ^ f.fbits
  let number : Val :=
    if e == 0 then .fin neg fr (f.emin - f.fbits)
    else .fin neg (2 ^ f.fbits + fr) (e - f.bias - f.fbits)
  if f.p3109 then
    if c == f.nanCode then .nan false
    else if f.hasInf && mag == f.maxCode + 1 then .inf neg
    else number
  else if e == 2 ^ f.ebits - 1 then
    if fr == 0 then .inf neg else .nan (!fr.testBit (f.fbits - 1))
  else number

/-- The value of an integer code. -/
def intDecode (w : Nat) (signed : Bool) (c : Nat) : Int :=
  if signed && c.testBit (w - 1) then (c : Int) - 2 ^ w else c

/-- An integer's code, its low bits (R32). -/
def intEncode (w : Nat) (v : Int) : Nat := (v % 2 ^ w).toNat

/-- The least integer of a format. -/
def intMin (w : Nat) (signed : Bool) : Int := if signed then -(2 ^ (w - 1)) else 0

/-- The greatest integer of a format. -/
def intMax (w : Nat) (signed : Bool) : Int := if signed then 2 ^ (w - 1) - 1 else 2 ^ w - 1

/-- A value clamped to a range. -/
def clampInt (lo hi v : Int) : Int := if v < lo then lo else if hi < v then hi else v

/-- An exact integer as a value. -/
def Val.ofInt (v : Int) : Val := .fin (decide (v < 0)) v.natAbs 0

/-- The value of an element of a format. -/
def Format.decode (f : Format) (c : Nat) : Val :=
  match f with
  | .float g => g.decode c
  | .int w s => Val.ofInt (intDecode w s c)

/-! ### Rounding -/

/-- Whether a magnitude between two neighbours takes the upper one: `rem` of `2 ^ d` is left over and
`odd` says that the lower neighbour's code is odd (R27). -/
def roundsUp (mode : Round) (neg odd : Bool) (rem d : Nat) : Bool :=
  if rem == 0 then false
  else
    match mode with
    | .rne => decide (2 ^ d < 2 * rem) || (2 * rem == 2 ^ d && odd)
    | .rna => decide (2 ^ d ≤ 2 * rem)
    | .rtz => false
    | .rdn => neg
    | .rup => !neg

/-- The integer part of m · 2^e at the quantum 2^q, and what is left over as a fraction of 2^d. -/
def quantise (m : Nat) (e q : Int) : Nat × Nat × Nat :=
  if q ≤ e then (m * 2 ^ (e - q).toNat, 0, 0)
  else
    let d := (q - e).toNat
    (m / 2 ^ d, m % 2 ^ d, d)

/-- An overflowing magnitude (R29). -/
def FloatFmt.overflow (f : FloatFmt) (mode : Round) (sat neg : Bool) : Nat :=
  let big := f.maxCode + f.signCode neg
  let none := if f.hasInf then f.infCode neg else f.nanCode
  if sat then big
  else
    match mode with
    | .rne | .rna => none
    | .rtz => big
    | .rdn => if neg then none else big
    | .rup => if neg then big else none

/-- Whether a tie goes up from the value with this exponent and code: to the even fraction, or, where the format has no
fraction, as the free value says, for zero that of the least exponent (R27, log 23). -/
def FloatFmt.odd (f : FloatFmt) (ex code : Int) : Bool := if f.fbits == 0 then Config.tieUp ex else code % 2 == 1

/-- `RoundTo(fmt, mode, v)` with the saturation of R29 and the flags of R29 and R30. The tie between zero and the least number of a
format of precision 1 is that between the least number and its double (log 23). -/
def roundTo (f : FloatFmt) (mode : Round) (sat : Bool) (v : Val) : Nat × FpFlags :=
  match v with
  | .nan sig => (f.nanCode, FpFlags.when sig .nv)
  | .inf neg =>
    if neg && !f.signed then (if sat then (0, .nx) else (f.nanCode, .nv))
    else if f.hasInf then (f.infCode neg, 0)
    else if sat then (f.maxCode + f.signCode neg, 0)
    else (f.nanCode, .nv)
  | .fin neg m e =>
    if m == 0 then (if f.p3109 then 0 else f.signCode neg, 0)
    else if neg && !f.signed && sat then (0, .nx)
    else
      let top : Int := e + Nat.log2 m
      let ex := max top f.emin
      let base : Int := (ex - f.emin) * 2 ^ f.fbits
      let (k, rem, d) := quantise m e (ex - f.fbits)
      let up := roundsUp mode neg (f.odd ex (base + k)) rem d
      let code := (base + k).toNat + if up then 1 else 0
      -- the same value rounded with an unbounded exponent (R30)
      let (k', rem', d') := quantise m e (top - f.fbits)
      let up' := roundsUp mode neg (f.odd top ((top - f.emin) * 2 ^ f.fbits + k')) rem' d'
      let carries := up' && k' + 1 == 2 ^ (f.fbits + 1)
      let tiny := decide (top < f.emin) && !(carries && top + 1 == f.emin)
      let nx := rem != 0
      if f.maxCode < code then
        if neg && !f.signed then (f.nanCode, .nv)
        else (f.overflow mode sat neg, .ofx)
      else if code == 0 then
        (if f.p3109 then 0 else f.signCode neg,
          FpFlags.when nx .nx ||| FpFlags.when (nx && tiny) .uf)
      else if neg && !f.signed then (f.nanCode, .nv)
      else (code + f.signCode neg, FpFlags.when nx .nx ||| FpFlags.when (nx && tiny) .uf)

/-- A finite value rounded to an integer by the mode, and whether that changed it (R31). -/
def roundToInt (mode : Round) (neg : Bool) (m : Nat) (e : Int) : Int × Bool :=
  let (k, rem, d) := quantise m e 0
  let up := roundsUp mode neg (k % 2 == 1) rem d
  let a : Int := (k + if up then 1 else 0 : Nat)
  (if neg then -a else a, rem != 0)

/-- A value converted to an integer format (R31). -/
def toIntFmt (w : Nat) (signed : Bool) (mode : Round) (sat : Bool) (v : Val) : Nat × FpFlags :=
  match v with
  | .nan _ => (0, .nv)
  | .inf neg =>
    (intEncode w (if neg then intMin w signed else intMax w signed), if sat then .nx else .nv)
  | .fin neg m e =>
    let (i, nx) := roundToInt mode neg m e
    let c := clampInt (intMin w signed) (intMax w signed) i
    (intEncode w c, if c == i then FpFlags.when nx .nx else if sat then .nx else .nv)

/-- One element converted from one format to another (R31). An integer that goes to a format that is neither wider nor narrower,
or that does not hold its value, keeps its low bits, or clamps with io under saturation: the model's choice (log 77). -/
def convert (src dst : Format) (mode : Round) (sat : Bool) (c : Nat) : Nat × FpFlags :=
  match src, dst with
  | .int w s, .int w' s' =>
    let v := intDecode w s c
    if sat then
      let k := clampInt (intMin w' s') (intMax w' s') v
      (intEncode w' k, FpFlags.when (k != v) .io)
    else (intEncode w' v, 0)
  | _, .float g => roundTo g mode sat (src.decode c)
  | _, .int w s => toIntFmt w s mode sat (src.decode c)

/-! ### Exact arithmetic -/

/-- Signed significand. -/
def signedMant (neg : Bool) (m : Nat) : Int := if neg then -(m : Int) else m

/-- m · 2^e over the quantum 2^q, for q ≤ e. -/
def scaleTo (neg : Bool) (m : Nat) (e q : Int) : Int := signedMant neg m * 2 ^ (e - q).toNat

def Val.isNan : Val → Bool
  | .nan _ => true
  | _ => false

def Val.isSnan : Val → Bool
  | .nan s => s
  | _ => false

def Val.negate : Val → Val
  | .fin n m e => .fin (!n) m e
  | .inf n => .inf (!n)
  | .nan s => .nan s

def Val.magnitude : Val → Val
  | .fin _ m e => .fin false m e
  | .inf _ => .inf false
  | .nan s => .nan s

def Val.isNeg : Val → Bool
  | .fin n _ _ => n
  | .inf n => n
  | .nan _ => false

def Val.isZero : Val → Bool
  | .fin _ m _ => m == 0
  | _ => false

/-- The exact sum, with the invalid flag. An exact zero of unlike signs is +0, and −0 toward −∞. -/
def Val.add (mode : Round) (x y : Val) : Val × FpFlags :=
  match x, y with
  | .nan s, .nan t => (.nan false, FpFlags.when (s || t) .nv)
  | .nan s, _ | _, .nan s => (.nan false, FpFlags.when s .nv)
  | .inf n, .inf k => if n == k then (.inf n, 0) else (.nan false, .nv)
  | .inf n, _ | _, .inf n => (.inf n, 0)
  | .fin n m e, .fin n' m' e' =>
    let q := min e e'
    let t := scaleTo n m e q + scaleTo n' m' e' q
    if t == 0 then (.fin (if n == n' then n else mode == .rdn) 0 q, 0)
    else (.fin (decide (t < 0)) t.natAbs q, 0)

/-- The exact product, with the invalid flag. -/
def Val.mul (x y : Val) : Val × FpFlags :=
  match x, y with
  | .nan s, .nan t => (.nan false, FpFlags.when (s || t) .nv)
  | .nan s, _ | _, .nan s => (.nan false, FpFlags.when s .nv)
  | .inf n, .inf k => (.inf (n != k), 0)
  | .inf n, .fin k m _ | .fin k m _, .inf n => if m == 0 then (.nan false, .nv) else (.inf (n != k), 0)
  | .fin n m e, .fin n' m' e' => (.fin (n != n') (m * m') (e + e'), 0)

/-- x · 2^k exactly. -/
def Val.scale (x : Val) (k : Int) : Val :=
  match x with
  | .fin n m e => .fin n m (e + k)
  | v => v

/-- x < y for numbers, infinities included; false for a NaN. Zeros of both signs are equal here. -/
def Val.lt (x y : Val) : Bool :=
  match x, y with
  | .nan _, _ | _, .nan _ => false
  | .inf n, .inf k => n && !k
  | .inf n, .fin _ _ _ => n
  | .fin _ _ _, .inf k => !k
  | .fin n m e, .fin n' m' e' =>
    let q := min e e'
    decide (scaleTo n m e q < scaleTo n' m' e' q)

/-- x = y as numbers. -/
def Val.same (x y : Val) : Bool := !x.isNan && !y.isNan && !x.lt y && !y.lt x

/-- The sum of two elements, rounded once. -/
def floatAdd (f : FloatFmt) (mode : Round) (sat : Bool) (a b : Val) : Nat × FpFlags :=
  let (v, g) := Val.add mode a b
  let (c, h) := roundTo f mode sat v
  (c, g ||| h)

/-- The product of two elements, rounded once. -/
def floatMul (f : FloatFmt) (mode : Round) (sat : Bool) (a b : Val) : Nat × FpFlags :=
  let (v, g) := Val.mul a b
  let (c, h) := roundTo f mode sat v
  (c, g ||| h)

/-- a × b + c rounded once (R44). -/
def floatFma (f : FloatFmt) (mode : Round) (sat : Bool) (a b c : Val) : Nat × FpFlags :=
  let (p, g) := Val.mul a b
  let (v, g') := Val.add mode p c
  let (r, h) := roundTo f mode sat v
  (r, g ||| g' ||| FpFlags.when c.isSnan .nv ||| h)

/-- The smaller (`wantMax` false) or larger of two elements, −0 below +0, with the NaN rules of R33;
`num` selects the `vminn`, `vmaxn` column. -/
def floatMinMax (f : FloatFmt) (wantMax num : Bool) (a b : Nat) : Nat × FpFlags :=
  let x := f.decode a
  let y := f.decode b
  let g := FpFlags.when (x.isSnan || y.isSnan) .nv
  if x.isNan && y.isNan then (f.nanCode, g)
  else if x.isNan then (if num then b else f.nanCode, g)
  else if y.isNan then (if num then a else f.nanCode, g)
  else
    let xLess := x.lt y || (x.same y && x.isNeg && !y.isNeg)
    (if xLess != wantMax then a else b, 0)

/-- Minimum or maximum of two integer elements under a signed or unsigned reading. -/
def intMinMax (w : Nat) (signed wantMax : Bool) (a b : Nat) : Nat :=
  if decide (intDecode w signed a < intDecode w signed b) != wantMax then a else b

/-- A comparison of R86 on two floating elements; ltu and geu never reach it. -/
def floatCond (c : Cond) (x y : Val) : Bool :=
  match c with
  | .eq => x.same y
  | .ne => !x.same y
  | .lt | .ltu => x.lt y
  | .ge | .geu => !x.isNan && !y.isNan && !x.lt y

/-- A comparison of R86 on two integers of w bits. -/
def intCond (c : Cond) (w : Nat) (a b : Nat) : Bool :=
  match c with
  | .eq => a == b
  | .ne => a != b
  | .lt => decide (intDecode w true a < intDecode w true b)
  | .ge => decide (intDecode w true b ≤ intDecode w true a)
  | .ltu => decide (a < b)
  | .geu => decide (b ≤ a)

/-- A pairwise tree over values, an odd last one passing up unchanged (R39, R40); `n` bounds the
levels. -/
def pairTree {α : Type} (node : α → α → α) : Nat → List α → List α
  | 0, xs => xs
  | n + 1, xs =>
    let rec level : List α → List α
      | a :: b :: rest => node a b :: level rest
      | rest => rest
    match xs with
    | [] => []
    | [x] => [x]
    | xs => pairTree node n (level xs)

/-- An FP32 sum with RNE, as the reduction engine and deposits compute it (R40). -/
def fp32Sum (a b : Nat) : Nat := (floatAdd fp32 .rne false (fp32.decode a) (fp32.decode b)).1

/-- One output element of an `mma` of floating operands: the exact sum of the accumulator and the
products, rounded once to A36; with its flags (R37). -/
def mmaFloat (acc : Val) (ps : List (Val × Val)) : Nat × FpFlags :=
  let prods := ps.map fun (a, b) => Val.mul a b
  let bad := acc.isNan || prods.any fun (v, _) => v.isNan
  let infs := (acc :: prods.map (·.1)).filterMap fun v => match v with
    | .inf n => some n
    | _ => none
  if bad || (infs.contains true && infs.contains false) then (a36.nanCode, .nv)
  else
    match infs with
    | n :: _ => (a36.infCode n, 0)
    | [] =>
      let terms := (acc :: prods.map (·.1)).filterMap fun v => match v with
        | .fin n m e => some (n, m, e)
        | _ => none
      let q := terms.foldl (fun q (_, m, e) => if m == 0 then q else min q e) (0 : Int)
      let s := terms.foldl (fun t (n, m, e) => if m == 0 then t else t + scaleTo n m e q) (0 : Int)
      let allNeg := terms.all fun (n, _, _) => n
      let v : Val := if s == 0 then .fin allNeg 0 q else .fin (decide (s < 0)) s.natAbs q
      let (c, g) := roundTo a36 .rne false v
      (c, g &&& .ofx &&& FpFlags.when (g.getLsbD 2) .ofx)

/-- One output element of an `mma` of integer operands (R37). -/
def mmaInt (acc : Int) (ps : List (Int × Int)) : Nat × FpFlags :=
  let s := ps.foldl (fun t (a, b) => t + a * b) acc
  let c := clampInt (-(2 ^ 35)) (2 ^ 35 - 1) s
  (intEncode 36 c, FpFlags.when (c != s) .io)

end Sys2Proof.Machine
end

