-- ==== Sys2Proof/Machine/Lineage.lean ====
section
/-! DEFINITION. The registers that an operation names, as its encoding alone gives them: what it reads and writes, and its
place in the fold (spec 03 R57, R72; 08 R165-R167). -/

namespace Sys2Proof.Machine

/-- bank << 6 | number (R165). -/
def Reg.code : Reg → Nat
  | .s n => n.toNat
  | .v n => 64 + n.toNat
  | .a n => 128 + n.toNat
  | .q n => 192 + n.toNat
  | .b n => 192 + 8 + n.toNat
  | .mask .va => 192 + 16
  | .mask .vb => 192 + 17
  | .bd n => 192 + 32 + n.toNat
  | .g n => 192 + 48 + n.toNat
  | .dq n => 192 + 56 + n.toNat

/-! ### Operands of control words -/

/-- The register a field of a control word names, after rotation (R57). -/
def hcwReg (u : FieldUse) (f : BitVec 6) (reloc : Bool) (rot : BitVec 5) : Option Reg :=
  let r6 : BitVec 6 := if reloc then rot.setWidth 6 else 0
  match u with
  | .s => some (.s (f + r6))
  | .v => some (.v (f.setWidth 5 + r6.setWidth 5))
  | .q => some (.q (f.setWidth 3 + r6.setWidth 3))
  | .none | .cc | .table => none

end Sys2Proof.Machine

namespace Sys2Proof

open Machine

/-- The destination of a control word. -/
def Hcw.dstReg (h : Hcw) (r : HcwRow) (rot : BitVec 5) : Option Reg :=
  hcwReg r.dst h.dst (h.reloc.getLsbD 3) rot

/-- The three sources of a control word in their positions; an immediate takes source 2's (R166). -/
def Hcw.srcRegs (h : Hcw) (r : HcwRow) (rot : BitVec 5) : List (Option Reg) :=
  [hcwReg r.src1 h.src1 (h.reloc.getLsbD 2) rot,
   if h.imm then none else hcwReg r.src2 h.src2 (h.reloc.getLsbD 1) rot,
   hcwReg r.src3 h.src3 (h.reloc.getLsbD 0) rot]

/-- class << 8 | opcode (R72). -/
def HcwRow.opc (r : HcwRow) : Nat := r.cls.toNat * 256 + r.op.toNat

/-- The predicate register of a control word (R58). -/
def Hcw.predReg (h : Hcw) : Option Reg := if h.pen then some (.q h.pq) else none


end Sys2Proof

namespace Sys2Proof.Machine

/-- The mask unit that governs a slot (R159): a syllable's own; the VA position's for the L slot. -/
def maskUnitOf : Slot → MaskUnit
  | .vb => .vb
  | _ => .va

/-! ### The D slot -/

/-- Opcode, destination and tag sources of a D-slot operation (R72, R166). -/
structure DSpec where
  opc : Nat
  dest : Option Reg
  srcs : List (Option Reg)
deriving DecidableEq, Repr

/-- The lineage of a D-slot operation, as its reference entry gives it. -/
def dSpec : Instr → DSpec
  | .cpy _ _ c => ⟨0x01, none, [some (.s c), none, none]⟩
  | .msub g _ n => ⟨0x02, none, [some (.g g), some (.s n), none]⟩
  | .mret g _ n => ⟨0x03, none, [some (.g g), some (.s n), none]⟩
  | .cadd a n => ⟨0x04, none, [some (.s a), some (.s n), none]⟩
  | .caddImm a _ => ⟨0x04, none, [some (.s a), none, none]⟩
  | .cwait a t m _ => ⟨0x05, none, [some (.s a), some (.s t), some (.s m)]⟩
  | .cread d a => ⟨0x06, some (.s d), [some (.s a), none, none]⟩
  | .amo op _ d a n => ⟨0x07, some (.s d), [some (.s a), some (.s n),
      if op == .cas then some (.s (n + 1)) else none]⟩
  | .amoc _ _ d a n => ⟨0x08, some (.s d), [some (.s a), some (.s n), some (.s (n + 1))]⟩
  | .mred p c => ⟨0x09, none, [some (.s p), some (.s c), none]⟩
  | .fence _ _ => ⟨0x0A, none, [none, none, none]⟩
  | .spawn a => ⟨0x0B, none, [some (.s a), none, none]⟩
  | .join _ => ⟨0x0C, none, [none, none, none]⟩
  | .leave _ => ⟨0x0D, none, [none, none, none]⟩
  | .tdef _ d => ⟨0x0E, none, [some (.s d), none, none]⟩
  | .tdrop _ => ⟨0x0F, none, [none, none, none]⟩
  | .nsend _ _ a l => ⟨0x10, none, [some (.s a), some (.s l), none]⟩
  | .nrecv _ _ a l => ⟨0x11, none, [some (.s a), some (.s l), none]⟩
  | .nsendq _ _ dq => ⟨0x12, none, [some (.dq dq), none, none]⟩
  | _ => ⟨0, none, [none, none, none]⟩

/-- The registers that a D-slot operation reads beyond its third source; they give its tag nothing (R166, R346). -/
def dMore : Instr → List Reg
  | .cwait _ _ m b => [.s (m + 1), .b b]
  | _ => []

/-- The row of an operation that a control word issues. -/
def Instr.hcwRow (i : Instr) : HcwRow := i.row.getD (sRow 0 .none .none .none .none)

/-! ### Every operation (R72-R74, R105, R166, R167) -/

/-- What an operation reads, writes and folds. -/
structure Lineage where
  opc : Nat
  dests : List Reg := []
  srcs : List (Option Reg) := []
  pq : Option Reg := none
  more : List Reg := []
deriving DecidableEq, Repr

/-- The lineage of a control word in a syllable position with a rotation. -/
def hcwLineage (u : MaskUnit) (rot : BitVec 5) (i : Instr) (h : Hcw) : Lineage :=
  let r := Instr.hcwRow i
  let dst := h.dstReg r rot
  let srcs := h.srcRegs r rot
  let l : Lineage := { opc := r.opc, dests := dst.toList, srcs := srcs, pq := h.predReg }
  match i with
  | .mpush _ => { l with dests := [.mask u], srcs := [srcs.getD 0 none, some (.mask u)] }
  | .minv _ | .mpop _ => { l with dests := [.mask u], srcs := [some (.mask u)] }
  | .vmacw _ => { l with srcs := [srcs.getD 0 none, srcs.getD 1 none, dst] }
  | .vpopq _ => { l with srcs := [some (.dq (h.immA.extractLsb' 0 2))] }
  | _ => l

/-- The lineage of an operation of a direct slot, none for `nop`, which folds nothing. -/
def directLineage (i : Instr) : Option Lineage :=
  match i with
  | .nop => none
  | .bprep b _ => some { opc := 0x01, dests := [.b b] }
  | .bprepi b n => some { opc := 0x02, dests := [.b b], srcs := [some (.s n)] }
  | .xfer b q | .xferF b q => some { opc := 0x03, srcs := [some (.q q), some (.b b)] }
  | .xferMz b u | .xferMnz b u => some { opc := 0x04, srcs := [some (.mask u), some (.b b)] }
  | .call b => some { opc := 0x05, dests := [.s 63], srcs := [none, some (.b b)] }
  | .lmark n _ => some { opc := 0x06, srcs := [some (.s n)] }
  | .lmarkImm _ _ => some { opc := 0x06 }
  | .ilock n _ => some { opc := 0x07, srcs := [some (.s n)] }
  | .iunlock n _ => some { opc := 0x08, srcs := [some (.s n)] }
  | .wait _ _ _ _ => some { opc := 0x09 }
  | .rel _ => some { opc := 0x0A }
  | .done => some { opc := 0x0B }
  | .yield => some { opc := 0x0C }
  | .trap _ => some { opc := 0x0D }
  | .brk _ => some { opc := 0x0E }
  | .inj _ _ _ _ => some { opc := 0x0F }
  | .mma a _ _ c =>
    let p : BitVec 6 := 16 + 2 * c.setWidth 6
    some { opc := 0x01, dests := [.a a], srcs := [some (.a a), some (.s p), some (.s (p + 1))] }
  | .mzero a => some { opc := 0x02, dests := [.a a] }
  | .mdrain a _ q => some { opc := 0x03, dests := [.dq q], srcs := [some (.a a)] }
  | .mdrainRed a _ _ _ => some { opc := 0x04, srcs := [some (.a a)] }
  | .mload a n => some { opc := 0x05, dests := [.a a], srcs := [some (.s n)] }
  | .chset bd n => some { opc := 0x08, dests := [.bd bd], srcs := [some (.s n)] }
  | .chsetImm bd _ => some { opc := 0x08, dests := [.bd bd] }
  | .chrun n m => some { opc := 0x09, srcs := [some (.s n), some (.s m)] }
  | .chstep n => some { opc := 0x0A, srcs := [some (.s n)] }
  | .chstepPick n m => some { opc := 0x0A, srcs := [some (.s n), some (.s m)] }
  | .ld d base _ _ _ => some { opc := 0x01, dests := [.s d], srcs := [some (.s base)] }
  | .st n base _ _ => some { opc := 0x02, srcs := [some (.s n), some (.s base)] }
  | .vld v base stride => some { opc := 0x03, dests := [.v v], srcs := [some (.s base), some (.s stride)] }
  | .vst v base stride => some { opc := 0x04, srcs := [some (.v v), some (.s base), some (.s stride)] }
  | .stq q _ c => some { opc := 0x05, srcs := [some (.dq q), some (.s c)] }
  | .racq d g => some { opc := 0x06, dests := [.s d], srcs := [some (.g g)] }
  | .rpub g => some { opc := 0x07, srcs := [some (.g g)] }
  | .rget d g => some { opc := 0x08, dests := [.s d], srcs := [some (.g g)] }
  | .rrel g => some { opc := 0x09, srcs := [some (.g g)] }
  | .sflush base _ => some { opc := 0x0A, srcs := [some (.s base)] }
  | .sinv base _ => some { opc := 0x0B, srcs := [some (.s base)] }
  | .tmovPortV _ v => some { opc := 0x01, srcs := [some (.v v)] }
  | .tmovVPort v _ => some { opc := 0x02, dests := [.v v] }
  | .tmovPortPort _ _ => some { opc := 0x03 }
  | .tmovPortS _ n => some { opc := 0x04, srcs := [some (.s n)] }
  | .tmovSPort n _ => some { opc := 0x05, dests := [.s n] }
  | i =>
    let d := dSpec i
    some { opc := d.opc, dests := d.dest.toList, srcs := d.srcs, more := dMore i }

end Sys2Proof.Machine
end

