-- ==== Sys2Proof/Machine/Operands.lean ====
section
/-! DEFINITION. Registers and their tags, the operands of an operation as it starts, element formats and
shapes, and results in flight (spec 03 R50-R61, R72, R73; 04 R78; 08 R159, R165-R169, R180). -/

namespace Sys2Proof.Machine

/-! ### Registers and tags -/

/-- `s0` and `q0`, which keep tag 0 and are no live-in registers (R78, R165). -/
def Reg.fixed : Reg → Bool
  | .s n => n == 0
  | .q n => n == 0
  | _ => false

/-- A scalar register; `s0` reads zero (R78). -/
def Regs.sreg (r : Regs) (n : BitVec 6) : Word64 := if n == 0 then 0 else r.s.getD n.toNat 0

/-- A condition register; `q0` reads true (R78). -/
def Regs.qreg (r : Regs) (n : BitVec 3) : Bool := n == 0 || r.q.getD n.toNat false

/-- A vector register. -/
def Regs.vreg (r : Regs) (n : BitVec 5) : Vec512 := r.v.getD n.toNat 0

/-- An accumulator. -/
def Regs.acc (r : Regs) (n : BitVec 3) : Acc := r.a.getD n.toNat {}

/-- A target buffer, none where it is empty. -/
def Regs.breg (r : Regs) (n : BitVec 3) : Option Target := r.b.getD n.toNat none

/-- A ring. -/
def Regs.ring (r : Regs) (g : BitVec 3) : Ring := r.rings.getD g.toNat {}

/-- A drain queue. -/
def Regs.drain (r : Regs) (q : BitVec 2) : DrainQueue := r.dqs.getD q.toNat {}

/-- A mask stack. -/
def Regs.stack (r : Regs) : MaskUnit → List MaskEntry
  | .va => r.maskA
  | .vb => r.maskB

/-- The top of a mask stack; an empty stack reads all ones (R159). -/
def Regs.top (r : Regs) (u : MaskUnit) : MaskEntry := (r.stack u).headD (BitVec.allOnes 512)

/-- The tag of a register (R165). -/
def Regs.tag (r : Regs) (x : Reg) : Word32 := if x.fixed then 0 else r.tags.getD x.code 0

/-- A scalar register written; a write to `s0` is discarded. -/
def Regs.setS (r : Regs) (n : BitVec 6) (v : Word64) : Regs :=
  if n == 0 then r else { r with s := r.s.set n.toNat v }

/-- A condition register written; `q0` cannot be written (R57). -/
def Regs.setQ (r : Regs) (n : BitVec 3) (v : Bool) : Regs :=
  if n == 0 then r else { r with q := r.q.set n.toNat v }

/-- The bits of a vector register that the mask selects, written (R159). -/
def Regs.setV (r : Regs) (n : BitVec 5) (v mask : Vec512) : Regs :=
  { r with v := r.v.set n.toNat ((v &&& mask) ||| (r.vreg n &&& ~~~mask)) }

/-- An accumulator written. -/
def Regs.setA (r : Regs) (n : BitVec 3) (a : Acc) : Regs := { r with a := r.a.set n.toNat a }

/-- A ring changed. -/
def Regs.setRing (r : Regs) (g : BitVec 3) (x : Ring) : Regs := { r with rings := r.rings.set g.toNat x }

/-- A drain queue changed. -/
def Regs.setDrain (r : Regs) (q : BitVec 2) (x : DrainQueue) : Regs := { r with dqs := r.dqs.set q.toNat x }

/-- A mask stack changed. -/
def Regs.setStack (r : Regs) (u : MaskUnit) (st : List MaskEntry) : Regs :=
  match u with
  | .va => { r with maskA := st }
  | .vb => { r with maskB := st }

/-- A tag written; one written to `s0` or `q0` is discarded (R165). -/
def Regs.setTag (r : Regs) (x : Reg) (t : Word32) : Regs :=
  if x.fixed then r else { r with tags := r.tags.set x.code t }

/-- A tag written to several registers (R166). -/
def Regs.setTags (r : Regs) (xs : List Reg) (t : Word32) : Regs := xs.foldl (fun r x => r.setTag x t) r

/-! ### The task that an operation belongs to -/

/-- The tile of the operation that is starting. -/
def State.here (s : State) : Tile := s.tile s.cur.tile

/-- The task on the tile of the operation that is starting. -/
def State.me (s : State) : Task := (s.here.task).getD {}

/-- That task replaced. -/
def State.setMe (s : State) (k : Task) : State := s.modTile s.cur.tile fun x => { x with task := some k }

/-- That task changed. -/
def State.modMe (s : State) (f : Task → Task) : State := s.setMe (f s.me)

/-- What pending paired blocks that come after block `blk` would restore, changed: a result of an earlier block stays (R155, R156). -/
def Tile.modBefore (x : Tile) (blk : Nat) (f : Task → Task) : Tile :=
  { x with pairPend := x.pairPend.map fun p => if blk < p.before.blk.seq then { p with before := f p.before } else p }

/-- A tile's task changed for good, also as pending paired blocks would restore it. -/
def Tile.everyTask (x : Tile) (f : Task → Task) : Tile :=
  { x with task := x.task.map f, pairPend := x.pairPend.map fun p => { p with before := f p.before } }

/-- Its registers changed, by an operation of an earlier block for good. -/
def State.modRegs (s : State) (f : Regs → Regs) : State :=
  let u := s.modMe fun k => { k with regs := f k.regs, ckpt := if s.cur.older then k.ckpt.map f else k.ckpt }
  if s.cur.older then u.modTile s.cur.tile fun x => x.modBefore s.me.blk.seq fun k => { k with regs := f k.regs } else u

/-- The unit that translates for the tile of the operation that is starting (R230). -/
def State.myUnit (s : State) : Nat := tileUnit s.cur.tile

/-- Why an operation does not start: a decode fault (R76); a fault that stops the task at the bundle, with its data address; the hold
line (R51, R274); a fault of class K of an operation that R69 places, which is skipped (R311); or a fault of class U that surfaces there, recorded with the bundle that raised it and its
chain step: what has surfaced is every operation up to a number, or the stopped chain alone (R190, R207). -/
inductive Stop where
  | decode (c : Cause)
  | fault (c : Cause) (data : Nat)
  | hold (r : HoldReason)
  | after (c : Cause) (data : Nat)
  | late (c : Cause) (bundle data step : Nat) (upto : Option Nat)
deriving DecidableEq, Repr

/-- A drain queue without its oldest entry. -/
def DrainQueue.popped (q : DrainQueue) : DrainQueue :=
  { q with reserved := q.reserved - 1, filled := q.filled - 1, head := (q.head + 1) % 32 }

/-- A pop of a drain queue (R193): its oldest reserved entry and what is left. -/
def DrainQueue.pop (q : DrainQueue) : Except Stop (DrainEntry × DrainQueue) :=
  if q.reserved == 0 then .error (.fault .queueUnderflow 0)
  else if q.filled == 0 then .error (.hold .drainFill)
  else .ok (q.entries.getD q.head {},
    q.popped)

/-! ### Sources -/

/-- The register `step` places on, within its kind (R180). -/
def Reg.shifted (r : Reg) (step : Nat) : Reg :=
  match r with
  | .s n => .s (n + BitVec.ofNat 6 step)
  | .v n => .v (n + BitVec.ofNat 5 step)
  | .a n => .a (n + BitVec.ofNat 3 step)
  | .q n => .q (n + BitVec.ofNat 3 step)
  | .b n => .b (n + BitVec.ofNat 3 step)
  | .g n => .g (n + BitVec.ofNat 3 step)
  | .bd n => .bd (n + BitVec.ofNat 4 step)
  | .dq n => .dq (n + BitVec.ofNat 2 step)
  | .mask u => if step % 2 == 0 then .mask u else .mask (match u with | .va => .vb | .vb => .va)

/-- The armed `inj` fires in the operation that is starting (R180). -/
def State.injFires (s : State) : Option Inj :=
  match s.me.inj with
  | some i => if i.left == 0 && i.blk == s.cur.ord && i.slot == s.cur.slot.code then some i else none
  | none => none

/-- The sources as the operation reads them: an `inj` that fires replaces source k (R180). -/
def State.substitute (s : State) (srcs : List (Option Reg)) : List (Option Reg) :=
  match s.injFires with
  | some i => updAt srcs (i.k - 1) fun r => r.map fun x => x.shifted i.step
  | none => srcs

/-- A scalar register is locked by a pending D-slot result of an operation that comes before the one that is starting: one of
the same bundle that has started on the same beat does not (R53, R54, log 6). -/
def State.lockedReg (s : State) (r : Reg) : Bool :=
  match r with
  | .s n => n != 0 && s.me.locks.any fun l => l.reg == n && !(l.ord == s.cur.ord && l.beat == s.cur.beat)
  | _ => false

/-- The registers that a direct-slot operation writes. -/
def destsOf (i : Instr) : List Reg :=
  match directLineage i with
  | some l => l.dests
  | none => []

/-- The place in program order of the last of some writes that come before the operation that is starting, as a number, 0 where
there is none; those of its own bundle come before a delayed start alone (R54). -/
def OpCtx.lastBefore (c : OpCtx) (ws : List (Nat × Nat)) : Nat :=
  (ws.filter fun w => decide (w.1 < c.ord) || (w.1 == c.ord && c.late && decide (w.2 < c.slot.code))).foldl
    (fun m w => max m (16 * w.1 + w.2 + 1)) 0

/-- The most recent write of a register, in program order before the reader, has not landed: its operation has started, or
waits for its start delay (R50, R55). -/
def State.earlyRead (s : State) (r : Reg) : Bool :=
  let k := s.me
  let flying := (k.landings.filter fun l => l.dests.contains r).map fun l => (l.ord, l.slot)
  let waiting := (k.delayed.filter fun d => (destsOf d.op).contains r).map fun d => (d.ord, d.slot.code)
  let out := s.cur.lastBefore (flying ++ waiting)
  decide (0 < out) && decide (s.cur.lastBefore ((k.wrote.filter fun w => w.1 == r.code).map (·.2)) ≤ out)

/-- A read of a register as it enters the block's record: a first access that is a read is live-in, and a
pending tag sets the pending-read flag (R169, R176). Writes on earlier beats come first (R54). -/
def Task.noteRead (k : Task) (beat : Nat) (r : Reg) : Task :=
  if r.fixed then k
  else
    let written := k.blk.writes.any fun w => w.1 == r.code && decide (w.2.1 < beat)
    let seen := k.blk.reads.contains r.code
    { k with blk := { k.blk with
        reads := if written || seen then k.blk.reads else k.blk.reads ++ [r.code]
        pendingRead := k.blk.pendingRead || k.regs.tag r == pendingTag r.code } }

/-- A write of a register as it enters the block's record, with its beat and its bundle, and what R55 looks at. -/
def Task.noteWrite (k : Task) (beat ord slot : Nat) (r : Reg) : Task :=
  { k with blk := { k.blk with writes := (r.code, beat, ord) :: k.blk.writes }, wrote := (r.code, ord, slot) :: k.wrote }

/-- An `inj` that fires is spent, and its firing enters the record of its block, once (R180, R307). -/
def Task.fire (k : Task) (i : Inj) (addr : Nat) (bad : Bool) : Task :=
  { k with inj := none, injHits := if i.seen then k.injHits else k.injHits ++ [{ inj := i, addr := addr, bad := bad }] }

/-- An `inj` whose slot turns out to read nothing is spent, with nothing corrupted (R180, R181). -/
def State.spendInj (s : State) : State :=
  match s.injFires with
  | some i => s.modMe fun k => k.fire i s.cur.addr false
  | none => s

/-- An operation that has started: the state with its reads and its fold recorded, its sources as read,
and its tag. -/
structure Opn where
  st : State
  srcs : List (Option Reg)
  tag : Word32

/-- The tag of source i (R72): absent is 0. -/
def srcTag (k : Task) (srcs : List (Option Reg)) (i : Nat) : Word32 :=
  match srcs.getD i none with
  | some r => k.regs.tag r
  | none => 0

/-- The operation's tag and identity (R72, R166): opcode12, destcode, sources as read, predicate. -/
def State.tagOf (s : State) (opc destcode : Nat) (srcs : List (Option Reg)) (pq : Option Reg) : Word32 :=
  let k := s.me
  let l3 := srcTag k srcs 2 ^^^ (match pq with | some r => k.regs.tag r | none => 0)
  opTag (opid s.cur.idx s.cur.slot.code opc destcode) (srcTag k srcs 0) (srcTag k srcs 1) l3

/-- The start of an operation: register locks hold (R53), debug mode faults early reads of an operation whose predicate holds
(R55, R59), an `inj` substitutes a source (R180), the reads and writes are recorded (R169, R176), and the tag is folded (R73).
`live` is that the predicate holds, and `more` what the operation reads beyond its sources. -/
def State.begin (s : State) (opc destcode : Nat) (dests : List Reg) (srcs : List (Option Reg))
    (pq : Option Reg) (live : Bool := true) (more : List Reg := []) : Except Stop Opn :=
  let k := s.me
  let named := (srcs ++ [pq]).filterMap id ++ more
  match (named ++ dests).find? fun r => s.lockedReg r with
  | some (.s n) => .error (.hold (.lock n))
  | _ =>
    if (k.regs.debug && named.any fun r => s.earlyRead r) && live then .error (.fault .readEarly 0)
    else
      let eff := s.substitute srcs
      let t := s.tagOf opc destcode eff pq
      let k := ((eff ++ [pq]).filterMap id ++ more).foldl (fun k r => k.noteRead s.cur.beat r) k
      let k := dests.foldl (fun k r => k.noteWrite s.cur.beat s.cur.ord s.cur.slot.code r) k
      let k := match s.injFires with
        | some i => k.fire i s.cur.addr (eff != srcs)
        | none => k
      let k := { k with blk := { k.blk with
        folds := k.blk.folds ++ [(s.cur.idx, s.cur.slot.code, t)] } }
      .ok { st := s.setMe k, srcs := eff, tag := t }

/-- Source i as a scalar; absent reads zero. -/
def Opn.sval (o : Opn) (i : Nat) : Word64 :=
  match o.srcs.getD i none with
  | some (.s n) => o.st.me.regs.sreg n
  | _ => 0

/-- Source i as a vector. -/
def Opn.vval (o : Opn) (i : Nat) : Vec512 :=
  match o.srcs.getD i none with
  | some (.v n) => o.st.me.regs.vreg n
  | _ => 0

/-- Source i as a condition. -/
def Opn.qval (o : Opn) (i : Nat) : Bool :=
  match o.srcs.getD i none with
  | some (.q n) => o.st.me.regs.qreg n
  | _ => true

/-! ### Results in flight -/

/-- A result that lands at the end of the beat `lat − 1` after the start (R52). -/
def State.land (s : State) (lat : Nat) (wr : Wr) (dests : List Reg) (tag : Word32) (flags : FpFlags) :
    State :=
  s.modMe fun k => { k with landings := k.landings ++
    [{ due := s.cur.beat + lat - 1, blk := k.blk.seq, ord := s.cur.ord, slot := s.cur.slot.code, wr := wr
       dests := dests, tag := tag, flags := flags, addr := s.cur.addr }] }

/-! ### Held effects -/

/-- Effects held by a block, in program order: those of an operation whose start was delayed come before those of later bundles
(R174, R234). -/
def Block.hold (b : Block) (key : Nat × Nat) (hs : List Held) : Block :=
  let n := (b.heldAt.takeWhile fun k => decide (k.1 < key.1) || (k.1 == key.1 && decide (k.2 ≤ key.2))).length
  { b with held := b.held.take n ++ hs ++ b.held.drop n
           heldAt := b.heldAt.take n ++ List.replicate hs.length key ++ b.heldAt.drop n }

/-- An effect of the operation that is starting, held until the block's order point (R174). -/
def State.hold_ (s : State) (e : Held) : State :=
  s.modMe fun k => { k with blk := k.blk.hold (s.cur.ord, s.cur.slot.code) [e] }

/-! ### Operands of control words -/

end Sys2Proof.Machine

namespace Sys2Proof

open Machine

/-- The predicate holds (R58, R59): psense 0 executes when pq is true. -/
def Hcw.predOk (h : Hcw) (r : Regs) : Bool := !h.pen || (r.qreg h.pq != h.psense)

end Sys2Proof

namespace Sys2Proof.Machine

/-- The destcode of an optional destination (R72). -/
def destcodeOf : Option Reg → Nat
  | some r => r.code
  | none => 0xFF

/-- The rounding mode of a control word (R27, R58). -/
def Task.mode (k : Task) (h : Hcw) : Round :=
  ((if h.round == 0 then roundOf k.regs.round else roundOf h.round).getD .rne)

/-! ### Formats and shapes of vector operations -/

/-- The effective format code of a control word (R61, R94). -/
def Task.fmtCode (k : Task) (h : Hcw) : BitVec 8 :=
  if h.fmt == 0 then k.regs.vshape.extractLsb' 8 8 else h.fmt

/-- The effective shape: log2 of the rows and of the columns (R58, R61). -/
def Task.shapeOf (k : Task) (h : Hcw) : Nat × Nat :=
  let b := if h.shape == 0 then k.regs.vshape.setWidth 8 else h.shape
  ((b.extractLsb' 0 4).toNat, (b.extractLsb' 4 4).toNat)

/-- A shape and format that fit a register (R61). -/
def shapeOk (rows cols width : Nat) : Bool :=
  decide (rows ≤ 5) && decide (cols ≤ 5) && decide (2 ^ rows * 2 ^ cols * width ≤ 4096)

/-- Bits [w−1:0] of immediate A, replicated to n elements (R94). -/
def replicate (w n : Nat) (a : Word64) : Vec512 :=
  BitVec.ofNat 4096 (packElems w (List.replicate n (a.toNat % 2 ^ w)))

/-- The bits of immediate A above the element width are zero (R94). -/
def immFits (w : Nat) (a : Word64) : Bool := decide (a.toNat < 2 ^ w)

/-- Element i of width w is active: the bit of its lowest byte (R159). -/
def activeAt (m : MaskEntry) (w i : Nat) : Bool := m.getLsbD (w * i / 8)

/-- The register bits of the active elements among the first n (R159). -/
def activeBits (m : MaskEntry) (w n : Nat) : Vec512 :=
  if m == BitVec.allOnes 512 then BitVec.ofNat 4096 (2 ^ (w * n) - 1)
  else BitVec.ofNat 4096 ((List.range n).foldl (fun x i =>
    if activeAt m w i then x + (2 ^ w - 1) * 2 ^ (w * i) else x) 0)

/-- The first n elements of a register. -/
def elems (v : Vec512) (w n : Nat) : List Nat := (List.range n).map fun i => element v w i

/-- The flags of the active lanes together (R35). -/
def laneFlags (m : MaskEntry) (w : Nat) (fs : List (Nat × FpFlags)) : FpFlags :=
  fs.zipIdx.foldl (fun g (x, i) => if activeAt m w i then g ||| x.2 else g) 0

/-! ### Addresses of loads and stores -/

/-- The effective address of a load or store of a gang member: its offset added (R149). -/
def Task.effAddr (k : Task) (a : Nat) : Nat := (a + (k.gpos.extractLsb' 32 32).toNat) % 2 ^ 64

/-- Bytes of a size code (R83). -/
def sizeBytes : MemSize → Nat
  | .b => 1 | .h => 2 | .w => 4 | .d => 8

/-- Base plus a signed offset in units of the size, modulo 2^64 (R83). -/
def sizedAddr (base : Word64) (off : BitVec 10) (n : Nat) : Nat :=
  (base + BitVec.ofInt 64 (off.toInt * n)).toNat

end Sys2Proof.Machine
end

