-- ==== Sys2Proof/Machine/Ops.lean ====
section
/-! DEFINITION. Shared operations of the machine: control registers, results that land, block entry and
rollback, taking an exception (the stop of R274-R278 with the save of R285 and R286), and the return from
one (placing and restoring of R113, revival of R278). -/

namespace Sys2Proof.Machine

open Host (Cell)

/-! ### Control registers as they are read (R93) -/

/-- The frame and logical tick of a partition: in timetable mode too they are those of the reference tick while no frame is in
progress, before frame 0 and after the last one (R141, R146, log 75). -/
def State.frameOf (s : State) (p : Nat) : Nat × Nat :=
  match (s.parts.getD p {}).frames with
  | some f => (f.frame, min (s.refTick - f.start - f.slip) (2 ^ 20 - 1))
  | none => (s.refTick / 2 ^ 20, s.refTick % 2 ^ 20)

/-- The running fold as `sgetc` reads it: the operations of earlier bundles, in program order (R73,
R170, log 8). -/
def foldBefore (fs : List (Nat × Nat × Word32)) (idx : Nat) : Word64 :=
  ((fs.filter fun x => decide (x.1 < idx)).insertionSort
    fun a b => a.1 < b.1 || (a.1 == b.1 && a.2.1 ≤ b.2.1)).foldl (fun f x => foldStep f x.2.2) foldStart

/-- A ring's control register (R215). -/
def Ring.creg (r : Ring) : Word64 :=
  BitVec.ofNat 8 r.filled ++ BitVec.ofNat 8 r.free ++ 0#3 ++ r.lslot ++ r.lcount ++ 0#4
    ++ (if r.en then 1#1 else 0#1) ++ 0#12 ++ r.base ++ 0#7

/-- Control register n of the task on a tile (R93). -/
def State.creg (s : State) (t : Nat) (k : Task) (idx n : Nat) : Word64 :=
  let x := s.tile t
  let b (c : Bool) : BitVec 1 := if c then 1 else 0
  match n with
  | 0x00 => k.regs.vshape.setWidth 64
  | 0x01 => k.regs.round.setWidth 64
  | 0x02 => k.regs.fpflags.setWidth 64
  | 0x03 => k.regs.fptrap.setWidth 64
  | 0x04 => k.record.taskid
  | 0x05 => k.place
  | 0x06 => k.gpos
  | 0x07 => BitVec.ofNat 64 x.beat
  | 0x08 => BitVec.ofNat 64 ((s.frameOf k.part).1 * 2 ^ 24 + (s.frameOf k.part).2)
  | 0x09 => k.regs.pbound.setWidth 64
  | 0x0A => k.record.depth.setWidth 64
  | 0x0B => k.record.prio.setWidth 64
  | 0x0C => foldBefore k.blk.folds idx
  | 0x0D => k.regs.uflow.setWidth 64
  | 0x0E => k.regs.oflow.setWidth 64
  | 0x18 => (b k.regs.debug).setWidth 64
  | 0x19 => (b k.testEn).setWidth 64
  | 0x1A => 0#54 ++ b x.splitv ++ b x.splits ++ x.vb ++ x.va ++ x.sb ++ x.sa
  | 0x1B => (s.quads.getD k.part {}).wcwait.setWidth 64
  | _ => if 0x10 ≤ n ∧ n ≤ 0x17 then (k.regs.rings.getD (n - 0x10) {}).creg else 0

/-! ### Results that land (R52, R168, R275) -/

/-- Tags of slots that become free, from the count of those freed before (R217). -/
def freeTag (n : Nat) : Word32 := mix32 (BitVec.ofNat 32 (0xF4EE0000 ^^^ (n % 65536)))

/-- Tag of a slot published after p others (R217). -/
def publishTag (p : Nat) : Word32 := mix32 (BitVec.ofNat 32 (0x9B1D0000 ^^^ (p % 65536)))

/-- A ring as a new configuration leaves it: enabling frees every slot, disabling discards the counts
(R215, R217). -/
def Ring.configure (r : Ring) (v : Word64) : Ring :=
  let en := v.getLsbD 32
  let lcount := v.extractLsb' 37 3
  let fresh : Ring := { lslot := v.extractLsb' 40 5, lcount := lcount, en := en, base := v.extractLsb' 7 13 }
  if en && !r.en then
    let n := 2 ^ lcount.toNat
    { fresh with free := n, freed := n, freeTags := (List.range n).map freeTag }
  else if !en then fresh
  else { r with lslot := fresh.lslot, lcount := fresh.lcount, base := fresh.base }

/-- A write of a port: from a register the data, where a configuration port keeps bytes 0-7 (R271). -/
def Palette.setPort (p : Palette) (port : BitVec 6) (d : Vec512) : Palette :=
  let put (u : PalUnit) : PalUnit :=
    match (port.extractLsb' 0 3).toNat with
    | 0 => { u with a := d }
    | 1 => { u with cfg := d.setWidth 64 }
    | _ => u
  match (port.extractLsb' 3 3).toNat with
  | 0 => { p with qnt := put p.qnt }
  | 1 => { p with trn := put p.trn }
  | 2 => { p with crc := put p.crc }
  | 3 => { p with hsh := put p.hsh }
  | 4 => { p with top := put p.top }
  | _ => p

/-- A trigger's result at its unit's `res` and `st` (R272, R273). -/
def Palette.setRes (p : Palette) (unit : Nat) (res : Option Vec512) (st : Word64) : Palette :=
  let put (u : PalUnit) : PalUnit := { u with res := res.getD u.res, st := st }
  match unit with
  | 0 => { p with qnt := put p.qnt }
  | 1 => { p with trn := put p.trn }
  | 2 => { p with crc := put p.crc }
  | 3 => { p with hsh := put p.hsh }
  | 4 => { p with top := put p.top }
  | _ => p

/-- A control register written by `ssetc` (R28, R34, R55, R61, R282, R403); every other one ignores the
write. -/
def Regs.setCreg (r : Regs) (n : Nat) (v : Word64) : Regs :=
  match n with
  | 0x00 => { r with vshape := v.setWidth 16 }
  | 0x01 => if 1 ≤ (v.extractLsb' 0 3).toNat ∧ (v.extractLsb' 0 3).toNat ≤ 5 then
      { r with round := v.setWidth 3 } else r
  | 0x02 => { r with fpflags := v.setWidth 6 &&& FpFlags.legal }
  | 0x03 => { r with fptrap := v.setWidth 6 &&& FpFlags.legal }
  | 0x09 => if v.extractLsb' 0 16 == 0#16 then r else { r with pbound := v.setWidth 16 }
  | 0x18 => { r with debug := v.getLsbD 0 }
  | _ => r

/-- A landing's write to the registers. -/
def Regs.apply (r : Regs) (w : Wr) : Regs :=
  match w with
  | .s n v => r.setS n v
  | .v n v m => r.setV n v m
  | .q n v => r.setQ n v
  | .b n t => { r with b := r.b.set n.toNat (some t) }
  | .bd n v => { r with bd := r.bd.set n.toNat v }
  | .maskPush u e => if 16 ≤ (r.stack u).length then r else r.setStack u (e :: r.stack u)
  | .maskTop u e => r.setStack u (match r.stack u with | [] => [] | _ :: rest => e :: rest)
  | .maskPop u => r.setStack u (r.stack u).tail
  | .loop l => { r with loop := some l }
  | .creg n v => r.setCreg n v
  | .port p d => { r with pal := r.pal.setPort p d }
  | .res u res st => { r with pal := r.pal.setRes u res st }
  | .none => r

/-- One result lands: its value, unless its flags trap, and its tag. A result of an earlier block updates
the checkpoint too, and its registers take the entry tag (R35, R168, R175, R275). -/
def Task.land (k : Task) (l : Landing) (trapped : Bool) : Task :=
  let earlier := l.blk != k.blk.seq
  let put (r : Regs) : Regs := if trapped then r else r.apply l.wr
  let tagged (r : Regs) : Regs :=
    if earlier then l.dests.foldl (fun r d => r.setTag d (canonTag d.code)) r
    else r.setTags l.dests l.tag
  { k with
    regs := tagged (put k.regs)
    ckpt := if earlier then k.ckpt.map put else k.ckpt }

/-- The flags of a result merge into `cr.fpflags`, after every write of the beat, and for an earlier
block into the checkpoint (R36). -/
def Task.mergeFlags (k : Task) (l : Landing) : Task :=
  { k with
    regs := { k.regs with fpflags := k.regs.fpflags ||| l.flags }
    ckpt := if l.blk != k.blk.seq then k.ckpt.map fun c => { c with fpflags := c.fpflags ||| l.flags }
            else k.ckpt }

/-- Program order of results (R52). -/
def Landing.before (a b : Landing) : Bool := decide (a.ord < b.ord) || (a.ord == b.ord && decide (a.slot ≤ b.slot))

/-- The trap enables as the results that land on a beat leave them: an `ssetc` of that beat writes them before the flags of the
beat are looked at, as R36 has it for `cr.fpflags` (log 71). -/
def Regs.trapsAfter (r : Regs) (due : List Landing) : FpFlags :=
  (due.foldl (fun r l => match l.wr with
    | .creg 0x03 v => r.setCreg 0x03 v
    | _ => r) r).fptrap

/-- What is due by the end of a beat, in program order: the trap enables, the result that traps first, the results that land, and
the other trapping ones, which are caught. -/
structure Landed where
  enables : FpFlags
  first : Option Landing
  taken : List Landing
  others : List Landing

/-- A result raises an enabled flag. -/
def Landed.traps (x : Landed) (l : Landing) : Bool := (fpTrapCause l.flags x.enables).isSome

/-- The trap that the first result raises. -/
def Landed.cause (x : Landed) : Option (Cause × Landing) :=
  x.first.bind fun l => (fpTrapCause l.flags x.enables).map fun c => (c, l)

/-- Everything due on a task by the end of a beat. A trapping result is caught where another of the beat traps before it, and
where a stop is due already (R35, R275, log 71). -/
def Task.landed (k : Task) (beat : Nat) : Landed :=
  let due := (k.landings.filter fun l => decide (l.due ≤ beat) && !l.caught).insertionSort fun a b => a.before b
  let enables := k.regs.trapsAfter due
  let traps (l : Landing) : Bool := (fpTrapCause l.flags enables).isSome
  let first := if k.stop.isSome then none else due.find? traps
  { enables := enables, first := first, taken := due.filter fun l => !traps l || some l == first
    others := due.filter fun l => traps l && some l != first }

/-- The task once they have landed. A stop that R276 defers lets later bundles issue, so a result that is caught then leaves its
tag (R36, R275, log 71). -/
def Task.takeLandings (k : Task) (beat : Nat) (x : Landed) : Task :=
  let kept := (k.landings.filter fun l => !(decide (l.due ≤ beat)) || l.caught)
    ++ x.others.map fun l => { l with caught := true }
  let deferred := k.blk.hasXfer || k.blk.phase != .open
  let k := { k with landings := kept }
  let k := x.taken.foldl (fun k l => k.land l (x.traps l)) k
  let k := if deferred then x.others.foldl (fun k l => k.land { l with flags := 0 } true) k else k
  x.taken.foldl (fun k l => k.mergeFlags l) k

/-- Everything that lands by the end of a beat, and the arithmetic trap, if any, that the first of them in
program order raises; the others trap again when their task resumes (R35, R36, R275). -/
def Task.landBeat (k : Task) (beat : Nat) : Task × Option (Cause × Landing) :=
  (k.takeLandings beat (k.landed beat), (k.landed beat).cause)

/-- What lands of blocks before `blk`, over the registers that block would restore (R155, R156). -/
def Landed.regsBefore (x : Landed) (blk : Nat) (r : Regs) : Regs :=
  let ls := x.taken.filter fun l => decide (l.blk < blk)
  let r := ls.foldl (fun r l => if x.traps l then r else r.apply l.wr) r
  { r with fpflags := ls.foldl (fun g l => g ||| l.flags) r.fpflags }

/-! ### What is due on a tile -/

/-- What a tile's beats bring (R3, R49-R52, R70, R192): in the order in which one beat holds them. -/
inductive Due where
  | stop | delayed | issue | compare | order | fill | run | land
deriving DecidableEq, Repr

/-- Cycles that an entry of a drain takes (R192). -/
def cyclesPerEntry (w : Nat) : Nat := if w == 4 then 8 else 4

/-- Bits of a format code; 8 where it is none. -/
def codeWidth (c : BitVec 8) : Nat :=
  match formatOf c with
  | some f => f.width
  | none => 8

/-- The beat at the end of which the next entry of an executing drain fills; the engine counts cycles, so the
held ones count with the beats (R192). -/
def Tile.fillBeat (x : Tile) (m : MOp) : Option Nat :=
  match m.work, m.began with
  | .drain _ d _ _ _ _ _, some c =>
    some (c + (m.filled + 1) * cyclesPerEntry (codeWidth d.fmt) - 1 - x.held)
  | _, _ => none

/-- Cycles that an `mma` takes from the stash, and an `mzero` (R107, R108, R188). -/
def mmaCycles : Nat := 32
def mzeroCycles : Nat := 4

/-- The beat on which the head of the M queue goes on of itself: a drain, an `mma` or an `mzero` begins as soon as the one before
it has completed and no fence holds it back, and the latter two complete in an exact number of cycles, an `mma` where the stash
held all its operands (R107, R108, R182, R188). -/
def Tile.runBeat (x : Tile) (m : MOp) : Option Nat :=
  let starts : Option Nat := if m.waits.isEmpty && m.waitBlk.isNone then some (max x.beat (m.ready - x.held)) else none
  match m.work, m.began with
  | .drain _ _ _ _ _ _ _, none | .mma _ _ _ _ _ _, none | .mzero _, none => starts
  | .mzero _, some c => some (c + mzeroCycles - 1 - x.held)
  | .mma _ _ _ _ _ _, some c => if m.buf.all fun u => u.resident then some (c + mmaCycles - 1 - x.held) else none
  | _, _ => none

/-- The stop beat of a stop that is due: the beat it asks for, or that of the next bundle once it has been
deferred past an E bundle (R274-R276). -/
def Tile.stopBeat (x : Tile) (k : Task) : Nat :=
  match k.stopFrom with
  | some f => if x.beat < f then min f k.nextIssue else k.nextIssue
  | none => k.nextIssue

/-- Everything due on a tile, with its beat and its place in the beat. A stop is due at a bundle boundary outside
the window of R276. -/
def Tile.dues (x : Tile) : List (Nat × Nat × Due) :=
  match x.task with
  | none => []
  | some k =>
    (if k.stop.isSome && !k.stopHeld && k.blk.phase == .open && !k.blk.hasXfer then [(x.stopBeat k, 0, Due.stop)] else [])
    ++ ((k.delayed.filter fun d => !d.caught).map fun d => (d.due, 1, Due.delayed))
    ++ (match k.blk.phase with
        | .open => [(k.nextIssue, 2, Due.issue)]
        | .compare => [(k.blk.compareAt, 3, Due.compare)]
        | .order | .commit => [(k.blk.compareAt, 4, Due.order)])
    ++ (match k.mq with
        | m :: _ => (match x.fillBeat m with
            | some b => [(b, 5, Due.fill)]
            | none => [])
          ++ (match x.runBeat m with
            | some b => if k.mFault.isNone then [(b, 6, Due.run)] else []
            | none => [])
        | [] => [])
    ++ ((k.landings.filter fun l => !l.caught).map fun l => (l.due, 7, Due.land))

/-- What comes first on a tile, and its beat. -/
def Tile.nextDue (x : Tile) : Option (Nat × Due) :=
  match x.dues.insertionSort fun a b => a.1 < b.1 || (a.1 == b.1 && a.2.1 ≤ b.2.1) with
  | [] => none
  | (b, _, d) :: _ => some (b, d)

/-! ### Fences (R240) -/

/-- The path bits of R87. -/
def pathO : BitVec 6 := 0x20
def pathF : BitVec 6 := 0x10
def pathC : BitVec 6 := 0x08
def pathM : BitVec 6 := 0x04
def pathN : BitVec 6 := 0x02

/-- An M operation has operands to read on path F (R186, R191, R205). -/
def MOp.toRead (m : MOp) : Bool :=
  match m.work with
  | .mma _ _ _ _ _ _ => m.buf.isNone
  | .mload _ _ | .chain _ _ _ _ _ _ _ => true
  | _ => false

/-- The copies that a merge round of a partition holds: the task, its tile and the command; they are outstanding from their start
(R253, R262). -/
def Part.mergeCopies (p : Part) : List (Word64 × Nat × CopyCmd) :=
  match p.round with
  | some r => r.ops.filterMap fun x => match x.2 with
    | .copy t c => some (x.1, t, c)
    | _ => none
  | none => []

/-- What a fence waits for of a command with a serial number has not been performed: the operand reads of an M operation, a copy,
a reduction, an operation that waits at a memory slice, or a send whose source has not been read (R240). -/
def State.outstanding (s : State) (n : Nat) : Bool :=
  s.parts.any (fun p => p.mergeCopies.any fun c => c.2.2.serial == n)
  || s.tiles.any (fun x =>
    x.copyQ.any (fun c => c.serial == n) || x.copyHalted.any (fun c => c.serial == n)
    || x.sends.any (fun c => c.serial == n && c.data.isNone)
    || match x.task with
       | some k => k.mq.any fun m => m.serial == n && m.toRead
       | none => false)
  || s.heldLines.any (fun h => h.serial == n) || s.asks.any (fun a => a.serial == n)
  || s.saved.any (fun e => e.task.mq.any fun m => m.serial == n && m.toRead)
  || s.dies.any (fun d => d.reduceQ.any (fun c => c.serial == n) || d.reduceHalted.any (fun c => c.serial == n))

/-- A fence orders an access of a path. -/
def FenceDep.orders (f : FenceDep) (path : BitVec 6) : Bool := f.after &&& path != 0#6

/-- What an access of a path waits for when it starts: commands, and the block whose stores it follows. -/
def Task.fenceFor (k : Task) (path : BitVec 6) : List Nat × Option Nat :=
  let fs := k.fences.filter fun f => f.orders path
  ((fs.map (·.waits)).flatten.dedup, fs.findSome? fun f => f.waitBlk)

/-- The stores of a block of a task have not applied: the block is in progress, or its partner has not agreed (R155, R240). -/
def State.storesPending (s : State) (p owner blk : Nat) : Bool :=
  let own (k : Task) : Bool := k.part == p && k.record.taskid.toNat == owner && k.blk.seq == blk
  s.tiles.any fun x => x.task.any own || x.pairPend.any fun q => !q.applied && own q.after

/-- What an access of a task waits for is done: the commands, and the stores of the block. -/
def State.clearedOf (s : State) (p owner : Nat) (waits : List Nat) (waitBlk : Option Nat) : Bool :=
  !(waits.any fun n => s.outstanding n) && !(waitBlk.any fun b => s.storesPending p owner b)

/-- What an access of this task waits for is done. -/
def State.cleared (s : State) (waits : List Nat) (waitBlk : Option Nat) (k : Task) : Bool :=
  s.clearedOf k.part k.record.taskid.toNat waits waitBlk

/-- A tile with nothing left to wait for at the head of its M queue, where its fences let that go on (R240). -/
def State.ready (s : State) (t : Nat) : Tile :=
  let x := s.tile t
  match x.task with
  | none => x
  | some k =>
    match k.mq with
    | [] => x
    | m :: rest =>
      if (m.waits.isEmpty && m.waitBlk.isNone) || !s.cleared m.waits m.waitBlk k then x
      else { x with task := some { k with mq := { m with waits := [], waitBlk := none } :: rest } }

/-- What comes first on a tile as the machine stands, and its beat. -/
def State.nextDue (s : State) (t : Nat) : Option (Nat × Due) := (s.ready t).nextDue

/-- The beat of what is due on a tile, where it is of a kind. -/
def State.dueOf (s : State) (t : Nat) (d : Due) : Option Nat :=
  match s.nextDue t with
  | some (b, e) => if d == e then some b else none
  | none => none

/-- An operation of a task waits at its slice, wherever the task is now (R237, R248). -/
def HeldLine.ofTask (h : HeldLine) (k : Task) : Bool := h.part == k.part && h.task == k.record.taskid

/-- The commit-point operations that take their place in the O order (R237). -/
def ordersO : Instr → Bool
  | .amo _ _ _ _ _ | .amoc _ _ _ _ _ | .cadd _ _ | .caddImm _ _ | .cwait _ _ _ _ | .tdef _ _ | .tdrop _ | .join _
  | .leave _ => true
  | _ => false

/-- A pending paired block before the block of a task still has such an operation to perform (R155, R237). -/
def PairBlock.keepsOrder (p : PairBlock) (k : Task) : Bool :=
  decide (p.after.blk.seq < k.blk.seq) && p.after.blk.eOp.any ordersO

/-- A commit-point operation of the task has not been performed: the first O access of a later block and every
operation that names a tensor id hold (R237). -/
def State.oPending (s : State) : Bool :=
  (s.heldLines.any fun h => h.ofTask s.me) || s.here.pairPend.any fun p => p.keepsOrder s.me

/-- An access of path O that starts: it holds behind commit-point operations and fences, and once a fence has
let it through, it is ordered after everything below (R237, R240, log 10). -/
def State.oAccess (s : State) : Except Stop State :=
  let k := s.me
  let fs := k.fences.filter fun f => f.orders pathO
  if s.oPending then .error (.hold .storeApply)
  else if fs.isEmpty then .ok s
  else if fs.any fun f => !s.cleared f.waits f.waitBlk k then .error (.hold .fence)
  else
    let s := s.setMe { k with fences := (k.fences.map fun f => { f with after := f.after &&& ~~~pathO }).filter
                                          fun f => f.after != 0#6 }
    .ok (s.modTile s.cur.tile fun x => { x with clock := max x.clock s.clockMax })

/-- The start of an operation of path O. -/
def State.beginO (s : State) (opc destcode : Nat) (dests : List Reg) (srcs : List (Option Reg))
    (more : List Reg := []) : Except Stop Opn :=
  match s.begin opc destcode dests srcs none true more with
  | .error e => .error e
  | .ok o =>
    match o.st.oAccess with
    | .error e => .error e
    | .ok t => .ok { o with st := t }

/-- The start of an operation that names a tensor id (R237). -/
def State.beginT (s : State) (opc destcode : Nat) (dests : List Reg) (srcs : List (Option Reg))
    (more : List Reg := []) : Except Stop Opn :=
  if s.oPending then .error (.hold .table) else s.begin opc destcode dests srcs none true more

/-! ### Blocks: entry and rollback -/

/-- Codes of the tagged registers (R165). -/
def taggedCodes : List Nat :=
  List.range 64 ++ (List.range 32).map (64 + ·) ++ (List.range 8).map (128 + ·)
    ++ (List.range 18).map (192 + ·) ++ (List.range 28).map (224 + ·)

/-- The tags of block entry: canon, or the pending form where a write of an earlier block is in flight: a
result, an operation that waits for its start delay, or a locked register's value (R168, R169). -/
def Task.entryTags (k : Task) : List Word32 :=
  let inFlight := (k.landings.map fun l => l.dests.map Reg.code).flatten
    ++ (k.delayed.map fun d => (destsOf d.op).map Reg.code).flatten ++ k.locks.map fun l => l.reg.toNat
  (List.range 256).map fun c =>
    if taggedCodes.contains c && c != 0 && c != 192 then
      if inFlight.contains c then pendingTag c else canonTag c
    else 0

/-- The writes that R55 still looks at: those from the oldest outstanding one on. -/
def Task.recentWrites (k : Task) : List (Nat × Nat × Nat) :=
  match k.landings.map (·.ord) ++ k.delayed.map (·.ord) with
  | [] => []
  | o :: os => k.wrote.filter fun w => decide (os.foldl min o ≤ w.2.1)

/-- A block is entered at its first bundle: fold, tags and checkpoint anew (R168, R175). -/
def Task.enter (k : Task) (addr : Nat) : Task :=
  let regs := { k.regs with tags := k.entryTags }
  { k with
    regs := regs
    wrote := k.recentWrites
    ckpt := some regs
    blk := { k.blk with start := addr, idx := 0, entered := true, mFirst := k.mStarted, pendingRead := false, folds := [], reads := []
                        writes := [], stores := 0, held := [], readSet := [], taken := none, takenCopy := none, hasXfer := false, heldAt := []
                        ending := .go, eOp := none, phase := .open, eState := .waiting, bodyLast := false
                        hasFenceO := false, succMiss := false, foldMiss := false } }

/-- An accumulator as the checkpoint restores it: its value where the seal names it, and in any case the flags that had not
surfaced when the block was entered, so that a replay makes them surface again (R36, R37, R175). -/
def Acc.restored (now then_ : Acc) (live : Bool) : Acc := if live then then_ else { now with flags := then_.flags }

/-- The checkpoint over the registers: those that the seal's live-in masks name, and everything else that
R175 lists in full. -/
def Regs.restored (r c : Regs) (sl : Option Seal) : Regs :=
  let keep {α : Type} (live : Nat → Bool) (now then_ : List α) : List α :=
    (now.zip then_).zipIdx.map fun (p, i) => if live i then p.2 else p.1
  match sl with
  | none => c
  | some x =>
    { c with
      s := keep (fun i => x.liveS.getLsbD i) r.s c.s
      v := keep (fun i => x.liveV.getLsbD i) r.v c.v
      a := (r.a.zip c.a).zipIdx.map fun (p, i) => p.1.restored p.2 (x.liveA.getLsbD i)
      q := keep (fun i => x.liveQ.getLsbD i) r.q c.q
      tags := keep (fun i => if i < 64 then x.liveS.getLsbD i else if i < 128 then x.liveV.getLsbD (i - 64)
        else if i < 192 then x.liveA.getLsbD (i - 128) else if i < 200 then x.liveQ.getLsbD (i - 192)
        else true) r.tags c.tags }

/-- Registers without what is to surface of M operations after number n, which do not count as started (R177, R190). -/
def Regs.unpoisoned (r : Regs) (n : Nat) : Regs :=
  { r with a := r.a.map fun x => if n < x.poisonAt then { x with poisonAt := 0 } else x }

/-- The task with its block taken back to its entry: registers from the checkpoint, and every operation of
the block in flight cancelled, with the fault that a cancelled chain operation has met (R175-R178, R185); they do not count as
started (R190). What its fences order stays, but for the stores of the cancelled run, which never apply (R353). -/
def Task.rollback (k : Task) (sl : Option Seal) : Task :=
  let seq := k.blk.seq
  { k with
    regs := match k.ckpt with
      | some c => (k.regs.restored c sl).unpoisoned k.blk.mFirst
      | none => k.regs
    mStarted := if k.blk.entered then k.blk.mFirst else k.mStarted
    wrote := if k.blk.entered then k.wrote.filter fun w => decide (w.2.1 < k.ord - k.blk.idx) else k.wrote
    landings := k.landings.filter fun l => l.blk != seq
    delayed := k.delayed.filter fun d => d.blk != seq
    unread := k.unread.filter fun d => d.blk != seq
    locks := k.locks.filter fun l => l.blk != seq
    mq := k.mq.filter fun m => m.blk != seq
    mFault := k.mFault.filter fun m => !k.blk.entered || decide (m.idx ≤ k.blk.mFirst)
    pc := if k.blk.entered then k.blk.start else k.pc
    fences := k.fences.map fun f => if f.blk == seq then { f with waitBlk := none } else f
    blk := {
      seq := seq, start := k.blk.start, run := k.blk.run, replay := k.blk.replay, blame := k.blk.blame
      missAt := k.blk.missAt } }

/-- Every beat of a task moved by y − f; the M operation in progress is abandoned, a bundle that waited on `rel` comes to issue
anew, and a start that has found a fault in the window of R276 is due with the first bundle (R185, R274, R395). -/
def Task.shift (k : Task) (f y : Nat) : Task :=
  let sh (b : Nat) : Nat := b + y - f
  { k with
    nextIssue := sh k.nextIssue
    stopFrom := k.stopFrom.map sh
    landings := k.landings.map fun l => { l with due := sh l.due, caught := false }
    delayed := k.delayed.map fun d => { d with due := if d.caught then y else sh d.due, caught := false }
    locks := k.locks.map fun l => { l with beat := sh l.beat }
    blk := { k.blk with
      writes := k.blk.writes.map fun w => (w.1, sh w.2.1, w.2.2)
      compareAt := sh k.blk.compareAt, eDue := sh k.blk.eDue, nextAt := sh k.blk.nextAt, relAt := none }
    mq := k.mq.map fun m => { m with began := none, ready := 0, buf := none, beat := sh m.beat } }

/-! ### Context areas (R285, R286) -/

/-- What a context area keeps of a task: every section that differs from the task's start, and the scalar section also where it
differs from what a restore gives an unmarked one, as the bytes from a place in it on (R113, R286, log 16). `full` is that a stop
under R274 saves it. -/
def State.ctxSection (s : State) (t : Nat) (k : Task) (head : List Byte) (mark n : Nat) : Option (List (Nat × List Byte)) :=
  let r := k.regs
  let z : Regs := {}
  let cfgs (r : Regs) : List Word64 := r.rings.map Ring.creg
  let on (c : Bool) (bs : List Byte) : Option (List (Nat × List Byte)) := if c then some [(0, bs)] else none
  match n with
  | 0 => on true head
  | 1 => on (r.s != z.s || r.s != (z.s.set 1 k.record.argA).set 2 k.record.argB || r.q != z.q || r.tags != z.tags) r.sSection
  | 2 => on (!k.landings.isEmpty || !k.delayed.isEmpty) (steppingBytes mark (ctxAt 2) (ctxLen 2))
  | 3 => on (r.v != z.v) r.vSection
  | 4 => on (!k.hcw.isEmpty && hcwTable k.hcw != hcwTable (s.hcwOf k.part k.record.kernel))
      (fieldsBytes 32 ((hcwTable k.hcw).map (·.toNat)))
  | 5 => on (!r.maskA.isEmpty || !r.maskB.isEmpty || r.pal != z.pal || !r.scaleOff.isEmpty) r.unitSection
  | 6 => on (!k.locked.isEmpty) (lockedBytes k.locked)
  | 7 => on (!k.blk.held.isEmpty) (steppingBytes mark (ctxAt 7) (ctxLen 7))
  | 8 => on (r.a != z.a) r.aSection
  | 9 => on (r.bound != z.bound) r.boundSection
  | 10 => on (r.dqs != z.dqs) r.dqSection
  | 11 => if r.rings != z.rings then some (r.ringAreas.map fun a => (a.1 - ringStart, Memory.range (s.tile t).ringMem a.1 a.2))
    else none
  | 12 => match k.ckpt with
    | some c => on true (c.ckptSection (cfgs c))
    | none => none
  | _ => none

/-- The section-valid mask: bit n for row n of the table of R285 (log 16). -/
def State.ctxMask (s : State) (t : Nat) (k : Task) : Nat :=
  ((List.range 13).map fun n => if (s.ctxSection t k [] 0 n).isSome then 2 ^ n else 0).foldl (· + ·) 0

/-- The header's named fields (R285). -/
def State.header (s : State) (t : Nat) (k : Task) (cls : FaultClass) : List Byte :=
  k.record.bytes ++ leBytes 1 (match k.cause with | some c => c.code.toNat | none => 0)
  ++ leBytes 1 (if k.cause.isSome then cls.code else 0) ++ leBytes 2 (s.ctxMask t k)
  ++ leBytes 4 s.fixed.stepping.toNat ++ leBytes 8 k.stopAddr ++ leBytes 8 k.stopBeat
  ++ leBytes 8 k.stopInfo.toNat
  ++ ((List.range 28).map fun n => leBytes 8 (s.creg t k k.blk.idx n).toNat).flatten

/-- What follows them: group slots, control state, the flags of the block, the pending target, the forwarded replies, none of which
is present yet, and the bytes of the stepping (R185, R208, R277, R285, log 16). -/
def Task.headerRest (k : Task) (full : Bool) (mark : Nat) : List Byte :=
  padTo (hdrPriv - hdrGroups)
    (fieldsBytes 2 ((List.range 4).map fun i => (k.record.groups.getD i 0).toNat) ++ k.regs.ctlBytes
      ++ leBytes 4 (bitNat full + 2 * bitNat k.blk.pendingRead + 4 * bitNat k.blk.taken.isSome)
      ++ leBytes 8 (k.blk.taken.getD 0))
  ++ steppingBytes mark hdrPriv (ctxLen 0 - hdrPriv)

/-- A save that its context area does not take: nothing usable is left in the area, and its task cannot be revived (R286). -/
def State.spoilCtx (s : State) (t : Nat) (k : Task) : State :=
  let va := k.record.ctx.toNat
  let s : State := { s with saved := { part := k.part, va := va, task := {}, spoiled := true } ::
                      s.saved.filter fun e => !(e.part == k.part && e.va == va) }
  match s.accessRange (tileUnit t) k.part va 320 .write with
  | .ok pas => s.lowWrite (pas.map fun x => (x.1, 0))
  | .error _ => s

/-- What a save writes: the bytes of the header and of every marked section at their physical addresses, or the first of them
that the area does not take (R285, R286). -/
def State.ctxCells (s : State) (t : Nat) (k : Task) (head : List Byte) (mark : Nat) : Except (Cause × Nat) (List (List Cell)) :=
  allOk (fun (x : Nat × List Byte) => match s.accessRange (tileUnit t) k.part (k.record.ctx.toNat + x.1) x.2.length .write with
      | .error e => .error e
      | .ok pas => .ok ((pas.map (·.1)).zip x.2))
    ((List.range 13).map fun n => ((s.ctxSection t k head mark n).getD []).map fun x => (ctxAt n + x.1, x.2)).flatten

/-- A context saved in its area, through the context store of the tile's compute die: the header and every marked section as bytes,
and beside them the task under the number of the save, for what the stepping's bytes stand for (R285-R287, log 16, log 74). It fails
where the area does not translate or lacks W. -/
def State.saveCtx (s : State) (t : Nat) (k : Task) (cls : FaultClass) (full : Bool) : Except (Cause × Nat) State :=
  let p := k.part
  let va := k.record.ctx.toNat
  let k := { k with ringPoison := (s.tile t).ringPoison }
  let mark := s.serial
  let head := s.header t k cls ++ k.headerRest full mark
  let units := (List.range 20).map fun i => min (va + i * 65536) (va + Config.ctxBytes - 1)
  match units.findSome? fun a => match s.access (tileUnit t) p a .write with
      | .error c => some (c, a)
      | .ok _ => none with
  | some e => .error e
  | none =>
    match s.ctxCells t k head mark with
    | .error e => .error e
    | .ok cells =>
      let s := cells.foldl (fun s cs => s.lowWrite cs) s
      .ok { s with
        serial := s.serial + 1
        stores := updAt s.stores (computeDie (quadOf t)) fun x =>
          ((p, va) :: x.filter fun y => y != (p, va)).take Config.storedContexts
        saved := { part := p, va := va, task := k, mark := mark } ::
          s.saved.filter fun e => !(e.part == p && e.va == va) }

/-- A section holds, from a place on, the bytes of the stepping of this save. -/
def SavedCtx.matches (e : SavedCtx) (sec : Nat → Option (List Byte)) (n o : Nat) : Bool :=
  !e.spoiled && match sec n with
    | some bs => bs.drop o == steppingBytes e.mark (ctxAt n + o) (ctxLen n - o)
    | none => false

/-- The task that the bytes of the stepping in a section stand for, where a save of this area still stands there whole. -/
def State.steppingOf (s : State) (p va : Nat) (sec : Nat → Option (List Byte)) (n o : Nat) : Option Task :=
  (s.saved.find? fun e => e.part == p && e.va == va && e.matches sec n o).map (·.task)

/-- What the bytes of the stepping in an area give: the header's rest, and beside it the latches with the pending starts, and the
held effects, each where its own section is marked and whole (R286, R310, log 16). -/
def State.ctxBase (s : State) (p va : Nat) (sec : Nat → Option (List Byte)) : Task :=
  let base : Task := (s.steppingOf p va sec 0 hdrPriv).getD {}
  let latch : Task := (s.steppingOf p va sec 2 0).getD {}
  let buffer : Task := (s.steppingOf p va sec 7 0).getD {}
  { base with
    landings := latch.landings, delayed := latch.delayed
    blk := { base.blk with held := buffer.blk.held, heldAt := buffer.blk.heldAt } }

/-- The registers that the sections of an area hold; those of a section that is not marked are as at a task's start, but that
`s1` and `s2` are zero (R113, R286). -/
def Regs.ofSections (r : Regs) (sec : Nat → Option (List Byte)) : Regs :=
  let z : Regs := {}
  let creg (h : List Byte) (n : Nat) : Word64 := BitVec.ofNat 64 (byteField h (96 + 8 * n) 8)
  let r : Regs := match sec 0 with
    | some h =>
      let r := r.withCtl ((List.range 8).map fun i => creg h (0x10 + i)) h hdrCtl
      { r with
        vshape := (creg h 0x00).setWidth 16, round := (creg h 0x01).setWidth 3, fpflags := (creg h 0x02).setWidth 6
        fptrap := (creg h 0x03).setWidth 6, pbound := (creg h 0x09).setWidth 16, uflow := (creg h 0x0D).setWidth 13
        oflow := (creg h 0x0E).setWidth 13, debug := (creg h 0x18).getLsbD 0 }
    | none => { z with recv := r.recv }
  let r := match sec 1 with
    | some bs => r.withS bs
    | none => { r with s := z.s, q := z.q, tags := z.tags }
  let r := match sec 3 with
    | some bs => r.withV bs
    | none => { r with v := z.v }
  let r := match sec 5 with
    | some bs => r.withUnits bs
    | none => { r with maskA := [], maskB := [], pal := z.pal, scaleOff := [] }
  let r := match sec 8 with
    | some bs => r.withA bs
    | none => { r with a := z.a }
  let r := match sec 9 with
    | some bs => r.withBound bs
    | none => { r with bound := z.bound }
  match sec 10 with
  | some bs => r.withDq bs
  | none => { r with dqs := z.dqs }

/-- The task that the sections of an area give: what R285 gives a place is what the bytes hold, and the rest is what the stepping's
bytes stand for, nothing where they are not those of a save (R286, R310, log 16). -/
def Task.ofSections (base : Task) (sec : Nat → Option (List Byte)) (ten : Bool) : Task :=
  let h := (sec 0).getD []
  let flag (i : Nat) : Bool := (byteField h hdrFlags 4).testBit i
  let regs := base.regs.ofSections sec
  { base with
    regs := regs
    ckpt := (sec 12).map fun bs => (base.ckpt.getD regs).withCkpt bs
    gpos := BitVec.ofNat 64 (byteField h (96 + 8 * 0x06) 8)
    testEn := if flag 0 then (byteField h (96 + 8 * 0x19) 8).testBit 0 else ten
    hcw := match sec 4 with
      | some bs => (fieldsAt bs 0 32 512).map (BitVec.ofNat 256)
      | none => []
    record := { base.record with groups := (fieldsAt h hdrGroups 2 4).map (BitVec.ofNat 16) }
    locked := match sec 6 with
      | some bs => lockedOf bs
      | none => []
    blk := { base.blk with
      pendingRead := flag 1, taken := if flag 2 then some (byteField h hdrTaken 8) else none }
    locks := base.locks.map fun l =>
      if (byteField h hdrReplies 8).testBit l.reg.toNat then
        { l with value := some (BitVec.ofNat 64 (byteField h (hdrReplies + 8 + 8 * l.reg.toNat) 8)) }
      else l
    ringMem := match sec 11 with
      | some bs => ((regs.ringAreas.insertionSort fun a b => a.1 ≤ b.1).map fun a =>
          (cellsAt a.1 ((bs.drop (a.1 - ringStart)).take a.2)).filter fun c => c.2 != Memory.unlisted).flatten
      | none => []
    ringPoison := if (sec 11).isSome then base.ringPoison else []
    stopBeat := byteField h 80 8 }

/-- The 4 KiB header of a context area read 64 bytes at a time, or why it cannot be (R113). -/
def State.ctxHeader (s : State) (t p va : Nat) : Except Cause (List Byte) :=
  match allOk (fun i => s.access (tileUnit t) p (va + 64 * i) .read) (List.range 64) with
  | .error c => .error c
  | .ok ls =>
    if ls.any fun l => s.cohPoisoned (lineOf l.pa) then .error .eccUncorrectable
    else .ok (ls.map fun l => s.cohBytes l.pa 64).flatten

/-- What a context area gives a task on its return, or none where no section is marked (R113, R286). It fails
where the header cannot be read or names another stepping, and, as the model has it, where another marked section cannot be
reached, with that section's address (log 85). -/
def State.loadCtx (s : State) (t p : Nat) (r : Record) : Except (Cause × Nat) (Option Task) :=
  let va := r.ctx.toNat
  match s.ctxHeader t p va with
  | .error c => .error (c, va)
  | .ok h =>
    if byteField h 68 4 != s.fixed.stepping.toNat then .error (.poolRecord, va)
    else
      let mask := byteField h 66 2
      if mask == 0 then .ok none
      else
        match allOk (fun n =>
            if n == 0 then .ok (some h)
            else if !mask.testBit n then .ok none
            else match s.accessRange (tileUnit t) p (va + ctxAt n) (ctxLen n) .read with
              | .error e => .error e
              | .ok xs => .ok (some (xs.map fun x => s.cohByte x.1))) (List.range 13) with
        | .error e => .error e
        | .ok xs =>
          let sec (n : Nat) : Option (List Byte) := xs.getD n none
          .ok (some ((s.ctxBase p va sec).ofSections sec (s.quads.getD p {}).ten))

/-! ### Instruction fetch -/

/-- The 32 bytes at a bundle address, as a tile's fetch reads them (R232, log 12). -/
def State.fetch (s : State) (t p va : Nat) : Except Cause Word256 :=
  match s.access (tileUnit t) p va .fetch with
  | .error c => .error (if c == .eccUncorrectable then .fetchEcc else .fetchXlate)
  | .ok l =>
    if s.cohPoisoned (lineOf l.pa) then .error .fetchEcc
    else .ok (BitVec.ofNat 256 (leNat (s.cohBytes l.pa 32)))

/-- The bundle or seal at an address as it issues: the copy of a target buffer, the loop buffer, or the
instruction fetch (R163, R321). -/
def State.codeAt (s : State) (t : Nat) (k : Task) (va : Nat) : Except Cause Word256 :=
  match k.pcCopy with
  | some (a, w) => if a == va then .ok w else
      match assoc k.loopBuf va with
      | some w => .ok w
      | none => s.fetch t k.part va
  | none =>
    match assoc k.loopBuf va with
    | some w => .ok w
    | none => s.fetch t k.part va

/-- The seal of the block that an address lies in: the bundle after the next one that has E = 1, within n. -/
def State.sealAhead (s : State) (t : Nat) (k : Task) : Nat → Nat → Option Seal
  | 0, _ => none
  | n + 1, va =>
    match s.codeAt t k va with
    | .error _ => none
    | .ok w =>
      if (headerOf (headerWord w)).eob then
        match s.codeAt t k (va + 32) with
        | .ok x => some (sealOf x)
        | .error _ => none
      else s.sealAhead t k n (va + 32)

/-! ### The end of a task -/

/-- The launch that created a task: its ids are one run (R112). -/
def Launch.owns (l : Launch) (id : Word64) : Bool := decide ((id - l.first).toNat < l.made)

/-- The LAUNCH of an ended task counts it, once (R133). -/
def State.launchEnded (s : State) (p : Nat) (id : Word64) : State :=
  let count (y : Launch) : Launch := if y.owns id && !y.ended.contains id then { y with ended := y.ended ++ [id] } else y
  { s with parts := updAt s.parts p fun x => { x with launches := x.launches.map count } }

/-- The 160 bytes of a merge-log entry (R12). -/
def PrivLine.bytes (l : PrivLine) (id : Word64) : List Byte :=
  leBytes 8 l.va ++ leBytes 16 l.mask.toNat ++ leBytes 8 id.toNat ++ leBytes 128 l.data.toNat

/-- An entry appended to the merge log: in its memory and in the round. A log that is full, or cannot be written,
fences the partition (R254). -/
def State.mergeAppend (s : State) (p : Nat) (r : MergeRound) (id : Word64) (l : PrivLine) : State :=
  let q := s.quads.getD p {}
  let va := q.mbase.toNat * 4096 + 160 * r.log.length
  if 2 ^ q.mlen.toNat ≤ r.log.length then s.fencePart p { cause := .mergeConflict, cls := .f, task := id }
  else
    match s.accessRange p p va 160 .write with
    | .error _ => s.fencePart p { cause := .mergeConflict, cls := .f, task := id, data := va }
    | .ok pas =>
      let s := s.lowWrite ((pas.map (·.1)).zip (l.bytes id))
      { s with parts := updAt s.parts p fun x => { x with round := some { r with log := r.log ++ [(id, l)] } } }

/-- A task of a merge round reaches a sync point: its private lines enter the merge log (R252, R253). -/
def State.mergeSync (s : State) (p : Nat) (k : Task) : State :=
  let s := k.priv.foldl (fun s l => match (s.parts.getD p {}).round with
    | some r => s.mergeAppend p r k.record.taskid l
    | none => s) s
  let left (r : MergeRound) : MergeRound := { r with running := r.running.filter fun i => i != k.record.taskid }
  { s with parts := updAt s.parts p fun x => { x with round := x.round.map left } }

/-- A tile without a task (R115). The task's mills detach with it; those of a pre-empted task went with
its context (R270), and what it has pending with its partner is discarded (R150, log 35). -/
def State.freeTile (s : State) (t : Nat) : State :=
  (s.clearFills t).modTile t fun x =>
    { x with task := none, req := none, watch := 0, hold := none, gangLead := none, ringPoison := [], pairPend := [] }

/-- The stream channels that a task holds, released (R391). -/
def State.releaseChans (s : State) (p : Nat) (id : Word64) : State :=
  let free (c : Channel) : Channel :=
    if c.part.toNat == p && c.holder == some id.toNat then { c with holder := none } else c
  { s with ports := s.ports.map fun x => { x with chans := x.chans.map free } }

/-- A task or a record of the frame in progress is left: a record that a halt has returned, not one that `spawn` has made, which no
tile takes there (R146, R410). -/
def State.frameBusy (s : State) (p : Nat) : Bool :=
  (s.tilesOf p).any (fun t => match (s.tile t).task with
    | some k => k.record.tt
    | none => false)
  || (s.parts.getD p {}).commons.any fun q => q.record.tt && match q.slot with
      | .ret _ => true
      | _ => false

/-- The tick on which the last task of a frame has ended is kept (R146, R147). -/
def State.noteFrame (s : State) (p : Nat) : State :=
  let note (f : Frames) : Frames := { f with ended := some (f.ended.getD s.refTick) }
  if s.frameBusy p then s
  else { s with parts := updAt s.parts p fun x => { x with frames := x.frames.map note } }

/-- A task leaves its groups as it ends; one of a merge round does at the close (R126, R253, log 47). -/
def State.leaveGroups (s : State) (p : Nat) (r : Record) : State :=
  match (s.parts.getD p {}).round with
  | some m =>
    if m.members.contains r.taskid then
      let ops : List (Word64 × MergeOp) := (r.groups.filter fun g => g != 0).map fun g => (r.taskid, .group g false)
      { s with parts := updAt s.parts p fun x => { x with round := some { m with ops := m.ops ++ ops } } }
    else s.groupsUpdate p r.groups false
  | none => s.groupsUpdate p r.groups false

/-- The end of a task: it leaves its groups and its channels, and counts as ended (R115, R126, R133, R146, R391). -/
def State.endTask (s : State) (t : Nat) (k : Task) : State :=
  let s := s.releaseChans k.part k.record.taskid
  let s := s.mergeSync k.part k
  let s := s.leaveGroups k.part k.record
  let s := s.launchEnded k.part k.record.taskid
  (s.freeTile t).noteFrame k.part

/-- The members of the gang of a tile, itself included (R148). -/
def State.gangOf (s : State) (t : Nat) : List Nat :=
  match (s.tile t).gangLead with
  | none => [t]
  | some l => (List.range Config.physTiles).filter fun x => (s.tile x).gangLead == some l

/-! ### Additions from peers (R196, R197) -/

/-- The task of a tile replaced. -/
def State.putTask (s : State) (t : Nat) (k : Task) : State := s.modTile t fun x => { x with task := some k }

/-- The peer's accumulator with an addition, and whether an integer clamped. -/
def Acc.addPeer (x : Acc) (p : PeerAdd) : Acc × Bool :=
  if x.poison.isSome then (x, false)
  else
    let rs := (x.elems.zip p.elems).map fun (a, b) =>
      if p.float then mmaFloat (a36.decode a.toNat) [(a36.decode b.toNat, .fin false 1 0)]
      else mmaInt (intDecode 36 true a.toNat) [(intDecode 36 true b.toNat, 1)]
    ({ x with elems := rs.map fun r => BitVec.ofNat 36 r.1 },
      !p.float && rs.any fun r => r.2 != 0#6)

/-- An acknowledgement reaches the task that waits for it, on its tile or in its context area (R185). -/
def State.acknowledge (s : State) (serial : Nat) (io : Bool) : State :=
  let put (k : Task) : Task :=
    if k.mq.any fun m => m.serial == serial then { k with acks := k.acks ++ [(serial, io)] } else k
  { s with
    tiles := s.tiles.map fun x => { x with task := x.task.map put }
    saved := s.saved.map fun e => { e with task := put e.task } }

/-- The first addition that has arrived at a tile is applied to the task there, for good, or discarded where there is
none (R155, R197). -/
def State.applyPeer (s : State) (t : Nat) : State :=
  let x := s.tile t
  match x.peerIn with
  | [] => s
  | p :: rest =>
    let s := s.modTile t fun x => { x with peerIn := rest }
    match x.task with
    | none => s.acknowledge p.serial false
    | some k =>
      let io := ((k.regs.acc p.aM).addPeer p).2
      let f (r : Regs) : Regs := r.setA p.aM ((r.acc p.aM).addPeer p).1
      ((s.putTask t { k with regs := f k.regs, ckpt := k.ckpt.map f }).modTile t fun y => { y with
        pairPend := y.pairPend.map fun q => { q with before := { q.before with regs := f q.before.regs } } }).acknowledge p.serial io

/-- A task that is saved first takes the additions that have arrived (R197). -/
def State.flushPeer (s : State) (t : Nat) : State :=
  (s.tile t).peerIn.foldl (fun s _ => s.applyPeer t) s

/-! ### Taking an exception (R274-R279) -/

/-- What stops a task: cause, class, stop beat, bundle address, data address and the header's word. -/
structure StopInfo where
  cause : Cause
  cls : FaultClass
  beat : Nat
  bundle : Nat
  data : Nat := 0
  info : Word64 := 0
  step : Nat := 0
deriving DecidableEq, Repr

/-- The INJECT record of every `inj` that has been spent in the block and has none yet; its flag is that a replay has corrected
what it corrupted (R307). -/
def State.logInject (s : State) (t : Nat) (k : Task) (replayed : Bool) : State :=
  (k.injHits.filter fun x => !x.logged).foldl (fun s x => s.log k.part
    { cause := .inject, cls := .v, transient := x.cured || (replayed && x.bad), tile := some t, task := k.record.taskid
      bundle := x.addr, a := x.inj.word.toNat, b := x.inj.d }) s

/-- The firings of an `inj` as their records leave them: kept while the block they belong to has still to end (R307). -/
def Task.injLogged (k : Task) : Task :=
  { k with injHits := if k.blk.entered then k.injHits.map fun x => { x with logged := true } else [] }

/-- A task whose rings are not kept: their mills detach for good (R270). -/
def Task.dropRings (k : Task) : Task :=
  let z : Regs := {}
  { k with
    mills := [], regs := { k.regs with rings := z.rings }, ckpt := k.ckpt.map fun c => { c with rings := z.rings } }

/-- The task of a timetable entry ends for the frame on every member of its gang: what they have not committed is discarded, and
records of it that a halt has returned go too (R150). -/
def State.endEntry (s : State) (p : Nat) (id : Word64) : State :=
  let s : State := { s with parts := updAt s.parts p fun x =>
    { x with commons := x.commons.filter fun q => !(q.record.tt && q.record.taskid == id) } }
  (s.tilesOf p).foldl (fun s m => match (s.tile m).task with
    | some k => if k.record.tt && k.record.taskid == id then
        (s.endTask m k).modTile m fun x => { x with pairPend := [] } else s
    | none => s) (s.noteFrame p)

/-- A task that its context area stops: its record is logged with the area's cause, and the task, or the entry of its timetable,
ends (R113, R150, R286, R307). -/
def State.ctxFail (s : State) (t : Nat) (k : Task) (r : LogRec) (c : Cause) (va : Nat) : State :=
  let s := s.logInject t k (k.blk.replay && k.blk.phase == .commit)
  let s := s.log k.part { r with cause := c, cls := .s, tile := some t, task := k.record.taskid, data := va }
  if k.record.tt then (s.endEntry k.part k.record.taskid).freeTile t else s.endTask t k

/-- A `cread` of the block in progress whose responder has found its counter poisoned is captured as a pending start when its
task stops: it is attempted again from the resume beat on, so its fold is taken back; one whose block has committed is not
attempted again (R274, R344). -/
def Task.captureReads (k : Task) (f : Nat) : Task :=
  let again := k.unread.filter fun d => d.blk == k.blk.seq && k.blk.entered && k.blk.phase == .open
  { k with
    unread := []
    delayed := k.delayed ++ again.map fun d => { d with due := f }
    blk := { k.blk with folds := k.blk.folds.filter fun x => !(again.any fun d => x.1 == d.idx && x.2.1 == d.slot.code) } }

/-- A task stopped by a cause of class D, S, A, U, K or B is aborted: its context is saved with the cause, without its rings
(R270), a record is logged, and it ends (R278). In a timetable gang every member's task ends for the frame, and
nothing is saved (R150). A context area that cannot be written aborts it with that cause (R286). -/
def State.abort (s : State) (t : Nat) (i : StopInfo) : State :=
  let s := s.flushPeer t
  match (s.tile t).task with
  | none => s
  | some k =>
    let s := s.logInject t k (k.blk.replay && k.blk.phase == .commit)
    let k := { (k.dropRings.captureReads i.beat).injLogged with
      cause := some i.cause, stopAddr := i.bundle, stopInfo := i.info, stopBeat := i.beat, inj := none
      stop := none, stopFrom := none, stopBlk := none, stopStep := 0, stopHeld := false
      record := { k.record with hasctx := true, resume := k.pc } }
    let rec_ : LogRec := { cause := i.cause, cls := i.cls, tile := some t, task := k.record.taskid
                           bundle := i.bundle, data := i.data, a := i.info.toNat, b := i.step }
    if k.record.tt then (s.log k.part rec_).endEntry k.part k.record.taskid
    else
      match s.saveCtx t k i.cls true with
      | .ok s => (s.log k.part rec_).endTask t k
      | .error (c, va) => (s.spoilCtx t k).ctxFail t k rec_ c va

/-- The task whose operation faults at the bundle of s.cur: the bundle is to issue again, and where it is an E bundle the task
is taken back to the entry of its block, with the registers that the seal does not name as the run left them (R178, R276,
R331). -/
def State.backAt (s : State) : Task :=
  let k := s.me
  let k := if s.cur.late then k else { k with pc := s.cur.addr }
  if s.cur.eob then k.rollback (s.sealAhead s.cur.tile k 1 s.cur.addr) else k

/-- A tile's task taken back to what it was: the additions of a cancelled `mdrain.red` that are on their way are cancelled with it
(R177, R185). -/
def State.takeBack (s : State) (t : Nat) (k : Task) : State :=
  let gone : List Nat := match (s.tile t).task with
    | some y => (y.mq.filter fun m => !(k.mq.any fun n => n.serial == m.serial)).map (·.serial)
    | none => []
  let s := if gone.isEmpty then s
    else { s with tiles := s.tiles.map fun x => { x with peerIn := x.peerIn.filter fun p => !gone.contains p.serial } }
  s.modTile t fun x => { x with task := some k }

/-- A fault of an operation that was to start: the bundle's other slots have no effect, and a fault of an E
bundle leaves the state of block entry (R178, R274, R276). -/
def State.faultAt (s : State) (c : Cause) (cls : FaultClass) (data : Nat) : State :=
  (s.takeBack s.cur.tile s.backAt).abort s.cur.tile
    { cause := c, cls := cls, beat := s.cur.beat, bundle := s.cur.addr, data := data }

/-- The class of a cause that an operation starting in a slot raises (R280): PRIVILEGED is D for `inj` and
`ssetc` and S for a store, FORMAT_INVALID D in the vector positions (R403, R426). -/
def Cause.startClass (sl : Slot) : Cause → FaultClass
  | .bundleReserved | .syllableKind | .opcodeUndefined | .opcodeStepping | .opcodeRemoved | .hcwEmpty
  | .engineAbsent | .fetchXlate | .fetchEcc | .transferPlace | .commitPlace | .transformPort => .d
  | .privileged => if sl == .l || sl == .d then .s else .d
  | .formatInvalid => if sl == .va || sl == .vb then .d else .s
  | _ => .s

/-- What a `wait` that needs every M operation up to a number makes surface: their flags merge, and their
poison and a stopped chain count as raised; the flags of earlier blocks merge into the checkpoint too (R36, R37, R190,
R207). -/
def Task.surface (k : Task) (upto : Option Nat) : Task :=
  match upto with
  | none => { k with mFault := none }
  | some n =>
    let due (f : Nat × FpFlags) : Bool := decide (f.1 ≤ n)
    let flags := ((k.regs.a.map fun a => a.flags).flatten ++ k.regs.bound.flags).filter due
    let older := flags.filter fun f => decide (f.1 ≤ k.blk.mFirst)
    let r := { k.regs with
      fpflags := flags.foldl (fun g f => g ||| f.2) k.regs.fpflags
      bound := { k.regs.bound with flags := k.regs.bound.flags.filter fun f => !due f }
      a := k.regs.a.map fun a => { a with
        flags := a.flags.filter fun f => !due f
        poisonAt := if a.poisonAt ≤ n then 0 else a.poisonAt } }
    { k with regs := r
             ckpt := k.ckpt.map fun c => { c with fpflags := older.foldl (fun g f => g ||| f.2) c.fpflags }
             mFault := k.mFault.filter fun m => decide (n < m.idx) }

/-- A fault of class U that surfaces at a bundle: the bundle commits no slot, and an E bundle leaves the state of block entry
(R178, R276, R279). -/
def State.lateAt (s : State) (c : Cause) (bundle data step : Nat) (upto : Option Nat) : State :=
  (s.takeBack s.cur.tile (s.backAt.surface upto)).abort s.cur.tile
    { cause := c, cls := .u, beat := s.cur.beat, bundle := bundle, data := data, step := step }

/-- A fault of class K of an operation at step 2 of R70: it has no effect and is not attempted again; steps 3 and
4 are left pending (R278, R311). -/
def State.skipAt (s : State) (c : Cause) (data : Nat) : State :=
  let k := s.me
  (s.setMe { k with blk := { k.blk with eOp := none } }).abort s.cur.tile
    { cause := c, cls := .k, beat := s.cur.beat, bundle := s.cur.addr, data := data }

/-- The busy/idle entry of a tile's index for the phase of a logical tick, increased by beats issued or stalled and by ticks of the
hold line; both counts saturate. A tick beyond the frame's length lies in no phase (R152). -/
def State.busyAt (s : State) (p t ltick beats ticks : Nat) : State :=
  match (s.parts.getD p {}).frames, s.logicalOf t with
  | some f, some n =>
    if f.table.len ≤ ltick then s
    else
      let i := n * 64 + ltick / (f.table.len / 64)
      let sat (a n : Nat) : Nat := min (a + n) (2 ^ 32 - 1)
      { s with parts := updAt s.parts p fun x =>
          let v := ((assoc x.busy i).getD 0).toNat
          let w : Word64 := BitVec.ofNat 64 (sat (v / 2 ^ 32) ticks * 2 ^ 32 + sat (v % 2 ^ 32) beats)
          { x with busy := assocSet x.busy i w } }
  | _, _ => s

/-- The n cycles in which a tile's hold line is raised next: the ticks of the tile, of eight cycles, in which that comes about
count once each (R3, R152). -/
def State.busyHold (s : State) (t n : Nat) : State :=
  match (s.tile t).task with
  | none => s
  | some k =>
    if n == 0 || (s.parts.getD k.part {}).frames.isNone then s
    else
      let x := s.tile t
      let a := x.cyc / 8
      let b := (x.cyc + n - 1) / 8
      (s.busyAt k.part t (s.frameOf k.part).2 0 (b + (if x.heldTick == some a then 0 else 1) - a)).modTile t fun x =>
        { x with heldTick := some b }

/-- Beats that a tile issues or stalls from now on, eight to a tick at 1.75 GHz (R3, R151, R152). -/
def State.busyBeats (s : State) (p t beats : Nat) : State :=
  if (s.parts.getD p {}).frames.isNone then s
  else
    let now := (s.frameOf p).2
    (List.range beats).foldl (fun s i => s.busyAt p t (now + i / 8) 1 0) s

/-- The beats of a tile that waits on `rel` while n ticks pass: they go on as under a stall count (R145, R152). -/
def State.busyWait (s : State) (p t n : Nat) : State :=
  match (s.parts.getD p {}).frames with
  | none => s
  | some f =>
    let now := (s.frameOf p).2
    let w := f.table.len / 64
    (List.range 64).foldl (fun s ph =>
      let c := min (now + n) ((ph + 1) * w) - max now (ph * w)
      if c == 0 then s else s.busyAt p t (ph * w) (8 * c) 0) s

/-- A cycle of the hold line, raised on every member of a gang; a miss has requested its lines, and an `nrecv` that holds has
taken its channel (R51, R148, R308, R391). A bundle that waits on `rel` raises no hold line (R145). -/
def State.raiseHold (s : State) (t : Nat) (h : HoldReason) : State :=
  let up (s : State) : State := (s.gangOf t).foldl (fun s m =>
    (s.busyHold m 1).modTile m fun x => x.raise (if m == t then h else .gang)) s
  match h, (s.tile t).task with
  | .rel, some k => s.modTile t fun x => { x with task := some { k with
      blk := { k.blk with relAt := some (k.blk.relAt.getD x.beat) } } }
  | .miss lines, some k => up (s.askLines t lines (k.blk.phase == .open || s.cur.late))
  | .recv p c, some k => up { s with ports := updAt s.ports p fun x => { x with chans := updAt x.chans c fun y =>
      { y with holder := some (y.holder.getD k.record.taskid.toNat) } } }
  | _, _ => up s

/-- A decode fault (R76): the bundle commits no slot. ENGINE_ABSENT retires the tile, and the task goes on elsewhere
(R64, R280). -/
def State.decodeAt (s : State) (c : Cause) : State :=
  if c == .engineAbsent then
    let k := s.me
    let k := { k with pc := s.cur.addr, stop := some (.fault c .d s.cur.addr 0 0), stopFrom := none }
    (s.takeBack s.cur.tile (if s.cur.eob then k.rollback (s.sealAhead s.cur.tile k 1 s.cur.addr) else k)).modTile s.cur.tile fun x =>
      { x with life := if x.life == .service then .retiring else x.life }
  else s.faultAt c .d 0

/-- What starting an operation leads to: its effect, the stop of its task, or a raised hold line. -/
def State.settled (s : State) (r : Except Stop State) : State :=
  match r with
  | .ok s' => s'
  | .error (.decode c) => s.decodeAt c
  | .error (.fault c d) => s.faultAt c (Cause.startClass s.cur.slot c) d
  | .error (.after c d) => s.skipAt c d
  | .error (.late c b d n u) => s.lateAt c b d n u
  | .error (.hold h) => s.raiseHold s.cur.tile h

/-- An operation on its own, as the arms of exec run it. A tile without a task starts nothing. The Fixed registers of R294 keep their values. -/
def settle (s : State) (r : Except Stop State) : Host.Outcome State Fault Refusal :=
  if s.here.task.isNone then .next s else .next { s.settled r with fixed := s.fixed }

/-- The outcome of an event: its next state, with the Fixed registers of R294 as they were. -/
def happens (s s' : State) : Host.Outcome State Fault Refusal := .next { s' with fixed := s.fixed }

/-- The outcome of an event of a tile: where it would break a locked run of another tile that it has to give way to, it is held
back and does not come about before that run's order point (R236, log 2). -/
def happensAt (t : Nat) (s s' : State) : Host.Outcome State Fault Refusal :=
  happens s (if s.breaksFor s' t then s else s')

/-- The outcome of an event of a party that writes memory beside the tiles: where it would break a locked run, it is held
back and does not come about before that run's order point (R236, log 2). -/
def heldBack (s s' : State) : Host.Outcome State Fault Refusal := happens s (if s.breaksLock s' then s else s')

/-! ### Leaving a tile without ending (R120, R123, R281, R283) -/

/-- An idle tile of a partition takes records (R113). -/
def State.idle (s : State) (t : Nat) : Bool :=
  let x := s.tile t
  x.task.isNone && x.life == .service && (s.logicalOf t).isSome

/-- The pre-emption request of R123: when no tile of the partition is idle, to the task of lowest priority below
p, and among those to the one with the highest task id. -/
def State.requestPreempt (s : State) (p : Nat) (prio : BitVec 2) : State :=
  let q := s.quads.getD p {}
  let ts := s.tilesOf p
  if q.tt || q.mg || ts.any (fun t => s.idle t) then s
  else
    let run := ts.filterMap fun t => match (s.tile t).task with
      | some k => if k.record.prio < prio then some (t, k) else none
      | none => none
    match run.insertionSort fun a b => a.2.record.prio < b.2.record.prio
        || (a.2.record.prio == b.2.record.prio && decide (b.2.record.taskid ≤ a.2.record.taskid)) with
    | [] => s
    | (t, _) :: _ => s.modTile t fun x => { x with req := some (x.req.getD x.cyc) }

/-- A record's return to the commons in its tile's return slot, as the oldest of its level (R120, R123). -/
def State.returnRecord (s : State) (p t : Nat) (r : Record) : State :=
  let s : State := { s with parts := updAt s.parts p fun x =>
    { x with commons := { record := r, slot := .ret t, stamp := 0 } :: x.commons } }
  s.requestPreempt p r.prio

/-- A task gives up its tile: its context is saved and its record returned (R123, R281, R283, R287). Its
mills go with the context (R270), and what an `inj` has corrupted in its block is logged when that block ends (R307). -/
def State.giveUp (s : State) (t f : Nat) (raf : Bool) (why : Option Cause) : State :=
  let s := s.flushPeer t
  match (s.tile t).task with
  | none => s
  | some k =>
    let kept := match k.stop with
      | some (.fault c cls a d n) => if c == .engineAbsent then none else some (StopDue.fault c cls a d n)
      | _ => none
    let k := k.captureReads f
    let k := { k with stopBeat := f, cause := why, inj := none, stop := kept
                      stopFrom := none, stopBlk := if kept.isSome then k.stopBlk else none, stopHeld := false
                      record := { k.record with hasctx := true, resume := k.pc, raf := raf || k.record.raf } }
    match s.saveCtx t k .v true with
    | .ok s => (s.freeTile t).returnRecord k.part t k.record
    | .error (c, va) => (s.spoilCtx t k).ctxFail t k { cause := c, cls := .s } c va

/-! ### The return from an exception (R113, R278) -/

/-- The value of a D-slot operation delivered to the register it locks: with the operation's tag, or, where the
operation belongs to an earlier block, with the entry tag and in the checkpoint too (R53, R168, R175). -/
def Task.deliver (k : Task) (l : Lock) (v : Word64) : Task :=
  let earlier := l.blk != k.blk.seq
  { k with
    regs := (k.regs.setS l.reg v).setTag (.s l.reg) (if earlier then canonTag l.reg.toNat else l.tag)
    ckpt := if earlier then k.ckpt.map fun c => c.setS l.reg v else k.ckpt
    locks := k.locks.filter fun x => x.serial != l.serial }

/-- The values that the context area has received while the task was saved, delivered on its restore; for those that are not
present yet the tile holds (R277). -/
def Task.deliverSaved (k : Task) : Task :=
  k.locks.foldl (fun k l => match l.value with
    | some v => k.deliver l v
    | none => { k with locks := k.locks.map fun x => if x.serial == l.serial then { x with away := true } else x }) k

/-- A delivered value in the registers that pending paired blocks after that of its operation would restore (R155, R156). -/
def Tile.deliverBefore (x : Tile) (l : Lock) (v : Word64) : Tile :=
  x.modBefore l.blk fun k => { k with regs := k.regs.setS l.reg v }

/-- A restored task waits for a value (R277). -/
def Task.awaits (k : Task) : Bool := k.locks.any (·.away)

/-- The tile's task waits so. -/
def State.awaiting (s : State) (t : Nat) : Bool := (s.tile t).task.any Task.awaits

/-- `cr.tile` of a task that is placed on a tile (R16). -/
def State.placeOf (s : State) (t p : Nat) : Word64 :=
  BitVec.ofNat 64 (p * 2 ^ 24 + (meshOf t).toNat * 256 + (s.logicalOf t).getD 0)

/-- A task as a record with hasctx = 0 starts it (R113, R306). -/
def State.freshTask (s : State) (p : Nat) (r : Record) : Task :=
  let k : Task := {
    record := r, part := p, pc := r.resume
    testEn := (s.quads.getD p {}).ten
    hcw := s.hcwOf p r.kernel }
  { k with regs := { k.regs with s := (k.regs.s.set 1 r.argA).set 2 r.argB } }

/-- A task as its context area restores it, with y in place of the stop beat and the group slots of the area (R113, R274, R285). A
context with
no section marked starts as for hasctx = 0, but with every register at zero. -/
def State.resumedTask (s : State) (t p : Nat) (r : Record) (y : Nat) :
    Except (Cause × Nat) Task :=
  match s.loadCtx t p r with
  | .error e => .error e
  | .ok none =>
    let k := s.freshTask p { r with argA := 0, argB := 0 }
    .ok { k with record := r, nextIssue := y }
  | .ok (some k) =>
    let k := (k.shift k.stopBeat y).deliverSaved
    .ok { k with record := { r with groups := k.record.groups }, part := p, pc := r.resume, cause := none, loopBuf := []
                 blk := { k.blk with resumed := if k.blk.entered then some k.ord else none }
                 hcw := if k.hcw.isEmpty then s.hcwOf p r.kernel else k.hcw }

/-- A task placed on a tile (R113): it starts, or it is restored, and its first bundle is due on beat y.
Where the context header cannot be read, the task is aborted before its first bundle issues, and nothing is
written to the area. What it accesses is ordered after everything performed so far (log 11), and the ways that its rings cover
hold no cached lines (R215). -/
def State.placeTask (s : State) (t p : Nat) (r : Record) (y : Nat) : State :=
  if r.hasctx then
    match s.resumedTask t p r y with
    | .ok k => (s.modTile t fun x =>
      { x with task := some { k with ringMem := [], ringPoison := [], place := s.placeOf t p }, watch := 0, hold := none
               ringMem := k.ringMem, ringPoison := k.ringPoison, clock := max x.clock s.clockMax }).trimStash t
    | .error (c, va) => s.ctxFail t (s.freshTask p r) { cause := c, cls := .s } c va
  else
    s.modTile t fun x =>
      { x with task := some { s.freshTask p r with nextIssue := y, place := s.placeOf t p }, watch := 0, hold := none, ringPoison := []
               clock := max x.clock s.clockMax }

/-! ### The watchdog (R288) -/

/-- A commit step that holds: the tile can be left at it. -/
def Tile.holdsCommit (x : Tile) (k : Task) : Bool :=
  k.blk.phase == .commit
  && (x.hold == some .spawn || x.hold == some .yieldSlot || match k.blk.eState with
      | .cwaitRetry _ _ => true
      | _ => false)

/-- A task that stands where a stop may be taken: outside the window of R276. -/
def Task.open_ (k : Task) : Bool := k.blk.phase == .open && !k.blk.hasXfer

/-- The beat on which the watchdog of a tile expires, if it does before the tile has gone on past a beat. A task whose stop
for a fault is due expires no more, and the wait for a `rel` does not count (R288, R395). -/
def State.hangAt (s : State) (t : Nat) (k : Task) (b : Nat) : Option Nat :=
  let x := s.tile t
  let bound := 2 ^ (s.quads.getD k.part {}).lwd.toNat
  match k.stop with
  | some (.fault _ _ _ _ _) => none
  | _ => if k.blk.relAt.isNone && decide (bound ≤ x.watch + (max x.beat b - x.beat)) then some (x.beat + (bound - x.watch)) else none

/-- The watchdog expires on beat f: the task is aborted there, or past the E bundle of the window of R276. An E bundle that
cannot issue, since the tile holds at it, is left with its block's entry state (log 56). -/
def State.hang (s : State) (t f : Nat) : State :=
  let x := s.tile t
  match x.task with
  | none => s
  | some k =>
    let stopAt (s : State) (f : Nat) : State := s.abort t { cause := .hang, cls := .s, beat := f, bundle := k.pc }
    if k.open_ then stopAt (s.modTile t fun x => x.toBeat f) f
    else if x.holdsCommit k then stopAt s x.beat
    else if k.blk.phase == .open && x.hold.isSome then stopAt (s.takeBack t (k.rollback (s.sealAhead t k 1 k.pc))) x.beat
    else s.putTask t { k with stop := some (.fault .hang .s k.pc 0 0), stopFrom := none, stopBlk := none, stopStep := 0 }

/-- The watchdog of a task that stands where it can be left expires before a beat on which something else is due on its tile: its
beat (R288). -/
def State.expired (s : State) (t b : Nat) : Option Nat :=
  match (s.tile t).task with
  | some k => if k.open_ && !s.fenced k.part then s.hangAt t k b else none
  | none => none

end Sys2Proof.Machine
end

