-- ==== Sys2Proof/Machine/Tensor.lean ====
section
/-! DEFINITION. Tensors: descriptors and their checks, element addresses, frames with their metadata and check
words, write-combining, and the reads and writes of engines (spec 09 R187, R198-R200, R202; 12 R255-R258,
R261, R263, R266, R267). -/

namespace Sys2Proof.Machine

open Host (Cell)

/-! ### Descriptors (R256-R258) -/

/-- The descriptor that 96 bytes hold. -/
def descOf (bs : List Byte) : Desc :=
  let fl := BitVec.ofNat 8 (byteField bs 26 1)
  { base := byteField bs 0 8, range := byteField bs 8 8, metaVa := byteField bs 16 8
    fmt := BitVec.ofNat 8 (byteField bs 24 1), rank := byteField bs 25 1
    writable := fl.getLsbD 0, compressed := fl.getLsbD 1, autoscale := fl.getLsbD 2
    checked := fl.getLsbD 3, saturate := fl.getLsbD 4
    scale := (BitVec.ofNat 8 (byteField bs 27 1)).toInt, thresh := byteField bs 28 1
    ext := (List.range 5).map fun i => byteField bs (32 + 4 * i) 4
    stride := (List.range 5).map fun i => (BitVec.ofNat 32 (byteField bs (52 + 4 * i) 4)).toInt
    seed := BitVec.ofNat 64 (byteField bs 72 8), wait := byteField bs 80 4 }

/-- Bits of an element. -/
def Desc.width (d : Desc) : Nat :=
  match formatOf d.fmt with
  | some f => f.width
  | none => 8

/-- Bytes that e elements take, rounded up. -/
def Desc.bytesFor (d : Desc) (e : Nat) : Nat := ceilDiv (e * d.width) 8

/-- Extent of a dimension; at or above the rank it is 1 (R261). -/
def Desc.extent (d : Desc) (i : Nat) : Nat := if i < d.rank then d.ext.getD i 1 else 1

/-- Stride of a dimension in elements. -/
def Desc.strideOf (d : Desc) (i : Nat) : Int := if i < d.rank then d.stride.getD i 0 else 0

/-- The least element offset that an index tuple reaches (R258). -/
def Desc.lo (d : Desc) : Int :=
  (List.range 5).foldl (fun t i => t + min 0 (d.strideOf i * ((d.extent i : Int) - 1))) 0

/-- The greatest element offset that an index tuple reaches (R258). -/
def Desc.hi (d : Desc) : Int :=
  (List.range 5).foldl (fun t i => t + max 0 (d.strideOf i * ((d.extent i : Int) - 1))) 0

/-- A format is integer. -/
def intFmt (c : BitVec 8) : Bool :=
  match formatOf c with
  | some f => !f.isFloat
  | none => false

/-- Dimensions of extent above 1, by ascending |stride| (R258). -/
def Desc.ordered (d : Desc) : List Nat :=
  ((List.range d.rank).filter fun i => decide (1 < d.extent i)).insertionSort
    fun a b => (d.strideOf a).natAbs ≤ (d.strideOf b).natAbs

/-- No two index tuples of the ordered dimensions share an element (R258). -/
def Desc.apart (d : Desc) : List Nat → Bool
  | a :: b :: rest =>
    decide ((d.strideOf a).natAbs * d.extent a ≤ (d.strideOf b).natAbs) && d.apart (b :: rest)
  | _ => true

/-- The first failed check of R258. -/
def descCheck (bs : List Byte) : Option Cause :=
  let d := descOf bs
  let withMeta := d.compressed || d.autoscale || d.checked
  let beyond := (List.range 5).filter fun i => decide (d.rank ≤ i)
  if (formatOf d.fmt).isNone || d.rank == 0 || 5 < d.rank
      || 32 ≤ byteField bs 26 1 || !zeroBytes bs 29 3 || !zeroBytes bs 84 12
      || beyond.any (fun i => d.ext.getD i 0 != 0 || d.stride.getD i 0 != 0)
      || (d.autoscale && intFmt d.fmt)
      || (withMeta && (d.metaVa == 0 || d.metaVa % 64 != 0)) then some .tdefFormat
  else if d.base % max (d.width / 8) 1 != 0 || 2 ^ 52 < d.base + d.range
      || (List.range d.rank).any (fun i => d.ext.getD i 0 == 0) then some .tdefRange
  else if d.lo < 0 || d.range < d.bytesFor (d.hi.toNat + 1) then some .tdefRange
  else if (d.compressed || d.checked) && (d.base % 512 != 0 || d.range % 512 != 0) then some .tdefRange
  else if d.writable && ((d.ordered.any fun i => d.strideOf i == 0) || !d.apart d.ordered) then
    some .tdefAlias
  else none

/-- The entry of a tensor id (R255). -/
def State.tensor (s : State) (p id : Nat) : Option Desc := assoc (s.parts.getD p {}).tensors id

/-! ### Element addresses (R256) -/

/-- The element offset of an index tuple. -/
def Desc.position (d : Desc) (ix : List Nat) : Int :=
  (List.range 5).foldl (fun t i => t + d.strideOf i * (ix.getD i 0 : Int)) 0

/-- The byte offset from base of an element offset. -/
def Desc.byteOff (d : Desc) (p : Nat) : Nat := p * d.width / 8

/-- The indices that a remaining offset gives, the greatest stride first. -/
def Desc.split (d : Desc) : List Nat → Nat → Option (List (Nat × Nat))
  | [], r => if r == 0 then some [] else none
  | i :: rest, r =>
    let st := (d.strideOf i).natAbs
    let q := if st == 0 then 0 else min (r / st) (d.extent i - 1)
    match d.split rest (r - q * st) with
    | some xs => some ((i, q) :: xs)
    | none => none

/-- The index tuple of a writable tensor whose element lies at an element offset, if there is one: no two
tuples share an element (R258). -/
def Desc.tupleAt (d : Desc) (p : Nat) : Option (List Nat) :=
  if (p : Int) < d.lo then none
  else
    match d.split d.ordered.reverse ((p : Int) - d.lo).toNat with
    | none => none
    | some xs => some ((List.range 5).map fun i =>
        match xs.find? fun x => x.1 == i with
        | some (_, q) => if d.strideOf i < 0 then d.extent i - 1 - q else q
        | none => 0)

/-! ### Engine reads and writes -/

/-- Bytes as an engine of a quadrant reads them below the stashes, or from the stash of a tile whose fetch
unit reads them, where the tile's clock has not passed the line's lease (R188, R189, R212). A poisoned line is an uncorrectable error (R225, R232). -/
def State.engBytes (s : State) (quad part : Nat) (stash : Option Nat) (va n : Nat) :
    Except (Cause × Nat) (List Byte) :=
  match s.accessRange quad part va n .read with
  | .error e => .error e
  | .ok pas =>
    let held (pa : Nat) : Option StashLine :=
      match stash with
      | some t => ((s.tile t).lineAt (lineOf pa)).filter fun l => l.hits (s.tile t).clock
      | none => none
    let bad (pa : Nat) : Bool :=
      match held pa with
      | some l => l.st == .poisoned
      | none => s.poisoned (lineOf pa)
    match pas.zipIdx.find? fun x => bad x.1.1 with
    | some x => .error (.eccUncorrectable, va + x.2)
    | none => .ok (pas.map fun x =>
        match held x.1 with
        | some l => lineByte l.data (x.1 % 128)
        | none => if isCtrl x.1 then s.ctrlByte x.1 else Memory.read s.mem x.1)

/-- Bytes that an engine writes at a VA, in one piece: every byte needs W, and a poisoned line that is not
written whole is an uncorrectable error (R225, R229, R264). -/
def State.engWrite (s : State) (quad part : Nat) (cs : List (Nat × Byte)) : Except (Cause × Nat) State :=
  let xs := cs.map fun c => (c, s.access quad part c.1 .write)
  match xs.findSome? fun x => match x.2 with
      | .error e => some (e, x.1.1)
      | .ok _ => none with
  | some e => .error e
  | none =>
    let cells : List Cell := xs.map fun x => (match x.2 with
      | .ok l => l.pa
      | .error _ => 0, x.1.2)
    let covered (l : Nat) : Nat := ((cells.filter fun c => lineOf c.1 == l).map (·.1)).dedup.length
    match (cells.zip cs).find? fun x => s.cohPoisoned (lineOf x.1.1) && decide (covered (lineOf x.1.1) < 128) with
    | some x => .error (.eccUncorrectable, x.2.1)
    | none => .ok (s.lowWrite cells)

/-! ### Frames (R198, R257, R266) -/

/-- Frames of a tensor's allocated range. -/
def Desc.frames (d : Desc) : Nat := ceilDiv d.range 512

/-- A tensor that has a metadata area (R257). -/
def Desc.withMeta (d : Desc) : Bool := d.compressed || d.autoscale || d.checked
/-- Bytes of a group: an element of 8 bits or more, or one byte of two 4-bit elements. -/
def Desc.group (d : Desc) : Nat := max (d.width / 8) 1

/-- VA of the mode byte of a frame. -/
def Desc.modeVa (d : Desc) (f : Nat) : Nat := d.metaVa + f

/-- VA of the check word of a frame (R257). -/
def Desc.checkVa (d : Desc) (f : Nat) : Nat := d.metaVa + 64 * ceilDiv d.frames 64 + 4 * f

/-- The scale offset of a mode byte; −32 reads as −31 (R198). -/
def modeOff (b : Byte) : Int := max (-31) (b.setWidth 6).toInt

/-- A mode byte. -/
def modeByte (mode : BitVec 2) (off : Int) : Byte := mode ++ BitVec.ofInt 6 off

/-- Groups of g bytes. -/
def groupsOf (g : Nat) (bs : List Byte) : List (List Byte) :=
  (List.range (512 / g)).map fun i => (bs.drop (g * i)).take g

/-- Expanded groups: the next packed group where the mask has a 1 (R198). -/
def expandGroups (g : Nat) : List Bool → List Byte → List Byte
  | [], _ => []
  | true :: ms, bs => bs.take g ++ expandGroups g ms (bs.drop g)
  | false :: ms, bs => List.replicate g 0 ++ expandGroups g ms bs

/-- Occupancy bits of a mask of 64 bytes. -/
def maskBits (n : Nat) (bs : List Byte) : List Bool :=
  (List.range n).map fun g => ((bs.getD (g / 8) 0).getLsbD (g % 8))

/-- The packed form of a frame's 512 bytes: its mode and the stored bytes that are defined (R198). -/
def packFrame (g : Nat) (bs : List Byte) : BitVec 2 × List Byte :=
  let gs := groupsOf g bs
  let full := gs.filter fun x => x.any (· != 0)
  let packed := full.flatten
  if full.isEmpty then (2#2, ([] : List Byte))
  else if 448 < packed.length then (0#2, bs)
  else
    let mask := leBytes 64 (packElems 1 (gs.map fun x => bitNat (x.any (· != 0))))
    (1#2, mask ++ packed)

/-- The check word of a frame as it is stored (R266). -/
def frameCheck (mode : BitVec 2) (stored : List Byte) : Word32 :=
  if mode == 2#2 then 0 else crc32c stored

/-- A frame as an engine sees it: its 512 bytes expanded, and its scale offset. -/
structure FrameView where
  bytes : List Byte
  off : Int
deriving DecidableEq, Repr

/-- Elements of a frame moved to another scale offset by RNE (R200). -/
def Desc.rescale (d : Desc) (bs : List Byte) (old new : Int) : List Byte :=
  if old == new then bs
  else
    match formatOf d.fmt with
    | some (.float g) =>
      let v : Vec512 := bytesVec bs
      vecBytes (BitVec.ofNat 4096 (packElems g.width ((elems v g.width (4096 / g.width)).map fun c =>
        (roundTo g .rne d.saturate ((g.decode c).scale (old - new))).1)))
    | _ => bs

/-- An open frame of the write-combining buffers. -/
def State.openFrame (s : State) (part va : Nat) : Option WcFrame :=
  s.dies.findSome? fun x => (x.wc ++ x.wcHalted).find? fun w => w.part == part && w.desc.base + 512 * w.frame == va

/-- A frame with the bytes of an open frame merged over it (R200). -/
def WcFrame.mergedOn (w : WcFrame) (v : FrameView) : FrameView :=
  let base := w.desc.rescale v.bytes v.off w.off
  { bytes := w.bytes.foldl (fun bs c => bs.set c.1 c.2) base, off := w.off }

/-- The frame that memory holds, expanded; a checked frame is verified when `verify` is set (R198, R267). Mode 11 counts in
every tensor that has mode bytes, the other modes in a compressed one (R257, log 54), the scale offset in a compressed or autoscaled
one (R187). -/
def State.storedFrame (s : State) (quad part : Nat) (stash : Option Nat) (d : Desc) (f : Nat) (verify : Bool) :
    Except (Cause × Nat) FrameView :=
  let va := d.base + 512 * f
  match (if d.withMeta then s.engBytes quad part stash (d.modeVa f) 1 else .ok [0]) with
  | .error e => .error e
  | .ok mb =>
    let b := mb.getD 0 0
    let field : BitVec 2 := b.extractLsb' 6 2
    let mode : BitVec 2 := if d.compressed || field == 3#2 then field else 0
    let off : Int := if d.compressed || d.autoscale then modeOff b else 0
    let stored : Except (Cause × Nat) (List Byte × List Byte) :=
      if mode == 3#2 then .error (.eccUncorrectable, d.modeVa f)
      else if mode == 2#2 then .ok (List.replicate 512 0, [])
      else
        match s.engBytes quad part stash va (if mode == 0#2 then min 512 (d.range - 512 * f) else 64) with
        | .error e => .error e
        | .ok bs =>
          if mode == 0#2 then .ok (bs, bs)
          else
            let ms := maskBits (512 / d.group) bs
            let n := d.group * (ms.filter id).length
            match s.engBytes quad part stash (va + 64) n with
            | .error e => .error e
            | .ok ps => .ok (expandGroups d.group ms ps, bs ++ ps)
    match stored with
    | .error e => .error e
    | .ok (bytes, raw) =>
      if d.checked && verify then
        match s.engBytes quad part stash (d.checkVa f) 4 with
        | .error e => .error e
        | .ok cs =>
          if leNat cs == (frameCheck mode raw).toNat then .ok ⟨bytes, off⟩ else .error (.copyCheck, va)
      else .ok ⟨bytes, off⟩

/-- A frame as any read sees it: an open frame counts as closed at that instant (R200). -/
def State.frameView (s : State) (quad part : Nat) (stash : Option Nat) (d : Desc) (f : Nat) (verify : Bool) :
    Except (Cause × Nat) FrameView :=
  match s.storedFrame quad part stash d f verify with
  | .error e => .error e
  | .ok v =>
    match s.openFrame part (d.base + 512 * f) with
    | some w => .ok (w.mergedOn v)
    | none => .ok v

/-- Free bytes, one for each place (log 15). -/
def State.freeBytes (s : State) (n : Nat) : List Byte := (List.range n).map fun i => Config.freeByte (s.free + i)

/-- A whole frame stored: its form, its mode byte and its check word (R198, R267). The rest of a compressed
frame is undefined. -/
def State.storeFrame (s : State) (quad part : Nat) (d : Desc) (f : Nat) (v : FrameView) :
    Except (Cause × Nat) State :=
  let va := d.base + 512 * f
  let (mode, stored) := if d.compressed then packFrame d.group v.bytes else (0#2, v.bytes)
  let pad := if mode == 1#2 then s.freeBytes (512 - stored.length) else []
  let body := cellsAt va (stored ++ pad)
  let mb := if d.withMeta then [(d.modeVa f, modeByte mode v.off)] else []
  let ck := if d.checked then cellsAt (d.checkVa f) (leBytes 4 (frameCheck mode stored).toNat) else []
  { s with free := s.free + pad.length }.engWrite quad part (body ++ mb ++ ck)

/-! ### Write-combining (R200, R201) -/

/-- Reference ticks that a wait of W beats takes: a tick is 8 cycles of 1.75 GHz. -/
def waitTicks (w : Nat) : Nat := ceilDiv w 8

/-- The base die whose engine takes new work for a die: the next one whose engine has not stopped (R289). -/
def State.engineDie (s : State) (u : BaseUnit) (d : Nat) : Nat :=
  (((List.range 8).map fun i => (d + i) % 8).find? fun i => !(s.dies.getD i {}).stopped.contains u).getD d

/-- The base die of a frame: its PA's home, or the one that has taken its place. -/
def State.frameDie (s : State) (quad part : Nat) (d : Desc) (f : Nat) : Nat :=
  s.engineDie .writeCombining (match s.access quad part (d.base + 512 * f) .write with
    | .ok l => homeDie l.pa
    | .error _ => 0)

/-- The open frame of a frame that is written whole is gone: its bytes are the older ones (R200). -/
def State.dropFrame (s : State) (part va : Nat) : State :=
  let rest (ws : List WcFrame) : List WcFrame := ws.filter fun w => !(w.part == part && w.desc.base + 512 * w.frame == va)
  if (s.openFrame part va).isNone then s
  else { s with dies := s.dies.map fun x => { x with wc := rest x.wc, wcHalted := rest x.wcHalted } }

/-- An open frame closed: stored directly where it is full, else merged over what memory holds (R200). A
frame that cannot be read or written leaves the buffer with its bytes lost and a record in the fault log
(log 27). -/
def State.closeFrame (s : State) (die : Nat) (w : WcFrame) : State :=
  let s := { s with dies := updAt s.dies die fun x => { x with wc := x.wc.filter fun y => !(y == w) } }
  let quad : Nat := if (s.dev.layout == 0#8 : Bool) then die else w.part
  let old : Except (Cause × Nat) FrameView :=
    if 512 ≤ w.bytes.length then .ok ⟨List.replicate 512 0, w.off⟩
    else s.storedFrame quad w.part none w.desc w.frame true
  match old with
  | .error (c, va) => s.log w.part { cause := c, cls := .e, data := va }
  | .ok v =>
    match s.storeFrame quad w.part w.desc w.frame (w.mergedOn v) with
    | .ok s' => s'
    | .error (c, va) => s.log w.part { cause := c, cls := .e, data := va }

/-- The machine as a read of stored bytes finds it: every open frame counts as closed at that instant (R200). -/
def State.asClosed (s : State) : State :=
  s.dies.zipIdx.foldl (fun s x => (x.1.wcHalted ++ x.1.wc).foldl (fun s w => s.closeFrame x.2 w) s) s

/-- Bytes of a partial write into a compressed frame: they join the open frame, or open one, closing the
oldest where the buffer of the base die is full; a full frame, or a wait of 0, closes at once (R200). -/
def State.partialFrame (s : State) (quad part : Nat) (d : Desc) (f : Nat) (bs : List (Nat × Byte)) (off : Int)
    (wcw : Nat) : State :=
  let die := s.frameDie quad part d f
  let x := s.dies.getD die {}
  let same (w : WcFrame) : Bool := w.part == part && w.desc.base + 512 * w.frame == d.base + 512 * f
  let put (old new : List (Nat × Byte)) : List (Nat × Byte) := new.foldl (fun m c => assocSet m c.1 c.2) old
  match x.wc.find? same with
  | some w =>
    let moved : List (Nat × Byte) :=
      if w.off == off then w.bytes
      else
        let img := d.rescale (w.bytes.foldl (fun m c => m.set c.1 c.2) (List.replicate 512 0)) w.off off
        w.bytes.map fun c => (c.1, img.getD c.1 0)
    let w' := { w with bytes := put moved bs, off := off }
    let s := { s with dies := updAt s.dies die fun y =>
      { y with wc := y.wc.map fun z => if same z then w' else z } }
    if 512 ≤ w'.bytes.length then s.closeFrame die w' else s
  | none =>
    let s := match x.wc with
      | o :: _ => if Config.wcLimit ≤ x.wc.length then s.closeFrame die o else s
      | [] => s
    let w : WcFrame := { part := part, desc := d, frame := f, bytes := put [] bs, off := off
                         deadline := s.refTick + waitTicks wcw }
    let s := { s with dies := updAt s.dies die fun y => { y with wc := y.wc ++ [w] } }
    if wcw == 0 || 512 ≤ w.bytes.length then s.closeFrame die w else s

/-! ### Elements -/

/-- The code of an element in a frame's bytes. -/
def Desc.codeIn (d : Desc) (v : FrameView) (p : Nat) : Nat :=
  let o := d.byteOff p % 512
  if d.width == 4 then ((v.bytes.getD o 0).toNat / (if p % 2 == 0 then 1 else 16)) % 16
  else byteField v.bytes o (d.width / 8)

/-- An element code at an element offset, with the scale offset of its frame; frames are read where the tensor
has a metadata area, plain bytes otherwise. -/
def State.elemAt (s : State) (quad part : Nat) (stash : Option Nat) (d : Desc) (p : Nat) (verify : Bool) :
    Except (Cause × Nat) (Nat × Int) :=
  if d.withMeta then
    match s.frameView quad part stash d (d.byteOff p / 512) verify with
    | .error e => .error e
    | .ok v => .ok (d.codeIn v p, v.off)
  else
    match s.engBytes quad part stash (d.base + d.byteOff p) d.group with
    | .error e => .error e
    | .ok bs =>
      .ok (if d.width == 4 then (leNat bs / (if p % 2 == 0 then 1 else 16)) % 16 else leNat bs, 0)

/-- The value that an element stands for: its integer, or e × 2^(b + o) (R187, R261). -/
def Desc.value (d : Desc) (c : Nat) (off : Int) : Val :=
  match formatOf d.fmt with
  | some (.float g) => (g.decode c).scale (d.scale + off)
  | some (.int w sg) => Val.ofInt (intDecode w sg c)
  | none => .fin false 0 0

/-- Bytes, by offset from base, that element codes put into a tensor: packed elements share a byte with
what `old` gives for it. -/
def Desc.cellsOf (d : Desc) (old : Nat → Byte) (xs : List (Nat × Nat)) : List (Nat × Byte) :=
  if d.width == 4 then
    xs.foldl (fun m (p, c) =>
      let o := d.byteOff p
      let b := (assoc m o).getD (old o)
      let n : Byte := BitVec.ofNat 8 (if p % 2 == 0 then b.toNat / 16 * 16 + c % 16 else b.toNat % 16 + c % 16 * 16)
      assocSet m o n) []
  else (xs.map fun (p, c) => cellsAt (d.byteOff p) (leBytes d.group c)).flatten

/-- The positions of a list in frame f. -/
def Desc.inFrame (d : Desc) (f : Nat) (xs : List (Nat × Nat)) : List (Nat × Nat) :=
  xs.filter fun x => d.byteOff x.1 / 512 == f

/-- Elements of a frame that take up all of it (R200, R267). -/
def Desc.fillsFrame (d : Desc) (mine : List (Nat × Nat)) : Bool :=
  decide (4096 / d.width ≤ ((mine.map (·.1)).dedup).length)

/-- Bytes of a frame's expanded form with element codes put in. -/
def Desc.patched (d : Desc) (f : Nat) (old : List Byte) (mine : List (Nat × Nat)) : List Byte :=
  (d.cellsOf (fun o => old.getD (o - 512 * f) 0) mine).foldl (fun bs c => bs.set (c.1 - 512 * f) c.2) old

/-- Elements of one frame of a compressed or checked tensor written: a whole frame directly, without a read of what it held, and
in place of the bytes that write-combining has buffered for it; a partial compressed one through write-combining; a partial
checked one read whole, verified and written whole (R199, R200, R267). -/
def State.writeFrame (s : State) (quad part : Nat) (d : Desc) (f : Nat) (mine : List (Nat × Nat)) (off : Int) (wcw : Nat) :
    Except (Cause × Nat) State :=
  let zeros : List Byte := List.replicate 512 0
  if d.fillsFrame mine then
    match s.storeFrame quad part d f ⟨d.patched f zeros mine, off⟩ with
    | .error e => .error e
    | .ok u => .ok (u.dropFrame part (d.base + 512 * f))
  else if d.compressed then
    match s.access quad part (d.base + 512 * f) .write, s.access quad part (d.modeVa f) .write with
    | .error c, _ => .error (c, d.base + 512 * f)
    | _, .error c => .error (c, d.modeVa f)
    | .ok _, .ok _ =>
      match (if d.width == 4 then s.frameView quad part none d f true else .ok ⟨[], 0⟩ : Except (Cause × Nat) FrameView) with
      | .error e => .error e
      | .ok v =>
        let cs := d.cellsOf (fun o => v.bytes.getD (o - 512 * f) 0) mine
        .ok (s.partialFrame quad part d f (cs.map fun c => (c.1 - 512 * f, c.2)) off wcw)
  else
    match s.storedFrame quad part none d f true with
    | .error e => .error e
    | .ok v => s.storeFrame quad part d f ⟨d.patched f v.bytes mine, off⟩

/-- A byte below the stashes that a written element shares: the write needs W alone (R229). -/
def State.sharedByte (s : State) (quad part va : Nat) : Byte :=
  match s.access quad part va .write with
  | .ok l => (s.lowBytes l.pa 1).getD 0 0
  | .error _ => 0

/-- The bytes, by VA, that a chunk puts into a tensor without compression and checks: its elements, and the mode bytes of an
autoscaled tensor's frames. -/
def State.chunkCells (s : State) (quad part : Nat) (d : Desc) (fs : List Nat) (xs : List (Nat × Nat)) (off : Int) :
    List (Nat × Byte) :=
  (fs.map fun f =>
    ((d.cellsOf (fun o => s.sharedByte quad part (d.base + o)) (d.inFrame f xs)).map fun c => (d.base + c.1, c.2))
      ++ if d.autoscale then [(d.modeVa f, modeByte 0 off)] else []).flatten

/-- Element codes written by an engine in one chunk, with the scale offset that their frames take: frame by frame in a compressed
or checked tensor, in one piece in any other, so that a line which the chunk covers is written whole (R199, R200, R225, R261, R263,
R267). -/
def State.writeElems (s : State) (quad part : Nat) (d : Desc) (xs : List (Nat × Nat)) (off : Int) (wcw : Nat) :
    Except (Cause × Nat) State :=
  let fs := ((xs.map fun x => d.byteOff x.1 / 512).dedup).insertionSort fun a b => a ≤ b
  if d.compressed || d.checked then
    fs.foldl (fun acc f =>
      match acc with
      | .error e => .error e
      | .ok s => s.writeFrame quad part d f (d.inFrame f xs) off wcw) (.ok s)
  else s.engWrite quad part (s.chunkCells quad part d fs xs off)

/-! ### Running scale offsets (R202) -/

/-- The running offset of a tensor id. -/
def Regs.scaleOf (r : Regs) (id : Nat) : Int := (assoc r.scaleOff id).getD 0

/-- The running offset set; 0 is not listed. -/
def Regs.setScale (r : Regs) (id : Nat) (o : Int) : Regs :=
  { r with scaleOff := if o == 0 then r.scaleOff.filter fun x => x.1 != id else assocSet r.scaleOff id o }

/-- The wait that a partial write carries (R201). -/
def State.wcWait (s : State) (p : Nat) (d : Desc) : Nat :=
  if d.wait != 0 then d.wait else (s.quads.getD p {}).wcwait.toNat

/-- Rows of a drain-queue entry of a format (R192). -/
def entryRows (w : Nat) : Nat := 64 / w

end Sys2Proof.Machine
end

