-- ==== Sys2Proof/Machine/LoadStore.lean ====
section
/-! DEFINITION. The L slot: loads, stores, drain-queue stores, rings and stash maintenance (spec 08 R167, R174;
10 R211-R217, R223, R229; 09 R195; 11 R236, R237, R253; 22 R361-R363; 23 R393, R394, R401; 24 R414-R417, R438,
R439). -/

namespace Sys2Proof.Machine

open Host (Cell)

/-! ### What a path-O access sees -/

/-- The task runs in a merge round (R252). -/
def State.inRound (s : State) (k : Task) : Bool :=
  match (s.parts.getD k.part {}).round with
  | some r => r.members.contains k.record.taskid
  | none => false

/-- A byte of the task's own private lines (R253). -/
def Task.privByte (k : Task) (va : Nat) : Option Byte :=
  match k.priv.find? fun l => l.va == va / 128 * 128 with
  | some l => if l.mask.getLsbD (va % 128) then some (lineByte l.data (va % 128)) else none
  | none => none

/-- The bytes that a held effect puts at PAs, or at window offsets. -/
def Held.cells (h : Held) (window : Bool) : List Cell :=
  match h, window with
  | .store _ _ cs, false | .entry _ _ _ _ _ _ _ cs, false | .take _ _ _ _ _ cs, false | .window _ _ cs, true => cs
  | _, _ => []

/-- The block's buffered byte at a PA, or at a window offset, as a read of bundle `ord` sees it: the last one in program order;
those of the read's own bundle come after it (R174, R234). That a later bundle's store which starts on the same beat comes after it as well
is the model's choice (log 92). -/
def Task.buffered (k : Task) (ord : Nat) (window : Bool) (a : Nat) : Option Byte :=
  k.blk.held.zipIdx.foldl (fun b (e, i) =>
    if (k.blk.heldAt.getD i (0, 0)).1 == ord && i < k.blk.heldAt.length then b
    else match ((e.cells window).filter fun c => c.1 == a).getLast? with
      | some c => some c.2
      | none => b) none

/-- What a load of contiguous bytes finds: its bytes, the entries of the read set, and the lines that the
stash must fill first. -/
structure Loaded where
  bytes : List Byte
  reads : List ReadEntry
  missing : List Nat
deriving DecidableEq, Repr

/-- A stash line serves a load: a hit, and in a locked run an owned line (R212, R236). -/
def StashLine.serves (l : StashLine) (clock run : Nat) : Bool :=
  match l.st with
  | .shared => decide (clock ≤ l.lease) && decide (run < 3)
  | _ => true

/-- The line that serves a load of a tile: the stash's, or one that has been answered to the access (R212, R213). -/
def Tile.serving (x : Tile) (run line : Nat) : Option StashLine :=
  match (x.lineAt line).filter fun y => y.serves x.clock run with
  | some y => some y
  | none => x.fills.find? fun y => y.line == line && (decide (run < 3) || y.st != .shared)

/-- Contiguous bytes at a VA on path O (R211, R212, R223, R225, R229, R253). -/
def State.loadRow (s : State) (va n : Nat) : Except Cause Loaded :=
  let k := s.me
  let x := s.here
  if 2 ^ 52 < va + n then .error .xlateNotpresent
  else if inWindow va || inWindow (va + n - 1) then
    if !((List.range n).all fun i => inWindow (va + i) && x.inRing (va + i - windowBase)) then .error .xlateNotpresent
    else if x.ringPoison.any fun l => decide (va < windowBase + 128 * (l + 1)) && decide (windowBase + 128 * l < va + n) then
      .error .eccUncorrectable
    else
      .ok ⟨(List.range n).map fun i =>
        (k.buffered s.cur.ord true (va + i - windowBase)).getD (Memory.read x.ringMem (va + i - windowBase)), [], []⟩
  else
    match s.accessRange (tileUnit s.cur.tile) k.part va n .read with
    | .error e => .error e.1
    | .ok pas =>
      if pas.any fun p => p.2.c then .error .compressedAccess
      else
        let direct (p : Nat × Leaf) : Bool := p.2.ms || isCtrl p.1
        let lines := (pas.map fun p => (lineOf p.1, direct p)).dedup
        let poisoned := lines.any fun (l, d) =>
          if d then s.poisoned l
          else (x.serving k.blk.run l).any fun y => y.st == .poisoned
        let missing := (lines.filter fun (l, d) => !d && (x.serving k.blk.run l).isNone).map (·.1)
        if poisoned then .error .eccUncorrectable
        else
          .ok {
            bytes := pas.zipIdx.map fun (p, i) =>
              match k.buffered s.cur.ord false p.1 with
              | some b => b
              | none =>
                match k.privByte (va + i) with
                | some b => b
                | none =>
                  if direct p then (if isCtrl p.1 then s.ctrlByte p.1 else Memory.read s.mem p.1)
                  else match x.serving k.blk.run (lineOf p.1) with
                    | some y => lineByte y.data (p.1 % 128)
                    | none => 0
            reads := lines.map fun (l, d) =>
              { line := l, side := d, wts := if d then (s.dirLine l).wts else match x.serving k.blk.run l with
                  | some y => y.wts
                  | none => 0 }
            missing := missing }

/-- Several rows loaded: every fault of every row first, then the fill of every missing line (R213, R439). Under pairing
it holds until every earlier block has released (R155). -/
def State.loadRows (s : State) (n : Nat) (vas : List Nat) : Except Stop (State × List (List Byte)) :=
  if !s.here.pairPend.isEmpty then .error (.hold .pairing)
  else
  let rows := vas.map fun va => (va, s.loadRow va n)
  match rows.findSome? fun r => match r.2 with
      | .error c => some (c, r.1)
      | .ok _ => none with
  | some (c, va) => .error (.fault c va)
  | none =>
    let got : List Loaded := rows.filterMap fun r => match r.2 with
      | .ok l => some l
      | .error _ => none
    let missing := (got.map (·.missing)).flatten.dedup
    if !missing.isEmpty then .error (.hold (.miss missing))
    else
      let reads := (got.map (·.reads)).flatten
      let s := s.modMe fun k => { k with blk := { k.blk with readSet := k.blk.readSet ++ reads } }
      let s := (s.useLines s.cur.tile ((reads.filter fun r => !r.side).map (·.line))).clearFills s.cur.tile
      let s := reads.foldl (fun s r => if r.side then s.readSide s.cur.tile r.line else s) s
      let s := vas.foldl (fun s va => s.translates (tileUnit s.cur.tile) s.me.part va) s
      .ok (s, got.map (·.bytes))

/-- The tag that a load writes (R167). -/
def loadTag (base : Word32) : Word32 := mix32 (0x10AD0000#32 ^^^ base)

/-! ### `ld` and `vld` -/

def startLd (d base : BitVec 6) (sz : MemSize) (signed : Bool) (off : BitVec 10) (s : State) :
    Except Stop State :=
  let n := sizeBytes sz
  match s.beginO 0x01 (Reg.code (.s d)) [.s d] [some (.s base), none, none] with
  | .error e => .error e
  | .ok o =>
    let ea := o.st.me.effAddr (sizedAddr (o.sval 0) off n)
    if 2 ^ 52 ≤ ea then .error (.fault .xlateNotpresent ea)
    else if ea % n != 0 then .error (.fault .align ea)
    else
      match o.st.loadRows n [ea] with
      | .error e => .error e
      | .ok (t, rows) =>
        let x := leNat (rows.getD 0 [])
        let v : Word64 := if signed then BitVec.ofInt 64 (intDecode (8 * n) true x) else BitVec.ofNat 64 x
        .ok (t.land 6 (.s d v) [.s d] (loadTag (srcTag s.me o.srcs 0)) 0)
/-- `ld` (R362). -/
def execLd (d base : BitVec 6) (sz : MemSize) (signed : Bool) (off : BitVec 10) (s : State) :
    Host.Outcome State Fault Refusal := settle s (startLd d base sz signed off s)

/-- The rows of a vector access (R439): element width, columns, row bytes and the address of each row. -/
structure VecRows where
  w : Nat
  cols : Nat
  bytes : Nat
  vas : List Nat
deriving DecidableEq, Repr

/-- The rows under `cr.vshape`. -/
def Task.vecPlan (k : Task) (base stride : Word64) (packed : Bool) : Except Stop VecRows :=
  let sh := k.regs.vshape
  match formatOf (sh.extractLsb' 8 8) with
  | none => .error (.fault .formatInvalid 0)
  | some f =>
    let r := (sh.extractLsb' 0 4).toNat
    let c := (sh.extractLsb' 4 4).toNat
    if !shapeOk r c f.width || (f.width == 4 && c == 0) then .error (.fault .formatInvalid 0)
    else
      let n := 2 ^ c * f.width / 8
      let st : Word64 := if packed then BitVec.ofNat 64 n else stride
      .ok ⟨f.width, 2 ^ c, n, (List.range (2 ^ r)).map fun i => k.effAddr (base + BitVec.ofNat 64 i * st).toNat⟩

/-- A row's address is out of range or not aligned (R439). -/
def VecRows.bad (x : VecRows) (a : Nat) : Bool := decide (2 ^ 52 ≤ a) || a % max (x.w / 8) 1 != 0

/-- The rows under `cr.vshape`, with their address checks. -/
def Task.vecRows (k : Task) (base stride : Word64) (packed : Bool) : Except Stop VecRows :=
  match k.vecPlan base stride packed with
  | .error e => .error e
  | .ok x =>
    match x.vas.find? x.bad with
    | some a => .error (.fault (if 2 ^ 52 ≤ a then .xlateNotpresent else .align) a)
    | none => .ok x

/-- The stop of a vector access whose rows break an address check: the fault of an earlier row comes first (R439). -/
def Task.vecStop (k : Task) (base stride : Word64) (packed : Bool) (row : Nat → Nat → Option Cause) (e : Stop) : Stop :=
  match k.vecPlan base stride packed with
  | .error e => e
  | .ok x =>
    match (x.vas.takeWhile fun a => !x.bad a).findSome? fun a => (row a x.bytes).map fun c => (c, a) with
    | some (c, a) => .fault c a
    | none => e

/-- What stops an access, if anything. -/
def causeOf {α : Type} : Except Cause α → Option Cause
  | .error c => some c
  | .ok _ => none

def startVld (v : BitVec 5) (base stride : BitVec 6) (s : State) : Except Stop State :=
  match s.beginO 0x03 (Reg.code (.v v)) [.v v] [some (.s base), some (.s stride), none] with
  | .error e => .error e
  | .ok o =>
    match o.st.me.vecRows (o.sval 0) (o.sval 1) (stride == 0) with
    | .error e => .error (o.st.me.vecStop (o.sval 0) (o.sval 1) (stride == 0) (fun a n => causeOf (o.st.loadRow a n)) e)
    | .ok x =>
      match o.st.loadRows x.bytes x.vas with
      | .error e => .error e
      | .ok (t, rows) =>
        let m := activeBits (s.me.regs.top .va) x.w (x.vas.length * x.cols)
        .ok (t.land 6 (.v v (bytesVec rows.flatten) m) [.v v] (loadTag (srcTag s.me o.srcs 0)) 0)
/-- `vld` (R439): the rows in full, the active elements written. -/
def execVld (v : BitVec 5) (base stride : BitVec 6) (s : State) : Host.Outcome State Fault Refusal :=
  settle s (startVld v base stride s)

/-! ### `st` and `vst` -/

/-- The VA of a stored byte: pages are 64 KiB or more, and a row starts at `va`. -/
def cellVa (va pa : Nat) : Nat :=
  let b := va / 65536 * 65536 + pa % 65536
  if b < va then b + 65536 else b

/-- The elements of an entry that lie in a tensor's extents, by element offset (R195). -/
def entryElems (d : Desc) (e : DrainEntry) (row col : Nat) : List (Nat × Nat) :=
  let h := entryRows d.width
  ((List.range (64 * h)).map fun n =>
    let i := row + n / 64
    let j := col + n % 64
    if i < d.extent 1 ∧ j < d.extent 0 then
      [((d.position [j, i]).toNat, element e.data d.width n)]
    else []).flatten

/-- The lines that elements of a tensor lie on, by VA. -/
def Desc.elemLines (d : Desc) (xs : List (Nat × Nat)) : List Nat := xs.map fun x => (d.base + d.byteOff x.1) / 128

/-- Lines pinned private in a set of the stash: the task's own, and those its buffered stores and entries will pin. -/
def Task.pinned (k : Task) (set : Nat) : List Nat :=
  let mine : List Nat := k.priv.map fun (l : PrivLine) => l.va / 128
  let held : List (List Nat) := k.blk.held.map fun (e : Held) => match e with
    | .store _ va cs => cs.map fun c => cellVa va c.1 / 128
    | .entry _ _ d e row col _ _ => d.elemLines (entryElems d e row col)
    | _ => []
  (mine ++ held.flatten).dedup.filter fun l => l % 512 == set

/-- A store finds ways to pin all its lines (R253). -/
def State.canPin (s : State) (lines : List Nat) : Bool :=
  !s.inRound s.me || lines.all fun l =>
    let ps := s.me.pinned (l % 512)
    let new := (lines.filter fun x => x % 512 == l % 512 && !ps.contains x).dedup
    ps.contains l || decide (ps.length + new.length ≤ (s.here.ways (l % 512)).length)

/-- Where the contiguous bytes of a store go, after the checks of R415; `more` are the lines that its earlier rows write. -/
def State.storeRow (s : State) (va n : Nat) (more : List Nat := []) : Except Cause (Bool × List Nat) :=
  let x := s.here
  if 2 ^ 52 < va + n then .error .xlateNotpresent
  else if inWindow va || inWindow (va + n - 1) then
    if (List.range n).all fun i => inWindow (va + i) && x.inRing (va + i - windowBase) then
      .ok (true, (List.range n).map fun i => va + i - windowBase)
    else .error .xlateNotpresent
  else
    match s.accessRange (tileUnit s.cur.tile) s.me.part va n .write with
    | .error e => .error e.1
    | .ok pas =>
      if pas.any fun p => p.2.c then .error .compressedAccess
      else if pas.any fun p => isCtrl p.1 && ctrlPrivileged p.1 then .error .privileged
      else if !s.canPin (more ++ linesOf va n) then .error .mergeConflict
      else .ok (false, pas.map (·.1))

/-- The store buffer has room: the seal's bound and 32 (R174). -/
def State.bufferRoom (s : State) : Bool :=
  let k := s.me
  let bound := match s.sealAhead s.cur.tile k 256 s.cur.addr with
    | some x => min x.sbound.toNat 32
    | none => 32
  decide (k.blk.stores < bound)

/-- One store-buffer entry taken. -/
def State.buffer (s : State) (hs : List Held) : State :=
  s.modMe fun k => { k with blk := { k.blk.hold (s.cur.ord, s.cur.slot.code) hs with stores := k.blk.stores + 1 } }

def startSt (n base : BitVec 6) (sz : MemSize) (off : BitVec 10) (s : State) : Except Stop State :=
  let w := sizeBytes sz
  match s.beginO 0x02 0xFF [] [some (.s n), some (.s base), none] with
  | .error e => .error e
  | .ok o =>
    let ea := o.st.me.effAddr (sizedAddr (o.sval 1) off w)
    if 2 ^ 52 ≤ ea then .error (.fault .xlateNotpresent ea)
    else if ea % w != 0 then .error (.fault .align ea)
    else
      match o.st.storeRow ea w with
      | .error c => .error (.fault c ea)
      | .ok (win, addrs) =>
        if !o.st.bufferRoom then .error (.fault .storeBuffer ea)
        else
          let cs := addrs.zip (leBytes w (o.sval 0).toNat)
          .ok (o.st.buffer [if win then .window s.cur.addr ea cs else .store s.cur.addr ea cs])
/-- `st` (R415): one entry of the block store buffer, applied at the block's order point. -/
def execSt (n base : BitVec 6) (sz : MemSize) (off : BitVec 10) (s : State) :
    Host.Outcome State Fault Refusal := settle s (startSt n base sz off s)

/-- The active bytes of row r of a vector store, with their addresses. -/
def rowCells (x : VecRows) (m : MaskEntry) (v : Vec512) (r : Nat) (addrs : List Nat) : List Cell :=
  (addrs.zipIdx.map fun (a, i) =>
    let b := r * x.bytes + i
    let e := b * 8 / max x.w 8
    if activeAt m (max x.w 8) e then [(a, v.extractLsb' (8 * b) 8)] else []).flatten

/-- Where the rows of a vector store go (R439). -/
def State.storeRows (s : State) (x : VecRows) : List (Except Cause (Bool × List Nat)) :=
  x.vas.zipIdx.map fun (va, i) => s.storeRow va x.bytes ((x.vas.take i).map fun a => linesOf a x.bytes).flatten

def startVst (v : BitVec 5) (base stride : BitVec 6) (s : State) : Except Stop State :=
  match s.beginO 0x04 0xFF [] [some (.v v), some (.s base), some (.s stride)] with
  | .error e => .error e
  | .ok o =>
    match o.st.me.vecRows (o.sval 1) (o.sval 2) (stride == 0) with
    | .error e => .error (o.st.me.vecStop (o.sval 1) (o.sval 2) (stride == 0) (fun a n => causeOf (o.st.storeRow a n)) e)
    | .ok x =>
      let rows := x.vas.zip (o.st.storeRows x)
      match rows.findSome? fun r => match r.2 with
          | .error c => some (c, r.1)
          | .ok _ => none with
      | some (c, va) => .error (.fault c va)
      | none =>
        if !o.st.bufferRoom then .error (.fault .storeBuffer (x.vas.getD 0 0))
        else
          let m := s.me.regs.top .va
          .ok (o.st.buffer (rows.zipIdx.map fun (r, i) => match r.2 with
            | .ok (true, as) => .window s.cur.addr r.1 (rowCells x m (o.vval 0) i as)
            | .ok (false, as) => .store s.cur.addr r.1 (rowCells x m (o.vval 0) i as)
            | .error _ => .window s.cur.addr r.1 []))
/-- `vst` (R439): the active elements' bytes in one entry, a later row winning. -/
def execVst (v : BitVec 5) (base stride : BitVec 6) (s : State) : Host.Outcome State Fault Refusal :=
  settle s (startVst v base stride s)

/-! ### `stq` -/

/-- Every byte that an entry's store touches, by VA: its elements, and the mode bytes and check words of the
frames it touches. -/
def entryBytes (d : Desc) (xs : List (Nat × Nat)) : List Nat :=
  let fs := (xs.map fun x => d.byteOff x.1 / 512).dedup
  (xs.map fun x => d.base + d.byteOff x.1)
  ++ (if d.withMeta then fs.map d.modeVa else [])
  ++ (if d.checked then fs.map d.checkVa else [])

/-- The bytes that an entry's store puts into an uncompressed tensor, by PA (R195, R174). -/
def State.entryCells (s : State) (k : Task) (d : Desc) (xs : List (Nat × Nat)) : List Cell :=
  let pa (va : Nat) : Nat := match s.access (tileUnit s.cur.tile) k.part va .write with
    | .ok l => l.pa
    | .error _ => 0
  let old (o : Nat) : Byte :=
    let a := pa (d.base + o)
    (k.buffered s.cur.ord false a).getD (s.cohByte a)
  if d.compressed then [] else (d.cellsOf old xs).map fun c => (pa (d.base + c.1), c.2)

def startStq (dq : BitVec 2) (t : BitVec 10) (c : BitVec 6) (s : State) : Except Stop State :=
  match s.beginO 0x05 0xFF [] [some (.dq dq), some (.s c), none] with
  | .error e => .error e
  | .ok o =>
    let k := o.st.me
    let q : BitVec 2 := match o.srcs.getD 0 none with
      | some (.dq n) => n
      | _ => dq
    let dqv := k.regs.drain q
    let at_ := o.sval 1
    let row := (at_.extractLsb' 32 32).toNat
    let col := (at_.extractLsb' 0 32).toNat
    match s.tensor k.part t.toNat with
      | none => .error (.fault .tidInvalid 0)
      | some d =>
        let head := dqv.entries.getD dqv.head {}
        let xs := entryElems d { head with fmt := d.fmt } row col
        if d.rank != 2 then .error (.fault .mmaShape 0)
        else if dqv.reserved != 0 && head.fmt != d.fmt then .error (.fault .formatInvalid 0)
        else if d.compressed && !(d.strideOf 0 == 1 && d.strideOf 1 == 64 && col == 0
            && row % entryRows d.width == 0) then .error (.fault .compressedAccess d.base)
        else if !d.writable then .error (.fault .xlatePerm d.base)
        else
          match (entryBytes d xs).findSome? fun va => match s.access (tileUnit s.cur.tile) k.part va .write with
              | .error e => some (e, va)
              | .ok _ => none with
          | some (e, va) => .error (.fault e va)
          | none =>
            if (entryBytes d xs).any fun va => match s.access (tileUnit s.cur.tile) k.part va .write with
                | .ok l => isCtrl l.pa && ctrlPrivileged l.pa
                | .error _ => false then .error (.fault .privileged d.base)
            else if !s.canPin (d.elemLines xs) then .error (.fault .mergeConflict d.base)
            else
              match dqv.pop with
              | .error e => .error e
              | .ok (e, _) =>
                .ok ((o.st.modRegs fun r => r.setDrain q { (r.drain q).popped with leaving := (r.drain q).leaving + 1 }).hold_
                  (.entry s.cur.addr q d e row col (s.wcWait k.part d) (s.entryCells k d (entryElems d e row col))))
/-- `stq` (R417): the entry stays occupied until its block commits. -/
def execStq (dq : BitVec 2) (t : BitVec 10) (c : BitVec 6) (s : State) : Host.Outcome State Fault Refusal :=
  settle s (startStq dq t c s)

/-! ### Rings (R216, R394) -/

/-- VA of a slot of a ring. -/
def Ring.slotVa (r : Ring) (i : Nat) : Nat :=
  windowBase + r.base.toNat * 128 + (i % 2 ^ r.lcount.toNat) * 2 ^ r.lslot.toNat

/-- Held publications, or releases, of the block on a ring. -/
def Task.heldOn (k : Task) (g : BitVec 3) (pub : Bool) : Nat :=
  (k.blk.held.filter fun e => match e with
    | .publish x => pub && x == g
    | .release x => !pub && x == g
    | _ => false).length

/-- A ring operation on its start beat: the ring it reads, or RING_CONFIG. -/
def State.ringOp (s : State) (opc : Nat) (dest : Option Reg) (g : BitVec 3) (bad : Ring → Bool)
    (body : Opn → BitVec 3 → Ring → Except Stop State) : Except Stop State :=
  match s.begin opc (destcodeOf dest) dest.toList [some (.g g), none, none] none with
  | .error e => .error e
  | .ok o =>
    let n : BitVec 3 := match o.srcs.getD 0 none with
      | some (.g x) => x
      | _ => g
    let r := o.st.me.regs.ring n
    if !r.en || bad r then .error (.fault .ringConfig 0) else body o n r

/-- A free slot taken by the producer. -/
def Ring.acquired (r : Ring) : Ring :=
  { r with acq := (r.acq + 1) % 2 ^ r.lcount.toNat, free := r.free - 1, heldP := r.heldP + 1, freeTags := r.freeTags.tail }

/-- A filled slot taken by the consumer. -/
def Ring.gotten (r : Ring) : Ring :=
  { r with get := (r.get + 1) % 2 ^ r.lcount.toNat, filled := r.filled - 1, heldC := r.heldC + 1, fillTags := r.fillTags.tail }

def startRacq (d : BitVec 6) (g : BitVec 3) (s : State) : Except Stop State :=
  s.ringOp 0x06 (some (.s d)) g (fun r => r.millP) fun o n r =>
    if r.free == 0 then .error (.hold .ringFull)
    else
      .ok ((o.st.modRegs fun x => x.setRing n (x.ring n).acquired).land 6 (.s d (BitVec.ofNat 64 (r.slotVa r.acq))) [.s d]
        (r.freeTags.headD 0) 0)
/-- `racq` (R216). -/
def execRacq (d : BitVec 6) (g : BitVec 3) (s : State) : Host.Outcome State Fault Refusal :=
  settle s (startRacq d g s)

def startRget (d : BitVec 6) (g : BitVec 3) (s : State) : Except Stop State :=
  s.ringOp 0x08 (some (.s d)) g (fun r => r.millC) fun o n r =>
    if r.filled == 0 then .error (.hold .ringEmpty)
    else
      .ok ((o.st.modRegs fun x => x.setRing n (x.ring n).gotten).land 6 (.s d (BitVec.ofNat 64 (r.slotVa r.get))) [.s d]
        (r.fillTags.headD 0) 0)
/-- `rget` (R216). -/
def execRget (d : BitVec 6) (g : BitVec 3) (s : State) : Host.Outcome State Fault Refusal :=
  settle s (startRget d g s)

def startRpub (g : BitVec 3) (s : State) : Except Stop State :=
  s.ringOp 0x07 none g (fun r => r.millP) fun o n r =>
    if r.heldP ≤ o.st.me.heldOn n true then .error (.fault .ringConfig 0) else .ok (o.st.hold_ (.publish n))
/-- `rpub` (R216). -/
def execRpub (g : BitVec 3) (s : State) : Host.Outcome State Fault Refusal := settle s (startRpub g s)

def startRrel (g : BitVec 3) (s : State) : Except Stop State :=
  s.ringOp 0x09 none g (fun r => r.millC) fun o n r =>
    if r.heldC ≤ o.st.me.heldOn n false then .error (.fault .ringConfig 0) else .ok (o.st.hold_ (.release n))
/-- `rrel` (R216). -/
def execRrel (g : BitVec 3) (s : State) : Host.Outcome State Fault Refusal := settle s (startRrel g s)

/-- A slot published at the order point (R216, R217). -/
def Ring.publish (r : Ring) : Ring :=
  { r with pub := (r.pub + 1) % 2 ^ r.lcount.toNat, heldP := r.heldP - 1, filled := r.filled + 1
           fillTags := r.fillTags ++ [publishTag r.published], published := r.published + 1 }

/-- A slot freed at the order point (R216, R217). -/
def Ring.release (r : Ring) : Ring :=
  { r with rel := (r.rel + 1) % 2 ^ r.lcount.toNat, heldC := r.heldC - 1, free := r.free + 1
           freeTags := r.freeTags ++ [freeTag r.freed], freed := r.freed + 1 }

/-! ### Stash maintenance (R214, R401) -/

def startSflush (base : BitVec 6) (lines : BitVec 14) (s : State) : Except Stop State :=
  match s.begin 0x0A 0xFF [] [some (.s base), none, none] none with
  | .error e => .error e
  | .ok o => .ok (o.st.hold_ (.flush ((o.sval 0).toNat / 128 * 128) lines.toNat))
/-- `sflush` (R401): held to the block's order point. -/
def execSflush (base : BitVec 6) (lines : BitVec 14) (s : State) : Host.Outcome State Fault Refusal :=
  settle s (startSflush base lines s)

def startSinv (base : BitVec 6) (lines : BitVec 14) (s : State) : Except Stop State :=
  match s.begin 0x0B 0xFF [] [some (.s base), none, none] none with
  | .error e => .error e
  | .ok o => .ok (o.st.hold_ (.inval ((o.sval 0).toNat / 128 * 128) lines.toNat))
/-- `sinv` (R401): held to the block's order point. -/
def execSinv (base : BitVec 6) (lines : BitVec 14) (s : State) : Host.Outcome State Fault Refusal :=
  settle s (startSinv base lines s)

end Sys2Proof.Machine
end

