-- ==== Sys2Proof/Machine/Slices.lean ====
section
/-! DEFINITION. The commons, and operations performed at L2 and memory slices (spec
06 R112, R120-R123; 11 R243-R249). -/

namespace Sys2Proof.Machine

open Host (Cell)

/-! ### Entering the commons (R112, R120, R121, R123) -/

/-- A partition's next task id, taken (R112). -/
def State.takeId (s : State) (p : Nat) : Word64 × State :=
  let x := s.parts.getD p {}
  (x.nextId, { s with parts := updAt s.parts p fun x => { x with nextId := x.nextId + 1 } })

/-- A general slot is free (R120). -/
def State.generalFree (s : State) (p : Nat) : Bool :=
  decide (((s.parts.getD p {}).commons.filter fun q => q.slot == .general).length
    < 2 ^ (s.quads.getD p {}).lk.toNat)

/-- The reserved slot of a depth is free (R120). -/
def State.reservedFree (s : State) (p : Nat) (d : BitVec 4) : Bool :=
  !(s.parts.getD p {}).commons.any fun q => q.slot == .reserved d

/-- A record enters the commons as the newest of its level (R120). -/
def State.enterCommons (s : State) (p : Nat) (r : Record) (slot : SlotKind) (stamp : Nat) : State :=
  let s : State := { s with parts := updAt s.parts p fun x =>
    { x with commons := x.commons ++ [{ record := r, slot := slot, stamp := stamp }] } }
  s.requestPreempt p r.prio

/-- A new record of `spawn`, a LAUNCH or an errand: its task id, and its groups counted (R112, R126). -/
def State.newRecord (s : State) (p : Nat) (r : Record) : Record × State :=
  let (n, s) := s.takeId p
  ({ r with taskid := n }, s.groupsUpdate p r.groups true)

/-! ### Atomics at their slices (R246, R247) -/

/-- The result of an operation of R85 on n bytes; `cas` compares with y. -/
def amoResult (op : AmoOp) (n : Nat) (old x y : Nat) : Nat :=
  let m := 2 ^ (8 * n)
  let x := x % m
  let sg (v : Nat) : Int := intDecode (8 * n) true v
  match op with
  | .add => (old + x) % m
  | .min => if sg x < sg old then x else old
  | .max => if sg old < sg x then x else old
  | .minu => min old x
  | .maxu => max old x
  | .band => old &&& x
  | .bor => old ||| x
  | .bxor => old ^^^ x
  | .swap => x
  | .cas => if old == y % m then x else old

/-- The operation writes: a `cas` that fails does not. -/
def amoWrites (op : AmoOp) (n : Nat) (old y : Nat) : Bool :=
  match op with
  | .cas => old == y % 2 ^ (8 * n)
  | _ => true

/-- Bytes of an atomic's width. -/
def amoBytes (wide : Bool) : Nat := if wide then 8 else 4

/-- An `amo` performed at its slice, after any owning stash has been recalled: the old value, and the state with the word written
(R218, R246, R313). -/
def State.amoAt (s : State) (pa : Nat) (op : AmoOp) (wide : Bool) (x y : Word64) : Nat × State :=
  let n := amoBytes wide
  let old := leNat (s.cohBytes pa n)
  let s := s.recall (lineOf pa)
  if amoWrites op n old y.toNat then
    (old, (s.stampLine (lineOf pa)).lowWrite (cellsAt pa (leBytes n (amoResult op n old x.toNat y.toNat))))
  else (old, s)

/-- The value of a D-slot operation on its way to the register that it locks (R53); 0 stands for no lock. -/
def State.reply (s : State) (tile serial : Nat) (v : Word64) : State :=
  if serial == 0 then s
  else { s with
    replies := s.replies ++ [{ n := s.serial, tile := tile, serial := serial, task := 0, value := v }]
    serial := s.serial + 1 }

/-- The errand's record (R247 step 5). -/
def Record.errandOf (r : Record) (old x : Word64) : Record :=
  { r with errand := true, raf := false, hasctx := false, argA := old, argB := x }

/-- Steps 2 to 6 of an `amoc` at its slice, none where it waits for a launch-queue entry; one that launches makes the O accesses
before it visible on every path (R247-R249). -/
def State.amocAt (s : State) (p pa tile serial : Nat) (op : AmoOp) (cc : Cond) (x : Word64) (r : Record) :
    Option State :=
  let old := leNat (s.lowBytes pa 8)
  if !intCond cc 64 old x.toNat then some (s.reply tile serial (BitVec.ofNat 64 old))
  else if Config.launchLimit ≤ s.launchCount (homeSlice pa) then none
  else
    let (_, s) := (s.writeBackAll p).amoAt pa op true x 0
    let (r, s) := s.newRecord p (r.errandOf (BitVec.ofNat 64 old) x)
    let s : State := { s with launchQ := s.launchQ ++
      [{ slice := homeSlice pa, part := p, record := r, stamp := s.clockMax }] }
    some (s.reply tile serial (BitVec.ofNat 64 old))

/-- The tile that an operation at a slice comes from. -/
def SliceOp.tile : SliceOp → Option Nat
  | .add t _ => t
  | .amo t _ _ _ _ _ => some t
  | .amoc t _ _ _ _ _ => some t
  | .store t _ => some t
  | .group t _ _ => t

/-- An operation whose task stops where its word is poisoned; an update of a group's count is dropped there (R126, R232). -/
def SliceOp.stops (op : SliceOp) : Bool :=
  match op with
  | .group _ _ _ => false
  | op => op.tile.isSome

/-- The tile that a task is on. -/
def State.tileOfTask (s : State) (p : Nat) (id : Word64) : Option Nat :=
  s.tiles.findIdx? fun x => match x.task with
    | some k => k.part == p && k.record.taskid == id
    | none => false

/-- A fault that a responder has found for a task: the task stops at its next bundle boundary in class K; for one that step 3 of
its block has ended, requeued or suspended, or that is on no tile, there is the record alone (R232, R311). -/
def State.respondTo (s : State) (p : Nat) (id : Word64) (addr : Nat) (c : Cause) (data : Nat) (left : Bool := false) : State :=
  match (s.tileOfTask p id).filter fun _ => !left with
  | some t => s.modTile t fun x => { x with task := x.task.map fun k =>
      { k with stop := some (k.stop.getD (.fault c .k addr data 0)) } }
  | none => s.log p { cause := c, cls := .k, task := id, bundle := addr, data := data }

/-- Step 3 of a block ends, requeues or suspends a task: a fault that a responder finds from now on is only logged (R311). -/
def State.markLeft (s : State) (p : Nat) (id : Word64) : State :=
  { s with
    heldLines := s.heldLines.map fun h => if h.part == p && h.task == id then { h with left := true } else h
    asks := s.asks.map fun a => if a.part == p && a.owner == id.toNat then { a with left := true } else a
    tiles := s.tiles.map fun x => { x with sends := x.sends.map fun m =>
      if m.part == p && m.task == id then { m with left := true } else m } }

/-- A lock that no value will reach any more. -/
def State.dropLock (s : State) (serial : Nat) : State :=
  let f (k : Task) : Task := { k with locks := k.locks.filter fun l => l.serial != serial }
  { s with tiles := s.tiles.map fun x => { x with task := x.task.map f }
           saved := s.saved.map fun e => { e with task := f e.task } }

/-- The lock that an operation's reply is for. -/
def SliceOp.lock : SliceOp → Nat
  | .amo _ n _ _ _ _ => n
  | .amoc _ n _ _ _ _ => n
  | _ => 0

/-- The effect of an operation at its slice, none where it waits on. One of a task that finds its word poisoned has no effect,
and the task stops (R232, R314); a tile's add makes the O accesses before it visible on every path (R241). -/
def State.sliceEffect (s : State) (h : HeldLine) : Option State :=
  if h.op.stops && s.cohPoisoned h.line then
    some ((s.dropLock h.op.lock).respondTo h.part h.task h.addr .eccUncorrectable h.va h.left)
  else
    match h.op with
    | .add t n =>
      let s := if t.isSome then s.writeBackAll h.part else s
      some ((s.stampLine h.line).lowWrite (cellsAt h.pa (leBytes 8 (satAdd (leNat (s.lowBytes h.pa 8)) n.toNat))))
    | .amo tile serial op wide x y =>
      let (old, s) := s.amoAt h.pa op wide x y
      some (s.reply tile serial (BitVec.ofNat 64 old))
    | .amoc tile serial op cc x r => s.amocAt h.part h.pa tile serial op cc x r
    | .store _ cells => some ((s.stampLine h.line).lowWrite cells)
    | .group _ g up => some (s.groupApply h.part g up h.pa)

/-- An operation performed at its slice, none where it waits on; it takes its place in the order of path O, and the clock of
the tile that its task is on follows it (R237, R241, log 32). One of an L2 slice counts in the slice's queue (R226). -/
def State.performHeld (s : State) (h : HeldLine) : Option State :=
  let s := if h.l2 && !h.counted then s.enterSlices h.part [h.line] else s
  match s.sliceEffect h with
  | none => none
  | some u =>
    let u := if h.l2 then u.leaveSlices h.part [h.line] else u
    if h.op.tile.isNone then some u
    else
      match u.tileOfTask h.part h.task with
      | some t => some (u.readSide t h.line)
      | none => some u

/-- The queue of the L2 slice of a line has no room for a request (R226). -/
def State.sliceFull (s : State) (p line : Nat) : Bool := decide (256 ≤ s.sliceDepth (s.sliceFor p line))

/-- The operations that wait at the slices, in order of arrival: each is performed unless one before it on its
line, a locked run, the slice's queue, or the launch queue holds it (R226, R236, R248). -/
def State.runHeld (s : State) : State :=
  s.heldLines.foldl (fun s h =>
    let ahead := (s.heldLines.takeWhile fun x => x.serial != h.serial).any fun x => x.line == h.line
    if ahead || s.lineLocked h.op.tile h.line || (h.l2 && !h.counted && s.sliceFull h.part h.line) then s
    else
      match { s with heldLines := s.heldLines.filter fun x => x.serial != h.serial }.performHeld h with
      | some s' => s'
      | none => s) s

/-- An operation of the task that is starting one arrives at its slice: it waits behind a held line or a full queue, or it is
performed; one that cannot be stays at the slice. `l2` is that it executes at an L2 slice. -/
def State.arrive (s : State) (p pa : Nat) (op : SliceOp) (va : Nat) (l2 : Bool := false) : State :=
  let full := l2 && s.sliceFull p (lineOf pa)
  let h : HeldLine := { serial := s.serial, line := lineOf pa, pa := pa, part := p, op := op, task := s.me.record.taskid
                        va := va, addr := s.cur.addr, l2 := l2, counted := l2 && !full }
  let s := if h.counted then s.enterSlices p [lineOf pa] else s
  let wait : State := { s with heldLines := s.heldLines ++ [h], serial := s.serial + 1 }
  if full || s.lineHeld op.tile (lineOf pa) then wait
  else
    match s.performHeld h with
    | some s' => s'
    | none => wait

/-- The update of a group's count by `join` or `leave`, in the order of path O as a `cadd`'s add (R359, R360); one whose entry
cannot be reached is dropped and logged (R126). -/
def State.groupFrom (s : State) (p tile g : Nat) (up : Bool) : State :=
  let va := s.groupVa p g
  match s.access p p va .both with
  | .error c => s.log p { cause := c, cls := .v, data := va, b := g }
  | .ok l => s.arrive p l.pa (.group (some tile) g up) va (!l.ms)

/-! ### Merge rounds (R253) -/

/-- An operation held until the round closes. -/
def State.holdMerge (s : State) (p : Nat) (id : Word64) (op : MergeOp) : State :=
  { s with parts := updAt s.parts p fun x =>
      { x with round := x.round.map fun r => { r with ops := r.ops ++ [(id, op)] } } }

end Sys2Proof.Machine
end

