-- ==== Sys2Proof/Machine/DSlot.lean ====
section
/-! DEFINITION. The D slot: copies, mills, counters, atomics, reductions, fences, tasks, groups, tensor ids and
sends (spec 06 R112, R117-R126; 11 R240-R251; 12 R255-R270; 21 R311-R319, R326-R328, R338-R348; 22 R352, R353,
R358-R360, R375-R380; 23 R389-R392, R409, R410; 24 R418, R419; 14 R296). -/

namespace Sys2Proof.Machine

open Host (Cell)

/-- The start of a D-slot operation. -/
def State.beginD (s : State) (i : Instr) : Except Stop Opn :=
  let d := dSpec i
  s.begin d.opc (destcodeOf d.dest) d.dest.toList d.srcs none true (dMore i)

/-- The start of a D-slot operation of path O. -/
def State.beginDO (s : State) (i : Instr) : Except Stop Opn :=
  let d := dSpec i
  s.beginO d.opc (destcodeOf d.dest) d.dest.toList d.srcs (dMore i)

/-- The start of a D-slot operation that names a tensor id. -/
def State.beginDT (s : State) (i : Instr) : Except Stop Opn :=
  let d := dSpec i
  s.beginT d.opc (destcodeOf d.dest) d.dest.toList d.srcs (dMore i)

/-- A fault that the responder finds: the operation has no effect, and the task stops at the next bundle boundary
in class K (R311). -/
def State.respond (s : State) (c : Cause) (data : Nat) : State :=
  s.modMe fun k => { k with stop := some (k.stop.getD (.fault c .k s.cur.addr data 0)) }

/-- A fresh serial number. -/
def State.fresh (s : State) : Nat × State := (s.serial, { s with serial := s.serial + 1 })

/-- The lock of a value-returning operation on its destination, with its serial number; `s0` locks nothing and
takes 0 (R53). -/
def State.lockReg (s : State) (d : BitVec 6) (tag : Word32) (line : Option Nat) : Nat × State :=
  if d == 0 then (0, s)
  else
    let (n, s) := s.fresh
    (n, s.modMe fun k => { k with locks := k.locks ++
      [{ reg := d, serial := n, blk := k.blk.seq, ord := s.cur.ord, beat := s.cur.beat, tag := tag, value := none
         line := line }] })

/-- The operand of a source that has no tag of its own. -/
def Opn.sreg (o : Opn) (n : BitVec 6) : Word64 := o.st.me.regs.sreg n

/-! ### Counters (R243, R244) -/

/-- Where an operation's counter lies, its faults in class K (R328, R347). -/
def State.counterAt (s : State) (va : Nat) (need : Need) : Except Stop Nat :=
  if va % 8 != 0 then .error (.after .counterAlign va)
  else
    match s.access s.myUnit s.me.part va need with
    | .error c => .error (.after c va)
    | .ok l => if l.ms then .ok l.pa else .error (.after .memsideKind va)

/-- `cadd` (R327): the add at the counter's home slice; in a merge round it is held. -/
def State.caddOf (s : State) (i : Instr) (val : Opn → Word64) : Except Stop State :=
  match s.beginDO i with
  | .error e => .error e
  | .ok o =>
    let va := (o.sval 0).toNat
    match s.counterAt va .write with
    | .error e => .error e
    | .ok pa =>
      let k := o.st.me
      if isCtrl pa && ctrlPrivilegedIn pa 8 then .error (.fault .privileged va)
      else if s.inRound k then .ok (o.st.holdMerge k.part k.record.taskid (.add va (val o) s.cur.addr))
      else .ok (o.st.arrive k.part pa (.add (some s.cur.tile) (val o)) va)

def startCadd (a n : BitVec 6) (s : State) : Except Stop State := s.caddOf (.cadd a n) fun o => o.sval 1
/-- `cadd` with a register (R326-R328). -/
def execCadd (a n : BitVec 6) (s : State) : Host.Outcome State Fault Refusal := settle s (startCadd a n s)

def startCaddImm (a : BitVec 6) (v : BitVec 13) (s : State) : Except Stop State :=
  s.caddOf (.caddImm a v) fun _ => v.setWidth 64
/-- `cadd` with an immediate (R326-R328). -/
def execCaddImm (a : BitVec 6) (v : BitVec 13) (s : State) : Host.Outcome State Fault Refusal :=
  settle s (startCaddImm a v s)

/-- The read-set entry of a counter: the stamp of its own last write (R235). -/
def State.counterRead (s : State) (pa : Nat) : ReadEntry :=
  let w := pa % 128 / 8
  { line := lineOf pa, wts := (assoc (s.dirLine (lineOf pa)).words w).getD 0, side := true, word := some w }

/-- A `cread` whose responder finds its counter poisoned: its register keeps its value, and the task stops at the next bundle
boundary, where the operation may become a pending start (R344). -/
def State.creadPoisoned (s : State) (i : Instr) (va : Nat) : State :=
  s.modMe fun k => { k with
    stop := some (k.stop.getD (.fault .eccUncorrectable .s s.cur.addr va 0))
    stopBlk := if k.stop.isSome then k.stopBlk else some k.blk.seq
    unread := k.unread ++ [{ due := s.cur.beat, blk := k.blk.seq, ord := s.cur.ord, slot := s.cur.slot, idx := s.cur.idx, op := i
                             addr := s.cur.addr }] }

def startCread (d a : BitVec 6) (s : State) : Except Stop State :=
  match s.beginDO (.cread d a) with
  | .error e => .error e
  | .ok o =>
    let va := (o.sval 0).toNat
    if !s.here.pairPend.isEmpty then .error (.hold .pairing)
    else if va % 8 != 0 then .error (.fault .counterAlign va)
    else
      match s.access s.myUnit s.me.part va .read with
      | .error c => .error (.fault c va)
      | .ok l =>
        if !l.ms then .error (.fault .memsideKind va)
        else if s.cohPoisoned (lineOf l.pa) then .ok (o.st.creadPoisoned (.cread d a) va)
        else
          let line := lineOf l.pa
          let v : Word64 := BitVec.ofNat 64 (leNat ((s.lowBytes l.pa 8).zipIdx.map fun (b, i) =>
            if s.inRound s.me then b else (s.me.buffered s.cur.ord false (l.pa + i)).getD b))
          let t := o.st.modMe fun k => { k with blk := { k.blk with
            readSet := k.blk.readSet ++ [s.counterRead l.pa] } }
          let (n, t) := (t.readSide s.cur.tile line).lockReg d o.tag (some line)
          .ok (t.reply s.cur.tile n v)
/-- `cread` (R342-R344): the value as the slice holds it, with the bytes that earlier bundles of the block have buffered over it
(R174, R234), but as it stood at the opening in a merge round (R253), delivered to the locked register. -/
def execCread (d a : BitVec 6) (s : State) : Host.Outcome State Fault Refusal := settle s (startCread d a s)

def startCwait (a t m : BitVec 6) (b : BitVec 3) (s : State) : Except Stop State :=
  match s.beginDO (.cwait a t m b) with
  | .error e => .error e
  | .ok o =>
    let va := (o.sval 0).toNat
    if va % 8 != 0 then .error (.after .counterAlign va)
    else
      match s.me.regs.breg b with
      | none => .error (.after .targetEmpty va)
      | some x =>
        match s.counterAt va .read with
        | .error e => .error e
        | .ok pa =>
          .ok (o.st.modMe fun k => { k with blk := { k.blk with
            eState := .cwaitSent { va := va, pa := pa, target := o.sval 1, mask0 := o.sval 2
                                   mask1 := o.sreg (m + 1), resume := x.addr } } })
/-- `cwait` (R345-R347): it is sent to the counter's slice, whose reply is an event of its own; the slice finds its poison. -/
def execCwait (a t m : BitVec 6) (b : BitVec 3) (s : State) : Host.Outcome State Fault Refusal :=
  settle s (startCwait a t m b s)

/-! ### Atomics (R246-R248) -/

/-- A held atomic whose old value is discarded. -/
def MergeOp.discards (op : MergeOp) : MergeOp :=
  match op with
  | .amo c _ o w va x y a => .amo c 0 o w va x y a
  | .amoc c _ o cc va x t a => .amoc c 0 o cc va x t a
  | op => op

/-- In a merge round an atomic is held, and its task suspends as for a `cwait` (R253); beside a `done` the task ends, and the old
value is discarded (R70, R319); beside a `trap` the task stops as it returns, before its first bundle (log 86). -/
def State.suspendFor (s : State) (op : MergeOp) : State :=
  let k := s.me
  match k.blk.ending with
  | .done => s.holdMerge k.part k.record.taskid op.discards
  | .trap code => (s.holdMerge k.part k.record.taskid op).modMe fun k => { k with
      stop := some (k.stop.getD (.fault .trap .k k.blk.eAddr 0 (code.setWidth 64))), blk := { k.blk with ending := .suspend } }
  | _ => (s.holdMerge k.part k.record.taskid op).modMe fun k => { k with blk := { k.blk with ending := .suspend } }

def startAmo (op : AmoOp) (wide : Bool) (d a n : BitVec 6) (s : State) : Except Stop State :=
  match s.beginDO (.amo op wide d a n) with
  | .error e => .error e
  | .ok o =>
    let va := (o.sval 0).toNat
    let k := s.me
    if va % amoBytes wide != 0 then .error (.fault .align va)
    else
      match s.access s.myUnit k.part va .both with
      | .error c => .error (.after c va)
      | .ok l =>
        if l.c then .error (.fault .compressedAccess va)
        else if isCtrl l.pa && ctrlPrivilegedIn l.pa (amoBytes wide) then .error (.fault .privileged va)
        else if s.inRound k then
          .ok (o.st.suspendFor (.amo k.record.ctx d op wide va (o.sval 1) (o.sval 2) s.cur.addr))
        else
          let (m, t) := o.st.lockReg d o.tag none
          .ok (t.arrive k.part l.pa (.amo s.cur.tile m op wide (o.sval 1) (o.sval 2)) va !(l.ms || isCtrl l.pa))
/-- `amo` (R312-R315). -/
def execAmo (op : AmoOp) (wide : Bool) (d a n : BitVec 6) (s : State) : Host.Outcome State Fault Refusal :=
  settle s (startAmo op wide d a n s)

/-- The template of an errand: 64 bytes on a memory-side page, which pass R111 (R247 step 1). -/
def State.template (s : State) (quad p va : Nat) : Except Cause Record :=
  if va % 64 != 0 then .error .errandTemplate
  else
    match s.access quad p va .read with
    | .error _ => .error .errandTemplate
    | .ok l =>
      if !l.ms then .error .errandTemplate
      else if s.cohPoisoned (lineOf l.pa) then .error .eccUncorrectable
      else
        let bs := s.lowBytes l.pa 64
        if s.recordOk p bs then .ok (recordOf bs) else .error .errandTemplate

def startAmoc (op : AmoOp) (cc : Cond) (d a n : BitVec 6) (s : State) : Except Stop State :=
  match s.beginDO (.amoc op cc d a n) with
  | .error e => .error e
  | .ok o =>
    let va := (o.sval 0).toNat
    let k := s.me
    if va % 8 != 0 then .error (.fault .align va)
    else
      match s.access s.myUnit k.part va .both with
      | .error c => .error (.after c va)
      | .ok l =>
        if l.c then .error (.fault .compressedAccess va)
        else if !l.ms then .error (.after .memsideKind va)
        else if isCtrl l.pa && ctrlPrivilegedIn l.pa 8 then .error (.fault .privileged va)
        else if s.inRound k then
          .ok (o.st.suspendFor (.amoc k.record.ctx d op cc va (o.sval 1) (o.sval 2).toNat s.cur.addr))
        else
          match s.template s.myUnit k.part (o.sval 2).toNat with
          | .error c => .ok (o.st.respond c (o.sval 2).toNat)
          | .ok r =>
            let (m, t) := o.st.lockReg d o.tag none
            .ok (t.arrive k.part l.pa (.amoc s.cur.tile m op cc (o.sval 1) r) va)
/-- `amoc` (R316-R319): its template is read as it arrives at the slice (log 83). -/
def execAmoc (op : AmoOp) (cc : Cond) (d a n : BitVec 6) (s : State) : Host.Outcome State Fault Refusal :=
  settle s (startAmoc op cc d a n s)

/-! ### Copies and mills (R260, R268, R338-R340, R378-R380) -/

/-- The allocated ranges of two tensors overlap. -/
def Desc.overlaps (d e : Desc) : Bool :=
  decide (d.base < e.base + e.range) && decide (e.base < d.base + d.range)

/-- Copy and mill commands outstanding on the tile of the operation (R260). -/
def State.cpCount (s : State) : Nat :=
  let x := s.here
  x.copyQ.length + x.copyHalted.length + s.me.mills.length
    + ((s.parts.getD s.me.part {}).mergeCopies.filter fun c => c.2.1 == s.cur.tile).length

def startCpy (tD tS : BitVec 10) (c : BitVec 6) (s : State) : Except Stop State :=
  match s.beginDT (.cpy tD tS c) with
  | .error e => .error e
  | .ok o =>
    let k := s.me
    let va := (o.sval 0).toNat
    match s.tensor k.part tD.toNat, s.tensor k.part tS.toNat with
    | some d, some e =>
      if !d.writable then .error (.after .xlatePerm d.base)
      else if d.overlaps e then .error (.after .tdefAlias d.base)
      else
        match (if c == 0 then .ok 0 else s.counterAt va .write : Except Stop Nat) with
        | .error x => .error x
        | .ok _ =>
          if Config.cpLimit ≤ s.cpCount then .error (.after .queueOverflow 0)
          else
            let f := k.fenceFor pathC
            let (n, t) := o.st.fresh
            let cmd : CopyCmd := {
              serial := n, part := k.part, dst := d, src := e, counter := if c == 0 then none else some va
              round := k.regs.round, wcw := s.wcWait k.part d, waits := f.1, waitBlk := f.2
              owner := k.record.taskid.toNat, tids := tS.setWidth 48 ++ 0#6 ++ tD }
            if s.inRound k then .ok (t.holdMerge k.part k.record.taskid (.copy s.cur.tile cmd))
            else .ok (t.modTile s.cur.tile fun x => { x with copyQ := x.copyQ ++ [cmd] })
    | _, _ => .error (.after .tidInvalid 0)
/-- `cpy` (R338-R341): the command joins the tile's copy engine. -/
def execCpy (tD tS : BitVec 10) (c : BitVec 6) (s : State) : Host.Outcome State Fault Refusal :=
  settle s (startCpy tD tS c s)

/-- Elements of a tensor. -/
def Desc.count (d : Desc) : Nat := (List.range 5).foldl (fun n i => n * d.extent i) 1

/-- Elements of a ring block of a tensor (R268). -/
def Desc.perBlock (d : Desc) (slot : Nat) : Nat := slot * 8 / d.width

/-- Blocks of a tensor for a slot size. -/
def Desc.blocks (d : Desc) (slot : Nat) : Nat := ceilDiv d.count (max (d.perBlock slot) 1)

/-- `msub` and `mret`: a mill attaches to one side of a ring (R268, R379, R380). -/
def State.millOf (s : State) (i : Instr) (push : Bool) (g : BitVec 3) (tid : BitVec 10) : Except Stop State :=
  match s.beginDT i with
  | .error e => .error e
  | .ok o =>
    let k := s.me
    let g : BitVec 3 := match o.srcs.getD 0 none with
      | some (.g x) => x
      | _ => g
    let v := o.sval 1
    let r := k.regs.ring g
    if s.inRound k then .error (.fault .mergeConflict 0)
    else
      match s.tensor k.part tid.toNat with
      | none => .error (.after .tidInvalid 0)
      | some d =>
        let slot := 2 ^ r.lslot.toNat
        if !r.en || (if push then r.millP else r.millC) || (if push then r.heldP else r.heldC) != 0
            || slot * 8 % d.width != 0 then .error (.after .ringConfig 0)
        else if !push && !d.writable then .error (.after .xlatePerm d.base)
        else if Config.cpLimit ≤ s.cpCount then .error (.after .queueOverflow 0)
        else
          let f := (v.extractLsb' 0 32).toNat
          let n := (v.extractLsb' 32 32).toNat
          let b := d.blocks slot
          let left := if n == 0 || b < f + n then b - f else n
          if left == 0 then .ok o.st
          else
            let die : Nat := match s.access s.myUnit k.part d.base .read with
              | .ok l => homeDie l.pa
              | .error _ => quadOf s.cur.tile
            let w := k.fenceFor pathM
            let (m, t) := o.st.fresh
            let mill : Mill := {
              serial := m, part := k.part, g := g, push := push, desc := d, die := die, next := f, left := left
              wcw := s.wcWait k.part d, tid := tid.toNat, waits := w.1, waitBlk := w.2 }
            .ok ((t.modMe fun k => { k with mills := k.mills ++ [mill] }).modRegs fun x =>
              x.setRing g (if push then { x.ring g with millP := true } else { x.ring g with millC := true }))

def startMsub (g : BitVec 3) (t : BitVec 10) (n : BitVec 6) (s : State) : Except Stop State :=
  s.millOf (.msub g t n) true g t
/-- `msub` (R378-R380). -/
def execMsub (g : BitVec 3) (t : BitVec 10) (n : BitVec 6) (s : State) : Host.Outcome State Fault Refusal :=
  settle s (startMsub g t n s)

def startMret (g : BitVec 3) (t : BitVec 10) (n : BitVec 6) (s : State) : Except Stop State :=
  s.millOf (.mret g t n) false g t
/-- `mret` (R378-R380). -/
def execMret (g : BitVec 3) (t : BitVec 10) (n : BitVec 6) (s : State) : Host.Outcome State Fault Refusal :=
  settle s (startMret g t n s)

/-! ### Reductions (R250, R251, R375-R377) -/

/-- The parameter block of a reduction. -/
structure ReduceParam where
  dst : Nat
  count : Nat
  srcs : List Nat
  addVal : Word64
deriving DecidableEq, Repr

/-- The block that 192 bytes hold, none where a field breaks its limits (R250). -/
def reduceParamOf (bs : List Byte) : Option ReduceParam :=
  let n := (bs.getD 12 0).toNat
  let x : ReduceParam := {
    dst := byteField bs 0 8, count := byteField bs 8 4
    srcs := (List.range n).map fun i => byteField bs (64 + 8 * i) 8
    addVal := BitVec.ofNat 64 (byteField bs 16 8) }
  if x.dst % 4 == 0 && 1 ≤ x.count && x.count ≤ 16777216 && 2 ≤ n && n ≤ 16
      && zeroBytes bs 13 3 && zeroBytes bs 24 40 && x.srcs.all (fun a => a % 4 == 0)
      && zeroBytes bs (64 + 8 * n) (128 - 8 * n) then some x
  else none

/-- A range has a compressed page (R251). -/
def State.compressedIn (s : State) (quad part va n : Nat) : Bool :=
  (List.range ((va + n - 1) / 65536 + 1 - va / 65536)).any fun i =>
    match s.xlate quad part (max va ((va / 65536 + i) * 65536)) with
    | .ok l => l.c
    | .error _ => false

/-- The destination overlaps a source without coinciding with it. -/
def ReduceParam.clash (x : ReduceParam) : Bool :=
  x.srcs.any fun a => a != x.dst && decide (a < x.dst + 4 * x.count) && decide (x.dst < a + 4 * x.count)

/-- The quadrant whose engines and walks a base die uses for a partition. -/
def State.dieQuad (s : State) (die p : Nat) : Nat := if (s.dev.layout == 0#8 : Bool) then die else p

/-- The base die that an `mred` goes to: the home of the destination that its parameter block names (R250). -/
def State.reduceDie (s : State) (a : ReduceAsk) : Nat :=
  let unit := tileUnit a.tile
  let home (va : Nat) (need : Need) : Except Cause Nat := (s.access unit a.part va need).map (·.pa)
  s.engineDie .reduction (match home a.va .read with
    | .error _ => unitQuad unit
    | .ok pa => match home (leNat (s.cohBytes pa 8)) .write with
      | .error _ => unitQuad unit
      | .ok d => homeDie d)

/-- The reduction engine of a base die has room for a command (R376). -/
def State.reduceRoom (s : State) (die : Nat) : Bool :=
  let d := s.dies.getD die {}
  decide (d.reduceQ.length + d.reduceHalted.length < Config.reductionLimit)

/-- An `mred` that has reached its engine: no fence holds it back, and the engine has room for it (R240, R376). -/
def State.reduceGoes (s : State) (a : ReduceAsk) : Bool :=
  s.clearedOf a.part a.owner a.waits a.waitBlk && s.reduceRoom (s.reduceDie a)

/-- The engine of a base die reads the parameter block of an `mred` and takes the command, or answers with a fault (R250, R251,
R376, R377). -/
def State.takeReduce (s : State) (a : ReduceAsk) : Except (Cause × Nat) State :=
  let die := s.reduceDie a
  let quad := s.dieQuad die a.part
  if a.va % 64 != 0 then .error (.reduceParam, a.va)
  else
    match s.engBytes quad a.part none a.va 192 with
    | .error e => .error e
    | .ok bs =>
      match reduceParamOf bs with
      | none => .error (.reduceParam, a.va)
      | some x =>
        let n := 4 * x.count
        if x.clash || (x.dst :: x.srcs).any (fun b => s.compressedIn quad a.part b n) then .error (.reduceParam, a.va)
        else
          let cmd : ReduceCmd := {
            serial := a.serial, part := a.part, tile := a.tile, owner := a.owner, dst := x.dst, count := x.count
            srcs := x.srcs, addVal := x.addVal, counter := a.counter, waits := a.waits, waitBlk := a.waitBlk }
          .ok { s with dies := updAt s.dies die fun y => { y with reduceQ := y.reduceQ ++ [cmd] } }

def startMred (p c : BitVec 6) (s : State) : Except Stop State :=
  match s.beginD (.mred p c) with
  | .error e => .error e
  | .ok o =>
    let k := s.me
    let ctr := (o.sval 1).toNat
    if s.inRound k then .error (.fault .mergeConflict 0)
    else if c != 0 && ctr % 8 != 0 then .error (.after .counterAlign ctr)
    else
      match (if c == 0 then .ok 0 else s.counterPa s.myUnit k.part ctr .write : Except Cause Nat) with
      | .error e => .ok (o.st.respond e ctr)
      | .ok _ =>
        let w := k.fenceFor pathM
        let (m, t) := o.st.fresh
        let a : ReduceAsk := {
          serial := m, part := k.part, tile := s.cur.tile, owner := k.record.taskid.toNat, va := (o.sval 0).toNat
          counter := if c == 0 then none else some ctr, addr := s.cur.addr, waits := w.1, waitBlk := w.2 }
        if !t.reduceGoes a || t.asks.any t.reduceGoes then .ok { t with asks := t.asks ++ [a] }
        else
          match t.takeReduce a with
          | .ok u => .ok u
          | .error (e, x) => .ok (o.st.respond e x)
/-- `mred` (R375-R377): the command joins the reduction engine of the destination's home base die; one that a fence holds back, or
that the engine has no room for, keeps its parameter block unread until then (R240). -/
def execMred (p c : BitVec 6) (s : State) : Host.Outcome State Fault Refusal := settle s (startMred p c s)

/-! ### `fence` (R240, R352, R353) -/

/-- The serial numbers of the commands of the task that a fence waits for, on whatever tile they run (R240). -/
def State.fenceWaits (s : State) (before : BitVec 6) : List Nat :=
  let k := s.me
  let has (p : BitVec 6) : Bool := before &&& p != 0#6
  let id := k.record.taskid.toNat
  (if has pathO then (s.heldLines.filter fun h => h.ofTask k).map (·.serial) else [])
  ++ (if has pathF then (k.mq.filter fun m => m.toRead && decide (m.beat < s.cur.beat)).map (·.serial) else [])
  ++ (if has pathC then
        (s.tiles.map fun x => ((x.copyQ ++ x.copyHalted).filter fun c => c.owner == id && c.part == k.part).map (·.serial)).flatten
        ++ ((s.parts.getD k.part {}).mergeCopies.filter fun c => c.1 == k.record.taskid).map (·.2.2.serial)
       else [])
  ++ (if has pathM then
        (s.dies.map fun d => ((d.reduceQ ++ d.reduceHalted).filter fun c =>
          c.owner == id && c.part == k.part).map (·.serial)).flatten
        ++ (s.asks.filter fun a => a.owner == id && a.part == k.part).map (·.serial) else [])
  ++ (if has pathN then
        (s.tiles.map fun x => (x.sends.filter fun m => m.task == k.record.taskid && m.part == k.part && m.data.isNone).map
          (·.serial)).flatten
       else [])

/-- The path sets order something: a tile issues no H access, and an empty set orders nothing (R87, R240). -/
def fenceOrders (before after : BitVec 6) : Bool := before &&& 0x3E != 0#6 && after != 0#6

def startFence (before after : BitVec 6) (s : State) : Except Stop State :=
  match s.beginD (.fence before after) with
  | .error e => .error e
  | .ok o =>
    let k := o.st.me
    let waits := s.fenceWaits before
    let fromO := before &&& pathO != 0#6
    let own : Option Nat := if fromO then some k.blk.seq else none
    let live := k.fences.filter fun f => f.orders pathO || !s.cleared f.waits f.waitBlk k
    let others : FenceDep := { after := after, waits := waits, waitBlk := none, blk := k.blk.seq }
    let stores : FenceDep := { after := after &&& ~~~pathO, waits := [], waitBlk := own, blk := k.blk.seq }
    let t := o.st.setMe { k with
      fences := live ++ [others, stores]
      blk := { k.blk with hasFenceO := k.blk.hasFenceO || fromO } }
    .ok (if !fenceOrders before after then o.st else if fromO then t.writeBackAll k.part else t)
/-- `fence` (R352, R353): one whose before set names no access or whose after set is empty orders nothing (R87, R240). The O accesses of its own block are performed at the block's order point, so that a command on an after
path that follows it in the block waits for the block's end (R234, R240). -/
def execFence (before after : BitVec 6) (s : State) : Host.Outcome State Fault Refusal :=
  settle s (startFence before after s)

/-! ### `spawn` (R409, R410) -/

/-- A byte as an operation of R69 reads it on path O: in a merge round over the task's own private lines (R253). -/
def State.ownByte (s : State) (va pa : Nat) : Byte := (s.me.privByte va).getD (s.cohByte pa)

def startSpawn (a : BitVec 6) (s : State) : Except Stop State :=
  match s.beginDO (.spawn a) with
  | .error e => .error e
  | .ok o =>
    let va := (o.sval 0).toNat
    let k := s.me
    if va % 64 != 0 then .error (.fault .align va)
    else
      match s.access s.myUnit k.part va .read with
      | .error c => .error (.after c va)
      | .ok l =>
        if s.cohPoisoned (lineOf l.pa) then .ok (o.st.respond .eccUncorrectable va)
        else
          let bs := (List.range 64).map fun i => s.ownByte (va + i) (l.pa + i)
          if !s.recordOk k.part bs then .ok (o.st.respond .poolRecord va)
          else
            let d : BitVec 4 := if k.record.depth == 15 then 15 else k.record.depth + 1
            let r := { recordOf bs with depth := d, errand := false, raf := false }
            if s.inRound k then .ok (o.st.holdMerge k.part k.record.taskid (.enqueue r true))
            else if s.generalFree k.part then
              let (r, t) := o.st.newRecord k.part r
              .ok (t.enterCommons k.part r .general t.clockMax)
            else if s.reservedFree k.part d then
              let (r, t) := o.st.newRecord k.part r
              .ok (t.enterCommons k.part r (.reserved d) t.clockMax)
            else .error (.hold .spawn)
/-- `spawn` (R121, R409, R410). -/
def execSpawn (a : BitVec 6) (s : State) : Host.Outcome State Fault Refusal := settle s (startSpawn a s)

/-! ### Groups (R125, R358-R360) -/

/-- The update of a group's count, held in a merge round. -/
def State.groupChange (s : State) (g : BitVec 16) (up : Bool) : State :=
  let k := s.me
  if s.inRound k then s.holdMerge k.part k.record.taskid (.group g up)
  else s.groupFrom k.part s.cur.tile g.toNat up

/-- A group number that R88 admits. -/
def groupOk (g : BitVec 16) : Bool := g != 0 && decide (g.toNat < 4096)

def startJoin (g : BitVec 16) (s : State) : Except Stop State :=
  match s.beginDO (.join g) with
  | .error e => .error e
  | .ok o =>
    let gs := s.me.record.groups
    if !groupOk g then .error (.after .groupInvalid 0)
    else if gs.contains g then .ok o.st
    else
      match gs.findIdx? fun x => x == 0 with
      | none => .error (.after .groupInvalid 0)
      | some i =>
        .ok ((o.st.modMe fun k => { k with record := { k.record with groups := gs.set i g } }).groupChange g true)
/-- `join` (R358-R360). -/
def execJoin (g : BitVec 16) (s : State) : Host.Outcome State Fault Refusal := settle s (startJoin g s)

def startLeave (g : BitVec 16) (s : State) : Except Stop State :=
  match s.beginDO (.leave g) with
  | .error e => .error e
  | .ok o =>
    let gs := s.me.record.groups
    if !groupOk g then .error (.after .groupInvalid 0)
    else
      match gs.findIdx? fun x => x == g with
      | none => .ok o.st
      | some i =>
        .ok ((o.st.modMe fun k => { k with record := { k.record with groups := gs.set i 0 } }).groupChange g false)
/-- `leave` (R358-R360). -/
def execLeave (g : BitVec 16) (s : State) : Host.Outcome State Fault Refusal := settle s (startLeave g s)

/-! ### Tensor ids (R255, R258, R259, R418, R419) -/

def startTdef (t : BitVec 10) (d : BitVec 6) (s : State) : Except Stop State :=
  match s.beginDO (.tdef t d) with
  | .error e => .error e
  | .ok o =>
    let va := (o.sval 0).toNat
    let k := s.me
    if va % 8 != 0 then .error (.fault .align va)
    else
      match s.accessRange s.myUnit k.part va 96 .read with
      | .error (c, a) => .ok (o.st.respond c a)
      | .ok pas =>
        if pas.any fun x => s.cohPoisoned (lineOf x.1) then .ok (o.st.respond .eccUncorrectable va)
        else
          let bs := pas.zipIdx.map fun (x, i) => s.ownByte (va + i) x.1
          match descCheck bs with
          | some c => .ok (o.st.respond c va)
          | none =>
            let u := o.st.modRegs fun r => r.setScale t.toNat 0
            .ok { u with parts := updAt u.parts k.part fun p =>
                    { p with tensors := assocSet p.tensors t.toNat (descOf bs) } }
/-- `tdef` (R258, R418): the descriptor is read on path O after the block's stores. -/
def execTdef (t : BitVec 10) (d : BitVec 6) (s : State) : Host.Outcome State Fault Refusal :=
  settle s (startTdef t d s)

def startTdrop (t : BitVec 10) (s : State) : Except Stop State :=
  match s.beginDO (.tdrop t) with
  | .error e => .error e
  | .ok o => .ok { o.st with parts := updAt o.st.parts s.me.part fun p =>
      { p with tensors := p.tensors.filter fun x => x.1 != t.toNat } }
/-- `tdrop` (R259, R419). -/
def execTdrop (t : BitVec 10) (s : State) : Host.Outcome State Fault Refusal := settle s (startTdrop t s)

/-! ### Port channels (R296, R389-R392) -/

/-- A channel of a port. -/
def State.chan (s : State) (port ch : Nat) : Channel := (s.ports.getD port {}).chans.getD ch {}

/-- A channel changed. -/
def State.modChan (s : State) (port ch : Nat) (f : Channel → Channel) : State :=
  { s with ports := updAt s.ports port fun p => { p with chans := updAt p.chans ch f } }

/-- The first failed check of R296. `recv` is `nrecv`; `queue` is `nsendq`. -/
def State.netCheck (s : State) (port ch a l : Nat) (recv queue : Bool) : Option (Cause × Nat) :=
  let k := s.me
  let c := s.chan port ch
  let base := if recv then c.rbase.toNat else c.sbase.toNat
  let len := if recv then c.rlen.toNat else c.slen.toNat
  if 15 < port then some (.netPort, 0)
  else if 14 ≤ port && (s.quads.getD k.part {}).pair then some (.netPort, 0)
  else if !c.en || c.part.toNat != k.part then some (.netPort, 0)
  else if recv && c.dep then some (.netPort, 0)
  else if queue then (if c.slen.toNat < 512 then some (.remoteWindow, 0) else none)
  else if a % 8 != 0 then some (.align, a)
  else if l % 8 != 0 || l < 8 || 65536 < l then some (.netLength, a)
  else if a < base || base + len < a + l then some (.remoteWindow, a)
  else none

/-- A failed check of a send, in its class: ALIGN is S, the others K. -/
def sendFault (c : Cause) (va : Nat) : Stop := if c == .align then .fault c va else .after c va

def startNsend (port ch : BitVec 5) (a l : BitVec 6) (s : State) : Except Stop State :=
  match s.beginD (.nsend port ch a l) with
  | .error e => .error e
  | .ok o =>
    let k := s.me
    let va := (o.sval 0).toNat
    let n := ((o.sval 1).extractLsb' 0 32).toNat
    if s.inRound k then .error (.fault .mergeConflict 0)
    else
      match s.netCheck port.toNat ch.toNat va n false false with
      | some (c, x) => .error (sendFault c x)
      | none =>
        match s.accessRange s.myUnit k.part va n .read with
        | .error (c, x) => .error (.after c x)
        | .ok pas =>
          if pas.any fun p => p.2.c then .error (.after .compressedAccess va)
          else if Config.sendLimit ≤ (s.here.sends.filter fun m => m.data.isNone).length then
            .error (.after .queueOverflow 0)
          else
            let w := k.fenceFor pathN
            let (m, t) := o.st.fresh
            .ok (t.modTile s.cur.tile fun x => { x with sends := x.sends ++
              [{ serial := m, task := k.record.taskid, tile := s.cur.tile, port := port.toNat, ch := ch.toNat
                 va := va, len := n, data := none, part := k.part, addr := s.cur.addr, waits := w.1, waitBlk := w.2 }] })
/-- `nsend` (R296, R389, R390). -/
def execNsend (port ch : BitVec 5) (a l : BitVec 6) (s : State) : Host.Outcome State Fault Refusal :=
  settle s (startNsend port ch a l s)

def startNsendq (port ch : BitVec 5) (dq : BitVec 2) (s : State) : Except Stop State :=
  match s.beginD (.nsendq port ch dq) with
  | .error e => .error e
  | .ok o =>
    let k := o.st.me
    let q : BitVec 2 := match o.srcs.getD 0 none with
      | some (.dq n) => n
      | _ => dq
    if s.inRound k then .error (.fault .mergeConflict 0)
    else
      match s.netCheck port.toNat ch.toNat 0 512 false true with
      | some (c, x) => .error (.after c x)
      | none =>
        if Config.sendLimit ≤ (s.here.sends.filter fun m => m.data.isNone).length then
          .error (.after .queueOverflow 0)
        else
          match (k.regs.drain q).pop with
          | .error (.fault c x) => .error (.after c x)
          | .error e => .error e
          | .ok (e, _) =>
            let w := k.fenceFor pathN
            let (m, t) := (o.st.modRegs fun r => r.setDrain q (r.drain q).popped).fresh
            .ok (t.modTile s.cur.tile fun x => { x with sends := x.sends ++
              [{ serial := m, task := k.record.taskid, tile := s.cur.tile, port := port.toNat, ch := ch.toNat
                 va := 0, len := 512, data := some (vecBytes e.data), part := k.part, addr := s.cur.addr, waits := w.1
                 waitBlk := w.2 }] })
/-- `nsendq` (R194, R296, R390): its entry is popped and copied to its port at once; a fence may hold its message back (R240). -/
def execNsendq (port ch : BitVec 5) (dq : BitVec 2) (s : State) : Host.Outcome State Fault Refusal :=
  settle s (startNsendq port ch dq s)

/-- Bytes of a held stream that the task has taken and not yet freed (R392). -/
def Regs.taken (r : Regs) (c : Nat) : Nat := (assoc r.recv c).getD 0

/-- The count of taken bytes set; 0 is not listed. -/
def Regs.setTaken (r : Regs) (c n : Nat) : Regs :=
  { r with recv := if n == 0 then r.recv.filter fun x => x.1 != c else assocSet r.recv c n }

/-- The stream bytes that the `nrecv` operations of a block take from a channel, in program order from a place in its stream
(R392). -/
def takesInOrder (port ch base : Nat) (skew : List Byte) (hs : List Held) : List Held :=
  (hs.foldl (fun (acc : Nat × List Held) h => match h with
    | .take b p c n va cs =>
      if p == port && c == ch then
        (acc.1 + n, acc.2 ++ [.take b p c n va ((cs.map (·.1)).zip ((skew.drop acc.1).take n))])
      else (acc.1, acc.2 ++ [h])
    | h => (acc.1, acc.2 ++ [h])) (base, [])).2

/-- The bytes that the block's own `nrecv` operations have taken from a channel. -/
def Block.takes (b : Block) (port ch : Nat) : Nat :=
  (b.held.map fun h => match h with
    | .take _ p c n _ _ => if p == port && c == ch then n else 0
    | _ => 0).sum

def startNrecv (port ch : BitVec 5) (a l : BitVec 6) (s : State) : Except Stop State :=
  let i : Instr := .nrecv port ch a l
  match s.beginDO i with
  | .error e => .error e
  | .ok o =>
    let k := s.me
    let va := (o.sval 0).toNat
    let n := ((o.sval 1).extractLsb' 0 32).toNat
    let p := port.toNat
    let c := ch.toNat
    if s.inRound k then .error (.fault .mergeConflict 0)
    else
      match s.netCheck p c va n true false with
      | some (e, x) => .error (.fault e x)
      | none =>
        let q := s.chan p c
        if q.holder.any fun h => h != k.record.taskid.toNat then .error (.fault .netPort 0)
        else
          match s.storeRow va n with
          | .error e => .error (.fault e va)
          | .ok (true, _) => .error (.fault .xlateNotpresent va)
          | .ok (false, pas) =>
            let rp := k.regs.taken (p * 32 + c)
            if q.skew.length < rp + n then .error (.hold (.recv p c))
            else
              let t := o.st.modChan p c fun q => { q with holder := some k.record.taskid.toNat }
              let t := t.modRegs fun r => r.setTaken (p * 32 + c) (r.taken (p * 32 + c) + n)
              let t := t.hold_ (.take s.cur.addr p c n va (pas.map fun a => (a, 0)))
              .ok (t.modMe fun k => { k with blk := { k.blk with
                held := takesInOrder p c (rp - s.me.blk.takes p c) q.skew k.blk.held } })
/-- `nrecv` (R391, R392): the next bytes of the stream in program order, written at the block's order point. -/
def execNrecv (port ch : BitVec 5) (a l : BitVec 6) (s : State) : Host.Outcome State Fault Refusal :=
  settle s (startNrecv port ch a l s)

end Sys2Proof.Machine
end

