-- ==== Sys2Proof/Machine/Link.lean ====
section
/-! DEFINITION. What a peer port sends: frames with their sequence numbers, credits and pairing messages (spec 14
R295-R299; 07 R154). -/

namespace Sys2Proof.Machine

/-- A port. -/
def State.port (s : State) (p : Nat) : Port := s.ports.getD p {}

/-- A port changed. -/
def State.modPort (s : State) (p : Nat) (f : Port → Port) : State := { s with ports := updAt s.ports p f }

/-- A frame that leaves a port while its link is up, to the address that the port has learned (R298). -/
def State.emit (s : State) (p : Nat) (f : LinkFrame) : State :=
  if (s.port p).up then { s with outputs := s.outputs ++ [.frame p ((s.port p).learned.getD 0xFF) f] } else s

/-- A CREDIT frame: while the link is down it waits in the port's buffer (R298). -/
def State.sendCredit (s : State) (p c : Nat) (reset : Bool) (n : Nat) : State :=
  let f : LinkFrame := .credit (BitVec.ofNat 5 c) reset (BitVec.ofNat 32 n)
  if (s.port p).up then s.emit p f else s.modPort p fun x => { x with waiting := x.waiting ++ [f] }

/-- Frames that a sender holds unacknowledged at most (R298). -/
def unackedLimit : Nat := 256

/-- The frames that have not been acknowledged (R298). -/
def Port.pending (x : Port) : List LinkFrame := x.unacked.drop x.acked

/-- A DATA or PAIR frame with the next sequence number, held until it is acknowledged (R298). -/
def State.sendSeq (s : State) (p : Nat) (mk : BitVec 32 → LinkFrame) : State :=
  let f := mk (s.port p).sendSeq
  (s.modPort p fun x => { x with sendSeq := x.sendSeq + 1, unacked := x.unacked ++ [f] }).emit p f

/-- The pairing messages that wait at a port, in one frame of up to 256 (R298). -/
def State.sendPairs (s : State) (p : Nat) : State :=
  let x := s.port p
  if x.pairOut.isEmpty || !x.up || unackedLimit ≤ x.pending.length then s
  else
    (s.modPort p fun x => { x with pairOut := x.pairOut.drop 256 }).sendSeq p fun n => .pair n (x.pairOut.take 256)

/-- The pairing messages that frames carry. -/
def pairsIn (fs : List LinkFrame) : List PairMsg :=
  (fs.map fun f => match f with
    | .pair _ ms => ms
    | _ => []).flatten

/-- The pairing messages that a port still has to carry. -/
def Port.pairsLeft (x : Port) : List PairMsg := (if x.passed then [] else pairsIn x.pending) ++ x.pairOut

/-- The port of 14 and 15 over which a pairing message goes: tiles of even numbers have port 14, the others 15. While that link is
down, or the other still carries messages of the tile, the other carries it (R299, log 35). -/
def State.pairPort (s : State) (m : PairMsg) : Nat :=
  let own := if m.tile.getLsbD 0 then 15 else 14
  let other := 29 - own
  if (s.port other).up && (!(s.port own).up || (s.port other).pairsLeft.any fun x => x.tile == m.tile) then other else own

/-- A pairing message sent over the links of ports 14 and 15 (R299). -/
def State.sendPair (s : State) (m : PairMsg) : State :=
  let p := s.pairPort m
  (s.modPort p fun x => { x with pairOut := x.pairOut ++ [m] }).sendPairs p

/-- What a pairing port whose link is down still had to carry passes to the other one, whose link is up (R299). -/
def State.passPairs (s : State) (p : Nat) : State :=
  let other := 29 - p
  if p < 14 || 15 < p || (s.port p).up || !(s.port other).up then s
  else
    let ms := (s.port p).pairsLeft
    let s := s.modPort p fun x => { x with pairOut := [], passed := true }
    (s.modPort other fun x => { x with pairOut := x.pairOut ++ ms }).sendPairs other

/-- The credits that a message of n bytes takes (R298). -/
def creditsOf (n : Nat) : Nat := ceilDiv n 512

/-- n bytes of the oldest messages freed: what is left of them with the credits that it still takes, and the credits of the space
that has become free, one for each 512 bytes of a message (log 34). -/
def freeSpans : List (Nat × Nat) → Nat → List (Nat × Nat) × Nat
  | [], _ => ([], 0)
  | (l, c) :: rest, n =>
    if l ≤ n then
      let (r, k) := freeSpans rest (n - l)
      (r, c + k)
    else
      let left := min c (creditsOf (l - n))
      ((l - n, left) :: rest, c - left)

/-- Credits returned to the sender of a channel (R298). -/
def State.returnCredits (s : State) (p c n : Nat) : State := if n == 0 then s else s.sendCredit p c false n

/-- Bytes of a stream that an `nrecv` has taken, freed at its block's order point (R392). -/
def State.freeSkew (s : State) (p c n : Nat) : State :=
  let (sp, k) := freeSpans (s.chan p c).spans n
  (s.modChan p c fun x => { x with skew := x.skew.drop n, spans := sp }).returnCredits p c k

end Sys2Proof.Machine
end

