-- ==== Sys2Proof/Machine/Control.lean ====
section
/-! DEFINITION. The C slot: target buffers, transfers, loops, instruction-cache locks, `wait`, `rel`, the ends of a
block, breakpoints and fault injection (spec 08 R157-R164, R180; 06 R116; 07 R145-R147; 22 R320-R331, R349-R357,
R364, R365; 23 R395; 24 R423, R424, R446-R452). -/

namespace Sys2Proof.Machine

/-! ### Target buffers (R320, R321) -/

/-- A target buffer with the copy that the load reads on its start beat. -/
def State.prepare (s : State) (o : Opn) (b : BitVec 3) (a : Nat) : State :=
  let copy : Option Word256 := match s.fetch s.cur.tile s.me.part a with
    | .ok w => some w
    | .error _ => none
  o.st.land 3 (.b b { addr := a, copy := copy }) [.b b] o.tag 0

def startNop (s : State) : Except Stop State := .ok s
/-- `nop` (R73): it folds nothing. -/
def execNop (s : State) : Host.Outcome State Fault Refusal := settle s (startNop s)

def startBprep (b : BitVec 3) (off : BitVec 23) (s : State) : Except Stop State :=
  match s.begin 0x01 (Reg.code (.b b)) [.b b] [none, none, none] none with
  | .error e => .error e
  | .ok o => .ok (s.prepare o b (((s.cur.addr : Int) + 32 * off.toInt) % 2 ^ 52).toNat)
/-- `bprep` (R321). -/
def execBprep (b : BitVec 3) (off : BitVec 23) (s : State) : Host.Outcome State Fault Refusal :=
  settle s (startBprep b off s)

def startBprepi (b : BitVec 3) (n : BitVec 6) (s : State) : Except Stop State :=
  match s.begin 0x02 (Reg.code (.b b)) [.b b] [some (.s n), none, none] none with
  | .error e => .error e
  | .ok o =>
    let v := (o.sval 0).toNat
    if v % 32 != 0 then .error (.fault .align v) else .ok (s.prepare o b (v % 2 ^ 52))
/-- `bprepi` (R321). -/
def execBprepi (b : BitVec 3) (n : BitVec 6) (s : State) : Host.Outcome State Fault Refusal :=
  settle s (startBprepi b n s)

/-! ### Transfers (R157, R160, R450, R330) -/

/-- A transfer on its start beat: its buffer must hold a target, and where its condition holds the block takes
it. -/
def State.transfer (s : State) (opc destcode : Nat) (dests : List Reg) (b : BitVec 3) (cond : Option Reg)
    (takes : Opn → Bool) : Except Stop (Opn × State) :=
  match s.begin opc destcode dests [cond, some (.b b), none] none with
  | .error e => .error e
  | .ok o =>
    let n : BitVec 3 := match o.srcs.getD 1 none with
      | some (.b x) => x
      | _ => b
    match o.st.me.regs.breg n with
    | none => .error (.fault .targetEmpty 0)
    | some x =>
      let t := takes o
      .ok (o, o.st.modMe fun k => { k with blk := { k.blk with
        hasXfer := true
        taken := if t then some x.addr else none
        takenCopy := if t then x.copy else none } })

/-- A conditional transfer: nothing lands. -/
def State.transferIf (s : State) (opc : Nat) (b : BitVec 3) (cond : Reg) (takes : Opn → Bool) :
    Except Stop State :=
  match s.transfer opc 0xFF [] b (some cond) takes with
  | .error e => .error e
  | .ok (_, t) => .ok t

def startXfer (b q : BitVec 3) (s : State) : Except Stop State := s.transferIf 0x03 b (.q q) fun o => o.qval 0
/-- `xfer` (R450). -/
def execXfer (b q : BitVec 3) (s : State) : Host.Outcome State Fault Refusal := settle s (startXfer b q s)

def startXferF (b q : BitVec 3) (s : State) : Except Stop State := s.transferIf 0x03 b (.q q) fun o => !o.qval 0
/-- `xfer.f` (R450). -/
def execXferF (b q : BitVec 3) (s : State) : Host.Outcome State Fault Refusal := settle s (startXferF b q s)

/-- Source 0 as the top of a mask stack. -/
def Opn.topval (o : Opn) (u : MaskUnit) : MaskEntry :=
  match o.srcs.getD 0 none with
  | some (.mask w) => o.st.me.regs.top w
  | _ => o.st.me.regs.top u

def startXferMz (b : BitVec 3) (u : MaskUnit) (s : State) : Except Stop State :=
  s.transferIf 0x04 b (.mask u) fun o => o.topval u == 0
/-- `xfer.mz` (R160, R450). -/
def execXferMz (b : BitVec 3) (u : MaskUnit) (s : State) : Host.Outcome State Fault Refusal :=
  settle s (startXferMz b u s)

def startXferMnz (b : BitVec 3) (u : MaskUnit) (s : State) : Except Stop State :=
  s.transferIf 0x04 b (.mask u) fun o => o.topval u != 0
/-- `xfer.mnz` (R160, R450). -/
def execXferMnz (b : BitVec 3) (u : MaskUnit) (s : State) : Host.Outcome State Fault Refusal :=
  settle s (startXferMnz b u s)

def startCall (b : BitVec 3) (s : State) : Except Stop State :=
  match s.transfer 0x05 0x3F [.s 63] b none fun _ => true with
  | .error e => .error e
  | .ok (o, t) => .ok (t.land 1 (.s 63 (BitVec.ofNat 64 ((s.cur.addr + 96) % 2 ^ 52))) [.s 63] o.tag 0)
/-- `call` (R330): the link is the address of the E bundle + 64. -/
def execCall (b : BitVec 3) (s : State) : Host.Outcome State Fault Refusal := settle s (startCall b s)

/-! ### The loop buffer (R161, R365) -/

/-- `lmark`: the loop state lands at the end of the beat; its body is bound when the next block is entered. -/
def State.mark (s : State) (src : Option Reg) (count : Opn → Nat) (len : BitVec 8) : Except Stop State :=
  if s.me.regs.loop.isSome then .error (.fault .loopNest 0)
  else
    match s.begin 0x06 0xFF [] [src, none, none] none with
    | .error e => .error e
    | .ok o => .ok (o.st.land 1
        (.loop { count := max (count o) 1, body := 0, len := len.toNat, done := 0, armed := false }) [] o.tag 0)

def startLmark (n : BitVec 6) (len : BitVec 8) (s : State) : Except Stop State :=
  s.mark (some (.s n)) (fun o => (o.sval 0).toNat % 2 ^ 32) len
/-- `lmark` with a register (R365). -/
def execLmark (n : BitVec 6) (len : BitVec 8) (s : State) : Host.Outcome State Fault Refusal :=
  settle s (startLmark n len s)

def startLmarkImm (count : BitVec 12) (len : BitVec 8) (s : State) : Except Stop State :=
  s.mark none (fun _ => count.toNat) len
/-- `lmark` with an immediate (R364, R365): its source field names `s0`, whose tag is 0. -/
def execLmarkImm (count : BitVec 12) (len : BitVec 8) (s : State) : Host.Outcome State Fault Refusal :=
  settle s (startLmarkImm count len s)

/-! ### Instruction-cache locks (R164, R355) -/

/-- Lines that the instruction cache of a tile can lock (R164). -/
def lockLimit : Nat := 1024

def startIlock (n : BitVec 6) (lines : BitVec 16) (s : State) : Except Stop State :=
  match s.begin 0x07 0xFF [] [some (.s n), none, none] none with
  | .error e => .error e
  | .ok o =>
    let first := (o.sval 0).toNat % 2 ^ 52 / 128
    let k := o.st.me
    let add (ls : List Nat) (i : Nat) : List Nat :=
      let l := first + i
      if lockLimit ≤ ls.length || ls.contains l then ls
      else match s.access s.myUnit k.part (l * 128) .fetch with
        | .ok _ => ls ++ [l]
        | .error _ => ls
    .ok ((o.st.setMe { k with locked := (List.range lines.toNat).foldl add k.locked }).others (quadOf s.cur.tile))
/-- `ilock` (R355). -/
def execIlock (n : BitVec 6) (lines : BitVec 16) (s : State) : Host.Outcome State Fault Refusal :=
  settle s (startIlock n lines s)

def startIunlock (n : BitVec 6) (lines : BitVec 16) (s : State) : Except Stop State :=
  match s.begin 0x08 0xFF [] [some (.s n), none, none] none with
  | .error e => .error e
  | .ok o =>
    let first := (o.sval 0).toNat % 2 ^ 52 / 128
    let part := s.me.part
    let skipped (l : Nat) : Bool := match s.access s.myUnit part (l * 128) .fetch with
      | .ok _ => false
      | .error _ => true
    .ok ((o.st.modMe fun k => { k with
      locked := k.locked.filter fun l => !(decide (first ≤ l) && decide (l < first + lines.toNat)) || skipped l }).others
        (quadOf s.cur.tile))
/-- `iunlock` (R355): a line that does not translate or lacks X is skipped. -/
def execIunlock (n : BitVec 6) (lines : BitVec 16) (s : State) : Host.Outcome State Fault Refusal :=
  settle s (startIunlock n lines s)

/-! ### `wait` (R446-R448) -/

/-- An atomic at its slice that returns its value to no register. -/
def SliceOp.toNone (op : SliceOp) : Bool :=
  match op with
  | .amo _ n _ _ _ _ | .amoc _ n _ _ _ _ => n == 0
  | _ => false

/-- An operation of R69 that writes a counter or a word on path O, and one that gives its old value to `s0`. -/
def isOWrite : Instr → Bool
  | .cadd _ _ | .caddImm _ _ | .amo _ _ _ _ _ | .amoc _ _ _ _ _ => true
  | _ => false
def givesNone : Instr → Bool
  | .amo _ _ d _ _ | .amoc _ _ d _ _ => d == 0
  | _ => false

/-- A held effect that writes bytes on path O. -/
def Held.isWrite : Held → Bool
  | .store _ _ _ | .window _ _ _ | .entry _ _ _ _ _ _ _ _ | .take _ _ _ _ _ _ => true
  | _ => false

/-- The path-O writes of a pending paired block that are still to be performed: one for each operation that its held effects are
of, and that of its operation of R69 (R155, R447). -/
def PairBlock.writes (p : PairBlock) : Nat :=
  (if p.applied then 0 else (((p.held.zip p.after.blk.heldAt).filter fun h => h.1.isWrite).map (·.2)).dedup.length)
  + bitNat (p.after.blk.eOp.any isOWrite)

/-- The counter adds of a task that a merge round holds (R253). -/
def Part.mergeAdds (p : Part) (id : Word64) : Nat :=
  match p.round with
  | some r => (r.ops.filter fun x => x.1 == id && match x.2 with
    | .add _ _ _ => true
    | _ => false).length
  | none => 0

/-- The counts of R447, log 28: values not delivered, writes not performed, copies and mills on whatever tile, M operations. -/
def State.waitCounts (s : State) : Nat × Nat × Nat × Nat :=
  let k := s.me
  let id := k.record.taskid
  let at_ := s.heldLines.filter fun h => h.ofTask k
  let pend := s.here.pairPend
  (k.locks.length + (at_.filter fun h => h.op.toNone).length + (pend.filter fun p => p.after.blk.eOp.any givesNone).length,
    at_.length + (s.parts.getD k.part {}).mergeAdds id + (pend.map PairBlock.writes).sum,
    ((s.tiles.map fun x => ((x.copyQ ++ x.copyHalted).filter fun c => c.owner == id.toNat && c.part == k.part).length)).sum
      + k.mills.length + ((s.parts.getD k.part {}).mergeCopies.filter fun c => c.1 == id).length,
    k.mq.length)

/-- A count is at or below its field; 31 is any. -/
def fieldAllows (f : BitVec 5) (n : Nat) : Bool := f == 31 || decide (n ≤ f.toNat)

/-- What surfaces at a `wait` that needs every M operation up to n: the first poison or enabled flag, with its VA
(R190, R37). Which `cr.fptrap` enables a flag R37 does not say: the model takes that of the beat on which the flags surface
(log 78). -/
def Task.firstLate (k : Task) (n : Nat) : Option (Cause × Nat) :=
  let poisons : List (Nat × Cause × Nat) := k.regs.a.filterMap fun a => match a.poison with
    | some c => if a.poisonAt != 0 && a.poisonAt ≤ n then some (a.poisonAt, c, a.poisonVa) else none
    | none => none
  let flags : List (Nat × Cause × Nat) :=
    ((k.regs.a.map fun a => a.flags).flatten ++ k.regs.bound.flags).filterMap fun f =>
      match fpTrapCause f.2 k.regs.fptrap with
      | some c => if f.1 ≤ n then some (f.1, c, 0) else none
      | none => none
  match (poisons ++ flags).insertionSort fun a b => a.1 ≤ b.1 with
  | [] => none
  | x :: _ => some x.2

def startWait (ld st cp mx : BitVec 5) (s : State) : Except Stop State :=
  match s.begin 0x09 0xFF [] [none, none, none] none with
  | .error e => .error e
  | .ok o =>
    let k := o.st.me
    let n := k.mStarted - mx.toNat
    let needs : Bool := mx != 31
    match k.mFault.filter fun f => needs && decide (f.idx ≤ n) with
    | some f => .error (.late f.cause f.addr f.va f.step none)
    | none =>
      let c := s.waitCounts
      if !(fieldAllows ld c.1 && fieldAllows st c.2.1 && fieldAllows cp c.2.2.1 && fieldAllows mx c.2.2.2) then
        .error (.hold .waitOp)
      else if !needs then .ok o.st
      else
        match k.firstLate n with
        | some (cause, va) => .error (.late cause s.cur.addr va 0 (some n))
        | none => .ok (o.st.setMe (k.surface (some n)))
/-- `wait` (R446-R448). -/
def execWait (ld st cp mx : BitVec 5) (s : State) : Host.Outcome State Fault Refusal :=
  settle s (startWait ld st cp mx s)

/-! ### `rel` (R145-R147, R395) -/

/-- The frame length of the partition's timetable. -/
def Frames.len (f : Frames) : Nat := f.table.len

/-- A slip record (R147). -/
def State.logSlip (s : State) (p : Nat) (f : Nat) (tile block ticks : Nat) (clamp : Bool) : State :=
  s.log p { cause := .slip, cls := .v, clamp := clamp, tile := some tile, bundle := block, a := ticks, b := f }

/-- Lateness charged to the frame's slip total: a slip record, and the fence where the total passes the limit
(R146, R147). -/
def State.charge (s : State) (p tile block d : Nat) : State :=
  match (s.parts.getD p {}).frames with
  | none => s
  | some f =>
    let s := s.logSlip p f.frame tile block d false
    let s := { s with parts := updAt s.parts p fun x => { x with frames := some { f with slip := f.slip + d } } }
    if f.table.limit != 0 && f.table.limit < f.slip + d then
      s.fencePart p { cause := .slip, cls := .f, tile := some tile, bundle := block, a := d, b := f.frame }
    else s

/-- Where no frame is in progress, also in a timetable partition, it issues at once and records nothing (log 75). -/
def startRel (n : BitVec 20) (s : State) : Except Stop State :=
  let k := s.me
  match s.begin 0x0A 0xFF [] [none, none, none] none with
  | .error e => .error e
  | .ok o =>
    match (s.parts.getD k.part {}).frames with
    | none => .ok o.st
    | some f =>
      let lead := s.here.gangLead.getD s.cur.tile
      if lead != s.cur.tile then .ok o.st
      else
        let again := k.blk.replay || decide (1 < k.blk.run) || k.blk.resumed == some s.cur.ord
        let target := min n.toNat (f.len - 1)
        let clamped := decide (f.len ≤ n.toNat)
        let ltick := (s.frameOf k.part).2
        let t := if clamped then o.st.logSlip k.part f.frame s.cur.tile s.cur.addr 0 true else o.st
        if again then .ok t
        else if ltick < target then .error (.hold .rel)
        else if ltick == target then .ok t
        else .ok (t.charge k.part s.cur.tile s.cur.addr (ltick - target))
/-- `rel` (R145, R146, R395): the lead tile of a gang waits for the logical tick, and lateness enters the slip
total; in a replay, a re-run or where its task resumes in the block, it issues at once. -/
def execRel (n : BitVec 20) (s : State) : Host.Outcome State Fault Refusal := settle s (startRel n s)

/-! ### Ends of a block (R349, R423, R451): they take effect at the block's order point -/

/-- The end that the E bundle's C slot holds. -/
def State.ends (s : State) (opc : Nat) (e : BlockEnd) : Except Stop State :=
  match s.begin opc 0xFF [] [none, none, none] none with
  | .error e => .error e
  | .ok o => .ok (o.st.modMe fun k => { k with blk := { k.blk with ending := e } })

def startDone (s : State) : Except Stop State := s.ends 0x0B .done
/-- `done` (R349, R350). -/
def execDone (s : State) : Host.Outcome State Fault Refusal := settle s (startDone s)

def startYield (s : State) : Except Stop State := s.ends 0x0C .yield
/-- `yield` (R451, R452). -/
def execYield (s : State) : Host.Outcome State Fault Refusal := settle s (startYield s)

def startTrap (code : BitVec 8) (s : State) : Except Stop State := s.ends 0x0D (.trap code)
/-- `trap` (R423, R424). -/
def execTrap (code : BitVec 8) (s : State) : Host.Outcome State Fault Refusal := settle s (startTrap code s)

/-! ### `brk` (R323-R325) -/

def startBrk (tag : BitVec 16) (s : State) : Except Stop State :=
  match s.begin 0x0E 0xFF [] [none, none, none] none with
  | .error e => .error e
  | .ok o => .ok (o.st.modMe fun k =>
      { k with
        stop := some (k.stop.getD (.fault .breakpoint .s s.cur.addr 0 (tag.setWidth 64)))
        stopFrom := some (k.stopFrom.getD (s.cur.beat + 1))
        stopBlk := if k.stop.isSome then k.stopBlk else some k.blk.seq })
/-- `brk` (R324): the task stops on the next beat. -/
def execBrk (tag : BitVec 16) (s : State) : Host.Outcome State Fault Refusal := settle s (startBrk tag s)

/-! ### `inj` (R180, R356, R357) -/

def startInj (slot : BitVec 6) (src : BitVec 2) (d : BitVec 8) (step : BitVec 6) (s : State) :
    Except Stop State :=
  if !s.me.testEn then .error (.fault .privileged 0)
  else
    let s := if s.me.blk.replay || 1 < s.me.blk.run then s else s.modMe fun k => { k with inj := none }
    match s.begin 0x0F 0xFF [] [none, none, none] none with
    | .error e => .error e
    | .ok o =>
      if s.me.blk.replay || 1 < s.me.blk.run then .ok o.st
      else
        let word : Word32 := 0x0F#6 ++ slot ++ src ++ d ++ 0#4 ++ step
        .ok (o.st.modMe fun k => { k with inj := some {
          slot := slot.toNat, k := src.toNat, left := d.toNat, step := step.toNat, word := word, d := d.toNat
          blk := 0 } })
/-- `inj` (R356, R357): one corrupted read is armed in place of any other; in a replay or a re-run it does nothing. -/
def execInj (slot : BitVec 6) (src : BitVec 2) (d : BitVec 8) (step : BitVec 6) (s : State) :
    Host.Outcome State Fault Refusal := settle s (startInj slot src d step s)

end Sys2Proof.Machine
end

