-- ==== Sys2Proof/Machine/Matrix.lean ====
section
/-! DEFINITION. The M slot and its engine: matrix multiply, accumulators, drains, reduction into a peer and the
chain engine (spec 09 R182-R197, R202-R208; 02 R37, R38, R41-R43; 22 R332-R337, R366-R382). -/

namespace Sys2Proof.Machine

/-! ### Starting an M operation (R182-R184) -/

/-- An M operation that enters the queue: a fault of a stopped chain surfaces first (R207), the tag lands on the
start beat (R184), and at most 16 are outstanding (R182). `body` makes the start-time checks and captures the
operands; `fetches` says that the operation reads memory, on path F. Two operations whose start delays reverse their issue order enter in
the order of their starts: the model's choice (log 84). -/
def State.startM (s : State) (opc destcode : Nat) (dests : List Reg) (srcs : List (Option Reg))
    (names fetches : Bool) (body : Opn → Except Stop (State × MWork)) : Except Stop State :=
  match s.me.mFault with
  | some f => .error (.late f.cause f.addr f.va f.step none)
  | none =>
    match (if names then s.beginT opc destcode dests srcs else s.begin opc destcode dests srcs none) with
    | .error e => .error e
    | .ok o =>
      match body o with
      | .error e => .error e
      | .ok (t, w) =>
        let k := t.me
        if Config.mqLimit ≤ k.mq.length then .error (.fault .queueOverflow 0)
        else
          let f := if fetches then k.fenceFor pathF else ([], none)
          let m : MOp := { serial := t.serial, idx := k.mStarted + 1, beat := s.cur.beat, blk := k.blk.seq, addr := s.cur.addr
                           work := w, waits := f.1, waitBlk := f.2 }
          let t := t.setMe { k with mq := k.mq ++ [m], mStarted := k.mStarted + 1 }
          .ok ({ t with serial := t.serial + 1 }.land 1 .none dests o.tag 0)

/-- Source i as an accumulator. -/
def Opn.aval (o : Opn) (i : Nat) (n : BitVec 3) : BitVec 3 :=
  match o.srcs.getD i none with
  | some (.a m) => m
  | _ => n

/-! ### `mma` -/

/-- The operand classes of R38. -/
inductive MmaClass where
  | f16 | p8 | i8 | i4
deriving DecidableEq, Repr

/-- The class of a format code (R38). -/
def mmaClass (c : BitVec 8) : Option MmaClass :=
  match formatOf c with
  | some (.float g) => if g.p3109 then some .p8 else if g.width == 16 then some .f16 else none
  | some (.int w _) => if w == 8 then some .i8 else if w == 4 then some .i4 else none
  | none => none

/-- Elements of one 192-byte K chunk (R38). -/
def MmaClass.n : MmaClass → Nat
  | .f16 => 96 | .p8 => 192 | .i8 => 192 | .i4 => 384

def startMma (a : BitVec 3) (tA tB : BitVec 10) (c : BitVec 3) (s : State) : Except Stop State :=
  let p : BitVec 6 := 16 + 2 * c.setWidth 6
  s.startM 0x01 (Reg.code (.a a)) [.a a] [some (.a a), some (.s p), some (.s (p + 1))] true true fun o =>
    let pa := o.sval 1
    let pb := o.sval 2
    match s.tensor s.me.part tA.toNat, s.tensor s.me.part tB.toNat with
    | some dA, some dB =>
      if dA.rank != 2 || dB.rank != 2 then .error (.fault .mmaShape 0)
      else if (mmaClass dA.fmt).isNone || mmaClass dA.fmt != mmaClass dB.fmt then
        .error (.fault .formatInvalid 0)
      else if pa.extractLsb' 32 32 != pb.extractLsb' 32 32 then .error (.fault .mmaShape 0)
      else .ok (o.st, .mma a (o.aval 0 a) dA dB pa pb)
    | _, _ => .error (.fault .tidInvalid 0)
/-- `mma` (R373, R374): it enters the queue with its operands captured. -/
def execMma (a : BitVec 3) (tA tB : BitVec 10) (c : BitVec 3) (s : State) : Host.Outcome State Fault Refusal :=
  settle s (startMma a tA tB c s)

/-! ### `mzero`, `mload` -/

def startMzero (a : BitVec 3) (s : State) : Except Stop State :=
  s.startM 0x02 (Reg.code (.a a)) [.a a] [none, none, none] false false fun o => .ok (o.st, .mzero a)
/-- `mzero` (R381, R382). -/
def execMzero (a : BitVec 3) (s : State) : Host.Outcome State Fault Refusal := settle s (startMzero a s)

def startMload (a : BitVec 3) (n : BitVec 6) (s : State) : Except Stop State :=
  s.startM 0x05 (Reg.code (.a a)) [.a a] [some (.s n), none, none] false true fun o =>
    if (o.sval 0).toNat % 128 != 0 then .error (.fault .align (o.sval 0).toNat)
    else .ok (o.st, .mload a (o.sval 0).toNat)
/-- `mload` (R371, R372). -/
def execMload (a : BitVec 3) (n : BitVec 6) (s : State) : Host.Outcome State Fault Refusal :=
  settle s (startMload a n s)

/-! ### `mdrain`, `mdrain.red` -/

/-- The queue with `count` more entries reserved for a format (R193). -/
def DrainQueue.reserve (q : DrainQueue) (count : Nat) (fmt : BitVec 8) : DrainQueue :=
  { q with
    reserved := q.reserved + count
    entries := (List.range count).foldl (fun es i =>
      es.set ((q.head + q.reserved + i) % 32) { data := 0, fmt := fmt, off := 0 }) q.entries }

def startMdrain (a : BitVec 3) (t : BitVec 10) (dq : BitVec 2) (s : State) : Except Stop State :=
  s.startM 0x03 (Reg.code (.dq dq)) [.dq dq] [some (.a a), none, none] true false fun o =>
    match s.tensor s.me.part t.toNat with
    | none => .error (.fault .tidInvalid 0)
    | some d =>
      let q := o.st.me.regs.drain dq
      let n := codeWidth d.fmt
      if (formatOf d.fmt).isNone then .error (.fault .formatInvalid 0)
      else if 32 - q.reserved - q.leaving < n then .error (.fault .queueOverflow 0)
      else
        .ok (o.st.modRegs fun r => r.setDrain dq ((r.drain dq).reserve n d.fmt),
          .drain (o.aval 0 a) d t.toNat dq ((q.head + q.reserved) % 32) n s.cur.round)
/-- `mdrain` (R41, R366, R367): the tensor's entry is captured with the `cr.round` of its issue, and the entries reserved. -/
def execMdrain (a : BitVec 3) (t : BitVec 10) (dq : BitVec 2) (s : State) : Host.Outcome State Fault Refusal :=
  settle s (startMdrain a t dq s)

/-- The physical tile of a peer, where R82, R196 and R368 allow it. -/
def State.peerOf (s : State) (t p peer : Nat) : Option Nat :=
  if 255 < peer then none
  else
    match s.physOf peer with
    | none => none
    | some x =>
      if computeDie (quadOf x) == computeDie (quadOf t) && s.partOf (quadOf x) == p then some x else none

def startMdrainRed (a : BitVec 3) (t : BitVec 10) (tile : BitVec 10) (aM : BitVec 3) (s : State) :
    Except Stop State :=
  s.startM 0x04 0xFF [] [some (.a a), none, none] true false fun o =>
    match s.tensor s.me.part t.toNat with
    | none => .error (.fault .tidInvalid 0)
    | some d =>
      if (s.peerOf s.cur.tile s.me.part tile.toNat).isNone then .error (.fault .peerAcc 0)
      else if s.inRound s.me then .error (.fault .mergeConflict 0)
      else .ok (o.st, .red (o.aval 0 a) (!intFmt d.fmt) tile.toNat aM false)
/-- `mdrain.red` (R196, R368). -/
def execMdrainRed (a : BitVec 3) (t : BitVec 10) (tile : BitVec 10) (aM : BitVec 3) (s : State) :
    Host.Outcome State Fault Refusal := settle s (startMdrainRed a t tile aM s)

/-! ### `chset` and the chain operations -/

/-- The write of a bond register, latency 1. -/
def State.chset (s : State) (bd : BitVec 4) (src : Option Reg) (val : Opn → BitVec 16) : Except Stop State :=
  match s.begin 0x08 (Reg.code (.bd bd)) [.bd bd] [src, none, none] none with
  | .error e => .error e
  | .ok o => .ok (o.st.land 1 (.bd bd (val o)) [.bd bd] o.tag 0)

def startChset (bd : BitVec 4) (n : BitVec 6) (s : State) : Except Stop State :=
  s.chset bd (some (.s n)) fun o => (o.sval 0).setWidth 16
/-- `chset` from a register (R336, R337). -/
def execChset (bd : BitVec 4) (n : BitVec 6) (s : State) : Host.Outcome State Fault Refusal :=
  settle s (startChset bd n s)

def startChsetImm (bd : BitVec 4) (v : BitVec 16) (s : State) : Except Stop State := s.chset bd none fun _ => v
/-- `chset` with an immediate (R336, R337). -/
def execChsetImm (bd : BitVec 4) (v : BitVec 16) (s : State) : Host.Outcome State Fault Refusal :=
  settle s (startChsetImm bd v s)

/-- A chain operation: the address aligned, the index and the bond registers captured (R332). -/
def State.chain (s : State) (opc : Nat) (n : BitVec 6) (m : Option (BitVec 6)) (single pick : Bool) :
    Except Stop State :=
  s.startM opc 0xFF [] [some (.s n), m.map Reg.s, none] false true fun o =>
    let va := (o.sval 0).toNat
    if va % 16 != 0 then .error (.fault .align va)
    else .ok (o.st, .chain va single pick (if m.isSome then o.sval 1 else 0) s.me.regs.bd 0
      (if single then some 1 else none))

def startChrun (n m : BitVec 6) (s : State) : Except Stop State := s.chain 0x09 n (some m) false false
/-- `chrun` (R332). -/
def execChrun (n m : BitVec 6) (s : State) : Host.Outcome State Fault Refusal := settle s (startChrun n m s)

def startChstep (n : BitVec 6) (s : State) : Except Stop State := s.chain 0x0A n none true false
/-- `chstep` (R332). -/
def execChstep (n : BitVec 6) (s : State) : Host.Outcome State Fault Refusal := settle s (startChstep n s)

def startChstepPick (n m : BitVec 6) (s : State) : Except Stop State := s.chain 0x0A n (some m) true true
/-- `chstep.pick` (R332). -/
def execChstepPick (n m : BitVec 6) (s : State) : Host.Outcome State Fault Refusal :=
  settle s (startChstepPick n m s)

/-! ### The engine -/

/-- The operation at the head of a tile's M queue, where the engine may run it: no chain fault has stopped it, its partition is
not fenced, and what its fences wait for is done (R182, R207, R240, R289). -/
def State.mHead (s : State) (t : Nat) : Option (Task × MOp) :=
  match (s.tile t).task with
  | none => none
  | some k =>
    match k.mq with
    | [] => none
    | m :: _ => if k.mFault.isNone && !s.fenced k.part && s.cleared m.waits m.waitBlk k then some (k, m) else none

/-- A change that an M operation makes to the registers: one of an earlier block changes the checkpoint too
(R175). -/
def Task.byOp (k : Task) (m : MOp) (f : Regs → Regs) : Task :=
  { k with regs := f k.regs, ckpt := if m.blk != k.blk.seq then k.ckpt.map f else k.ckpt }

/-- The head operation changed. -/
def Task.putHead (k : Task) (m : MOp) : Task :=
  match k.mq with
  | [] => k
  | _ :: rest => { k with mq := m :: rest }

/-- The head operation completes; the next one may begin on a cycle (R182). -/
def Task.completes (k : Task) (m : MOp) (f : Regs → Regs) (next : Nat := 0) : Task :=
  { k.byOp m f with mq := match k.mq.tail with
      | [] => []
      | x :: rest => { x with ready := next } :: rest }

/-- The task of a tile as an M operation leaves it, whose change of the registers also stands in what pending paired blocks after
its own would restore (R155, R156). -/
def State.putOp (s : State) (t : Nat) (m : MOp) (f : Regs → Regs) (k : Task) : State :=
  (s.putTask t k).modTile t fun x => x.modBefore m.blk fun y => { y with regs := f y.regs }

/-- The head operation of a tile completes (R182). -/
def State.completeOp (s : State) (t : Nat) (k : Task) (m : MOp) (f : Regs → Regs) (next : Nat := 0) : State :=
  s.putOp t m f (k.completes m f next)

/-- A stop asked for, unless one is due already. -/
def Task.asks (k : Task) (d : StopDue) : Task := { k with stop := some (k.stop.getD d) }

/-- An accumulator poisoned by an operation; an earlier poison that has not surfaced stays (R190). -/
def Acc.poisonBy (a : Acc) (m : MOp) (c : Cause) (va : Nat) : Acc :=
  if a.poison.isSome && a.poisonAt != 0 then a
  else { a with poison := some c, poisonAt := m.idx, poisonVa := va }

/-- The cause of a fetch that fails: MMA_XLATE but for an uncorrectable error (R190). -/
def fetchCause (c : Cause) : Cause := if c == .eccUncorrectable then .eccUncorrectable else .mmaXlate

/-- The elements of 64 rows of n operand elements of a block, none outside the extents (R186). -/
def Desc.operandAt (d : Desc) (row0 k0 n : Nat) : List (List (Option Nat)) :=
  (List.range 64).map fun i => (List.range n).map fun k =>
    if d.extent 1 ≤ row0 + i ∨ d.extent 0 ≤ k0 + k then none else some (d.position [k0 + k, row0 + i]).toNat

/-- Operand elements fetched, as codes with their scale offsets (R187, R188). -/
def State.fetchElems (s : State) (t part : Nat) (d : Desc) (ps : List (List (Option Nat))) :
    Except (Cause × Nat) (List (List (Option (Nat × Int)))) :=
  ps.mapM fun row => row.mapM fun p => match p with
    | none => .ok none
    | some p => match s.elemAt (tileUnit t) part (some t) d p false with
      | .error e => .error e
      | .ok x => .ok (some x)

/-- The 64 rows of operand values that a buffer holds, zero outside the extents (R187, R374). -/
def Desc.operandVals (d : Desc) (rows : List (List (Option (Nat × Int)))) : List (List Val) :=
  rows.map fun row => row.map fun x => match x with
    | some (c, off) => d.value c off
    | none => .fin false 0 0

/-- The memory lines that operand elements lie in, with whether they are memory-side. -/
def State.operandLines (s : State) (t part : Nat) (d : Desc) (ps : List (List (Option Nat))) : List (Nat × Bool) :=
  (((ps.flatten.filterMap id).map fun p => (d.base + d.byteOff p) / 128).dedup).filterMap fun u =>
    match s.access (tileUnit t) part (u * 128) .read with
    | .ok l => some (lineOf l.pa, l.ms || isCtrl l.pa)
    | .error _ => none

/-- The lines that the fetch units have pinned in an L2 slice (R188). -/
def State.slicePins (s : State) (slice : Nat × Nat) : Nat :=
  ((s.tiles.map fun x => match x.task with
    | some k => ((k.mq.filterMap fun m => m.buf.map fun u => (u.pins.filter fun l => s.sliceFor k.part l == slice).length)).sum
    | none => 0)).sum

/-- Lines read from L2 pinned, each where its slice has a pin free; the others are read without one (R188). -/
def State.pinLines (s : State) (part : Nat) (lines : List Nat) : List Nat :=
  lines.foldl (fun ps l =>
    let x := s.sliceFor part l
    if s.slicePins x + (ps.filter fun y => s.sliceFor part y == x).length < 256 then ps ++ [l] else ps) []

/-- The operands of an `mma` fetched into its buffer, and the stash lines that the fetch has used (R186-R188). -/
def State.fetchMma (s : State) (t part : Nat) (dA dB : Desc) (pa pb : Word64) (n : Nat) : MmaBuf × List Nat :=
  let k0 := (pa.extractLsb' 32 32).toNat * n
  let row (p : Word64) : Nat := (p.extractLsb' 0 32).toNat * 64
  let psA := dA.operandAt (row pa) k0 n
  let psB := dB.operandAt (row pb) k0 n
  let lines := (s.operandLines t part dA psA ++ s.operandLines t part dB psB).dedup
  let x := s.tile t
  let here (l : Nat × Bool) : Bool := !l.2 && (x.lineAt l.1).any fun y => y.hits x.clock
  let away := lines.filter fun l => !here l
  let u : MmaBuf := { resident := away.isEmpty, pins := s.pinLines part ((away.filter fun l => !l.2).map (·.1)) }
  let used := (lines.filter here).map (·.1)
  match s.fetchElems t part dA psA, s.fetchElems t part dB psB with
  | .ok as, .ok bs => ({ u with a := as, b := bs }, used)
  | .error e, _ | _, .error e => ({ u with fail := some e }, used)

/-- A value as an integer. -/
def Val.toInt : Val → Int
  | .fin n m _ => signedMant n m
  | _ => 0

/-- The accumulation of one K chunk, with the flags it raises (R37). -/
def mmaSum (float : Bool) (acc : List (BitVec 36)) (as bs : List (List Val)) : List (BitVec 36) × FpFlags :=
  let rows := acc.zipIdx.map fun (c, n) =>
    let ps := (as.getD (n / 64) []).zip (bs.getD (n % 64) [])
    if float then mmaFloat (a36.decode c.toNat) ps
    else mmaInt (intDecode 36 true c.toNat) (ps.map fun (p : Val × Val) => (p.1.toInt, p.2.toInt))
  (rows.map fun r => BitVec.ofNat 36 r.1, rows.foldl (fun g r => g ||| r.2) 0)

/-- Flags held with an accumulator until they surface. -/
def Acc.raise (a : Acc) (idx : Nat) (g : FpFlags) : Acc :=
  if g == 0#6 then a else { a with flags := a.flags ++ [(idx, g)] }

/-- An `mma` of the queue with its operands in its buffer, where it has none yet. -/
def State.fillBuf (s : State) (t i : Nat) : State :=
  match (s.tile t).task with
  | none => s
  | some k =>
    match k.mq[i]? with
    | none => s
    | some m =>
      match m.work with
      | .mma _ _ dA dB pa pb =>
        match m.buf, mmaClass dA.fmt with
        | none, some cl =>
          let (u, used) := s.fetchMma t k.part dA dB pa pb cl.n
          ((s.others (quadOf t)).putTask t { k with mq := updAt k.mq i fun m => { m with buf := some u } }).useLines t used
        | _, _ => s
      | _ => s

/-- An `mma`. -/
def MOp.isMma (m : MOp) : Bool :=
  match m.work with
  | .mma _ _ _ _ _ _ => true
  | _ => false

/-- The operands of the next queued `mma` behind the one that computes, fetched ahead where no fence holds it back (R188). -/
def State.prefetch (s : State) (t : Nat) : State :=
  match (s.tile t).task with
  | some k => match k.mq.zipIdx.tail.find? fun x => x.1.isMma with
    | some (m, i) => if s.cleared m.waits m.waitBlk k then s.fillBuf t i else s
    | none => s
  | none => s

/-- An `mma` completes: its accumulator takes the sums, or a poison where a fetch failed (R186, R187, R190, R374). -/
def Task.mmaDone (k : Task) (m : MOp) (a src : BitVec 3) (dA dB : Desc) (u : MmaBuf) (float : Bool) : Regs → Regs :=
  let old (r : Regs) : Acc := { r.acc src with flags := (r.acc a).flags }
  match u.fail with
  | some (c, va) => fun r => r.setA a (if (old r).poison.isSome then old r else (old r).poisonBy m (fetchCause c) va)
  | none =>
    let x := mmaSum float (k.regs.acc src).elems (dA.operandVals u.a) (dB.operandVals u.b)
    fun r => r.setA a (if (old r).poison.isSome then old r else { (old r).raise m.idx x.2 with elems := x.1 })

/-- The cycle on which the head operation completes, once it has come to it: on its exact cycle, or later where an operand had to
come from L2 (R107, R108). -/
def Tile.doneAt (x : Tile) (m : MOp) (n : Nat) (exact_ : Bool) : Option Nat :=
  match m.began with
  | none => none
  | some c => if exact_ then some (c + n - 1) else if c + n - 1 ≤ x.cyc then some x.cyc else none

/-- The head operation begins on a cycle (R182, R192). -/
def State.beginOp (s : State) (t : Nat) : State :=
  match (s.tile t).task with
  | some k => match k.mq with
    | m :: _ => s.putTask t (k.putHead { m with began := some (max (s.tile t).cyc m.ready) })
    | [] => s
  | none => s

/-- The engine runs an `mma` (R186-R190, R374): it begins with its operands in the buffer, those of the next one are fetched while
it computes, and it completes. -/
def State.runMma (s : State) (t : Nat) : State :=
  match s.mHead t with
  | none => s
  | some (k, m) =>
    match m.work with
    | .mma a src dA dB _ _ =>
      match mmaClass dA.fmt with
      | none => s
      | some cl =>
        if m.began.isNone then (s.fillBuf t 0).beginOp t
        else
          let u := m.buf.getD {}
          let now := s.dueOf t .run
          match (s.tile t).doneAt m mmaCycles u.resident with
          | some c =>
            if u.resident && now.isNone then s.prefetch t
            else
              match now.bind fun b => s.expired t b with
              | some f => s.hang t f
              | none =>
                let s := s.modTile t fun x => x.toBeat (now.getD x.beat)
                s.completeOp t k m (k.mmaDone m a src dA dB u (cl == .f16 || cl == .p8)) (c + 1)
          | none => s.prefetch t
    | _ => s
/-- MMA_EXECUTE. -/
def execMmaExecute (t : Nat) (s : State) : Host.Outcome State Fault Refusal := happens s (s.runMma t)

/-- The engine runs an `mzero` in its four cycles (R108, R382). -/
def State.runMzero (s : State) (t : Nat) : State :=
  match s.mHead t with
  | none => s
  | some (k, m) =>
    match m.work with
    | .mzero a =>
      match m.began, s.dueOf t .run with
      | none, _ => s.beginOp t
      | some c, some b =>
        match s.expired t b with
        | some f => s.hang t f
        | none => (s.modTile t fun x => x.toBeat b).completeOp t k m (fun r => r.setA a {}) (c + mzeroCycles)
      | _, none => s
    | _ => s
/-- MZERO_EXECUTE. -/
def execMzeroExecute (t : Nat) (s : State) : Host.Outcome State Fault Refusal := happens s (s.runMzero t)

/-- The image of an accumulator, or why it cannot be read (R372). -/
def State.accImage (s : State) (t part va : Nat) : Except (Cause × Nat) (List (BitVec 36)) :=
  match s.accessRange (tileUnit t) part va 32768 .read with
  | .error (c, a) => .error (fetchCause c, a)
  | .ok pas =>
    if pas.any fun p => p.2.c then .error (.compressedAccess, va)
    else
      match s.engBytes (tileUnit t) part (some t) va 32768 with
      | .error (c, a) => .error (fetchCause c, a)
      | .ok bs => .ok ((List.range 4096).map fun i => BitVec.ofNat 36 (byteField bs (8 * i) 8))

/-- The engine runs an `mload` (R372). -/
def State.runMload (s : State) (t : Nat) : State :=
  match s.mHead t with
  | none => s
  | some (k, m) =>
    match m.work with
    | .mload a va =>
      let s := s.others (quadOf t)
      match s.accImage t k.part va with
      | .ok es => s.completeOp t k m fun r => r.setA a { r.acc a with elems := es, poison := none, poisonAt := 0 }
      | .error (c, at_) => s.completeOp t k m fun r => r.setA a ((r.acc a).poisonBy m c at_)
    | _ => s
/-- MLOAD_EXECUTE. -/
def execMloadExecute (t : Nat) (s : State) : Host.Outcome State Fault Refusal := happens s (s.runMload t)

/-! ### Drains -/

/-- Flags together. -/
def unionFlags (fs : List (Nat × FpFlags)) : FpFlags := fs.foldl (fun g f => g ||| f.2) 0

/-- The registers once the flags of an accumulator have merged and its poison has surfaced. -/
def Task.drained (k : Task) (a : BitVec 3) (r : Regs) : Regs :=
  { r.setA a { r.acc a with flags := [], poisonAt := 0 } with fpflags := r.fpflags ||| unionFlags (k.regs.acc a).flags }

/-- The flags and the poison of an accumulator surface at a drain of it: the flags merge, those of operations of earlier blocks for
good, an enabled one traps, and a poison that has not surfaced faults; both stop the task at the next bundle boundary (R36, R37,
R175, R190). -/
def Task.drainSurfaces (k : Task) (m : MOp) (a : BitVec 3) : Task :=
  let x := k.regs.acc a
  let g := unionFlags x.flags
  let older := unionFlags (x.flags.filter fun f => decide (f.1 ≤ k.blk.mFirst))
  let y := k.byOp m (k.drained a)
  let k' := { y with ckpt := y.ckpt.map fun c => { c with fpflags := c.fpflags ||| older } }
  match x.poison with
  | some c => if x.poisonAt == 0 then k' else k'.asks (.fault c .u m.addr x.poisonVa 0)
  | none =>
    match fpTrapCause g k.regs.fptrap with
    | some c => k'.asks (.fault c .u m.addr 0 0)
    | none => k'

/-- The operations behind a drain that releases its reservation: the drains on the same queue move up (R367). -/
def Task.movedUp (k : Task) (dq : BitVec 2) (count : Nat) : List MOp :=
  k.mq.tail.map fun o => match o.work with
    | .drain a d tid q first n mode =>
      if q == dq then { o with work := .drain a d tid q ((first + 32 - count) % 32) n mode } else o
    | _ => o

/-- A drain queue without the reservation of a drain that operations stand behind. -/
def Regs.unreserve (r : Regs) (dq : BitVec 2) (count : Nat) (rest : List MOp) : Regs :=
  let q := r.drain dq
  let q := { q with reserved := q.reserved - count }
  let es := rest.foldl (fun es o => match o.work with
    | .drain _ d _ x first n _ =>
      if x == dq then (List.range n).foldl (fun es i => es.set ((first + i) % 32) { fmt := d.fmt }) es else es
    | _ => es) q.entries
  r.setDrain dq { q with entries := es }

/-- A drain's reservation released (R367). -/
def Task.releaseDrain (k : Task) (dq : BitVec 2) (count : Nat) (m : MOp) : Task :=
  let rest := k.movedUp dq count
  { k.byOp m (fun r => r.unreserve dq count rest) with mq := rest }

/-- The engine reaches an `mdrain` or an `mdrain.red` (R190, R192, R197, R367, R368). -/
def State.runMdrain (s : State) (t : Nat) : State :=
  match s.mHead t with
  | none => s
  | some (k, m) =>
    let x := s.tile t
    match m.work with
    | .drain a d tid dq _ count _ =>
      if m.began.isSome then s
      else
        let first := m.filled == 0
        let f : Regs → Regs := if first then k.drained a else id
        let k := if first then k.drainSurfaces m a else k
        if first && (k.regs.acc a).poison.isSome then
          s.putOp t m (fun r => (f r).unreserve dq count (k.movedUp dq count)) (k.releaseDrain dq count m)
        else
          let off := if first then k.regs.scaleOf tid else m.off
          s.putOp t m f (k.putHead { m with
            began := some (max x.cyc m.ready - m.filled * cyclesPerEntry d.width), off := off })
    | .red a float peer aM left =>
      if left then s
      else
        let f := k.drained a
        let k := k.drainSurfaces m a
        if (k.regs.acc a).poison.isSome then s.putOp t m f (k.completes m id)
        else
          let add : PeerAdd := { src := t, serial := m.serial, aM := aM, float := float
                                 elems := (k.regs.acc a).elems }
          match s.physOf peer with
          | some p =>
            (s.putOp t m f (k.putHead { m with work := .red a float peer aM true })).modTile p fun y =>
              { y with peerIn := y.peerIn ++ [add] }
          | none => s.putOp t m f (k.completes m id)
    | _ => s
/-- MDRAIN_EXECUTE. -/
def execMdrainExecute (t : Nat) (s : State) : Host.Outcome State Fault Refusal := happens s (s.runMdrain t)

/-- The rounding mode of a magnitude. -/
def magMode (mode : Round) (neg : Bool) : Round :=
  match mode, neg with
  | .rdn, true => .rup
  | .rup, true => .rdn
  | m, _ => m

/-- One accumulator element packed: its code, and whether it counts as an underflow or an overflow (R41,
R42). -/
def packElem (d : Desc) (mode : Round) (off : Int) (c : BitVec 36) : Nat × Bool × Bool :=
  match formatOf d.fmt with
  | some (.float g) =>
    let a := a36.decode c.toNat
    let v := a.scale (-(d.scale + off))
    let q := (roundTo g mode d.saturate v).1
    let big : Bool := match a with
      | .inf _ => true
      | .nan _ => false
      | .fin n _ _ => ((roundTo g (magMode mode n) false v.magnitude).2).getLsbD 2
    (q, !a.isNan && !a.isZero && (g.decode q).isZero, big)
  | some (.int w sg) =>
    let a := intDecode 36 true c.toNat
    match (Val.ofInt a).scale (-(d.scale + off)) with
    | .fin n m e =>
      let i := (roundToInt mode n m e).1
      let x := clampInt (intMin w sg) (intMax w sg) i
      (intEncode w x, a != 0 && x == 0, i != x)
    | _ => (0, false, false)
  | none => (0, false, false)

/-- The offset after a drain (R43). -/
def autoscaled (d : Desc) (o : Int) (unders overs : Nat) : Int :=
  if 0 < overs then min (o + 1) 31
  else if d.thresh * 64 < unders then max (o - 1) (-31)
  else o

/-- The next entry of an executing drain fills; after the last, the counts and the running offset are updated
(R192, R367). The offset that an autoscaled drain steps from is the one that it read when it began, also where a `tdef` of the
same id has set another since (R43, log 73). -/
def State.runFill (s : State) (t : Nat) : State :=
  match s.dueOf t .fill with
  | none => s
  | some b =>
    match s.expired t b with
    | some f => s.hang t f
    | none =>
    let s := s.modTile t fun x => x.toBeat b
    match s.mHead t with
    | none => s
    | some (k, m) =>
      match m.work with
      | .drain a d tid dq first count mode =>
        let n := 4096 / d.width
        let xs := (((k.regs.acc a).elems.drop (n * m.filled)).take n).map
          (packElem d ((roundOf mode).getD .rne) m.off)
        let e : DrainEntry := {
          data := BitVec.ofNat 4096 (packElems d.width (xs.map (·.1))), fmt := d.fmt, off := m.off }
        let un := m.unders + (xs.filter fun x => x.2.1).length
        let ov := m.overs + (xs.filter fun x => x.2.2).length
        let fill (r : Regs) : Regs :=
          let q := r.drain dq
          r.setDrain dq { q with filled := q.filled + 1, entries := q.entries.set ((first + m.filled) % 32) e }
        if m.filled + 1 < count then
          s.putOp t m fill ((k.byOp m fill).putHead { m with filled := m.filled + 1, unders := un, overs := ov })
        else
          s.completeOp t k m (fun r =>
            let r := { fill r with uflow := BitVec.ofNat 13 un, oflow := BitVec.ofNat 13 ov }
            if d.autoscale then r.setScale tid (autoscaled d m.off un ov) else r) ((s.tile t).cyc + 1)
      | _ => s
/-- DRAIN_ENTRY_FILL. -/
def execDrainEntryFill (t : Nat) (s : State) : Host.Outcome State Fault Refusal := happens s (s.runFill t)

/-! ### Reduction into a peer (R196, R197) -/

/-- The M engine of a tile stands between two operations: none is under way, and no drain has filled an entry (R185, R197). -/
def Task.atBoundary (k : Task) : Bool :=
  match k.mq with
  | [] => true
  | m :: _ =>
    match m.work with
    | .drain _ _ _ _ _ _ _ => m.began.isNone && m.filled == 0
    | .mma _ _ _ _ _ _ | .mzero _ => m.began.isNone
    | .chain _ _ _ _ _ next count => next == 0 && (count.isNone || count == some 1)
    | _ => true

/-- An addition is applied at a boundary between M operations (R197). -/
def State.runPeer (s : State) (t : Nat) : State :=
  match (s.tile t).task with
  | some k => if k.atBoundary then s.applyPeer t else s
  | none => s.applyPeer t
/-- PEER_ADDITION_APPLY. -/
def execPeerAdditionApply (t : Nat) (s : State) : Host.Outcome State Fault Refusal := happens s (s.runPeer t)

/-- The acknowledgement completes the `mdrain.red`; a clamp raises io in the issuing task (R196, R368). -/
def State.runAck (s : State) (t : Nat) : State :=
  match s.mHead t with
  | none => s
  | some (k, m) =>
    match m.work, k.acks.find? fun a => a.1 == m.serial with
    | .red _ _ _ _ true, some (_, io) =>
      let g := FpFlags.when io .io
      let f (r : Regs) : Regs := { r with fpflags := r.fpflags ||| g }
      let k := { k.completes m f with acks := k.acks.filter fun a => a.1 != m.serial }
      s.putOp t m f (match fpTrapCause g k.regs.fptrap with
        | some c => k.asks (.fault c .u m.addr 0 0)
        | none => k)
    | _, _ => s
/-- PEER_ACK. -/
def execPeerAck (t : Nat) (s : State) : Host.Outcome State Fault Refusal := happens s (s.runAck t)

/-! ### The chain engine (R203-R208, R333) -/

/-- The fields of a chain step (R205). -/
structure ChainStep where
  core : Nat
  left : Bool
  pick : Bool
  emit : Bool
  reshape : Nat
  reset : Bool
  shift : Nat
  width : Nat
  acc : BitVec 3
  lsel : Nat
  rsel : Nat
  msel : Nat
deriving DecidableEq, Repr

/-- The step that 16 bytes hold, none where a field breaks its limits. -/
def chainStepOf (bs : List Byte) : Option ChainStep :=
  let b (i : Nat) : Byte := bs.getD i 0
  let f := b 2
  let x : ChainStep := {
    core := byteField bs 0 2, left := f.getLsbD 0, pick := f.getLsbD 1, emit := f.getLsbD 2
    reshape := (f.extractLsb' 3 2).toNat, reset := f.getLsbD 5
    shift := (b 3).toNat, width := (b 4).toNat, acc := (b 5).setWidth 3
    lsel := (b 6).toNat % 16, rsel := (b 6).toNat / 16, msel := (b 7).toNat }
  if x.core < 1024 && decide (f.toNat < 64) && decide (x.reshape < 3) && decide (x.shift < 64)
      && decide (x.width < 16) && (!x.pick || x.width != 0) && decide ((b 5).toNat < 8) && decide (x.msel < 16)
      && zeroBytes bs 8 8 then some x
  else none

/-- 1.0 in A36. -/
def a36One : BitVec 36 := BitVec.ofNat 36 (255 * 2 ^ 26)

/-- The boundary after a reset: shape (1, 1, 1) holding 1.0. -/
def Boundary.unit (b : Boundary) : Boundary := { b with l := 1, f := 1, r := 1, elems := [a36One] }

/-- The values of a core, element (l, k, r) at index (l × m + k) × cr + r. -/
def State.coreVals (s : State) (t part : Nat) (d : Desc) : Except (Cause × Nat) (List Val) :=
  let m := d.extent 1
  let cr := d.extent 0
  (List.range (d.extent 2 * m * cr)).mapM fun n =>
    match s.elemAt (tileUnit t) part (some t) d (d.position [n % cr, n / cr % m, n / cr / m]).toNat false with
    | .error e => .error e
    | .ok (c, off) => .ok (d.value c off)

/-- The contraction of a boundary with a core whose mode is whole or picked (R206). -/
def contract (b : Boundary) (left : Bool) (cl m cr : Nat) (pick : Option Nat) (core : List Val) :
    Boundary × FpFlags :=
  let m' := if pick.isSome then 1 else m
  let at_ (l f r : Nat) : Val := a36.decode (b.elems.getD ((l * b.f + f) * b.r + r) 0).toNat
  let c (l k r : Nat) : Val := core.getD ((l * m + pick.getD k) * cr + r) (.fin false 0 0)
  let zero : Val := .fin true 0 0
  let one (n : Nat) : Nat × FpFlags :=
    if left then
      let r := n % b.r
      let x := n / b.r % (m' * b.f)
      let l := n / b.r / (m' * b.f)
      mmaFloat zero ((List.range b.l).map fun i => (c l (x / b.f) i, at_ i (x % b.f) r))
    else
      let r := n % cr
      let x := n / cr % (b.f * m')
      let l := n / cr / (b.f * m')
      mmaFloat zero ((List.range b.r).map fun i => (at_ l (x / m') i, c i (x % m') r))
  let sh : Nat × Nat × Nat := if left then (cl, m' * b.f, b.r) else (b.l, b.f * m', cr)
  let xs := (List.range (sh.1 * sh.2.1 * sh.2.2)).map one
  ({ b with l := sh.1, f := sh.2.1, r := sh.2.2, elems := xs.map fun x => BitVec.ofNat 36 x.1 },
    xs.foldl (fun g x => g ||| x.2) 0)

/-- The reshapes of R206. -/
def Boundary.reshape (b : Boundary) (n : Nat) : Boundary :=
  match n with
  | 1 => { b with f := 1, r := b.f * b.r }
  | 2 => { b with l := b.l * b.f, f := 1 }
  | _ => b

/-- One step of the chain: the boundary it leaves and the flags it raises, or why the engine stops before it
(R206, R207, R333). -/
def State.chainStep (s : State) (t part : Nat) (bs : List Byte) (single pick : Bool) (idx : Word64)
    (bds : List (BitVec 16)) (b : Boundary) : Except (Cause × Nat) (ChainStep × Boundary × FpFlags) :=
  match chainStepOf bs with
  | none => .error (.chainShape, 0)
  | some x =>
    match s.tensor part x.core with
    | none => .error (.chainShape, 0)
    | some d =>
      let bd (n : Nat) : Nat := (bds.getD n 0).toNat
      let b := if x.reset then b.unit else b
      let cl := d.extent 2
      let m := d.extent 1
      let cr := d.extent 0
      let p := (idx.toNat / 2 ^ x.shift) % 2 ^ x.width
      let m' := if x.pick then 1 else m
      let size := if x.left then cl * (m' * b.f) * b.r else b.l * (b.f * m') * cr
      if single && x.pick != pick then .error (.chainShape, 0)
      else if d.rank != 3 || intFmt d.fmt then .error (.chainShape, 0)
      else
        match s.coreVals t part d with
        | .error (c, va) => .error (fetchCause c, va)
        | .ok vs =>
          if cl != bd x.lsel || m != bd x.msel || cr != bd x.rsel then .error (.chainShape, 0)
          else if (if x.left then b.l != cr else b.r != cl) then .error (.chainShape, 0)
          else if x.pick && decide (m ≤ p) then .error (.chainShape, 0)
          else if Config.boundaryLimit < size then .error (.boundaryOverflow, 0)
          else if x.emit && decide (4096 < size) then .error (.chainShape, 0)
          else
            let y := contract b x.left cl m cr (if x.pick then some p else none) vs
            .ok (x, y.1.reshape x.reshape, y.2)

/-- The registers after a step: the boundary, and the accumulator it emits into (R206). -/
def Regs.afterStep (r : Regs) (idx : Nat) (x : ChainStep) (b : Boundary) (g : FpFlags) : Regs :=
  let fl := if g == 0#6 then r.bound.flags else r.bound.flags ++ [(idx, g)]
  if x.emit then
    { r.setA x.acc { r.acc x.acc with
        elems := (List.range 4096).map fun n => b.elems.getD n 0
        poison := none, poisonAt := 0, flags := (r.acc x.acc).flags ++ fl } with
      bound := { b with flags := [] } }
  else { r with bound := { b with flags := fl } }

/-- A chain header: the step count and the reset (R205), none where it is malformed. -/
def chainHeaderOf (bs : List Byte) : Option (Nat × Bool) :=
  let n := byteField bs 0 2
  let f := bs.getD 2 0
  if 0 < n ∧ n ≤ 256 ∧ f.toNat < 2 ∧ zeroBytes bs 3 13 then some (n, f.getLsbD 0) else none

/-- The chain engine executes the next step of the operation at the head of the queue; the first of a program
reads the header (R205-R208, R333). A fault stops the engine before the step (R207). -/
def State.runChain (s : State) (t : Nat) : State :=
  match s.mHead t with
  | none => s
  | some (k, m) =>
    match m.work with
    | .chain va single pick idx bds next count =>
      let s := s.others (quadOf t)
      let stops (k : Task) (c : Cause) (a : Nat) : State :=
        s.putTask t { k with mFault := some { cause := c, idx := m.idx, addr := m.addr, va := a, step := next } }
      let head : Except (Cause × Nat) (Nat × Bool) :=
        match count with
        | some n => .ok (n, false)
        | none =>
          match s.engBytes (tileUnit t) k.part (some t) va 16 with
          | .error (c, a) => .error (fetchCause c, a)
          | .ok bs => match chainHeaderOf bs with
            | some h => .ok h
            | none => .error (.chainShape, va)
      match head with
      | .error (c, a) => stops k c a
      | .ok (n, reset) =>
        let start (r : Regs) : Regs := if reset then { r with bound := r.bound.unit } else r
        let s := s.putOp t m start k
        let k := k.byOp m start
        let m := { m with work := .chain va single pick idx bds next (some n) }
        let k := k.putHead m
        let at_ := if single then va else va + 16 + 16 * next
        match s.engBytes (tileUnit t) k.part (some t) at_ 16 with
        | .error (c, a) => stops k (fetchCause c) a
        | .ok bs =>
          match s.chainStep t k.part bs single pick idx bds k.regs.bound with
          | .error (c, a) => stops k c a
          | .ok (x, b, g) =>
            let f (r : Regs) : Regs := r.afterStep m.idx x b g
            if next + 1 < n then
              s.putOp t m f ((k.byOp m f).putHead
                { m with work := .chain va single pick idx bds (next + 1) (some n) })
            else s.completeOp t k m f
    | _ => s
/-- CHAIN_STEP. -/
def execChainStep (t : Nat) (s : State) : Host.Outcome State Fault Refusal := happensAt t s (s.runChain t)

end Sys2Proof.Machine
end

