-- ==== Sys2Proof/Machine/Scalar.lean ====
section
/-! DEFINITION. The scalar operations (spec 23 R383-R413). -/

namespace Sys2Proof.Machine

/-! ### Shared -/

/-- What a control word's operation does once it has started and its predicate holds: the state (changed
where it pops a queue), the write and the flags. -/
abbrev Body := Opn → Hcw → Except Stop (State × Wr × FpFlags)

/-- The start of an operation of the S or V slot with given destination and sources: R59's failed predicate
writes the tag alone, at the end of the start beat. -/
def State.hcwStart (s : State) (r : HcwRow) (h : Hcw) (lat : Nat) (dst : Option Reg)
    (srcs : List (Option Reg)) (body : Body) : Except Stop State :=
  match s.begin r.opc (destcodeOf dst) dst.toList srcs h.predReg (h.predOk s.me.regs) with
  | .error e => .error e
  | .ok o =>
    if h.predOk o.st.me.regs then
      match body o h with
      | .error e => .error e
      | .ok (t, w, g) => .ok (t.land lat w dst.toList o.tag g)
    else .ok (o.st.land 1 .none dst.toList o.tag 0)

/-- A scalar operation with its register fields after rotation (R384). -/
def State.scalar (s : State) (i : Instr) (h : Hcw) (lat : Nat) (body : Body) : Except Stop State :=
  let r := Instr.hcwRow i
  s.hcwStart r h lat (h.dstReg r s.cur.rot) (h.srcRegs r s.cur.rot) body

/-- Source 2, or all 64 bits of immediate A (R384). -/
def Opn.second (o : Opn) (h : Hcw) : Word64 := if h.imm then h.immA else o.sval 1

/-- The write of a scalar result. -/
def wrS (h : Hcw) (i : Instr) (rot : BitVec 5) (v : Word64) : Wr :=
  match h.dstReg (Instr.hcwRow i) rot with
  | some (.s n) => .s n v
  | some (.q n) => .q n (v.getLsbD 0)
  | _ => .none

/-- A scalar operation whose result is a function of source 1 and source 2 (R384). -/
def State.scalar2 (s : State) (i : Instr) (h : Hcw) (lat : Nat) (f : Word64 → Word64 → Word64 × FpFlags) :
    Except Stop State :=
  s.scalar i h lat fun o h =>
    let x := f (o.sval 0) (o.second h)
    .ok (o.st, wrS h i s.cur.rot x.1, x.2)

/-- A 64-bit operand under a signed or unsigned reading. -/
def readInt (uns : Bool) (x : Word64) : Int := if uns then (x.toNat : Int) else x.toInt

/-- An exact result wrapped, or clamped with the io flag under saturation (R385). -/
def satResult (h : Hcw) (x : Int) : Word64 × FpFlags :=
  if h.sat then
    let c := clampInt (intMin 64 (!h.uns)) (intMax 64 (!h.uns)) x
    (BitVec.ofInt 64 c, FpFlags.when (c != x) .io)
  else (BitVec.ofInt 64 x, 0)

/-! ### Arithmetic (R396, R408) -/

def startSadd (h : Hcw) (s : State) : Except Stop State :=
  s.scalar2 (.sadd h) h 1 fun a b => satResult h (readInt h.uns a + readInt h.uns b)
/-- `sadd` (R396). -/
def execSadd (h : Hcw) (s : State) : Host.Outcome State Fault Refusal := settle s (startSadd h s)

def startSsub (h : Hcw) (s : State) : Except Stop State :=
  s.scalar2 (.ssub h) h 1 fun a b => satResult h (readInt h.uns a - readInt h.uns b)
/-- `ssub` (R396). -/
def execSsub (h : Hcw) (s : State) : Host.Outcome State Fault Refusal := settle s (startSsub h s)

def startSmul (h : Hcw) (s : State) : Except Stop State :=
  s.scalar2 (.smul h) h 3 fun a b => satResult h (readInt h.uns a * readInt h.uns b)
/-- `smul` (R396). -/
def execSmul (h : Hcw) (s : State) : Host.Outcome State Fault Refusal := settle s (startSmul h s)

/-- The high half of a product (R408). -/
def mulHigh (uns : Bool) (a b : Word64) : Word64 :=
  BitVec.ofInt 64 (readInt uns a * readInt uns b / 2 ^ 64)

def startSmulh (h : Hcw) (s : State) : Except Stop State :=
  s.scalar2 (.smulh h) h 3 fun a b => (mulHigh h.uns a b, 0)
/-- `smulh` (R408). -/
def execSmulh (h : Hcw) (s : State) : Host.Outcome State Fault Refusal := settle s (startSmulh h s)

def startSmulhu (h : Hcw) (s : State) : Except Stop State :=
  s.scalar2 (.smulhu h) h 3 fun a b => (mulHigh true a b, 0)
/-- `smulhu` (R408). -/
def execSmulhu (h : Hcw) (s : State) : Host.Outcome State Fault Refusal := settle s (startSmulhu h s)

/-! ### Bitwise operations (R397) -/

def startSand (h : Hcw) (s : State) : Except Stop State := s.scalar2 (.sand h) h 1 fun a b => (a &&& b, 0)
/-- `sand` (R397). -/
def execSand (h : Hcw) (s : State) : Host.Outcome State Fault Refusal := settle s (startSand h s)

def startSor (h : Hcw) (s : State) : Except Stop State := s.scalar2 (.sor h) h 1 fun a b => (a ||| b, 0)
/-- `sor` (R397). -/
def execSor (h : Hcw) (s : State) : Host.Outcome State Fault Refusal := settle s (startSor h s)

def startSxor (h : Hcw) (s : State) : Except Stop State := s.scalar2 (.sxor h) h 1 fun a b => (a ^^^ b, 0)
/-- `sxor` (R397). -/
def execSxor (h : Hcw) (s : State) : Host.Outcome State Fault Refusal := settle s (startSxor h s)

def startSandn (h : Hcw) (s : State) : Except Stop State :=
  s.scalar2 (.sandn h) h 1 fun a b => (a &&& ~~~b, 0)
/-- `sandn` (R397). -/
def execSandn (h : Hcw) (s : State) : Host.Outcome State Fault Refusal := settle s (startSandn h s)

/-! ### Shifts (R412) -/

/-- `sshl`: the exact a × 2^n wrapped or clamped; n of 64 or more leaves no bit of a wrapped result, and
under saturation clamps every a but 0 (R412). -/
def shiftLeftResult (h : Hcw) (a b : Word64) : Word64 × FpFlags :=
  if b.toNat < 64 then satResult h (readInt h.uns a * 2 ^ b.toNat)
  else if !h.sat || a == 0 then (0, 0)
  else satResult h (readInt h.uns a * 2 ^ 64)

def startSshl (h : Hcw) (s : State) : Except Stop State := s.scalar2 (.sshl h) h 1 (shiftLeftResult h)
/-- `sshl` (R412). -/
def execSshl (h : Hcw) (s : State) : Host.Outcome State Fault Refusal := settle s (startSshl h s)

/-- ⌊a / 2^n⌋ under a reading; from 64 on it is 0 or −1 (R412). -/
def shiftRightInt (uns : Bool) (a b : Word64) : Word64 :=
  BitVec.ofInt 64 (readInt uns a / 2 ^ (min b.toNat 64))

def startSshr (h : Hcw) (s : State) : Except Stop State :=
  s.scalar2 (.sshr h) h 1 fun a b => (shiftRightInt true a b, 0)
/-- `sshr` (R412). -/
def execSshr (h : Hcw) (s : State) : Host.Outcome State Fault Refusal := settle s (startSshr h s)

def startSsar (h : Hcw) (s : State) : Except Stop State :=
  s.scalar2 (.ssar h) h 1 fun a b => (shiftRightInt h.uns a b, 0)
/-- `ssar` (R412). -/
def execSsar (h : Hcw) (s : State) : Host.Outcome State Fault Refusal := settle s (startSsar h s)

/-! ### Minimum and maximum (R407) -/

/-- The smaller or larger of two values under a reading. -/
def pickInt (uns wantMax : Bool) (a b : Word64) : Word64 :=
  if decide (readInt uns a < readInt uns b) != wantMax then a else b

def startSmin (h : Hcw) (s : State) : Except Stop State :=
  s.scalar2 (.smin h) h 1 fun a b => (pickInt h.uns false a b, 0)
/-- `smin` (R407). -/
def execSmin (h : Hcw) (s : State) : Host.Outcome State Fault Refusal := settle s (startSmin h s)

def startSmax (h : Hcw) (s : State) : Except Stop State :=
  s.scalar2 (.smax h) h 1 fun a b => (pickInt h.uns true a b, 0)
/-- `smax` (R407). -/
def execSmax (h : Hcw) (s : State) : Host.Outcome State Fault Refusal := settle s (startSmax h s)

def startSminu (h : Hcw) (s : State) : Except Stop State :=
  s.scalar2 (.sminu h) h 1 fun a b => (pickInt true false a b, 0)
/-- `sminu` (R407). -/
def execSminu (h : Hcw) (s : State) : Host.Outcome State Fault Refusal := settle s (startSminu h s)

def startSmaxu (h : Hcw) (s : State) : Except Stop State :=
  s.scalar2 (.smaxu h) h 1 fun a b => (pickInt true true a b, 0)
/-- `smaxu` (R407). -/
def execSmaxu (h : Hcw) (s : State) : Host.Outcome State Fault Refusal := settle s (startSmaxu h s)

/-! ### Bit counts (R398) -/

/-- Zero bits above the highest 1; 64 for zero. -/
def countLeading (a : Word64) : Nat := if a == 0 then 64 else 63 - Nat.log2 a.toNat

/-- Zero bits below the lowest 1; 64 for zero. -/
def countTrailing (a : Word64) : Nat := ((List.range 64).find? fun i => a.getLsbD i).getD 64

/-- The number of 1 bits. -/
def popCount (a : Word64) : Nat := ((List.range 64).filter fun i => a.getLsbD i).length

def startSclz (h : Hcw) (s : State) : Except Stop State :=
  s.scalar2 (.sclz h) h 1 fun a _ => (BitVec.ofNat 64 (countLeading a), 0)
/-- `sclz` (R398). -/
def execSclz (h : Hcw) (s : State) : Host.Outcome State Fault Refusal := settle s (startSclz h s)

def startSctz (h : Hcw) (s : State) : Except Stop State :=
  s.scalar2 (.sctz h) h 1 fun a _ => (BitVec.ofNat 64 (countTrailing a), 0)
/-- `sctz` (R398). -/
def execSctz (h : Hcw) (s : State) : Host.Outcome State Fault Refusal := settle s (startSctz h s)

def startSpopc (h : Hcw) (s : State) : Except Stop State :=
  s.scalar2 (.spopc h) h 1 fun a _ => (BitVec.ofNat 64 (popCount a), 0)
/-- `spopc` (R398). -/
def execSpopc (h : Hcw) (s : State) : Host.Outcome State Fault Refusal := settle s (startSpopc h s)

/-! ### Selection and moves (R400, R405, R413) -/

def startSsel (h : Hcw) (s : State) : Except Stop State :=
  s.scalar (.ssel h) h 1 fun o h =>
    .ok (o.st, wrS h (.ssel h) s.cur.rot (if o.qval 2 then o.sval 0 else o.second h), 0)
/-- `ssel` (R413). -/
def execSsel (h : Hcw) (s : State) : Host.Outcome State Fault Refusal := settle s (startSsel h s)

def startSli (h : Hcw) (s : State) : Except Stop State :=
  s.scalar2 (.sli h) h 1 fun _ _ => (h.immA, 0)
/-- `sli` (R405). -/
def execSli (h : Hcw) (s : State) : Host.Outcome State Fault Refusal := settle s (startSli h s)

def startSmov (h : Hcw) (s : State) : Except Stop State := s.scalar2 (.smov h) h 1 fun a _ => (a, 0)
/-- `smov` (R405). -/
def execSmov (h : Hcw) (s : State) : Host.Outcome State Fault Refusal := settle s (startSmov h s)

/-- The low w bits sign-extended; the value unchanged for a width outside 1-64 (R400). -/
def signExtend (a w : Word64) : Word64 :=
  if 1 ≤ w.toNat ∧ w.toNat ≤ 64 then BitVec.ofInt 64 (intDecode w.toNat true (a.toNat % 2 ^ w.toNat)) else a

def startSext (h : Hcw) (s : State) : Except Stop State :=
  s.scalar2 (.sext h) h 1 fun a b => (signExtend a b, 0)
/-- `sext` (R400). -/
def execSext (h : Hcw) (s : State) : Host.Outcome State Fault Refusal := settle s (startSext h s)

/-! ### Conditions (R399, R411) -/

/-- The condition that source 3 of `scmp` or `vcmp` encodes (R86). -/
def Hcw.condOf (h : Hcw) : Cond := (decodeCond h.src3.toNat).getD .eq

/-- A truth value as a word. -/
def boolWord (b : Bool) : Word64 := if b then 1 else 0

def startScmp (h : Hcw) (s : State) : Except Stop State :=
  s.scalar2 (.scmp h) h 1 fun a b => (boolWord (intCond (Hcw.condOf h) 64 a.toNat b.toNat), 0)
/-- `scmp` (R399). -/
def execScmp (h : Hcw) (s : State) : Host.Outcome State Fault Refusal := settle s (startScmp h s)

def startSqop (h : Hcw) (s : State) : Except Stop State :=
  s.scalar (.sqop h) h 1 fun o h =>
    let i := (if o.qval 0 then 2 else 0) + if o.qval 1 then 1 else 0
    .ok (o.st, wrS h (.sqop h) s.cur.rot (boolWord (h.src3.getLsbD i)), 0)
/-- `sqop` (R411). -/
def execSqop (h : Hcw) (s : State) : Host.Outcome State Fault Refusal := settle s (startSqop h s)

/-! ### Control registers and loop count (R402-R404, R406) -/

def startSgetc (h : Hcw) (s : State) : Except Stop State :=
  s.scalar (.sgetc h) h 2 fun o h =>
    .ok (o.st, wrS h (.sgetc h) s.cur.rot
      (s.creg s.cur.tile s.me s.cur.idx (h.immA.extractLsb' 0 8).toNat), 0)
/-- `sgetc` (R402, R403). -/
def execSgetc (h : Hcw) (s : State) : Host.Outcome State Fault Refusal := settle s (startSgetc h s)

/-- The geometry and enable that a ring value carries. -/
def Ring.ofValue (v : Word64) : Ring :=
  { lslot := v.extractLsb' 40 5, lcount := v.extractLsb' 37 3, en := v.getLsbD 32, base := v.extractLsb' 7 13 }

/-- The same configuration. -/
def Ring.sameCfg (a b : Ring) : Bool :=
  a.lslot == b.lslot && a.lcount == b.lcount && a.en == b.en && a.base == b.base

/-- The rings as the block's own earlier ring writes will leave them (R404). -/
def Task.ringsAhead (k : Task) : List Ring :=
  k.blk.held.foldl (fun rs e => match e with
    | .ringCfg n v => updAt rs n fun r => r.configure v
    | _ => rs) k.regs.rings

/-- The checks of R215 on a write of ring n. -/
def ringWriteOk (rs : List Ring) (n : Nat) (v : Word64) : Bool :=
  let old := rs.getD n {}
  let new := Ring.ofValue v
  let fits (r : Ring) : Bool := decide (7 ≤ r.lslot.toNat) && decide (r.lslot.toNat ≤ 16) && r.lcount != 0
    && decide (0x40000 ≤ r.area.1) && decide (r.area.1 + r.area.2 ≤ 0xC0000)
  let apart (a b : Ring) : Bool := decide (a.area.1 + a.area.2 ≤ b.area.1) || decide (b.area.1 + b.area.2 ≤ a.area.1)
  if old.sameCfg new then true
  else
    !(old.millP || old.millC)
    && !(old.en && new.en)
    && (!new.en || (fits new && rs.zipIdx.all fun (r, i) => i == n || !r.en || apart r new))

def startSsetc (h : Hcw) (s : State) : Except Stop State :=
  let n := (h.immA.extractLsb' 0 8).toNat
  if n == 0x19 || n == 0x1B then .error (.fault .privileged 0)
  else
    s.scalar (.ssetc h) h 1 fun o _ =>
      let v := o.sval 0
      if 0x10 ≤ n ∧ n ≤ 0x17 then
        let k := o.st.me
        if !ringWriteOk k.ringsAhead (n - 0x10) v then .error (.fault .ringConfig 0)
        else if (k.ringsAhead.getD (n - 0x10) {}).sameCfg (Ring.ofValue v) then .ok (o.st, .none, 0)
        else .ok (o.st.hold_ (.ringCfg (n - 0x10) v), .none, 0)
      else .ok (o.st, .creg n v, 0)
/-- `ssetc` (R402-R404): a ring register's write is checked now and held to the commit; `cr.test` and
`cr.wcwait` are privileged. -/
def execSsetc (h : Hcw) (s : State) : Host.Outcome State Fault Refusal := settle s (startSsetc h s)

/-- The remaining count of the active loop, the pass in progress included (R406). -/
def Task.loopCount (k : Task) : Nat :=
  match k.regs.loop with
  | some l => l.count
  | none => 0

def startSlget (h : Hcw) (s : State) : Except Stop State :=
  s.scalar2 (.slget h) h 1 fun _ _ => (BitVec.ofNat 64 s.me.loopCount, 0)
/-- `slget` (R406). -/
def execSlget (h : Hcw) (s : State) : Host.Outcome State Fault Refusal := settle s (startSlget h s)

end Sys2Proof.Machine
end

