-- ==== Sys2Proof/Machine/Vector.lean ====
section
/-! DEFINITION. The vector and mask operations (spec 22 R369, R370; 24 R425-R437, R440-R445). -/

namespace Sys2Proof.Machine

/-! ### Shared -/

/-- The effective format and the rows and columns of an operation on the elements of a width that the
format and a second width set (R61, R426, R435). -/
def State.vview (s : State) (h : Hcw) (other : Nat) : Option (Format × Nat × Nat) :=
  match formatOf (s.me.fmtCode h) with
  | none => none
  | some f =>
    let sh := s.me.shapeOf h
    if shapeOk sh.1 sh.2 (max f.width other) then some (f, 2 ^ sh.1, 2 ^ sh.2) else none

/-- What a vector operation does on a view: its sources, the format, and the rows and columns give the
elements of the result with their flags. -/
abbrev VBody := Opn → Format → Nat → Nat → Except Stop (List (Nat × FpFlags))

/-- The write of elements of width w under the issuing position's mask (R427). -/
def wrV (dst : Option Reg) (m : MaskEntry) (w : Nat) (xs : List (Nat × FpFlags)) : Wr :=
  match dst with
  | some (.v n) => .v n (BitVec.ofNat 4096 (packElems w (xs.map (·.1)))) (activeBits m w xs.length)
  | _ => .none

/-- The top of the issuing position's mask stack on the start beat (R159). -/
def State.myMask (s : State) : MaskEntry := s.me.regs.top (maskUnitOf s.cur.slot)

/-- A vector operation on a view with given sources (R426, R427): `ok` says which formats it takes, `other`
a second element width. An immediate with bits above the element width is OPCODE_UNDEFINED (R94). -/
def State.vectorOn (s : State) (i : Instr) (h : Hcw) (lat other : Nat) (ok : Format → Bool)
    (srcs : List (Option Reg)) (body : VBody) : Except Stop State :=
  let r := Instr.hcwRow i
  let wide : Bool := match formatOf (s.me.fmtCode h) with
    | some f => h.imm && r.src2 == .v && !immFits f.width h.immA
    | none => false
  match s.vview h other with
  | none => .error (.fault (if wide then .opcodeUndefined else .formatInvalid) 0)
  | some (f, rows, cols) =>
    if wide then .error (.fault .opcodeUndefined 0)
    else if !ok f || (h.uns && f.isFloat) then .error (.fault .formatInvalid 0)
    else
      let dst := h.dstReg r s.cur.rot
      s.hcwStart r h lat dst srcs fun o _ =>
        match body o f rows cols with
        | .error e => .error e
        | .ok xs => .ok (o.st, wrV dst s.myMask f.width xs, laneFlags s.myMask f.width xs)

/-- A vector operation with the sources of its fields. -/
def State.vector (s : State) (i : Instr) (h : Hcw) (lat : Nat) (ok : Format → Bool) (body : VBody) :
    Except Stop State :=
  s.vectorOn i h lat 0 ok (h.srcRegs (Instr.hcwRow i) s.cur.rot) body

/-- Source 2, or the replicated immediate A (R94). -/
def Opn.vsecond (o : Opn) (h : Hcw) (w n : Nat) : Vec512 :=
  if h.imm then replicate w n h.immA else o.vval 1

/-- Any valid format. -/
def anyFormat : Format → Bool := fun _ => true

/-- An operation on the elements of source 1 alone. -/
def State.vector1 (s : State) (i : Instr) (h : Hcw) (lat : Nat) (ok : Format → Bool)
    (f : Format → Nat → Nat × FpFlags) : Except Stop State :=
  s.vector i h lat ok fun o t rows cols => .ok ((elems (o.vval 0) t.width (rows * cols)).map (f t))

/-- An operation on the elements of source 1 and source 2. -/
def State.vector2 (s : State) (i : Instr) (h : Hcw) (lat : Nat) (ok : Format → Bool)
    (f : Format → Nat → Nat → Nat × FpFlags) : Except Stop State :=
  s.vector i h lat ok fun o t rows cols =>
    let n := rows * cols
    .ok (List.zipWith (f t) (elems (o.vval 0) t.width n) (elems (o.vsecond h t.width n) t.width n))

/-- An operation on the elements of three sources. -/
def State.vector3 (s : State) (i : Instr) (h : Hcw) (lat : Nat) (ok : Format → Bool)
    (f : Format → Nat → Nat → Nat → Nat × FpFlags) : Except Stop State :=
  s.vector i h lat ok fun o t rows cols =>
    let n := rows * cols
    let w := t.width
    .ok (((elems (o.vval 0) w n).zip ((elems (o.vval 1) w n).zip (elems (o.vval 2) w n))).map
      fun (a, b, c) => f t a b c)

/-- The reading of an integer element (R426). -/
def readElem (w : Nat) (signed uns : Bool) (c : Nat) : Int := intDecode w (signed && !uns) c

/-- An exact integer result wrapped, or clamped to the reading's range with io (R32, R426). -/
def intResult (w : Nat) (signed sat : Bool) (v : Int) : Nat × FpFlags :=
  if sat then
    let c := clampInt (intMin w signed) (intMax w signed) v
    (intEncode w c, FpFlags.when (c != v) .io)
  else (intEncode w v, 0)

/-! ### Arithmetic (R430, R436) -/

/-- One element of `vadd`, `vsub` and `vmul`: the floating operation on values, the integer one on exact
integers (R430). -/
def arith (h : Hcw) (ff : FloatFmt → Val → Val → Nat × FpFlags) (fi : Int → Int → Int)
    (t : Format) (a b : Nat) : Nat × FpFlags :=
  match t with
  | .float g => ff g (g.decode a) (g.decode b)
  | .int w sg => intResult w (sg && !h.uns) h.sat (fi (readElem w sg h.uns a) (readElem w sg h.uns b))

def startVadd (h : Hcw) (s : State) : Except Stop State :=
  let m := s.me.mode h
  s.vector2 (.vadd h) h 2 anyFormat (arith h (fun g x y => floatAdd g m h.sat x y) (· + ·))
/-- `vadd` (R430). -/
def execVadd (h : Hcw) (s : State) : Host.Outcome State Fault Refusal := settle s (startVadd h s)

def startVsub (h : Hcw) (s : State) : Except Stop State :=
  let m := s.me.mode h
  s.vector2 (.vsub h) h 2 anyFormat (arith h (fun g x y => floatAdd g m h.sat x y.negate) (· - ·))
/-- `vsub` (R430). -/
def execVsub (h : Hcw) (s : State) : Host.Outcome State Fault Refusal := settle s (startVsub h s)

def startVmul (h : Hcw) (s : State) : Except Stop State :=
  let m := s.me.mode h
  s.vector2 (.vmul h) h 4 anyFormat (arith h (fun g x y => floatMul g m h.sat x y) (· * ·))
/-- `vmul` (R430). -/
def execVmul (h : Hcw) (s : State) : Host.Outcome State Fault Refusal := settle s (startVmul h s)

/-- One element of `vfma` (`sub` false) or `vfms` (R436). -/
def fmaElem (m : Round) (sat sub : Bool) (t : Format) (a b c : Nat) : Nat × FpFlags :=
  match t with
  | .float g =>
    floatFma g m sat (g.decode a) (g.decode b) (if sub then (g.decode c).negate else g.decode c)
  | .int w sg =>
    let z := intDecode w sg c
    intResult w sg sat (intDecode w sg a * intDecode w sg b + if sub then -z else z)

def startVfma (h : Hcw) (s : State) : Except Stop State :=
  s.vector3 (.vfma h) h 4 anyFormat (fmaElem (s.me.mode h) h.sat false)
/-- `vfma` (R436). -/
def execVfma (h : Hcw) (s : State) : Host.Outcome State Fault Refusal := settle s (startVfma h s)

def startVfms (h : Hcw) (s : State) : Except Stop State :=
  s.vector3 (.vfms h) h 4 anyFormat (fmaElem (s.me.mode h) h.sat true)
/-- `vfms` (R436). -/
def execVfms (h : Hcw) (s : State) : Host.Outcome State Fault Refusal := settle s (startVfms h s)

/-! ### Minimum and maximum (R33, R442) -/

/-- One element of the four operations. -/
def minMaxElem (h : Hcw) (wantMax num : Bool) (t : Format) (a b : Nat) : Nat × FpFlags :=
  match t with
  | .float g => floatMinMax g wantMax num a b
  | .int w sg => (intMinMax w (sg && !h.uns) wantMax a b, 0)

def startVmin (h : Hcw) (s : State) : Except Stop State :=
  s.vector2 (.vmin h) h 2 anyFormat (minMaxElem h false false)
/-- `vmin` (R442). -/
def execVmin (h : Hcw) (s : State) : Host.Outcome State Fault Refusal := settle s (startVmin h s)

def startVmax (h : Hcw) (s : State) : Except Stop State :=
  s.vector2 (.vmax h) h 2 anyFormat (minMaxElem h true false)
/-- `vmax` (R442). -/
def execVmax (h : Hcw) (s : State) : Host.Outcome State Fault Refusal := settle s (startVmax h s)

def startVminn (h : Hcw) (s : State) : Except Stop State :=
  s.vector2 (.vminn h) h 2 anyFormat (minMaxElem h false true)
/-- `vminn` (R442). -/
def execVminn (h : Hcw) (s : State) : Host.Outcome State Fault Refusal := settle s (startVminn h s)

def startVmaxn (h : Hcw) (s : State) : Except Stop State :=
  s.vector2 (.vmaxn h) h 2 anyFormat (minMaxElem h true true)
/-- `vmaxn` (R442). -/
def execVmaxn (h : Hcw) (s : State) : Host.Outcome State Fault Refusal := settle s (startVmaxn h s)

/-! ### Sign operations (R429) -/

/-- One element of `vabs`. -/
def absElem (sat : Bool) (t : Format) (a : Nat) : Nat × FpFlags :=
  match t with
  | .float g =>
    let x := g.decode a
    if x.isNan then (g.nanCode, FpFlags.when x.isSnan .nv)
    else (if g.signed then a % 2 ^ (g.ebits + g.fbits) else a, 0)
  | .int w sg => if sg then intResult w true sat (intDecode w true a).natAbs else (a, 0)

/-- One element of `vneg`. -/
def negElem (sat : Bool) (t : Format) (a : Nat) : Nat × FpFlags :=
  match t with
  | .float g =>
    let x := g.decode a
    if x.isNan then (g.nanCode, FpFlags.when x.isSnan .nv)
    else if g.signed then
      (if g.p3109 && a == 0 then 0 else a ^^^ 2 ^ (g.ebits + g.fbits), 0)
    else if a == 0 then (0, 0)
    else if sat then (0, .nx) else (g.nanCode, .nv)
  | .int w sg => intResult w sg sat (-(intDecode w sg a))

def startVabs (h : Hcw) (s : State) : Except Stop State :=
  s.vector1 (.vabs h) h 2 anyFormat (absElem h.sat)
/-- `vabs` (R429). -/
def execVabs (h : Hcw) (s : State) : Host.Outcome State Fault Refusal := settle s (startVabs h s)

def startVneg (h : Hcw) (s : State) : Except Stop State :=
  s.vector1 (.vneg h) h 2 anyFormat (negElem h.sat)
/-- `vneg` (R429). -/
def execVneg (h : Hcw) (s : State) : Host.Outcome State Fault Refusal := settle s (startVneg h s)

/-! ### Conversion (R31, R435) -/

def startVcvt (h : Hcw) (s : State) : Except Stop State :=
  match formatOf (h.immA.extractLsb' 0 8) with
  | none => .error (.fault .formatInvalid 0)
  | some src =>
    let m := s.me.mode h
    s.vectorOn (.vcvt h) h 3 src.width anyFormat (h.srcRegs (Instr.hcwRow (.vcvt h)) s.cur.rot)
      fun o t rows cols =>
        .ok ((elems (o.vval 0) src.width (rows * cols)).map (convert src t m h.sat))
/-- `vcvt` (R435): the shape fits the wider of the two formats. -/
def execVcvt (h : Hcw) (s : State) : Host.Outcome State Fault Refusal := settle s (startVcvt h s)

/-! ### Bitwise operations (R431) -/

def startVand (h : Hcw) (s : State) : Except Stop State :=
  s.vector2 (.vand h) h 2 anyFormat fun _ a b => (a &&& b, 0)
/-- `vand` (R431). -/
def execVand (h : Hcw) (s : State) : Host.Outcome State Fault Refusal := settle s (startVand h s)

def startVor (h : Hcw) (s : State) : Except Stop State :=
  s.vector2 (.vor h) h 2 anyFormat fun _ a b => (a ||| b, 0)
/-- `vor` (R431). -/
def execVor (h : Hcw) (s : State) : Host.Outcome State Fault Refusal := settle s (startVor h s)

def startVxor (h : Hcw) (s : State) : Except Stop State :=
  s.vector2 (.vxor h) h 2 anyFormat fun _ a b => (a ^^^ b, 0)
/-- `vxor` (R431). -/
def execVxor (h : Hcw) (s : State) : Host.Outcome State Fault Refusal := settle s (startVxor h s)

/-! ### Shifts (R445) -/

/-- An integer format. -/
def intFormat : Format → Bool := fun t => !t.isFloat

/-- One element of `vshl`. -/
def shlElem (h : Hcw) (t : Format) (a c : Nat) : Nat × FpFlags :=
  match t with
  | .float _ => (0, 0)
  | .int w sg => intResult w (sg && !h.uns) h.sat (readElem w sg h.uns a * 2 ^ (min c w))

/-- One element of `vshr` (`signed` false) or `vsar`. -/
def shrElem (signed : Bool) (t : Format) (a c : Nat) : Nat × FpFlags :=
  (intEncode t.width (intDecode t.width signed a / 2 ^ (min c t.width)), 0)

def startVshl (h : Hcw) (s : State) : Except Stop State := s.vector2 (.vshl h) h 2 intFormat (shlElem h)
/-- `vshl` (R445). -/
def execVshl (h : Hcw) (s : State) : Host.Outcome State Fault Refusal := settle s (startVshl h s)

def startVshr (h : Hcw) (s : State) : Except Stop State :=
  s.vector2 (.vshr h) h 2 intFormat (shrElem false)
/-- `vshr` (R445). -/
def execVshr (h : Hcw) (s : State) : Host.Outcome State Fault Refusal := settle s (startVshr h s)

def startVsar (h : Hcw) (s : State) : Except Stop State :=
  s.vector2 (.vsar h) h 2 intFormat (shrElem true)
/-- `vsar` (R445). -/
def execVsar (h : Hcw) (s : State) : Host.Outcome State Fault Refusal := settle s (startVsar h s)

/-! ### Comparison and selection (R433, R434) -/

/-- A condition on integer elements: lt and ge take the format's reading (R433). -/
def intCondOf (c : Cond) (signed : Bool) : Cond :=
  match c with
  | .lt => if signed then .lt else .ltu
  | .ge => if signed then .ge else .geu
  | x => x

/-- The invalid flag of a floating comparison (R433). -/
def condFlags (c : Cond) (x y : Val) : FpFlags :=
  match c with
  | .eq | .ne => FpFlags.when (x.isSnan || y.isSnan) .nv
  | _ => FpFlags.when (x.isNan || y.isNan) .nv

/-- One element of `vcmp`. -/
def cmpElem (c : Cond) (t : Format) (a b : Nat) : Nat × FpFlags :=
  let ones (r : Bool) : Nat := if r then 2 ^ t.width - 1 else 0
  match t with
  | .float g => (ones (floatCond c (g.decode a) (g.decode b)), condFlags c (g.decode a) (g.decode b))
  | .int w sg => (ones (intCond (intCondOf c sg) w a b), 0)

def startVcmp (h : Hcw) (s : State) : Except Stop State :=
  let c := Hcw.condOf h
  s.vector2 (.vcmp h) h 2 (fun t => !(t.isFloat && (c == .ltu || c == .geu))) (cmpElem c)
/-- `vcmp` (R433). -/
def execVcmp (h : Hcw) (s : State) : Host.Outcome State Fault Refusal := settle s (startVcmp h s)

def startVsel (h : Hcw) (s : State) : Except Stop State :=
  s.vector3 (.vsel h) h 2 anyFormat fun _ a b c => (if c != 0 then a else b, 0)
/-- `vsel` (R434). -/
def execVsel (h : Hcw) (s : State) : Host.Outcome State Fault Refusal := settle s (startVsel h s)

/-! ### Mask operations (R159, R369, R370) -/

/-- The entry that `mpush` pushes: the bytes of the elements that are not zero, under the old top. -/
def pushEntry (v : Vec512) (w n : Nat) (old : MaskEntry) : MaskEntry :=
  old &&& BitVec.ofNat 512 ((elems v w n).zipIdx.foldl (fun m (x, i) =>
    if x != 0 then m ||| ((2 ^ ((w + 7) / 8) - 1) * 2 ^ (w * i / 8)) else m) 0)

/-- The start of a mask operation on the stack of its position, with its lineage (R370). -/
def State.maskOp (s : State) (i : Instr) (h : Hcw) (srcs : List (Option Reg))
    (body : Opn → MaskUnit → Except Stop Wr) : Except Stop State :=
  let u := maskUnitOf s.cur.slot
  s.hcwStart (Instr.hcwRow i) h 2 (some (.mask u)) srcs fun o _ =>
    match body o u with
    | .error e => .error e
    | .ok w => .ok (o.st, w, 0)

/-- Source i as a mask stack (R180). -/
def Opn.stackval (o : Opn) (i : Nat) (u : MaskUnit) : List MaskEntry :=
  match o.srcs.getD i none with
  | some (.mask w) => o.st.me.regs.stack w
  | _ => o.st.me.regs.stack u

def startMpush (h : Hcw) (s : State) : Except Stop State :=
  match s.vview h 0 with
  | none => .error (.fault .formatInvalid 0)
  | some (t, rows, cols) =>
    s.maskOp (.mpush h) h
      [(h.srcRegs (Instr.hcwRow (.mpush h)) s.cur.rot).getD 0 none, some (.mask (maskUnitOf s.cur.slot)), none]
      fun o u =>
        if 16 ≤ (s.me.regs.stack u).length then .error (.fault .maskStack 0)
        else .ok (.maskPush u (pushEntry (o.vval 0) t.width (rows * cols) ((o.stackval 1 u).headD (BitVec.allOnes 512))))
/-- `mpush` (R370). -/
def execMpush (h : Hcw) (s : State) : Host.Outcome State Fault Refusal := settle s (startMpush h s)

def startMinv (h : Hcw) (s : State) : Except Stop State :=
  s.maskOp (.minv h) h [some (.mask (maskUnitOf s.cur.slot)), none, none] fun o u =>
    if (s.me.regs.stack u).isEmpty then .error (.fault .maskStack 0)
    else
      let st := o.stackval 0 u
      .ok (.maskTop u (st.tail.headD (BitVec.allOnes 512) &&& ~~~st.headD (BitVec.allOnes 512)))
/-- `minv` (R370). -/
def execMinv (h : Hcw) (s : State) : Host.Outcome State Fault Refusal := settle s (startMinv h s)

def startMpop (h : Hcw) (s : State) : Except Stop State :=
  s.maskOp (.mpop h) h [some (.mask (maskUnitOf s.cur.slot)), none, none] fun _ u =>
    if (s.me.regs.stack u).isEmpty then .error (.fault .maskStack 0) else .ok (.maskPop u)
/-- `mpop` (R370). -/
def execMpop (h : Hcw) (s : State) : Host.Outcome State Fault Refusal := settle s (startMpop h s)

/-! ### Reductions (R39, R444) -/

/-- A node of the tree: a child that is absent passes the other up (R39). -/
def reduceNode (f : Nat → Nat → Nat × FpFlags) (x y : Option Nat × FpFlags) : Option Nat × FpFlags :=
  match x.1, y.1 with
  | some a, some b => let r := f a b; (some r.1, x.2 ||| y.2 ||| r.2)
  | some a, none => (some a, x.2 ||| y.2)
  | none, b => (b, x.2 ||| y.2)

/-- The pairwise tree over the active elements, with the value of no element at all. -/
def reduceTree (m : MaskEntry) (w : Nat) (xs : List Nat) (f : Nat → Nat → Nat × FpFlags) (empty : Nat) :
    Nat × FpFlags :=
  let leaves := xs.zipIdx.map fun (x, i) => (if activeAt m w i then some x else none, (0 : FpFlags))
  match pairTree (reduceNode f) 16 leaves with
  | (some r, g) :: _ => (r, g)
  | _ => (empty, 0)

/-- An element with a NaN in its canonical form (R22). -/
def Format.canonical (t : Format) (a : Nat) : Nat :=
  match t with
  | .int _ _ => a
  | .float g => match g.decode a with
    | .nan _ => g.nanCode
    | _ => a

/-- A reduction: a NaN is canonical, also where it is that of a lone active element (R22), and element 0 of the destination takes the result whatever the mask (R444). -/
def State.reduction (s : State) (i : Instr) (h : Hcw) (f : Format → Nat → Nat → Nat × FpFlags)
    (empty : Format → Nat) : Except Stop State :=
  let r := Instr.hcwRow i
  match s.vview h 0 with
  | none => .error (.fault .formatInvalid 0)
  | some (t, rows, cols) =>
    let dst := h.dstReg r s.cur.rot
    s.hcwStart r h 6 dst (h.srcRegs r s.cur.rot) fun o _ =>
      let x := reduceTree s.myMask t.width (elems (o.vval 0) t.width (rows * cols)) (f t) (empty t)
      .ok (o.st, wrV dst (BitVec.allOnes 512) t.width [(t.canonical x.1, x.2)], x.2)

/-- The value that a maximum or minimum of no element gives (R39). -/
def noElement : Format → Nat
  | .float g => g.nanCode
  | .int _ _ => 0

def startVredsum (h : Hcw) (s : State) : Except Stop State :=
  let m := s.me.mode h
  s.reduction (.vredsum h) h (arith h (fun g x y => floatAdd g m false x y) (· + ·)) fun _ => 0
/-- `vredsum` (R444). -/
def execVredsum (h : Hcw) (s : State) : Host.Outcome State Fault Refusal := settle s (startVredsum h s)

def startVredmax (h : Hcw) (s : State) : Except Stop State :=
  s.reduction (.vredmax h) h (minMaxElem h true false) noElement
/-- `vredmax` (R444). -/
def execVredmax (h : Hcw) (s : State) : Host.Outcome State Fault Refusal := settle s (startVredmax h s)

def startVredmin (h : Hcw) (s : State) : Except Stop State :=
  s.reduction (.vredmin h) h (minMaxElem h false false) noElement
/-- `vredmin` (R444). -/
def execVredmin (h : Hcw) (s : State) : Host.Outcome State Fault Refusal := settle s (startVredmin h s)

/-! ### Moves of elements (R432) -/

def startVbcast (h : Hcw) (s : State) : Except Stop State :=
  s.vector (.vbcast h) h 3 anyFormat fun o t rows cols =>
    .ok (List.replicate (rows * cols) ((o.sval 0).toNat % 2 ^ t.width, 0))
/-- `vbcast` (R432). -/
def execVbcast (h : Hcw) (s : State) : Host.Outcome State Fault Refusal := settle s (startVbcast h s)

def startVmov (h : Hcw) (s : State) : Except Stop State :=
  s.vector1 (.vmov h) h 3 anyFormat fun _ a => (a, 0)
/-- `vmov` (R432). -/
def execVmov (h : Hcw) (s : State) : Host.Outcome State Fault Refusal := settle s (startVmov h s)

/-- Element k of the transpose of an r × c view, k = j × r + i taking source element i × c + j. -/
def transposeIndex (rows cols k : Nat) : Nat := k % rows * cols + k / rows

def startVtrn (h : Hcw) (s : State) : Except Stop State :=
  s.vector (.vtrn h) h 4 anyFormat fun o t rows cols =>
    .ok ((List.range (rows * cols)).map fun k =>
      (element (o.vval 0) t.width (transposeIndex rows cols k), 0))
/-- `vtrn` (R432). -/
def execVtrn (h : Hcw) (s : State) : Host.Outcome State Fault Refusal := settle s (startVtrn h s)

def startVrot (h : Hcw) (s : State) : Except Stop State :=
  s.vector (.vrot h) h 2 anyFormat fun o t rows cols =>
    .ok ((List.range (rows * cols)).map fun i =>
      (element (o.vval 0) t.width ((i + (o.second h).toNat) % (rows * cols)), 0))
/-- `vrot` (R432). -/
def execVrot (h : Hcw) (s : State) : Host.Outcome State Fault Refusal := settle s (startVrot h s)

/-! ### Exponents (R437) -/

/-- The formats of `vfrexp`: FP32, BF16 and FP16. -/
def ieeeFormat : Format → Bool
  | .float g => !g.p3109
  | .int _ _ => false

/-- One element of `vfrexp`: the fraction m (`expo` false) or the exponent e of x = m × 2^e. -/
def frexpElem (expo : Bool) (t : Format) (a : Nat) : Nat × FpFlags :=
  match t with
  | .int _ _ => (0, 0)
  | .float g =>
    match g.decode a with
    | .nan sig => (if expo then 0 else g.nanCode, FpFlags.when sig .nv)
    | .inf _ => (if expo then 0 else a, 0)
    | .fin n m e =>
      if m == 0 then (if expo then 0 else a, 0)
      else
        let d : Int := Nat.log2 m + 1
        (if expo then intEncode g.width (e + d) else (roundTo g .rne false (.fin n m (-d))).1, 0)

def startVfrexp (h : Hcw) (s : State) : Except Stop State :=
  s.vector1 (.vfrexp h) h 2 ieeeFormat (frexpElem (h.immA.getLsbD 0))
/-- `vfrexp` (R437). -/
def execVfrexp (h : Hcw) (s : State) : Host.Outcome State Fault Refusal := settle s (startVfrexp h s)

/-- One element of `vldexp`: a × 2^k rounded. No format has a value that a power beyond 2^±1024 keeps
between zero and its largest finite value, so k is taken within that range. -/
def ldexpElem (m : Round) (t : Format) (a b : Nat) : Nat × FpFlags :=
  match t with
  | .int _ _ => (0, 0)
  | .float g => roundTo g m false ((g.decode a).scale (clampInt (-1024) 1024 (intDecode g.width true b)))

def startVldexp (h : Hcw) (s : State) : Except Stop State :=
  s.vector2 (.vldexp h) h 4 Format.isFloat (ldexpElem (s.me.mode h))
/-- `vldexp` (R437). -/
def execVldexp (h : Hcw) (s : State) : Host.Outcome State Fault Refusal := settle s (startVldexp h s)

/-! ### Widening multiply-accumulate (R440, R441) -/

/-- The formats of `vmacw`. -/
def macFormat : Format → Bool
  | .int w _ => w != 32
  | .float _ => false

/-- One lane of `vmacw`. -/
def macLane (h : Hcw) (w : Nat) (signed : Bool) (acc : Nat) (ps : List (Nat × Nat)) : Nat × FpFlags :=
  let x : Int := ps.foldl (fun t (a, b) => t + readElem w signed h.uns a * readElem w signed h.uns b)
    (intDecode 32 (!h.uns) acc)
  intResult 32 (!h.uns) h.sat x

def startVmacw (h : Hcw) (s : State) : Except Stop State :=
  let r := Instr.hcwRow (.vmacw h)
  let removed : Bool := decide (2 ≤ ((s.kernel s.me.part s.me.record.kernel).map (·.gen)).getD 1)
    && match formatOf (s.me.fmtCode h) with
       | some (.int 4 _) => true
       | _ => false
  match (if removed then none else s.vview h 0) with
  | none => .error (.fault (if removed then .opcodeRemoved else .formatInvalid) 0)
  | some (.float _, _, _) => .error (.fault .formatInvalid 0)
  | some (.int w sg, rows, cols) =>
    let g := 32 / w
    let n := rows * cols
    if !macFormat (.int w sg) || n % g != 0 then .error (.fault .formatInvalid 0)
    else
      let dst := h.dstReg r s.cur.rot
      let srcs := h.srcRegs r s.cur.rot
      s.hcwStart r h 4 dst [srcs.getD 0 none, srcs.getD 1 none, dst] fun o _ =>
        let a := elems (o.vval 0) w n
        let b := elems (o.vval 1) w n
        let lanes := (List.range (n / g)).map fun l =>
          macLane h w sg (element (o.vval 2) 32 l) (((a.drop (l * g)).take g).zip ((b.drop (l * g)).take g))
        .ok (o.st, wrV dst s.myMask 32 lanes, laneFlags s.myMask 32 lanes)
/-- `vmacw` (R440, R441). -/
def execVmacw (h : Hcw) (s : State) : Host.Outcome State Fault Refusal := settle s (startVmacw h s)

/-! ### Drain queues (R443) -/

def startVpopq (h : Hcw) (s : State) : Except Stop State :=
  let r := Instr.hcwRow (.vpopq h)
  let dst := h.dstReg r s.cur.rot
  s.hcwStart r h 6 dst [some (.dq (h.immA.extractLsb' 0 2)), none, none] fun o _ =>
    match o.srcs.getD 0 none with
    | some (.dq q) =>
      match (o.st.me.regs.drain q).pop with
      | .error e => .error e
      | .ok (e, _) =>
        .ok (o.st.modRegs fun x => x.setDrain q (x.drain q).popped,
          match dst with
          | some (.v n) => .v n e.data (activeBits s.myMask 8 512)
          | _ => .none, 0)
    | _ => .ok (o.st, .none, 0)
/-- `vpopq` (R443). -/
def execVpopq (h : Hcw) (s : State) : Host.Outcome State Fault Refusal := settle s (startVpopq h s)

end Sys2Proof.Machine
end

