-- ==== Sys2Proof/Machine/Palette.lean ====
section
/-! DEFINITION. The palette: moves between its ports and the registers, and its triggers (spec 04 R89-R91;
05 R109; 12 R271-R273; 24 R420-R422). -/

namespace Sys2Proof.Machine

/-! ### Ports -/

/-- The unit of a port, and its offset in the unit (R90). -/
def portUnit (p : BitVec 6) : Nat := (p.extractLsb' 3 3).toNat
def portOffset (p : BitVec 6) : Nat := (p.extractLsb' 0 3).toNat

/-- Offsets +2 to +5 are triggers (R91). -/
def portTriggers (p : BitVec 6) : Bool := decide (2 ≤ portOffset p) && decide (portOffset p ≤ 5)

/-- A unit's ports. -/
def Palette.unit (p : Palette) : Nat → PalUnit
  | 0 => p.qnt
  | 1 => p.trn
  | 2 => p.crc
  | 3 => p.hsh
  | _ => p.top

/-- What a read of `res` or `st` gives; `st` holds 8 bytes (R271). -/
def Palette.read (p : Palette) (port : BitVec 6) : Vec512 :=
  let u := p.unit (portUnit port)
  if portOffset port == 6 then u.res else u.st.setWidth 4096

/-- The status word of R272. -/
def statusWord (count : Nat) (cfg : Bool) (g : FpFlags) : Word64 :=
  BitVec.ofNat 64 ((count % 2 ^ 32) * 2 ^ 32 + (if cfg then 128 else 0)) ||| (g &&& 0b011101#6).setWidth 64

/-- What a trigger leaves: the unit state on its start beat, and the `res` and `st` that land (R273). -/
structure Fired where
  pal : Palette
  res : Option Vec512
  st : Word64
deriving DecidableEq, Repr

/-- A trigger that finds its configuration invalid (R272). -/
def Palette.badCfg (p : Palette) (count : Nat) : Fired := ⟨p, some 0, statusWord count true 0⟩

/-! ### QNT (R273) -/

/-- A P3109 code. -/
def p3109Code (c : BitVec 8) : Option FloatFmt :=
  match formatOf c with
  | some (.float g) => if g.p3109 then some g else none
  | _ => none

/-- FP32, BF16 or FP16. -/
def ieeeCode (c : BitVec 8) : Option FloatFmt :=
  match formatOf c with
  | some (.float g) => if g.p3109 then none else some g
  | _ => none

/-- A conversion of the unit that saturated or overflowed (R272, log 26). -/
def quantCounts (sat : Bool) (dst : FloatFmt) (x : Val) (r : Nat × FpFlags) : Bool :=
  r.2.getLsbD 2 || (sat && match x with
    | .inf n => (!dst.hasInf) || (n && !dst.signed)
    | .fin n m _ => n && m != 0 && !dst.signed
    | .nan _ => false)

/-- The union of flags. -/
def allFlags (xs : List (Nat × FpFlags)) : FpFlags := xs.foldl (fun g x => g ||| x.2) 0

/-- Elements converted to a format, with the unit's status. -/
def Palette.quantised (p : Palette) (dst : FloatFmt) (mode : Round) (sat : Bool) (xs : List Val) : Fired :=
  let rs := xs.map fun x => (x, roundTo dst mode sat x)
  let n := (rs.filter fun (x, r) => quantCounts sat dst x r).length
  ⟨p, some (BitVec.ofNat 4096 (packElems dst.width (rs.map (·.2.1)))),
    statusWord n false (allFlags (rs.map (·.2)))⟩

/-- `qnt.q` and `qnt.qs`. -/
def Palette.quantise (p : Palette) (mode : Round) (sat : Bool) : Fired :=
  let b := p.qnt.cfg
  match p3109Code (b.extractLsb' 0 8), ieeeCode (b.extractLsb' 16 8) with
  | some dst, some src =>
    p.quantised dst mode sat ((elems p.qnt.a src.width (4096 / src.width)).map fun x =>
      (src.decode x).scale (-(b.extractLsb' 8 8).toInt))
  | _, _ => p.badCfg 0

/-- `qnt.dq`. -/
def Palette.dequantise (p : Palette) (mode : Round) : Fired :=
  let b := p.qnt.cfg
  match p3109Code (b.extractLsb' 0 8), ieeeCode (b.extractLsb' 16 8) with
  | some src, some dst =>
    p.quantised dst mode false ((elems p.qnt.a 8 (4096 / dst.width)).map fun x =>
      (src.decode x).scale (b.extractLsb' 8 8).toInt)
  | _, _ => p.badCfg 0

/-- `qnt.amax`: the largest magnitude as FP32. -/
def Palette.largest (p : Palette) : Fired :=
  match ieeeCode (p.qnt.cfg.extractLsb' 16 8) with
  | some src =>
    let xs := (elems p.qnt.a src.width (4096 / src.width)).map src.decode
    let g := FpFlags.when (xs.any Val.isSnan) .nv
    let r : Nat :=
      if xs.any Val.isNan then fp32.nanCode
      else (roundTo fp32 .rne false (xs.foldl (fun m x => if m.lt x.magnitude then x.magnitude else m)
        (.fin false 0 0))).1
    ⟨p, some (BitVec.ofNat 4096 r), statusWord 0 false g⟩
  | none => p.badCfg 0

/-! ### TRN (R273) -/

/-- `trn.e8`, `trn.e16`, `trn.e32`, `trn.e4`: the transpose at a width. -/
def Palette.transpose (p : Palette) (w : Nat) : Fired :=
  let r := (p.trn.cfg.extractLsb' 0 4).toNat
  let c := (p.trn.cfg.extractLsb' 4 4).toNat
  if 2 ^ (r + c) * w ≤ 4096 then
    ⟨p, some (BitVec.ofNat 4096 (packElems w ((List.range (2 ^ (r + c))).map fun k =>
      element p.trn.a w (transposeIndex (2 ^ r) (2 ^ c) k)))), 0⟩
  else p.badCfg 0

/-! ### CRC (R266, R273) -/

/-- A CRC trigger that leaves a state and shows one. -/
def Palette.crcShow (p : Palette) (state next : Word32) : Fired :=
  ⟨{ p with crcState := next }, some ((state ^^^ 0xFFFFFFFF#32).setWidth 4096), 0⟩

/-- `crc.init`. -/
def Palette.crcLoad (p : Palette) : Fired :=
  let st := p.crc.cfg.setWidth 32 ^^^ 0xFFFFFFFF#32
  p.crcShow st st

/-- `crc.v` and `crc.s`: n bytes of the operand fed in ascending order. -/
def Palette.crcAdd (p : Palette) (n : Nat) : Fired :=
  let st := crcFeed p.crcState (leBytes n p.crc.a.toNat)
  p.crcShow st st

/-- `crc.fin`. -/
def Palette.crcFinish (p : Palette) : Fired := p.crcShow p.crcState 0xFFFFFFFF

/-! ### HSH (R273) -/

/-- H of R273. -/
def hashH (key x : Word64) : Word64 :=
  let h := x ^^^ key
  let h := (h ^^^ (h >>> 31)) * 0x9E3779B97F4A7C15#64
  let h := (h ^^^ (h >>> 29)) * 0xD6E8FEB86659FD93#64
  h ^^^ (h >>> 32)

/-- `hsh.key`. -/
def Palette.loadKey (p : Palette) : Fired := ⟨{ p with key := p.hsh.cfg }, none, 0⟩

/-- `hsh.nb`. -/
def Palette.loadCount (p : Palette) : Fired :=
  let n := p.hsh.cfg.setWidth 32
  ⟨{ p with nb := n }, none, statusWord 0 (n == 0) 0⟩

/-- `hsh.id`. -/
def Palette.hashId (p : Palette) : Fired :=
  ⟨p, some ((hashH p.key (p.hsh.a.setWidth 64)).setWidth 4096), 0⟩

/-- `hsh.bkt`. -/
def Palette.hashBucket (p : Palette) : Fired :=
  if p.nb == 0 then p.badCfg 0
  else ⟨p, some (BitVec.ofNat 4096
    ((hashH p.key (p.hsh.a.setWidth 64)).toNat * p.nb.toNat / 2 ^ 64)), 0⟩

/-! ### TOP (R273) -/

/-- The formats of TOP: FP32, BF16, FP16 and the integers of 8 to 32 bits. -/
def topFormat (c : BitVec 8) : Option Format :=
  match formatOf c with
  | some (.float g) => if g.p3109 then none else some (.float g)
  | some (.int w sg) => if w == 4 then none else some (.int w sg)
  | none => none

/-- A number that orders the elements of a format as R33 and R273 do. -/
def topKey (t : Format) (c : Nat) : Int :=
  match t with
  | .float g =>
    let m : Int := c % 2 ^ (g.ebits + g.fbits)
    if c.testBit (g.ebits + g.fbits) then -m - 1 else m
  | .int w sg => intDecode w sg c

/-- An element put among the best, before the first that is worse; equal elements keep their order. -/
def insertBest (t : Format) (x : Nat × Nat) : List (Nat × Nat) → List (Nat × Nat)
  | [] => [x]
  | y :: ys => if topKey t y.1 < topKey t x.1 then x :: y :: ys else y :: insertBest t x ys

/-- The running state without what `top.clr` clears. -/
def Palette.cleared (p : Palette) : Palette := { p with best := [], base := 0, count := 0 }

/-- A valid k and format. -/
def Palette.topCfg (p : Palette) : Option Format :=
  if 1 ≤ p.k ∧ p.k ≤ 16 then topFormat p.fmt else none

/-- `top.k`. -/
def Palette.loadK (p : Palette) : Fired :=
  let b := p.top.cfg
  let p := { p.cleared with k := (b.extractLsb' 0 5).toNat, fmt := b.extractLsb' 8 8 }
  ⟨p, none, statusWord 0 p.topCfg.isNone 0⟩

/-- `top.go`. -/
def Palette.mergeBest (p : Palette) : Fired :=
  match p.topCfg with
  | none => p.badCfg p.count
  | some t =>
    let n := 4096 / t.width
    let xs := (elems p.top.a t.width n).zipIdx.filter fun (c, _) => match t with
      | .float g => !(g.decode c).isNan
      | .int _ _ => true
    let best := xs.foldl (fun b (c, i) =>
      (insertBest t (c, (p.base + i) % 2 ^ 32) b).take p.k) p.best
    let p := { p with best := best, base := p.base + n, count := p.count + n }
    ⟨p, some (BitVec.ofNat 4096 (packElems t.width (best.map (·.1)))), statusWord p.count false 0⟩

/-- `top.idx`. -/
def Palette.bestIndices (p : Palette) : Fired :=
  match p.topCfg with
  | none => p.badCfg p.count
  | some _ =>
    ⟨p, some (BitVec.ofNat 4096 (packElems 32 ((List.range p.k).map fun i =>
      ((p.best.map (·.2))[i]?).getD 0xFFFFFFFF))), statusWord p.count false 0⟩

/-- `top.clr`. -/
def Palette.clearBest (p : Palette) : Fired := ⟨p.cleared, none, 0⟩

/-! ### Triggers as steps -/

/-- A trigger on its start beat (R271, R421): the unit state changes now, `res` and `st` land at the latency of
R109. -/
def State.fired (s : State) (unit lat : Nat) (f : Palette → Fired) : Except Stop State :=
  let x := f s.me.regs.pal
  .ok ((s.modRegs fun r => { r with pal := (f r.pal).pal }).land lat (.res unit x.res x.st) [] 0 0)

/-- The mode that `cr.round` holds (R28). -/
def State.roundMode (s : State) : Round := (roundOf s.me.regs.round).getD .rne

def startQntQ (s : State) : Except Stop State := s.fired 0 6 fun p => p.quantise s.roundMode false
/-- `qnt.q` (R273). -/
def execQntQ (s : State) : Host.Outcome State Fault Refusal := settle s (startQntQ s)

def startQntQs (s : State) : Except Stop State := s.fired 0 6 fun p => p.quantise s.roundMode true
/-- `qnt.qs` (R273). -/
def execQntQs (s : State) : Host.Outcome State Fault Refusal := settle s (startQntQs s)

def startQntDq (s : State) : Except Stop State := s.fired 0 6 fun p => p.dequantise s.roundMode
/-- `qnt.dq` (R273). -/
def execQntDq (s : State) : Host.Outcome State Fault Refusal := settle s (startQntDq s)

def startQntAmax (s : State) : Except Stop State := s.fired 0 6 Palette.largest
/-- `qnt.amax` (R273). -/
def execQntAmax (s : State) : Host.Outcome State Fault Refusal := settle s (startQntAmax s)

def startTrnE8 (s : State) : Except Stop State := s.fired 1 4 fun p => p.transpose 8
/-- `trn.e8` (R273). -/
def execTrnE8 (s : State) : Host.Outcome State Fault Refusal := settle s (startTrnE8 s)

def startTrnE16 (s : State) : Except Stop State := s.fired 1 4 fun p => p.transpose 16
/-- `trn.e16` (R273). -/
def execTrnE16 (s : State) : Host.Outcome State Fault Refusal := settle s (startTrnE16 s)

def startTrnE32 (s : State) : Except Stop State := s.fired 1 4 fun p => p.transpose 32
/-- `trn.e32` (R273). -/
def execTrnE32 (s : State) : Host.Outcome State Fault Refusal := settle s (startTrnE32 s)

def startTrnE4 (s : State) : Except Stop State := s.fired 1 4 fun p => p.transpose 4
/-- `trn.e4` (R273). -/
def execTrnE4 (s : State) : Host.Outcome State Fault Refusal := settle s (startTrnE4 s)

def startCrcInit (s : State) : Except Stop State := s.fired 2 4 Palette.crcLoad
/-- `crc.init` (R273). -/
def execCrcInit (s : State) : Host.Outcome State Fault Refusal := settle s (startCrcInit s)

def startCrcV (s : State) : Except Stop State := s.fired 2 8 fun p => p.crcAdd 512
/-- `crc.v` (R273). -/
def execCrcV (s : State) : Host.Outcome State Fault Refusal := settle s (startCrcV s)

def startCrcS (s : State) : Except Stop State := s.fired 2 4 fun p => p.crcAdd 8
/-- `crc.s` (R273). -/
def execCrcS (s : State) : Host.Outcome State Fault Refusal := settle s (startCrcS s)

def startCrcFin (s : State) : Except Stop State := s.fired 2 4 Palette.crcFinish
/-- `crc.fin` (R273). -/
def execCrcFin (s : State) : Host.Outcome State Fault Refusal := settle s (startCrcFin s)

def startHshKey (s : State) : Except Stop State := s.fired 3 4 Palette.loadKey
/-- `hsh.key` (R273). -/
def execHshKey (s : State) : Host.Outcome State Fault Refusal := settle s (startHshKey s)

def startHshNb (s : State) : Except Stop State := s.fired 3 4 Palette.loadCount
/-- `hsh.nb` (R273). -/
def execHshNb (s : State) : Host.Outcome State Fault Refusal := settle s (startHshNb s)

def startHshId (s : State) : Except Stop State := s.fired 3 8 Palette.hashId
/-- `hsh.id` (R273). -/
def execHshId (s : State) : Host.Outcome State Fault Refusal := settle s (startHshId s)

def startHshBkt (s : State) : Except Stop State := s.fired 3 8 Palette.hashBucket
/-- `hsh.bkt` (R273). -/
def execHshBkt (s : State) : Host.Outcome State Fault Refusal := settle s (startHshBkt s)

def startTopK (s : State) : Except Stop State := s.fired 4 4 Palette.loadK
/-- `top.k` (R273). -/
def execTopK (s : State) : Host.Outcome State Fault Refusal := settle s (startTopK s)

def startTopGo (s : State) : Except Stop State := s.fired 4 12 Palette.mergeBest
/-- `top.go` (R273). -/
def execTopGo (s : State) : Host.Outcome State Fault Refusal := settle s (startTopGo s)

def startTopIdx (s : State) : Except Stop State := s.fired 4 12 Palette.bestIndices
/-- `top.idx` (R273). -/
def execTopIdx (s : State) : Host.Outcome State Fault Refusal := settle s (startTopIdx s)

def startTopClr (s : State) : Except Stop State := s.fired 4 4 Palette.clearBest
/-- `top.clr` (R273). -/
def execTopClr (s : State) : Host.Outcome State Fault Refusal := settle s (startTopClr s)

/-- The trigger at a port (R91). -/
def triggerOf (p : BitVec 6) : Option Instr :=
  match portUnit p, portOffset p with
  | 0, 2 => some .qntQ
  | 0, 3 => some .qntQs
  | 0, 4 => some .qntDq
  | 0, 5 => some .qntAmax
  | 1, 2 => some .trnE8
  | 1, 3 => some .trnE16
  | 1, 4 => some .trnE32
  | 1, 5 => some .trnE4
  | 2, 2 => some .crcInit
  | 2, 3 => some .crcV
  | 2, 4 => some .crcS
  | 2, 5 => some .crcFin
  | 3, 2 => some .hshKey
  | 3, 3 => some .hshId
  | 3, 4 => some .hshBkt
  | 3, 5 => some .hshNb
  | 4, 2 => some .topK
  | 4, 3 => some .topGo
  | 4, 4 => some .topIdx
  | 4, 5 => some .topClr
  | _, _ => none

/-- A trigger started. -/
def startTrigger (i : Instr) (s : State) : Except Stop State :=
  match i with
  | .qntQ => startQntQ s
  | .qntQs => startQntQs s
  | .qntDq => startQntDq s
  | .qntAmax => startQntAmax s
  | .trnE8 => startTrnE8 s
  | .trnE16 => startTrnE16 s
  | .trnE32 => startTrnE32 s
  | .trnE4 => startTrnE4 s
  | .crcInit => startCrcInit s
  | .crcV => startCrcV s
  | .crcS => startCrcS s
  | .crcFin => startCrcFin s
  | .hshKey => startHshKey s
  | .hshNb => startHshNb s
  | .hshId => startHshId s
  | .hshBkt => startHshBkt s
  | .topK => startTopK s
  | .topGo => startTopGo s
  | .topIdx => startTopIdx s
  | .topClr => startTopClr s
  | _ => .ok s

/-! ### `tmov` (R420-R422) -/

/-- A register's data at a port: a trigger starts as of this beat, any other port takes the data at its end
(R90, R421). -/
def State.toPort (s : State) (p : BitVec 6) (d : Vec512) : Except Stop State :=
  match triggerOf p with
  | some i => startTrigger i s
  | none => .ok (s.land 1 (.port p d) [] 0 0)

def startTmovPortV (p : BitVec 6) (v : BitVec 5) (s : State) : Except Stop State :=
  match s.begin 0x01 0xFF [] [some (.v v), none, none] none with
  | .error e => .error e
  | .ok o => o.st.toPort p (o.vval 0)
/-- `tmov port, vN` (R421). -/
def execTmovPortV (p : BitVec 6) (v : BitVec 5) (s : State) : Host.Outcome State Fault Refusal :=
  settle s (startTmovPortV p v s)

def startTmovVPort (v : BitVec 5) (p : BitVec 6) (s : State) : Except Stop State :=
  match s.begin 0x02 (Reg.code (.v v)) [.v v] [none, none, none] none with
  | .error e => .error e
  | .ok o =>
    .ok (o.st.land 2 (.v v (s.me.regs.pal.read p) (BitVec.allOnes 4096)) [.v v] o.tag 0)
/-- `tmov vN, port` (R421): no mask stack applies. -/
def execTmovVPort (v : BitVec 5) (p : BitVec 6) (s : State) : Host.Outcome State Fault Refusal :=
  settle s (startTmovVPort v p s)

def startTmovPortPort (d p : BitVec 6) (s : State) : Except Stop State :=
  match s.begin 0x03 0xFF [] [none, none, none] none with
  | .error e => .error e
  | .ok o =>
    match triggerOf d with
    | some i => .ok (o.st.modMe fun k => { k with delayed := k.delayed ++
        [{ due := s.cur.beat + 1, blk := k.blk.seq, ord := s.cur.ord, slot := .t, idx := s.cur.idx
           op := i, addr := s.cur.addr }] })
    | none => .ok (o.st.land 2 (.port d (s.me.regs.pal.read p)) [] 0 0)
/-- `tmov port, port` (R421): the write lands a beat later, and a trigger counts from there. -/
def execTmovPortPort (d p : BitVec 6) (s : State) : Host.Outcome State Fault Refusal :=
  settle s (startTmovPortPort d p s)

def startTmovPortS (p : BitVec 6) (n : BitVec 6) (s : State) : Except Stop State :=
  match s.begin 0x04 0xFF [] [some (.s n), none, none] none with
  | .error e => .error e
  | .ok o => o.st.toPort p ((o.sval 0).setWidth 4096)
/-- `tmov port, sN` (R421). -/
def execTmovPortS (p : BitVec 6) (n : BitVec 6) (s : State) : Host.Outcome State Fault Refusal :=
  settle s (startTmovPortS p n s)

def startTmovSPort (n : BitVec 6) (p : BitVec 6) (s : State) : Except Stop State :=
  match s.begin 0x05 (Reg.code (.s n)) [.s n] [none, none, none] none with
  | .error e => .error e
  | .ok o => .ok (o.st.land 2 (.s n ((s.me.regs.pal.read p).setWidth 64)) [.s n] o.tag 0)
/-- `tmov sN, port` (R421). -/
def execTmovSPort (n : BitVec 6) (p : BitVec 6) (s : State) : Host.Outcome State Fault Refusal :=
  settle s (startTmovSPort n p s)

end Sys2Proof.Machine
end

