-- ==== Sys2Proof/Machine/Start.lean ====
section
/-! DEFINITION. What starting an operation of a slot does, for every operation that a bundle can hold. -/

namespace Sys2Proof.Machine

/-- The start of an operation; an event is no operation of a bundle and starts nothing. -/
def startOp (i : Instr) (s : State) : Except Stop State :=
  match i with
  | .nop => startNop s
  | .bprep b off => startBprep b off s
  | .bprepi b n => startBprepi b n s
  | .xfer b q => startXfer b q s
  | .xferF b q => startXferF b q s
  | .xferMz b u => startXferMz b u s
  | .xferMnz b u => startXferMnz b u s
  | .call b => startCall b s
  | .lmark n len => startLmark n len s
  | .lmarkImm count len => startLmarkImm count len s
  | .ilock n lines => startIlock n lines s
  | .iunlock n lines => startIunlock n lines s
  | .wait ld st cp mx => startWait ld st cp mx s
  | .rel n => startRel n s
  | .done => startDone s
  | .yield => startYield s
  | .trap code => startTrap code s
  | .brk tag => startBrk tag s
  | .inj slot k d step => startInj slot k d step s
  | .mma a tA tB c => startMma a tA tB c s
  | .mzero a => startMzero a s
  | .mdrain a t dq => startMdrain a t dq s
  | .mdrainRed a t tile aM => startMdrainRed a t tile aM s
  | .mload a n => startMload a n s
  | .chset bd n => startChset bd n s
  | .chsetImm bd v => startChsetImm bd v s
  | .chrun n m => startChrun n m s
  | .chstep n => startChstep n s
  | .chstepPick n m => startChstepPick n m s
  | .ld d base sz signed off => startLd d base sz signed off s
  | .st n base sz off => startSt n base sz off s
  | .vld v base stride => startVld v base stride s
  | .vst v base stride => startVst v base stride s
  | .stq dq t c => startStq dq t c s
  | .racq d g => startRacq d g s
  | .rpub g => startRpub g s
  | .rget d g => startRget d g s
  | .rrel g => startRrel g s
  | .sflush base lines => startSflush base lines s
  | .sinv base lines => startSinv base lines s
  | .cpy tD tS c => startCpy tD tS c s
  | .msub g t n => startMsub g t n s
  | .mret g t n => startMret g t n s
  | .cadd a n => startCadd a n s
  | .caddImm a v => startCaddImm a v s
  | .cwait a t m b => startCwait a t m b s
  | .cread d a => startCread d a s
  | .amo op wide d a n => startAmo op wide d a n s
  | .amoc op cc d a n => startAmoc op cc d a n s
  | .mred p c => startMred p c s
  | .fence before after => startFence before after s
  | .spawn a => startSpawn a s
  | .join g => startJoin g s
  | .leave g => startLeave g s
  | .tdef t d => startTdef t d s
  | .tdrop t => startTdrop t s
  | .nsend port ch a l => startNsend port ch a l s
  | .nrecv port ch a l => startNrecv port ch a l s
  | .nsendq port ch dq => startNsendq port ch dq s
  | .tmovPortV p v => startTmovPortV p v s
  | .tmovVPort v p => startTmovVPort v p s
  | .tmovPortPort d p => startTmovPortPort d p s
  | .tmovPortS p n => startTmovPortS p n s
  | .tmovSPort n p => startTmovSPort n p s
  | .qntQ => startQntQ s
  | .qntQs => startQntQs s
  | .qntDq => startQntDq s
  | .qntAmax => startQntAmax s
  | .trnE8 => startTrnE8 s
  | .trnE16 => startTrnE16 s
  | .trnE32 => startTrnE32 s
  | .trnE4 => startTrnE4 s
  | .crcInit => startCrcInit s
  | .crcV => startCrcV s
  | .crcS => startCrcS s
  | .crcFin => startCrcFin s
  | .hshKey => startHshKey s
  | .hshNb => startHshNb s
  | .hshId => startHshId s
  | .hshBkt => startHshBkt s
  | .topK => startTopK s
  | .topGo => startTopGo s
  | .topIdx => startTopIdx s
  | .topClr => startTopClr s
  | .sadd h => startSadd h s
  | .ssub h => startSsub h s
  | .smul h => startSmul h s
  | .smulh h => startSmulh h s
  | .smulhu h => startSmulhu h s
  | .sand h => startSand h s
  | .sor h => startSor h s
  | .sxor h => startSxor h s
  | .sandn h => startSandn h s
  | .sshl h => startSshl h s
  | .sshr h => startSshr h s
  | .ssar h => startSsar h s
  | .smin h => startSmin h s
  | .smax h => startSmax h s
  | .sminu h => startSminu h s
  | .smaxu h => startSmaxu h s
  | .sclz h => startSclz h s
  | .sctz h => startSctz h s
  | .spopc h => startSpopc h s
  | .ssel h => startSsel h s
  | .sli h => startSli h s
  | .smov h => startSmov h s
  | .sext h => startSext h s
  | .scmp h => startScmp h s
  | .sqop h => startSqop h s
  | .sgetc h => startSgetc h s
  | .ssetc h => startSsetc h s
  | .slget h => startSlget h s
  | .vadd h => startVadd h s
  | .vsub h => startVsub h s
  | .vmul h => startVmul h s
  | .vfma h => startVfma h s
  | .vfms h => startVfms h s
  | .vmin h => startVmin h s
  | .vmax h => startVmax h s
  | .vminn h => startVminn h s
  | .vmaxn h => startVmaxn h s
  | .vabs h => startVabs h s
  | .vneg h => startVneg h s
  | .vcvt h => startVcvt h s
  | .vand h => startVand h s
  | .vor h => startVor h s
  | .vxor h => startVxor h s
  | .vshl h => startVshl h s
  | .vshr h => startVshr h s
  | .vsar h => startVsar h s
  | .vcmp h => startVcmp h s
  | .vsel h => startVsel h s
  | .mpush h => startMpush h s
  | .minv h => startMinv h s
  | .mpop h => startMpop h s
  | .vredsum h => startVredsum h s
  | .vredmax h => startVredmax h s
  | .vredmin h => startVredmin h s
  | .vbcast h => startVbcast h s
  | .vmov h => startVmov h s
  | .vtrn h => startVtrn h s
  | .vrot h => startVrot h s
  | .vfrexp h => startVfrexp h s
  | .vldexp h => startVldexp h s
  | .vmacw h => startVmacw h s
  | .vpopq h => startVpopq h s
  | .bundleIssue _ | .delayedStart _ | .sealComparison _ | .orderPoint _ | .blockReplay _
  | .blockRerun _ | .tileRetirement _ | .engineInstanceFailure _ _ _ | .stashFill _ | .lineRecall _
  | .valueDelivery _ | .cwaitReply _ | .waiterConfirm _ | .cwaitRetry _ | .launchQueueDrain _ _
  | .taskPick _ _ | .preemptForced _ | .watchdogExpiry _ | .frameStart _ | .relRelease _ | .mmaExecute _
  | .mzeroExecute _ | .mloadExecute _ | .mdrainExecute _ | .drainEntryFill _ | .peerAdditionApply _
  | .peerAck _ | .chainStep _ | .copyChunk _ | .millBlockPush _ _ | .millBlockPull _ _
  | .reductionChunk _ | .wcPartialWrite _ _ _ _ _ | .wcTimeout _ _ | .patrolScrub _ _
  | .eccUncorrectable _ | .engineInternalError _ _ | .launch _ _ | .launchStartRelease _ _
  | .launchComplete _ _ | .graph _ _ | .graphNodeComplete _ _ _ | .counterAdd _ _ | .counterWait _ _
  | .counterWaitRelease _ _ | .copy _ _ | .fencePacket _ _ | .ttLoad _ _ | .ttStart _ _ | .ttStop _ _
  | .ttSwap _ _ | .ttRead _ _ | .notifyWrite _ _ _ | .queueResume _ _ | .mergeRoundOpen _
  | .mergeRoundClose _ | .tlbInvalidate _ | .tlbInvalidateDone _ | .resumeHalted _ _
  | .abandonHalted _ _ | .partitionHalt _ | .partitionResume _ | .partitionFence _ | .revive _ _
  | .deviceReset | .powerOnReset | .selfTest _ | .partitionLayout _ | .partitionReset _
  | .loaderCheckSeal | .loaderLoadEntry | .powerCapAdjust _ _ | .registerWrite _ _ _ _
  | .channelEnable _ _ | .channelDisable _ _ | .rdmaRead _ _ _ | .rdmaWrite _ _ _
  | .queueTransportRead _ _ _ _ | .queueTransportWrite _ _ _ _ | .data _ _ _ | .ack _ _ _
  | .credit _ _ _ _ _ | .pair _ _ _ _ | .messageSend _ _ | .ackTimer _ | .resendTimeout _
  | .pairTimeout _ | .linkTraining _ | .linkDown _ | .ptpMessage _ _ | .ptpLockLoss | .resultLands _
  | .hostPortLinkTraining | .frameNotTaken _ _ _ => .ok s

end Sys2Proof.Machine
end

