-- ==== Sys2Proof/Machine/Issue.lean ====
section
/-! DEFINITION. Bundles that come to issue: instances that fail, the decode checks in their order, entry of a block,
the start of the slots, delayed starts and results that land (spec 03 R49-R52, R62-R70, R75, R76; 07 R145, R148,
R152; 08 R157, R161-R163, R168, R180; 13 R274-R276, R280, R281). -/

namespace Sys2Proof.Machine

/-! ### Instances that fail (R62-R64) -/

/-- The two bindings of a pair of syllables, and its split bit, once an instance has failed: the survivor of the
two serves both; none is left where both named it (log 29). -/
def rebound (f : Nat) (a b : BitVec 2) (split : Bool) : BitVec 2 × BitVec 2 × Bool :=
  let c := BitVec.ofNat 2 f
  if a == c && b == c then (3, 3, split)
  else if a == c then (b, b, true)
  else if b == c then (a, a, true)
  else (a, b, split)

/-- An instance marked absent. -/
def Tile.fail (x : Tile) (vector : Bool) (u : Nat) : Tile :=
  if vector then
    let (a, b, sp) := rebound u x.va x.vb x.splitv
    { x with va := a, vb := b, splitv := sp, vectors := x.vectors.set u false }
  else
    let (a, b, sp) := rebound u x.sa x.sb x.splits
    { x with sa := a, sb := b, splits := sp, scalars := x.scalars.set u false }

/-- Every instance that has failed its check marked absent, at a block boundary. -/
def Tile.applyFailing (x : Tile) : Tile :=
  { x.failing.foldl (fun x f => x.fail f.1 f.2) x with failing := [] }

/-- A tile that starts to retire (R179). -/
def Tile.retire (x : Tile) : Tile := { x with life := if x.life == .service then .retiring else x.life }

/-- A block boundary reached by a tile: a tile of a timetable partition that has set a split bit retires (R64,
R151). -/
def State.boundary (s : State) (t p : Nat) : State :=
  s.modTile t fun x =>
    let x := x.applyFailing
    if (s.quads.getD p {}).tt && (x.splits || x.splitv) then x.retire else x

/-- `engineInstanceFailure`: the instance is marked at the tile's next block boundary, which a tile without a task
stands at. -/
def State.instanceFailure (s : State) (t : Nat) (vector : Bool) (u : Nat) : State :=
  let s := s.modTile t fun x => { x with failing := x.failing ++ [(vector, u)] }
  if (s.tile t).task.isNone then s.boundary t (s.partOf (quadOf t)) else s
/-- ENGINE_INSTANCE_FAILURE (R64). -/
def execEngineInstanceFailure (t : Nat) (vector : Bool) (unit : BitVec 2) (s : State) :
    Host.Outcome State Fault Refusal := happens s (s.instanceFailure t vector unit.toNat)

/-! ### What may issue -/

/-- The task stands between two blocks. -/
def Task.betweenBlocks (k : Task) : Bool := !k.blk.entered && k.blk.phase == .open

/-- The stop that ENGINE_ABSENT asks for, which a retirement serves. -/
def Task.engineStop (k : Task) : Bool :=
  match k.stop with
  | some (.fault c _ _ _ _) => c == .engineAbsent
  | _ => false

/-- A bundle's place in a gang's stream comes before another's. -/
def Block.earlier (a b : Block) : Bool := decide (a.seq < b.seq) || (a.seq == b.seq && decide (a.idx < b.idx))

/-- The gang's order lets a tile issue: the lead once every member has caught up with it, a member what the lead has
issued (R148, log 30). -/
def State.gangTurn (s : State) (t : Nat) (k : Task) : Bool :=
  match (s.tile t).gangLead with
  | none => true
  | some l =>
    if l == t then (s.gangOf t).all fun m => m == t || match (s.tile m).task with
      | some y => y.blk.seq == k.blk.seq && y.blk.idx == k.blk.idx && y.blk.phase == .open
      | none => true
    else match (s.tile l).task with
      | some y => k.blk.earlier y.blk
      | none => true

/-- A task at which a stop that is due may be taken: its partition is not fenced, its tile does not retire at this boundary, and
it is its turn (R148, R179, R289). -/
def State.mayStop (s : State) (t : Nat) (k : Task) : Bool :=
  !s.fenced k.part && !k.engineStop && !((s.tile t).life == .retiring && k.betweenBlocks) && s.gangTurn t k

/-- A task at which a bundle may come to issue: it does not wait on `rel` either (R145). -/
def State.mayIssue (s : State) (t : Nat) (k : Task) : Bool := s.mayStop t k && k.blk.relAt.isNone

/-! ### Decoding a bundle (R76) -/

/-- A bundle as it has been fetched: its address, its word and header, and the seal word of an E bundle. -/
structure Bundle where
  addr : Nat
  word : Word256
  hd : Header
  sealWord : Option Word256
deriving DecidableEq, Repr

/-- An operation of a bundle: its slot, the operation, the rotation of its syllable and its start delay. -/
structure SlotOp where
  slot : Slot
  op : Instr
  rot : BitVec 5 := 0
  delay : Nat := 0
deriving DecidableEq, Repr

/-- The lines of code that a bundle lies in, by address (R164). -/
def Bundle.lines (bd : Bundle) : List Nat := [bd.addr / 128, (bd.addr + if bd.sealWord.isSome then 63 else 31) / 128]

/-- The bundle at the task's address, with its seal if it is an E bundle. -/
def State.bundleAt (s : State) (t : Nat) (k : Task) : Except Cause Bundle :=
  match s.codeAt t k k.pc with
  | .error c => .error c
  | .ok w =>
    let h := headerOf (headerWord w)
    if h.eob then
      match s.codeAt t k (k.pc + 32) with
      | .error c => .error c
      | .ok x => .ok ⟨k.pc, w, h, some x⟩
    else .ok ⟨k.pc, w, h, none⟩

/-- The operation of a direct slot, none where the slot is absent. -/
def Bundle.direct (bd : Bundle) (present : Bool) (sl : Slot) (delay : Nat) : Except Cause (Option SlotOp) :=
  if !present then .ok none
  else
    match decodeSlot sl (bundleWord bd.word sl) with
    | .error c => .error c
    | .ok i => .ok (some { slot := sl, op := i, delay := delay })

/-- The operation that a syllable issues from the task's control words, none where it is empty. -/
def Bundle.syllable (bd : Bundle) (hcw : List Word256) (sl : Slot) : Except Cause (Option SlotOp) :=
  let (lo, cls) : Nat × BitVec 4 := match sl with
    | .sa => (160, 1)
    | .sb => (176, 1)
    | .va => (128, 2)
    | _ => (144, 2)
  match decodeSyllable (bd.word.extractLsb' lo 16) with
  | .error c => .error c
  | .ok none => .ok none
  | .ok (some y) =>
    match decodeSyllableHcw cls (hcw.getD y.index.toNat 0) with
    | .error c => .error c
    | .ok i => .ok (some { slot := sl, op := i, rot := y.rot })

/-- The slots of a bundle in their order. -/
def Bundle.slots (bd : Bundle) (hcw : List Word256) : List (Except Cause (Option SlotOp)) :=
  let h := bd.hd
  [bd.direct h.presC .c 0, bd.syllable hcw .sa, bd.syllable hcw .sb, bd.syllable hcw .va, bd.syllable hcw .vb,
   bd.direct h.presM .m h.dlyM.toNat, bd.direct h.presL .l h.dlyL.toNat, bd.direct h.presD .d h.dlyD.toNat,
   bd.direct h.presT .t h.dlyT.toNat]

/-- The experimental operations of R75. -/
def experimental : Instr → Bool
  | .inj _ _ _ _ | .chstepPick _ _ => true
  | _ => false

/-- The transfers of R67. -/
def transferOp : Instr → Bool
  | .xfer _ _ | .xferF _ _ | .xferMz _ _ | .xferMnz _ _ | .call _ => true
  | _ => false

/-- The C-slot operations of R69. -/
def endOp : Instr → Bool
  | .done | .yield | .trap _ => true
  | _ => false

/-- The D-slot operations of R69. -/
def commitOp : Instr → Bool
  | .amo _ _ _ _ _ | .amoc _ _ _ _ _ | .cadd _ _ | .caddImm _ _ | .cwait _ _ _ _ | .spawn _ | .cpy _ _ _
  | .msub _ _ _ | .mret _ _ _ | .mred _ _ | .nsend _ _ _ _ | .nsendq _ _ _ | .tdef _ _ | .tdrop _ | .join _
  | .leave _ => true
  | _ => false

/-- `cwait`. -/
def isCwait : Instr → Bool
  | .cwait _ _ _ _ => true
  | _ => false

/-- The kernel's image lists the device's stepping (R75). -/
def State.stepped (s : State) (k : Task) : Bool :=
  match s.kernel k.part k.record.kernel with
  | some x => x.steppings.contains s.fixed.stepping
  | none => false

/-- The syllable's pair has no instance left (R64). -/
def Tile.absent (x : Tile) : Slot → Bool
  | .sa => x.sa == 3
  | .sb => x.sb == 3
  | .va => x.va == 3
  | .vb => x.vb == 3
  | _ => false

/-- What a slot's operation belongs to as it starts. -/
def State.at_ (s : State) (o : SlotOp) : State := { s with cur := { s.cur with slot := o.slot, rot := o.rot } }

/-- The decode fault that depends on the task's registers, of an operation in the C, S or V slots: neither a lock nor
pending-bit mode comes before it. -/
def State.probe (s : State) (o : SlotOp) : Option Cause :=
  let bare := (s.at_ o).modMe fun k => { k with locks := [], regs := { k.regs with debug := false } }
  match o.slot with
  | .c | .sa | .sb | .va | .vb =>
    match startOp o.op bare with
    | .error (.decode c) => some c
    | .error (.fault c _) =>
      if c == .opcodeUndefined || c == .opcodeRemoved || c == .formatInvalid || c == .privileged then some c else none
    | _ => none
  | _ => none

/-- The first failed check of an operation, after those of its encoding (R76). `cop` and `dop` are the operations of the C and D
slots, and `next` the header of the next bundle: where that bundle cannot be fetched, a transfer is not called misplaced at issue
(log 72). -/
def State.slotCause (s : State) (k : Task) (bd : Bundle) (cop dop : Option Instr) (next : Option Header) (o : SlotOp) :
    Option Cause :=
  let p := s.probe o
  let body := k.regs.loop.any fun l => l.armed
  let ends := match cop with
    | some i => endOp i
    | none => false
  let misplaced := bd.hd.eob || match next with
    | some h => !h.eob
    | none => false
  let checks : List (Bool × Cause) := [
    (p == some .opcodeUndefined, .opcodeUndefined),
    (experimental o.op && !s.stepped k, .opcodeStepping),
    (p == some .opcodeRemoved, .opcodeRemoved),
    (s.here.absent o.slot, .engineAbsent),
    (p == some .formatInvalid, .formatInvalid),
    (p == some .privileged, .privileged),
    (transferOp o.op && misplaced, .transferPlace),
    ((endOp o.op || commitOp o.op) && !bd.hd.eob, .commitPlace),
    (endOp o.op && dop.any isCwait, .commitPlace),
    (isCwait o.op && ends, .commitPlace),
    (body && (transferOp o.op || isCwait o.op || o.op == .yield), .loopNest)]
  (checks.find? fun c => c.1).map fun c => c.2

/-- The operations of a bundle, or its first decode fault from its slots. -/
def State.decodeSlots (s : State) (k : Task) (bd : Bundle) : Except Cause (List SlotOp) :=
  let inSlot (x : Except Cause (Option SlotOp)) : Option Instr := match x with
    | .ok (some o) => some o.op
    | _ => none
  let cop := inSlot (bd.direct bd.hd.presC .c 0)
  let dop := inSlot (bd.direct bd.hd.presD .d 0)
  let next : Option Header := match s.codeAt s.cur.tile k (k.pc + 32) with
    | .ok w => some (headerOf (headerWord w))
    | .error _ => none
  (bd.slots k.hcw).foldl (fun acc x => match acc, x with
    | .error c, _ => .error c
    | .ok _, .error c => .error c
    | .ok os, .ok none => .ok os
    | .ok os, .ok (some o) =>
      match s.slotCause k bd cop dop next o with
      | some c => .error c
      | none => .ok (os ++ [o])) (.ok [])

/-- `brk` stands in a bundle with a stall (R47). -/
def Bundle.brkStalls (bd : Bundle) : Bool :=
  match bd.direct bd.hd.presC .c 0 with
  | .ok (some o) => (match o.op with
      | .brk _ => true
      | _ => false) && bd.hd.stall != 0
  | _ => false

/-- The bundle is the last of the loop body (R161). -/
def Task.bodyEnd (k : Task) : Bool := k.regs.loop.any fun l => l.armed && l.done + 1 == l.len

/-- The checks of R76 from BUNDLE_RESERVED on; LOOP_NEST for a body's last bundle that is not an E bundle after those of every
slot (log 72), and a seal's `len` after its other fields (log 31). -/
def State.checkBundle (s : State) (k : Task) (bd : Bundle) : Except Cause (List SlotOp) :=
  if !bundleReservedOk bd.word || bd.brkStalls then .error .bundleReserved
  else
    match s.decodeSlots k bd with
    | .error c => .error c
    | .ok os =>
      if k.bodyEnd && !bd.hd.eob then .error .loopNest
      else
        match bd.sealWord with
        | none => .ok os
        | some w =>
          if !(sealOf w).ok then .error .sealFormat
          else if (sealOf w).len.toNat != k.blk.idx then .error .blockLength
          else .ok os

/-! ### Issue -/

/-- A start that stops the task. -/
def Stop.stops : Stop → Bool
  | .hold _ => false
  | _ => true

/-- A loop whose body begins with the block that is entered (R161). -/
def Task.arm (k : Task) : Task :=
  match k.regs.loop with
  | some l =>
    if l.armed then k
    else { k with loopBuf := [], regs := { k.regs with loop := some { l with armed := true, body := k.pc } } }
  | none => k

/-- An armed `inj` counts the bundles that issue, outside a replay or re-run; at its distance it names this bundle (R180, R357). -/
def Task.countInj (k : Task) : Task :=
  match k.inj with
  | some i =>
    if i.left == 0 || k.blk.replay || 1 < k.blk.run then k
    else if i.left == 1 then { k with inj := some { i with left := 0, blk := k.ord } }
    else { k with inj := some { i with left := i.left - 1 } }
  | none => k

/-- The place of a run in the order of R236, taken when its first bundle first comes to issue (log 55). -/
def State.placeRun (s : State) (t : Nat) (k : Task) : State :=
  let k := if k.blk.birth == 0 then { k with blk := { k.blk with birth := s.serial } } else k
  { s.putTask t k with serial := s.serial + 1 }

/-- The tile on the beat of a bundle: at a block boundary its failed instances are marked and a loop is bound. -/
def State.approach (s : State) (t b : Nat) : State :=
  let s := s.modTile t fun x => x.toBeat b
  match (s.tile t).task with
  | none => s
  | some k =>
    let s := if k.betweenBlocks then (s.boundary t k.part).placeRun t k.arm else s
    { s with cur := { tile := t, slot := .c, idx := k.blk.idx, addr := k.pc, ord := k.ord, rot := 0, beat := b
                      round := k.regs.round, eob := false, late := false } }

/-- The block entered, if this is its first bundle (R168, R175). -/
def State.enterBlock (s : State) : State :=
  let k := s.me
  s.setMe (if k.betweenBlocks then k.enter k.pc else k).countInj

/-- One operation of the bundle: it starts, it waits for its start delay, or it waits for the block's commit (R50,
R70). -/
def State.startSlot (s : State) (bd : Bundle) (o : SlotOp) : Except Stop State :=
  if bd.hd.eob && commitOp o.op then
    .ok (s.modMe fun k => { k with blk := { k.blk with eOp := some o.op, eDelay := o.delay } })
  else if o.delay == 0 then (startOp o.op (s.at_ o)).map State.spendInj
  else
    .ok (s.modMe fun k => { k with delayed := k.delayed ++
      [{ due := s.cur.beat + o.delay, blk := k.blk.seq, ord := s.cur.ord, slot := o.slot, idx := s.cur.idx
         op := o.op, addr := s.cur.addr, round := s.cur.round }] })

/-- The operations in slot order, or the slot that does not start and why. -/
def State.startSlots (s : State) (bd : Bundle) (os : List SlotOp) : Except (Slot × Stop) State :=
  os.foldl (fun acc o => match acc with
    | .error e => .error e
    | .ok s => match s.startSlot bd o with
      | .ok s' => .ok { s' with cur := s.cur }
      | .error e => .error (o.slot, e)) (.ok s)

/-- What the loop buffer holds once a bundle of the body has issued (R163). -/
def Task.keepBody (k : Task) (bd : Bundle) : List (Nat × Word256) :=
  if k.regs.loop.any (fun l => l.armed) && (assoc k.loopBuf bd.addr).isNone then
    k.loopBuf ++ [(bd.addr, bd.word)] ++ (match bd.sealWord with
      | some w => [(bd.addr + 32, w)]
      | none => [])
  else k.loopBuf

/-- The task once a bundle has issued on a beat (R49, R65, R68, R161). -/
def Task.issued (k : Task) (b : Nat) (bd : Bundle) : Task :=
  let stall := bd.hd.stall.toNat
  let delay := bd.hd.maxDelay
  let last := k.bodyEnd
  let k := { k with
    loopBuf := k.keepBody bd
    regs := { k.regs with loop := k.regs.loop.map fun l => if l.armed then { l with done := l.done + 1 } else l }
    pc := bd.addr + 32, pcCopy := none, ord := k.ord + 1, nextIssue := b + 1 + stall
    blk := { k.blk with idx := k.blk.idx + 1, relAt := none } }
  match bd.sealWord with
  | none => k
  | some w => { k with blk := { k.blk with
      eAddr := bd.addr, eWord := bd.word, sealWord := w, phase := .compare, compareAt := b + delay
      nextAt := b + 1 + max stall delay, bodyLast := last } }

/-- A bundle whose two syllables of a pair share one instance (R63). -/
def Tile.splitsOn (x : Tile) (os : List SlotOp) : Bool :=
  let has (sl : Slot) : Bool := os.any fun o => o.slot == sl
  (x.splits && has .sa && has .sb) || (x.splitv && has .va && has .vb)

/-- A log record of a pre-emption, where the partition's evt bit asks for one (R280). -/
def State.logPreempt (s : State) (t : Nat) (k : Task) (forced : Bool) : State :=
  if (s.quads.getD k.part {}).evt then
    s.log k.part { cause := if forced then .preemptForced else .preempt, cls := .v, tile := some t
                   task := k.record.taskid, bundle := k.pc }
  else s

/-- A pre-emption taken with its stop beat (R281, R283). -/
def State.takePreempt (s : State) (t f : Nat) (forced : Bool) : State :=
  match (s.tile t).task with
  | none => s
  | some k => (s.logPreempt t k forced).giveUp t f false none

/-- What a bundle that comes to issue, or an operation whose delayed start is due, meets instead: a decode fault, of an E bundle or
not; a pre-emption taken at its P mark; a slot that does not start, and the `inj` that has fired by then; or a delayed start that
does not come about. -/
inductive Halt where
  | decode (c : Cause) (eob : Bool)
  | preempt
  | slot (sl : Slot) (eob : Bool) (fired : Option Inj) (e : Stop)
  | late (d : Delayed) (e : Stop)

/-- The hold that it is. -/
def Halt.hold : Halt → Option HoldReason
  | .slot _ _ _ (.hold h) | .late _ (.hold h) => some h
  | _ => none

/-- The bundle at the task's address, which or whose seal cannot be fetched, is an E bundle: the one after a transfer, or one whose
header says so (R276). -/
def State.endsHere (s : State) (t : Nat) (k : Task) : Bool :=
  k.blk.hasXfer || match s.codeAt t k k.pc with
    | .ok w => (headerOf (headerWord w)).eob
    | .error _ => false

/-- `inj`. -/
def isInj : Instr → Bool
  | .inj _ _ _ _ => true
  | _ => false

/-- The `inj` that has fired in a bundle of which a slot stops the task: its target comes no later than that slot, and starts with
the bundle; one that the bundle replaces does not fire (R307, R357). -/
def Task.firedBy (k : Task) (bd : Bundle) (os : List SlotOp) (sl : Slot) : Option Inj :=
  k.countInj.inj.filter fun i =>
    i.left == 0 && i.blk == k.ord && decide (i.slot ≤ sl.code) && !(os.any fun o => isInj o.op)
    && os.any fun o => o.slot.code == i.slot && o.delay == 0 && !(bd.hd.eob && commitOp o.op)

/-- An `inj` whose target slot a bundle leaves empty is spent with it (R180, R181). -/
def State.spendEmpty (s : State) (os : List SlotOp) : State :=
  s.modMe fun k => match k.inj with
    | some i => if i.left == 0 && i.blk == s.cur.ord && !(os.any fun o => o.slot.code == i.slot) then k.fire i s.cur.addr false
                else k
    | none => k

/-- The second cycle of a bundle that splits: the hold line covers it (R51, R63, R152). -/
def State.splitCycle (s : State) (t : Nat) : State :=
  (s.busyHold t 1).modTile t fun x => { x with held := x.held + 1, watch := x.watch + 1 }

/-- A bundle that comes to issue on beat b, at a tile that has approached that beat: it issues, or meets something else. -/
def State.tryIssue (s : State) (t b : Nat) : Except Halt State :=
  let k := s.me
  match s.bundleAt t k with
  | .error c => .error (.decode c (s.endsHere t k))
  | .ok bd =>
    if 256 ≤ k.blk.idx then .error (.decode .blockLength (bd.hd.eob || k.blk.hasXfer))
    else
      let asked := bd.hd.pmark && s.here.req.isSome && !k.blk.hasXfer
      if asked && !bd.hd.eob then .error .preempt
      else
        let s : State := { s with cur := { s.cur with eob := bd.hd.eob } }
        match s.checkBundle k bd with
        | .error c => .error (.decode c bd.hd.eob)
        | .ok os =>
          match s.enterBlock.startSlots bd os with
          | .error (sl, e) => .error (.slot sl bd.hd.eob (k.firedBy bd os sl) e)
          | .ok u =>
            let u := u.spendEmpty os
            let k := u.me.issued b bd
            let k := if asked && k.stop.isNone then { k with stop := some (.preempt false), stopFrom := none } else k
            let u := (u.setMe k).translates (tileUnit t) k.part bd.addr
            let u := if bd.lines.all k.locked.contains then u else u.others (quadOf t)
            let u := u.busyBeats k.part t (1 + bd.hd.stall.toNat)
            .ok (if s.here.splitsOn os then u.splitCycle t else u)

/-- What the tile of a bundle that does not issue goes on with: a fault of an E bundle leaves the state of block entry (R178,
R276). -/
def State.bundleHalts (s : State) (t b : Nat) (h : Halt) : State :=
  match h with
  | .decode c eob => { s with cur := { s.cur with eob := eob } }.decodeAt c
  | .preempt => s.takePreempt t b false
  | .slot sl eob fired e =>
    let s : State := { s with cur := { s.cur with slot := sl, eob := eob } }
    (match fired with
      | some i => if e.stops then s.modMe fun k => k.fire i k.pc false else s
      | none => s).settled (.error e)
  | .late _ _ => s

/-- A bundle that comes to issue on beat b. -/
def State.issue (s : State) (t b : Nat) : State :=
  match s.tryIssue t b with
  | .ok u => u
  | .error h => s.bundleHalts t b h

/-- A chain fault that has surfaced stops the engine no longer (R207). -/
def Task.surfaced (k : Task) (c : Cause) (addr : Nat) : Task :=
  { k with mFault := k.mFault.filter fun f => !(f.cause == c && f.addr == addr) }

/-- A stop that is due takes the place of the next bundle (R275, R276, R281). -/
def State.takeStop (s : State) (t f : Nat) : State :=
  let s := s.modTile t fun x => x.toBeat f
  match (s.tile t).task with
  | none => s
  | some k =>
    match k.stop with
    | none => s
    | some (.fault c cls addr data info) =>
      (s.putTask t (if cls == .u then k.surfaced c addr else k)).abort t
        { cause := c, cls := cls, beat := f, bundle := addr, data := data, info := info, step := k.stopStep }
    | some (.preempt forced) => s.takePreempt t f forced

/-! ### What takes the place of a tile's next beat: forced pre-emption and the watchdog (R282, R283, R288) -/

/-- The beat of the start that a tile holds at, or of its next bundle: the beat that a stop takes (R274, R283). -/
def Tile.heldBeat (x : Tile) (k : Task) : Nat :=
  match x.nextDue with
  | some (b, .delayed) => if x.hold.isSome then min b k.nextIssue else k.nextIssue
  | _ => k.nextIssue

/-- A forced pre-emption is to be taken, or no other stop is due. -/
def Task.forcible (k : Task) : Bool := k.stop.isNone || k.stop == some (.preempt true)

/-- A forced pre-emption: at a held commit step, at the next bundle or the start that holds the tile, or past the E bundle of
the window of R276. -/
def State.force (s : State) (t : Nat) : State :=
  let x := s.tile t
  match x.task with
  | none => s
  | some k =>
    let f := x.heldBeat k
    if x.holdsCommit k then s.takePreempt t x.beat true
    else if k.open_ && k.forcible && x.dues.all (fun d => decide (f ≤ d.1) || d.2.2 == .fill || d.2.2 == .run) then
      (s.modTile t fun x => x.toBeat f).takePreempt t f true
    else s.putTask t { k with stop := some (k.stop.getD (.preempt true)) }

/-- A request that will have been pending for its bound once the tile has come to a beat (R282, R283). -/
def Tile.forcedBy (x : Tile) (k : Task) (b : Nat) : Bool :=
  match x.req with
  | some r => decide (r + k.regs.pbound.toNat ≤ max x.beat b + x.held)
  | none => false

/-- What takes the place of a tile's event due on a beat: the expiry of its watchdog, or a forced pre-emption, where the task
stands at a place that can be left. `late` is that the event is the start of a delayed operation (R283, R288). -/
def State.overtaken (s : State) (t b : Nat) (late : Bool) : Option State :=
  let x := s.tile t
  match x.task with
  | none => none
  | some k =>
    if s.fenced k.part then none
    else
      match s.hangAt t k b with
      | some f =>
        if k.open_ || x.holdsCommit k || (k.blk.phase == .open && x.hold.isSome) then some (s.hang t f) else none
      | none =>
        if (x.forcedBy k b || k.stop == some (.preempt true)) && k.forcible
            && ((k.open_ && (!late || x.hold.isSome || k.nextIssue == b)) || x.holdsCommit k)
            && !(x.dues.any fun d => decide (d.1 < min b k.nextIssue)) then some (s.force t)
        else none

/-- A watchdog or a bound that has run out where the stop has to wait: it becomes due (R276). -/
def State.overdue (s : State) (t b : Nat) : State :=
  let x := s.tile t
  match x.task with
  | none => s
  | some k =>
    if k.open_ || s.fenced k.part then s
    else
      match s.hangAt t k b with
      | some f => s.hang t f
      | none => if x.forcedBy k b && k.stop.isNone then s.putTask t { k with stop := some (.preempt true) } else s

/-! ### `rel` that comes to issue (R145, R146) -/

/-- The logical tick that the bundle at the task's address waits for. -/
def State.relTarget (s : State) (t : Nat) (k : Task) : Option Nat :=
  match s.bundleAt t k, (s.parts.getD k.part {}).frames with
  | .ok bd, some f =>
    match bd.direct bd.hd.presC .c 0 with
    | .ok (some o) => match o.op with
      | .rel n => some (min n.toNat (f.table.len - 1))
      | _ => none
    | _ => none
  | _, _ => none

/-- A lead tile whose next bundle holds a `rel` that comes to issue late, in no replay or re-run and not as the resume bundle of a
block already entered. -/
def State.relLate (s : State) (t : Nat) : Bool :=
  match (s.tile t).task, s.nextDue t with
  | some k, some (_, .issue) =>
    (s.tile t).gangLead.getD t == t && !k.blk.replay && !decide (1 < k.blk.run) && k.blk.resumed != some k.ord
      && match s.relTarget t k with
         | some n => decide (n < (s.frameOf k.part).2)
         | none => false
  | _, _ => false

/-- Lateness that arises on one tick is charged in ascending order of lead tile number: a late `rel` comes to issue when none of a
lower tile of its partition stands late (R146). -/
def State.relTurn (s : State) (t : Nat) : Bool :=
  !s.relLate t
  || !(s.tilesOf (s.partOf (quadOf t))).any fun u => match s.logicalOf u, s.logicalOf t with
      | some a, some b => decide (a < b) && s.relLate u
      | _, _ => false

/-- The next bundle of a tile, or the stop that takes its place. -/
def State.bundleIssue (s : State) (t : Nat) : State :=
  match (s.tile t).task, s.nextDue t with
  | some k, some (b, d) =>
    if !s.mayStop t k then s
    else
      match d with
      | .stop => s.takeStop t b
      | .issue =>
        if k.blk.relAt.isSome then s
        else
        match s.overtaken t b false with
        | some u => u
        | none =>
          let u := (s.overdue t b).approach t b
          if k.awaits then s.raiseHold t .context
          else if !s.relTurn t then s
          else if (u.tile t).life == .retiring && k.betweenBlocks then u else u.issue t b
      | _ => s
  | _, _ => s

/-- BUNDLE_ISSUE (R76). -/
def execBundleIssue (t : Nat) (s : State) : Host.Outcome State Fault Refusal := happensAt t s (s.bundleIssue t)

/-! ### Delayed starts (R50, R274) -/

/-- Delayed operations in program order. -/
def inOrder (ds : List Delayed) : List Delayed :=
  ds.insertionSort fun x y => x.ord < y.ord || (x.ord == y.ord && decide (x.slot.code ≤ y.slot.code))

/-- A delayed operation without its place among the pending starts. -/
def Task.undelay (k : Task) (d : Delayed) : Task := { k with delayed := k.delayed.erase d }

/-- What the operation records for its block, kept to that block: one that starts after its block has ended leaves
the record of the next one alone (log 7). -/
def Task.lateStart (k after : Task) : Task :=
  { after with blk := { after.blk with
      seq := k.blk.seq, folds := k.blk.folds, reads := k.blk.reads, writes := k.blk.writes
      pendingRead := k.blk.pendingRead } }

/-- The state in which a delayed operation starts on beat b. -/
def State.lateCtx (s : State) (t b : Nat) (k : Task) (d : Delayed) : State :=
  { s with cur := {
      tile := t, slot := d.slot, idx := d.idx, addr := d.addr, ord := d.ord, rot := 0, beat := b, round := d.round
      eob := d.blk == k.blk.seq && k.blk.phase != .open && d.addr == k.blk.eAddr, late := true
      older := d.blk != k.blk.seq } }

/-- The start of a delayed operation. -/
def State.tryDelayed (s : State) (t b : Nat) (k : Task) (d : Delayed) : Except Stop State :=
  let s := s.lateCtx t b k d
  let go := s.setMe { k.undelay d with blk := { k.blk with seq := d.blk } }
  match (startOp d.op go).map State.spendInj with
  | .error e => .error e
  | .ok u => if d.blk == k.blk.seq then .ok u else .ok (u.setMe (k.lateStart u.me))

/-- A delayed operation enters its block's record with the registers as they stand, as it would on its start (R73, R176, log 7). -/
def State.recordStart (s : State) (d : Delayed) : State :=
  match directLineage d.op with
  | none => s
  | some l =>
    let go : State := { s with cur := { s.cur with slot := d.slot, idx := d.idx, ord := d.ord, addr := d.addr, late := true } }
    match (go.modMe fun k => { k with locks := [], regs := { k.regs with debug := false } }).begin l.opc
        (destcodeOf l.dests.head?) l.dests l.srcs l.pq true l.more with
    | .ok o => s.modMe fun k => { k with
        inj := o.st.me.inj, injHits := o.st.me.injHits
        blk := { k.blk with
          folds := o.st.me.blk.folds, reads := o.st.me.blk.reads, writes := o.st.me.blk.writes
          pendingRead := o.st.me.blk.pendingRead } }
    | .error _ => s

/-- A fault that a delayed operation finds in the window of R276, in which no stop is taken: it stays a pending start, enters the
record of its block, and the stop is due once the comparison has passed (R274, R276). -/
def State.catchLate (s : State) (t b : Nat) (k : Task) (d : Delayed) (c : Cause) (cls : FaultClass) (addr data step : Nat) : State :=
  let u := if d.blk == k.blk.seq then (s.lateCtx t b k d).recordStart d else s
  u.modTile t fun x => { x with task := x.task.map fun k => { k with
    delayed := k.delayed.map fun y => if y == d then { y with caught := true } else y
    stop := some (k.stop.getD (.fault c cls addr data 0)), stopFrom := if k.stop.isSome then k.stopFrom else none
    stopBlk := if k.stop.isSome then k.stopBlk else some d.blk, stopStep := if k.stop.isSome then k.stopStep else step } }

/-- A delayed operation that does not start: it holds, it stops its task, or its fault is deferred past an E bundle that it does
not belong to. An `inj` that it was the target of has fired (R274, R276, R307). -/
def State.lateHalts (s : State) (t b : Nat) (d : Delayed) (e : Stop) : State :=
  match (s.tile t).task with
  | none => s
  | some k =>
    let c := s.lateCtx t b k d
    let fired : State := match c.injFires with
      | some i => if e.stops then s.putTask t (k.fire i d.addr false) else s
      | none => s
    let k := ((fired.tile t).task).getD k
    if !k.open_ && !c.cur.eob then
      match e with
      | .fault x data => fired.catchLate t b k d x (Cause.startClass d.slot x) d.addr data 0
      | .late x addr data step _ => fired.catchLate t b k d x .u addr data step
      | _ => (fired.lateCtx t b k d).settled (.error e)
    else (fired.lateCtx t b k d).settled (.error e)

/-- What starts on a beat, in program order: the delayed operations, then the bundle. -/
inductive BeatOp where
  | start (d : Delayed)
  | bundle

/-- One of them comes to its start; a bundle that the beat does not bring changes nothing. -/
def State.tryBeat (s : State) (t b : Nat) (x : BeatOp) : Except Halt State :=
  match (s.tile t).task with
  | none => .ok s
  | some k =>
    match x with
    | .start d => match s.tryDelayed t b k d with
      | .ok u => .ok u
      | .error e => .error (.late d e)
    | .bundle =>
      if k.blk.phase == .open && k.nextIssue == b && k.stop.isNone && s.mayIssue t k then (s.approach t b).tryIssue t b
      else .ok s

/-- What one of them leads to that does not start. -/
def State.beatHalts (s : State) (t b : Nat) (h : Halt) : State :=
  match h with
  | .late d e => s.lateHalts t b d e
  | h => (s.approach t b).bundleHalts t b h

/-- The first of what else starts on a beat that does not, and what it meets; a bundle that waits on `rel` raises no hold line
(R145). -/
def State.restOfBeat (s : State) (t b : Nat) (xs : List BeatOp) : Option (BeatOp × Halt) :=
  match xs.foldl (fun (acc : Except (BeatOp × Halt) State) x => match acc with
    | .error e => .error e
    | .ok u => match u.tryBeat t b x with
      | .ok v => .ok v
      | .error h => if h.hold == some .rel then .ok u else .error (x, h)) (.ok s) with
  | .ok _ => none
  | .error e => some e

/-- The operation whose start is due on a tile. Where it, another operation of the beat or the bundle of the beat stops the
task, none of them takes effect, and all stay pending; the same while one of them holds the tile, unless it is what the first one
does that it holds for (R51, R274). -/
def State.delayedStart (s : State) (t : Nat) : State :=
  match s.dueOf t .delayed, (s.tile t).task with
  | some b, some k =>
    match inOrder (k.delayed.filter fun d => d.due == b && !d.caught) with
    | [] => s
    | d :: rest =>
      if s.fenced k.part then s
      else
        match s.overtaken t b true with
        | some u => u
        | none =>
          let s := s.modTile t fun x => x.toBeat b
          if k.awaits then s.raiseHold t .context
          else
            match s.tryBeat t b (.start d) with
            | .error h => s.beatHalts t b h
            | .ok u =>
              match u.restOfBeat t b (rest.map .start ++ [.bundle]) with
              | none => u
              | some (x, h) =>
                if h.hold.isNone then s.beatHalts t b h
                else
                  match s.tryBeat t b x with
                  | .error g => if g.hold.isSome then s.beatHalts t b g else u
                  | .ok _ => u
  | _, _ => s

/-- DELAYED_START (R50). -/
def execDelayedStart (t : Nat) (s : State) : Host.Outcome State Fault Refusal := happensAt t s (s.delayedStart t)

/-! ### Results that land (R52, R275) -/

/-- Everything that lands on a tile at the end of a beat, also in what pending paired blocks would restore; an arithmetic trap stops
the task on the beat after (R155, R275). -/
def State.landOn (s : State) (t b : Nat) (k : Task) : State :=
  let x := k.landed b
  let y := k.takeLandings b x
  ((s.modTile t fun u => u.toBeat b).putTask t (match x.cause with
    | some (c, l) => { y with stop := some (.fault c .a l.addr 0 0), stopFrom := some (b + 1), stopBlk := some l.blk, stopStep := 0 }
    | none => y)).modTile t fun u => { u with
      pairPend := u.pairPend.map fun p => { p with before := { p.before with
        regs := x.regsBefore p.before.blk.seq p.before.regs } } }

/-- The results that are due on a tile land, where its watchdog has not expired by that beat (R274, R288). -/
def State.resultLands (s : State) (t : Nat) : State :=
  match s.dueOf t .land, (s.tile t).task with
  | some b, some k =>
    match s.expired t b with
    | some f => s.hang t f
    | none => s.landOn t b k
  | _, _ => s

/-- RESULT_LANDS (R52). -/
def execResultLands (t : Nat) (s : State) : Host.Outcome State Fault Refusal := happensAt t s (s.resultLands t)

end Sys2Proof.Machine
end

