-- ==== Sys2Proof/Machine/Commit.lean ====
section
/-! DEFINITION. The end of a block: the seal comparison, replay, the order point with its re-run, and the commit steps of
R70 (spec 03 R70, R73; 06 R112, R115-R121; 07 R148, R154, R155; 08 R161, R169-R179; 11 R234-R237; 13 R276, R277;
22 R311, R349-R351; 24 R416, R417, R424, R452). -/

namespace Sys2Proof.Machine

open Host (Cell)

/-! ### The seal comparison (R172-R176) -/

/-- The tile on the comparison beat of its block. -/
def State.atSeal (s : State) (t c : Nat) : State :=
  let s := s.modTile t fun x => x.toBeat c
  match (s.tile t).task with
  | none => s
  | some k => { s with cur := { tile := t, slot := .d, idx := k.blk.idx - 1, addr := k.blk.eAddr, ord := k.ord - 1
                                rot := 0, beat := c, eob := true, late := false } }

/-- Starts of the block that are still pending enter its record as they would start on this beat (log 7). -/
def State.foldPending (s : State) : State :=
  (inOrder (s.me.delayed.filter fun d => d.blk == s.me.blk.seq && !d.caught)).foldl (fun s d => s.recordStart d) s

/-- The block's record complete, with the operation of R69 of its E bundle: the block, and the `inj` and its firings as that leaves
them. -/
def State.closeFold (s : State) : Except Stop (Block × Option Inj × List InjHit) :=
  let u := s.foldPending
  let out (k : Task) : Block × Option Inj × List InjHit := (k.blk, k.inj, k.injHits)
  match u.me.blk.eOp with
  | none => .ok (out u.me)
  | some i => (u.beginD i).map fun o => out o.st.me

/-- The live-in masks name a register (R66, R176). -/
def sealNames (x : Seal) (code : Nat) : Bool :=
  if code < 64 then x.liveS.getLsbD code
  else if code < 128 then x.liveV.getLsbD (code - 64)
  else if code < 192 then x.liveA.getLsbD (code - 128)
  else if code < 200 then x.liveQ.getLsbD (code - 192)
  else true

/-- The block's successor, and whether it counts as taken: a loop-back, a transfer that is taken, or the next block
(R68, R161, R163). -/
def Task.successor (k : Task) : Bool × Nat :=
  let next := (k.blk.eAddr + 64) % 2 ^ 52
  if k.blk.bodyLast && k.regs.loop.any (fun l => decide (1 < l.count)) then
    (true, match k.regs.loop with
      | some l => l.body
      | none => next)
  else
    match k.blk.taken with
    | some a => (true, a)
    | none => (false, next)

/-- The block ends its task with `done` or `trap`. -/
def BlockEnd.terminal : BlockEnd → Bool
  | .done | .trap _ => true
  | _ => false

/-- The successor passes the seal (R172, R173). -/
def Task.successorOk (k : Task) (x : Seal) : Bool :=
  match x.smode.toNat with
  | 0 => let (taken, a) := k.successor
         digest a == (if taken then x.digT else x.digF)
  | 1 => true
  | _ => k.blk.ending.terminal

/-- What the comparison finds. -/
inductive Verdict where
  | pass | unnamed | persist
  | miss (fold succ : Bool)
deriving DecidableEq, Repr

/-- The comparison of a block's record with its seal: the live-in masks first, then fold and successor; with a pending
read, any mismatch persists (R169, R172, R176, log 33). -/
def Task.judge (k : Task) (x : Seal) : Verdict :=
  let foldMiss := foldBefore k.blk.folds 1000 != x.fold
  let succMiss := !k.successorOk x
  if k.blk.reads.any fun c => !sealNames x c then .unnamed
  else if !foldMiss && !succMiss then .pass
  else if k.blk.pendingRead then .persist
  else .miss foldMiss succMiss

/-- The stop of a block at its seal: class B, in the state of block entry (R176, R177). -/
def State.sealStop (s : State) (t c : Nat) (k : Task) (why : Cause) : State :=
  (s.takeBack t (k.rollback (some (sealOf k.blk.sealWord)))).abort t
    { cause := why, cls := .b, beat := c, bundle := k.blk.eAddr }

/-- A counted transient (R179): stamps that are too old are dropped, and the third retires the tile. -/
def State.transient (s : State) (t : Nat) (k : Task) : State :=
  let x := k.blk.missAt
  let old := (s.tile t).stamps.filter fun y => decide (x ≤ y + 2 ^ 40)
  let full := decide (2 ≤ old.length)
  let held := if full then old else old ++ [x]
  let s := s.modTile t fun y => if full then { y with stamps := held }.retire else { y with stamps := held }
  s.log k.part { cause := .transient, cls := .v, transient := true, tile := some t, task := k.record.taskid
                 bundle := k.blk.eAddr, a := x, b := held.length }

/-- A replayed block that matches is charged to the member whose comparison differed, unless an `inj` that took another register in
it caused it (R148, R177, R179, R307). -/
def State.chargeReplay (s : State) (t : Nat) (k : Task) : State :=
  if k.blk.replay && k.blk.blame && !(k.injHits.any (·.bad)) then s.transient t k else s

/-! ### The successor (R68, R161) -/

/-- The task with the successor that its block leads to: the loop's count falls at the end of its body. -/
def Task.proceed (k : Task) : Task :=
  let (_, a) := k.successor
  let loop := if k.blk.bodyLast then k.regs.loop.bind fun l =>
      if 1 < l.count then some { l with count := l.count - 1, done := 0 } else none
    else k.regs.loop
  { k with
    pc := a
    pcCopy := match k.blk.taken, k.blk.takenCopy with
      | some b, some w => if a == b then some (b, w) else none
      | _, _ => none
    loopBuf := if loop.isNone then [] else k.loopBuf
    regs := { k.regs with loop := loop } }

/-- Step 4 of R70: the block is over, and the successor's first bundle is due. -/
def State.finishBlock (s : State) (t : Nat) : State :=
  match (s.tile t).task with
  | none => s
  | some k =>
    let s := s.logInject t k k.blk.replay
    let s := s.putTask t { k with
      ckpt := none, injHits := [], nextIssue := k.blk.nextAt, blk := { seq := k.blk.seq + 1 } }
    (s.modTile t fun x => { x with watch := 0 }).runHeld

/-! ### Replay and re-run (R177, R235) -/

/-- The block issues again 16 beats after its comparison (R177, R235). A stop that is due waits for a comparison of the block
that passes; one that an operation of the block itself has raised is dropped, since the operation will raise it again
(R276, R281, log 56). -/
def Task.again (k : Task) : Task :=
  let own := k.stop.isSome && k.stopBlk == some k.blk.seq
  { k.rollback (some (sealOf k.blk.sealWord)) with
    nextIssue := k.blk.compareAt + 16, pcCopy := none
    stop := if own then none else k.stop, stopFrom := if own then none else k.stopFrom
    stopBlk := if own then none else k.stopBlk, stopHeld := k.stop.isSome && !own }

/-- Every member of the tile's gang has come to its comparison. -/
def State.gangSealed (s : State) (t : Nat) (k : Task) : Bool :=
  (s.gangOf t).all fun m => match (s.tile m).task with
    | some y => y.blk.seq == k.blk.seq && y.blk.phase != .open
    | none => true

/-- A mismatched block replays on every member of its gang; a second mismatch stops the task (R148, R177). -/
def State.blockReplay (s : State) (t : Nat) : State :=
  match (s.tile t).task with
  | none => s
  | some k =>
    if !(k.blk.foldMiss || k.blk.succMiss) || s.fenced k.part || !s.gangSealed t k then s
    else if k.blk.replay then
      s.sealStop t k.blk.compareAt k (if k.blk.foldMiss then .sealPersist else .successor)
    else
      (s.gangOf t).foldl (fun s m => match (s.tile m).task with
        | none => s
        | some y =>
          let differs := y.blk.foldMiss || y.blk.succMiss
          let z := y.again
          s.takeBack m { z with blk := { z.blk with replay := true, blame := y.blk.blame || differs } }) s
/-- BLOCK_REPLAY (R177). -/
def execBlockReplay (t : Nat) (s : State) : Host.Outcome State Fault Refusal := happensAt t s (s.blockReplay t)

/-- A block whose read set has failed runs again, with every member of its gang; the run is no replay, and what a replay had
corrected before it is so (R148, R235, R307). -/
def State.blockRerun (s : State) (t : Nat) : State :=
  match (s.tile t).task with
  | none => s
  | some k =>
    if !k.blk.stale || s.fenced k.part || !s.gangSealed t k then s
    else
      (s.gangOf t).foldl (fun s m => match (s.tile m).task with
        | none => s
        | some y =>
          let z := y.again
          s.takeBack m { z with
            injHits := y.injHits.map fun h => { h with bad := false, cured := h.cured || (y.blk.replay && h.bad) }
            blk := { z.blk with run := y.blk.run + 1, replay := false } }) s
/-- BLOCK_RERUN (R235). -/
def execBlockRerun (t : Nat) (s : State) : Host.Outcome State Fault Refusal := happensAt t s (s.blockRerun t)

/-! ### The order point: ownership and validation (R235, R236) -/

/-- The bytes of an element entry, by VA, in a tensor without metadata. -/
def plainCells (d : Desc) (old : Nat → Byte) (xs : List (Nat × Nat)) : List (Nat × Byte) :=
  (d.cellsOf old xs).map fun c => (d.base + c.1, c.2)

/-- The bytes that a held effect stores on path O as memory now stands, with their VAs: an entry keeps the PAs of its start, and
its packed elements share a byte with what memory holds (R195, R415, R417). -/
def State.heldBytes (s : State) (h : Held) : List (Nat × Cell) :=
  match h with
  | .store _ va cs | .take _ _ _ _ va cs => cs.map fun c => (cellVa va c.1, c)
  | .entry _ _ d e row col _ cs =>
    if d.withMeta then []
    else
      let xs := entryElems d e row col
      let pas := ((plainCells d (fun _ => 0) xs).map (·.1)).zip (cs.map (·.1))
      let old (o : Nat) : Byte := s.cohByte ((assoc pas (d.base + o)).getD 0)
      ((plainCells d old xs).zip pas).map fun x => (x.1.1, x.2.2, x.1.2)
  | _ => []

/-- A stored byte lies on a memory-side page or in the control range. -/
def State.sideCell (s : State) (t p va pa : Nat) : Bool :=
  isCtrl pa || match s.xlate (tileUnit t) p va with
    | .ok l => l.ms
    | .error _ => false

/-- The bytes of a held effect that go through the stash, and those that go to their slices. -/
def State.splitBytes (s : State) (t p : Nat) (h : Held) : List Cell × List Cell :=
  let (side, own) := (s.heldBytes h).partition fun x => s.sideCell t p x.1 x.2.1
  (own.map (·.2), side.map (·.2))

/-- The stash lines that held effects write. -/
def State.linesToOwn (s : State) (t p : Nat) (hs : List Held) : List Nat :=
  ((hs.map fun h => (s.splitBytes t p h).1.map fun c => lineOf c.1).flatten).dedup

/-- The lines that held effects write at their slices: memory-side ones, and those of entries whose frames have metadata. -/
def State.linesBelow (s : State) (t p : Nat) (hs : List Held) : List Nat :=
  ((hs.map fun h => ((s.splitBytes t p h).2.map fun c => lineOf c.1) ++ match h with
    | .entry _ _ d e row col _ _ =>
      if d.withMeta then (entryBytes d (entryElems d e row col)).filterMap fun va =>
        match s.access (tileUnit t) p va .write with
        | .ok l => some (lineOf l.pa)
        | .error _ => none
      else []
    | _ => []).flatten).dedup

/-- The stamp of the last write of what an entry of the read set names: its line, or a counter's word (R235). -/
def State.writtenAt (s : State) (e : ReadEntry) : Nat :=
  match e.word with
  | some w => (assoc (s.dirLine e.line).words w).getD 0
  | none => (s.dirLine e.line).wts

/-- An entry of the read set is valid: `s` is the state before step 1 of R235, and the tile's clock in `u` is T
(log 36). -/
def State.readValid (s u : State) (t : Nat) (e : ReadEntry) : Bool :=
  s.writtenAt e == e.wts
  || (!e.side && match (s.tile t).lineAt e.line with
      | some y => y.st == .shared && y.wts == e.wts && decide ((u.tile t).clock ≤ y.lease)
      | none => false)

/-- A line of the read set that the tile does not own, whose lease ends before T or which its stash no longer holds. -/
def State.renews (s : State) (t : Nat) (e : ReadEntry) : Bool :=
  !e.side && (s.dirLine e.line).owner != some t && match (s.tile t).lineAt e.line with
    | some y => y.st == .shared && decide (y.lease < (s.tile t).clock)
    | none => true

/-- Leases of the read set that end before T renewed (R235). -/
def State.renewReads (s : State) (t : Nat) (es : List ReadEntry) : State :=
  es.foldl (fun s e => if s.renews t e then (s.request (quadOf t) [e.line]).fillShared t e.line else s) s

/-- The memory-side lines of the read set are read at T: a later write follows it (R235, log 32). -/
def State.readsAt (s : State) (t : Nat) (es : List ReadEntry) : State :=
  es.foldl (fun s e => if e.side then s.readSide t e.line else s) s

/-- The bundle of a held store. -/
def Held.bundle : Held → Option Nat
  | .store b _ _ => some b
  | .entry b _ _ _ _ _ _ _ => some b
  | .take b _ _ _ _ _ => some b
  | .window b _ _ => some b
  | _ => none

/-- A held store of the same operation as another: the rows of a `vst` are one operation. -/
def Held.sameOp (h g : Held) : Bool :=
  match h, g with
  | .store a _ _, .store b _ _ | .window a _ _, .window b _ _ => a == b
  | _, _ => h == g

/-- The bytes of a line that the operation of a held store writes. -/
def State.opCovers (s : State) (hs : List Held) (h : Held) (line : Nat) : Nat :=
  (((hs.filter fun g => h.sameOp g).map fun g => ((s.heldBytes g).filter fun x => lineOf x.2.1 == line).map (·.2.1)).flatten).dedup.length

/-- A line is poisoned for a tile that owns or is to own it, or at its slice. -/
def State.poisonedFor (s : State) (t line : Nat) : Bool :=
  match (s.tile t).lineAt line with
  | some y => y.st == .poisoned
  | none => s.poisoned line

/-- The bytes of a ring line that the operation of a held store writes through the window. -/
def ringCovers (hs : List Held) (h : Held) (line : Nat) : Nat :=
  (((hs.filter fun g => h.sameOp g).map fun g => ((g.cells true).filter fun c => c.1 / 128 == line).map (·.1)).flatten).dedup.length

/-- The first store that finds its line poisoned, which neither it nor a store before it in the block writes whole: its bundle and
its address (R212, R225, R232, R416). -/
def State.storePoison (s : State) (t : Nat) (hs : List Held) : Option (Nat × Nat) :=
  hs.zipIdx.findSome? fun (h, i) => h.bundle.bind fun b =>
    let past := hs.take i
    match (s.heldBytes h).find? fun x =>
        s.poisonedFor t (lineOf x.2.1) && (h :: past).all fun g => decide (s.opCovers hs g (lineOf x.2.1) < 128) with
    | some x => some (b, x.1)
    | none =>
      match (h.cells true).find? fun c =>
          (s.tile t).ringPoison.contains (c.1 / 128) && (h :: past).all fun g => decide (ringCovers hs g (c.1 / 128) < 128) with
      | some c => some (b, windowBase + c.1)
      | none => none

/-- Poison of lines that one operation of the block writes whole is cleared (R225). -/
def State.clearCovered (s : State) (t : Nat) (hs : List Held) : State :=
  let whole (l : Nat) : Bool := hs.any fun h => decide (128 ≤ s.opCovers hs h l)
  let s := if s.poison.isEmpty then s else { s with poison := s.poison.filter fun l => !whole l }
  if (s.tile t).ringPoison.isEmpty then s
  else s.modTile t fun x => { x with ringPoison := x.ringPoison.filter fun l => !hs.any fun h => decide (128 ≤ ringCovers hs h l) }

/-! ### Step 1 of R70: held effects apply (R174) -/

/-- Bytes stored to a line of the tile's stash at its clock (R212, R213). -/
def State.storeLine (s : State) (t line : Nat) (cs : List Cell) : State :=
  let s := s.fillOwned t line
  match (s.tile t).lineAt line with
  | none => s
  | some y =>
    let w := (s.tile t).clock
    let old := (s.dirLine line).wts
    let s := s.modTile t fun x => (x.restamp line old w).putLine { y with st := .dirty, wts := w, data := patchLine line y.data cs }
    let s := s.setDir { s.dirLine line with wts := w, owner := some t }
    { s with clockMax := max s.clockMax w }

/-- A held effect's bytes stored on path O: stash lines in the tile, memory-side lines at their slices (R213, R223). -/
def State.storeHeld (s : State) (t p : Nat) (h : Held) : State :=
  let (own, side) := s.splitBytes t p h
  let s := ((own.map fun c => lineOf c.1).dedup).foldl (fun s l =>
    s.storeLine t l (own.filter fun c => lineOf c.1 == l)) s
  if side.isEmpty then s else s.lowWrite side

/-- Bytes by VA put into a task's private lines (R253). -/
def putPriv (ls : List PrivLine) (cs : List (Nat × Byte)) : List PrivLine :=
  cs.foldl (fun ls c =>
    let base := c.1 / 128 * 128
    let i := c.1 % 128
    let old : PrivLine := (ls.find? fun l => l.va == base).getD { va := base, mask := 0, data := 0 }
    let new : PrivLine := { old with mask := old.mask ||| (1#128 <<< i), data := patchLine 0 old.data [(i, c.2)] }
    if ls.any fun l => l.va == base then ls.map fun l => if l.va == base then new else l else ls ++ [new]) ls

/-- The registers of a tile's task changed for good: also in the checkpoint, and in what blocks whose agreement is
pending would restore. -/
def State.modRegsAt (s : State) (t : Nat) (f : Regs → Regs) : State :=
  s.modTile t fun x => x.everyTask fun k => { k with regs := f k.regs, ckpt := k.ckpt.map f }

/-- The stash line at a VA that `sflush` or `sinv` acts on; a line in the window, without a translation or not held is
skipped (R214). -/
def State.maintained (s : State) (t p va : Nat) : Option StashLine :=
  if inWindow va then none
  else match s.xlate (tileUnit t) p va with
    | .ok l => (s.tile t).lineAt (lineOf l.pa)
    | .error _ => none

/-- The VAs of the lines from an address. -/
def lineVas (va n : Nat) : List Nat := (List.range n).map fun i => (va + 128 * i) % 2 ^ 64

/-- A drain-queue entry leaves its queue (R417). -/
def Regs.leave (r : Regs) (q : BitVec 2) : Regs :=
  r.setDrain q { r.drain q with leaving := (r.drain q).leaving - 1 }

/-- The entry of a drain queue that a merge round keeps private, or holds where its tensor has metadata (R253, log
37). -/
def State.entryPrivate (s : State) (t : Nat) (k : Task) (d : Desc) (e : DrainEntry) (xs : List (Nat × Nat))
    (wcw : Nat) : State :=
  if d.withMeta then s.holdMerge k.part k.record.taskid (.entry d xs e.off wcw)
  else
    let old (o : Nat) : Byte := (k.privByte (d.base + o)).getD (match s.access (tileUnit t) k.part (d.base + o) .read with
      | .ok l => s.cohByte l.pa
      | .error _ => 0)
    s.putTask t { k with priv := putPriv k.priv (plainCells d old xs) }

/-- One held effect applies, or the fault that it finds with its bundle and its address. -/
def State.applyHeld (s : State) (t : Nat) (h : Held) : Except (Cause × Nat × Nat) State :=
  match (s.tile t).task with
  | none => .ok s
  | some k =>
    let p := k.part
    match h with
    | .store _ va cs =>
      if s.inRound k then .ok (s.putTask t { k with priv := putPriv k.priv (cs.map fun c => (cellVa va c.1, c.2)) })
      else .ok (s.storeHeld t p h)
    | .window _ _ cs => .ok (s.modTile t fun x => x.writeRing cs)
    | .entry b q d e row col wcw _ =>
      let xs := entryElems d e row col
      let done (s : State) : State := s.modRegsAt t fun r => r.leave q
      if s.inRound k then .ok (done (s.entryPrivate t k d e xs wcw))
      else if !d.withMeta then .ok (done (s.storeHeld t p h))
      else
        match s.writeElems (tileUnit t) p d xs e.off wcw with
        | .error (c, va) => .error (c, b, va)
        | .ok u => .ok (done u)
    | .take _ port ch n _ _ =>
      let c := port * 32 + ch
      .ok ((s.storeHeld t p h).freeSkew port ch (min n (k.regs.taken c)) |>.modRegsAt t fun r =>
        r.setTaken c (r.taken c - n))
    | .publish g => .ok (s.modRegsAt t fun r => r.setRing g (r.ring g).publish)
    | .release g => .ok (s.modRegsAt t fun r => r.setRing g (r.ring g).release)
    | .ringCfg n v =>
      let g : BitVec 3 := BitVec.ofNat 3 n
      .ok ((s.modRegsAt t fun r => r.setRing g ((r.ring g).configure v)).trimStash t)
    | .flush va n => .ok ((lineVas va n).foldl (fun s a => match s.maintained t p a with
        | some l => if l.st == .dirty then (s.writeBack l).modTile t fun x => x.setLine { l with st := .owned } else s
        | none => s) s)
    | .inval va n => .ok ((lineVas va n).foldl (fun s a => match s.maintained t p a with
        | some l => s.evict t l
        | none => s) s)

/-- A held write of a ring register. -/
def Held.isConfig : Held → Bool
  | .ringCfg _ _ => true
  | _ => false

/-- Held effects in program order, the writes of ring registers after all others (R174, R404). -/
def State.applyAll (s : State) (t : Nat) (hs : List Held) : Except (Cause × Nat × Nat) State :=
  ((hs.filter fun h => !h.isConfig) ++ hs.filter Held.isConfig).foldl (fun acc h => match acc with
    | .error e => .error e
    | .ok s => s.applyHeld t h) (.ok s)

/-- What the order point finds: it waits for a line that another party keeps, it has to obtain lines, the read set has failed, a
store cannot apply, or the held effects have applied. -/
inductive Ordered where
  | waits
  | misses (lines : List Nat)
  | stale (s : State)
  | poisoned (bundle va : Nat) (c : Cause)
  | applied (s : State)

/-- The tile's clock at T: at least every granted write stamp, and above every access of the lines that are written at their
slices (R235, log 32). -/
def State.orderAt (s : State) (t : Nat) (below : List Nat) : State :=
  let at_ := below.foldl (fun m l => max m (max (s.dirLine l).wts (s.dirLine l).rts + 1)) (s.tile t).clock
  { s.modTile t fun x => { x with clock := at_ } with clockMax := max s.clockMax at_ }

/-- Lines written at their slices by a block take its T as their write stamp (R235). -/
def State.stampBelow (s : State) (t : Nat) (below : List Nat) : State :=
  let at_ := (s.tile t).clock
  below.foldl (fun s l =>
    let d := s.dirLine l
    s.setDir { d with wts := at_, words := d.words.map fun w => (w.1, min w.2 at_) }) s

/-- Step 1 of R70 at the order point of R235 for a list of held effects and a read set. -/
def State.orderHeld (s : State) (t : Nat) (b : Block) (hs : List Held) (es : List ReadEntry) : Ordered :=
  match (s.tile t).task with
  | none => .waits
  | some k =>
    let own := if s.inRound k then [] else s.linesToOwn t k.part hs
    let below := if s.inRound k then [] else s.linesBelow t k.part hs
    if (own ++ below).any fun l => s.lineKept t b l || s.heldLines.any fun h => h.line == l then .waits
    else
      let asks := own.filter fun l => (s.dirLine l).owner != some t
        && !((s.tile t).fills.any fun e => e.line == l && e.st != .shared)
      if !asks.isEmpty then .misses asks
      else
        let u := own.foldl (fun u l => u.fillOwned t l) s
        let u := (below.foldl (fun u l => u.recall l) u).orderAt t below
        if es.any fun e => !State.readValid s u t e then .stale u
        else if es.any fun e => u.renews t e && s.lineKept t b e.line then .waits
        else
          let u := (u.renewReads t es).readsAt t es
          match u.storePoison t hs with
          | some (x, va) => .poisoned x va .eccUncorrectable
          | none =>
            match (u.clearCovered t hs).applyAll t hs with
            | .error (c, x, va) => .poisoned x va c
            | .ok v =>
              let v := v.stampBelow t below
              .applied (if b.hasFenceO then v.writeBackAll k.part else v)

/-- A line granted to a tile whose block applies its stores while the tile goes on (R155). -/
def State.grant (s : State) (t line : Nat) : State :=
  let s := (s.request (quadOf t) [line]).fillOwned t line
  s.modTile t fun x => { x with fills := match x.lineAt line with
    | some y => y :: x.fills
    | none => x.fills }

/-- The order point of a block whose agreement was pending: it obtains its lines while the tile goes on. -/
def State.orderNow (s : State) (t : Nat) (b : Block) (hs : List Held) (es : List ReadEntry) : Ordered :=
  match s.orderHeld t b hs es with
  | .misses ls => (ls.foldl (fun u l => u.grant t l) s).orderHeld t b hs es
  | r => r

/-- The partition runs under pairing (R153). -/
def State.paired (s : State) (p : Nat) : Bool := (s.quads.getD p {}).pair

/-! ### Pairing: agreement (R155, R156) -/

/-- A seal whose live-in masks name the registers of some codes. -/
def maskSeal (codes : List Nat) : Seal :=
  let bits (lo n : Nat) : Nat :=
    ((codes.dedup.filter fun c => decide (lo ≤ c) && decide (c < lo + n)).map fun c => 2 ^ (c - lo)).sum
  { sealOf 0 with liveS := BitVec.ofNat 64 (bits 0 64), liveV := BitVec.ofNat 32 (bits 64 32)
                  liveA := BitVec.ofNat 8 (bits 128 8), liveQ := BitVec.ofNat 8 (bits 192 8) }

/-- The task taken back to the entry of a pending block, all of it d beats later: the registers that it and every later block have
written, and everything that R175 lists in full; operations of earlier blocks continue (R156), and of a stop that is due only what
those have raised stays (R276). -/
def Task.takenBack (k : Task) (p : PairBlock) (later : List PairBlock) (d : Nat) : Task :=
  let seq := p.before.blk.seq
  let own := k.stopBlk.any fun b => decide (seq ≤ b)
  let codes := ((p :: later).map fun x => x.before.blk.writes.map (·.1)).flatten ++ k.blk.writes.map (·.1)
  { p.before with
    regs := (k.regs.restored p.before.regs (some (maskSeal codes))).unpoisoned p.before.mStarted
    landings := k.landings.filter fun l => decide (l.blk < seq)
    delayed := k.delayed.filter fun d => decide (d.blk < seq)
    locks := k.locks.filter fun l => decide (l.blk < seq)
    mq := k.mq.filter fun m => decide (m.blk < seq)
    mFault := k.mFault.filter fun m => decide (m.idx ≤ p.before.mStarted)
    unread := k.unread.filter fun x => decide (x.blk < seq)
    fences := k.fences.map fun f => if seq ≤ f.blk then { f with waitBlk := none } else f
    mills := k.mills, acks := k.acks, record := k.record, locked := k.locked
    stop := if own then none else k.stop, stopFrom := if own then none else k.stopFrom
    stopBlk := if own then none else k.stopBlk, stopStep := k.stopStep, stopHeld := false
    nextIssue := p.before.nextIssue + d
    blk := { p.before.blk with writes := [] } }

/-- A block past its step 1. -/
def Block.committing (b : Block) : Block := { b with phase := .commit, held := [], heldAt := [], readSet := [] }

/-- The members of a tile's gang that hold pending blocks, with the oldest of each. -/
def State.pairHeads (s : State) (t : Nat) : List (Nat × PairBlock) :=
  (s.gangOf t).filterMap fun m => (s.tile m).pairPend.head?.map fun p => (m, p)

/-- The beats by which a gang runs its oldest pending blocks again later than they ran: the same on every member, so that the skews
stay, and 16 beats from now at least (R148, R156). -/
def State.pairShift (s : State) (t : Nat) : Nat :=
  ((s.pairHeads t).map fun x => (s.tile x.1).beat + 16 - x.2.before.nextIssue).foldl max 0

/-- The oldest pending block of a gang and every later one discarded, and executed again on every member: after a disagreement,
which both partners find, with what the partner has sent for them; after a read set that has failed, against the messages that
have come (R148, R156, log 35). -/
def State.redoPair (s : State) (t : Nat) (disagreed : Bool) : State :=
  let d := s.pairShift t
  (s.pairHeads t).foldl (fun s x =>
    let (m, p) := x
    let y := s.tile m
    let s := match y.task with
      | some k => s.takeBack m (k.takenBack p y.pairPend.tail d)
      | none => s
    s.modTile m fun y => { y with
      pairPend := [], pairSeq := p.seq.toNat, pairAgain := disagreed || p.again
      pairIn := if disagreed then y.pairIn.filter fun n => decide (n.seq < p.seq) else y.pairIn }) s

/-- The operation of R69 of a pending block whose held effects have applied, as it starts while its task goes on with later blocks:
it reads the registers as its seal passed, and what it changes of the task itself joins the task as it is now (R154). -/
def State.startPending (s : State) (t : Nat) (k : Task) (p : PairBlock) (i : Instr) : Except Stop State :=
  let a := p.after
  let seq := a.blk.seq
  let old := k.locks.filter fun l => decide (l.blk ≤ seq) && some l.serial != p.lock
  let go : Task := { a with
    locks := old, mills := k.mills, fences := k.fences, mq := k.mq, record := k.record, landings := [], delayed := []
    regs := { a.regs with rings := k.regs.rings, scaleOff := k.regs.scaleOff, debug := false } }
  match startOp i ({ s.putTask t go with cur := p.ctx }) with
  | .error e => .error e
  | .ok u =>
    match (u.tile t).task with
    | none => .ok u
    | some y =>
      let mills (r : Regs) : Regs := { r with
        rings := r.rings.zipIdx.map fun (g, n) =>
          { g with millP := (y.regs.rings.getD n {}).millP, millC := (y.regs.rings.getD n {}).millC }
        scaleOff := r.scaleOff.filter fun o =>
          y.regs.scaleOff.any (fun z => z.1 == o.1) || !k.regs.scaleOff.any fun z => z.1 == o.1 }
      .ok { ((u.putTask t { k with
              locks := (k.locks.filter fun l => some l.serial != p.lock) ++ y.locks.filter (fun l => !old.contains l)
              mills := y.mills, fences := y.fences, mq := y.mq, record := y.record
              landings := k.landings ++ y.landings, regs := mills k.regs, ckpt := k.ckpt.map mills }).modTile t fun x =>
              x.modBefore seq fun k => { k with regs := mills k.regs }) with cur := s.cur }

/-- The oldest pending block of a tile released, its held effects having applied: a task that waits at it goes on with its commit
steps; an operation of R69 starts, or waits (R154, R155). -/
def State.releasePair (s : State) (t : Nat) : State :=
  let x := s.tile t
  match x.pairPend, x.task with
  | p :: _, some k =>
    let pop (s : State) : State := s.modTile t fun y => { y with
      pairPend := y.pairPend.tail, pairIn := y.pairIn.filter fun n => n.seq != p.seq }
    if p.stays then pop (s.putTask t ({ k with blk := k.blk.committing }).proceed)
    else
      match p.after.blk.eOp with
      | none => pop s
      | some i =>
        match s.startPending t k p i with
        | .ok u => pop u
        | .error (.hold _) => s
        | .error (.fault c d) =>
          s.abort t { cause := c, cls := Cause.startClass .d c, beat := x.beat, bundle := p.ctx.addr, data := d }
        | .error (.after c d) => s.abort t { cause := c, cls := .k, beat := x.beat, bundle := p.ctx.addr, data := d }
        | .error _ => pop s
  | _, _ => s

/-- What the order point of the oldest pending block of a gang finds, all of whose members agree. -/
def State.pairOrder (s : State) (hs : List (Nat × PairBlock)) : Nat × Ordered :=
  hs.foldl (fun acc x => match acc with
    | (n, .applied u) => match u.orderNow x.1 x.2.after.blk x.2.held x.2.readSet with
      | .applied v => (n, .applied v)
      | r => (x.1, r)
    | r => r) (0, .applied s)

/-- The oldest pending block of a tile and of its gang, once the partner's message is there for every member: its effects apply,
or it disagrees (R148, R155, R156). -/
def State.pairStep (s : State) (t : Nat) : State :=
  let x := s.tile t
  let hs := s.pairHeads t
  let answer (h : Nat × PairBlock) : Option PairMsg := (s.tile h.1).pairIn.find? fun m => m.seq == h.2.seq
  let agrees (h : Nat × PairBlock) : Bool := (answer h).any fun m => m.fold == h.2.fold && m.crc == h.2.crc
  match x.pairPend, x.task with
  | p :: _, some k =>
    if p.applied then s.releasePair t
    else if hs.any fun h => (answer h).isSome && !agrees h then
      if hs.any fun h => h.2.again then s.fencePart k.part { cause := .pairDiverge, cls := .f, tile := some t }
      else s.redoPair t true
    else if !hs.all agrees then s
    else
      match s.pairOrder hs with
      | (_, .waits) | (_, .misses _) => s
      | (_, .stale _) => s.redoPair t false
      | (m, .poisoned b va c) => (s.redoPair t false).abort m { cause := c, cls := .s, beat := x.beat, bundle := b, data := va }
      | (_, .applied u) =>
        let u := hs.foldl (fun u h => u.modTile h.1 fun y => { y with
          pairPend := match y.pairPend with
            | q :: rest => { q with applied := true } :: rest
            | [] => [] }) u
        hs.foldl (fun u h => u.releasePair h.1) u
  | _, _ => s

/-- Every pending block of a tile that can be released, in block order. -/
def State.pairCheck (s : State) (t : Nat) : State :=
  (List.range 4).foldl (fun s _ => s.pairStep t) s

/-- A message from the partner for a logical tile (R154). The partner sends the messages of a tile in block order, so what it has
sent before for this block or a later one is of a run that it has discarded. A second copy of a message, which both links may have
carried, changes nothing, and one for a block that has been released is not kept (R156, R299, log 35). -/
def State.pairArrive (s : State) (m : PairMsg) : State :=
  match s.physOf m.tile.toNat with
  | some t =>
    let x := s.tile t
    if !s.paired (s.partOf (quadOf t)) || x.pairIn.contains m then s
    else
      let old := decide (m.seq.toNat + x.pairPend.length < x.pairSeq)
      (s.modTile t fun x => { x with
        pairIn := (x.pairIn.filter fun n => decide (n.seq < m.seq)) ++ if old then [] else [m] }).pairCheck t
  | none => s

/-- No message within 50 µs of a seal fences the partition (R156); a tick is 1/218.75 µs. -/
def State.pairTimeout (s : State) (t : Nat) : State :=
  let s := s.pairCheck t
  match (s.tile t).pairPend with
  | p :: _ =>
    if p.since + 10938 ≤ s.refTick && !((s.tile t).pairIn.any fun m => m.seq == p.seq) then
      s.fencePart (s.partOf (quadOf t)) { cause := .pairDiverge, cls := .f, tile := some t }
    else s
  | [] => s
/-- PAIR_TIMEOUT (R156). -/
def execPairTimeout (t : Nat) (s : State) : Host.Outcome State Fault Refusal := happensAt t s (s.pairTimeout t)

/-! ### Pairing: what a block sends (R154, R155) -/

/-- The 8-byte values of the source registers of a D-slot operation: `cwait` reads one beyond its operands (R346). -/
def Task.sourceBytes (k : Task) (i : Instr) : List Byte :=
  (((dSpec i).srcs.filterMap id ++ dMore i).map fun r => match r with
    | .s n => leBytes 8 (k.regs.sreg n).toNat
    | _ => []).flatten

/-- The bytes of a message's CRC: the address and the data of each buffered store in program order, those of `stq` and `nrecv`
among them, then the D-slot word and its sources (R154, log 35). The rows of a `vst` are one store, at the address of the first
(R439). -/
def Task.pairBytes (k : Task) : List Byte :=
  let w := bundleWord k.blk.eWord .d
  let keys := k.blk.heldAt
  ((k.blk.held.zipIdx.map fun (h, i) =>
    let head (va : Nat) : List Byte := if 0 < i && i < keys.length && keys[i]? == keys[i - 1]? then [] else leBytes 8 va
    match h with
    | .store _ va cs | .window _ va cs | .take _ _ _ _ va cs => head va ++ cs.map (·.2)
    | .entry _ _ d e row col _ _ => head ((entryBytes d (entryElems d e row col)).headD d.base) ++ vecBytes e.data
    | _ => []).flatten)
  ++ leBytes 4 w.toNat
  ++ (match decodeD w with
      | .ok i => k.sourceBytes i
      | .error _ => [])

/-- A block whose task waits at it for the agreement of its partner: steps 2 and 3 come before its successor where it holds a
`cwait` or ends its task (R70, R154, R237, log 35). -/
def Block.stays (b : Block) : Bool := b.eOp.any isCwait || b.ending.terminal || b.ending == .suspend

/-- The lock that stands for a value-returning operation of R69 until it starts (R53, R154). -/
def State.pairLock (s : State) (t : Nat) (k : Task) : Option Lock :=
  match k.blk.eOp with
  | none => none
  | some i => (destsOf i).findSome? fun r => match r with
    | .s n => if n == 0 then none else some {
        reg := n, serial := s.serial, blk := k.blk.seq, ord := k.ord, beat := (s.tile t).beat, tag := 0, value := none
        line := none }
    | _ => none

/-- A block that passes under pairing: its message leaves, and its agreement is pending; step 4 does not wait (R154,
R155). -/
def State.passPaired (s : State) (t : Nat) (k : Task) : State :=
  let x := s.tile t
  let seq : BitVec 48 := BitVec.ofNat 48 x.pairSeq
  let fold := foldBefore k.blk.folds 1000
  let crc := crc32c k.pairBytes
  let back := k.rollback none
  let stays := k.blk.stays
  let before := { back with injHits := if stays then back.injHits else [], blk := { back.blk with writes := k.blk.writes } }
  let lock := if stays then none else s.pairLock t k
  let p : PairBlock := {
    seq := seq, fold := fold, crc := crc, before := before, after := k, ctx := (s.atSeal t k.blk.compareAt).cur
    held := k.blk.held, readSet := k.blk.readSet, again := x.pairAgain, since := s.refTick, stays := stays
    lock := lock.map fun l => l.serial }
  let s : State := { s with serial := s.serial + 1 }
  let s := s.modTile t fun x => { x with pairPend := x.pairPend ++ [p], pairSeq := x.pairSeq + 1, pairAgain := false }
  let s := s.sendPair { tile := BitVec.ofNat 8 ((s.logicalOf t).getD 0), seq := seq, fold := fold, crc := crc }
  if stays then s.putTask t { k with blk := { k.blk with phase := .order, blame := false } }
  else (s.putTask t ({ k with locks := k.locks ++ lock.toList, inj := if k.blk.ending == BlockEnd.yield then none else k.inj }).proceed).finishBlock t

/-- A block whose seal has passed. Under pairing the messages of a gang leave once every member has passed, so that a replay comes
before any message (R148, R156). -/
def State.passSeal (s : State) (t : Nat) (k : Task) : State :=
  let k := { k with stopHeld := false }
  let s := (s.chargeReplay t k).putTask t { k with blk := { k.blk with phase := .order, blame := false } }
  let ready (m : Nat) : Bool := match (s.tile m).task with
    | some y => y.blk.seq == k.blk.seq && y.blk.phase == .order
    | none => true
  if s.paired k.part && (s.gangOf t).all ready then
    ((s.gangOf t).foldl (fun s m => match (s.tile m).task with
      | some y => s.passPaired m y
      | none => s) s).pairCheck t
  else s

/-- The comparison of the block whose last operation starts on this beat; the fifth pending block under pairing
holds the tile (R70, R155, R172). -/
def State.sealComparison (s : State) (t : Nat) : State :=
  match s.dueOf t .compare, (s.tile t).task with
  | some c, some k =>
    if s.fenced k.part || k.blk.foldMiss || k.blk.succMiss then s
    else
      let s := (s.overdue t c).atSeal t c
      let k := s.me
      if s.paired k.part && decide (4 ≤ (s.tile t).pairPend.length) then s.raiseHold t .pairing
      else
        match s.closeFold with
        | .error e => s.settled (.error e)
        | .ok (b, inj, hits) =>
          let armed := k.inj.map fun i => { i with seen := i.seen || inj.isNone }
          let k := { k with blk := b, inj := inj, injHits := hits }
          match k.judge (sealOf b.sealWord) with
          | .pass => s.passSeal t { k with inj := armed }
          | .unnamed => s.sealStop t c k .sealFormat
          | .persist => s.sealStop t c k .sealPersist
          | .miss f x => s.putTask t { k with blk := { b with foldMiss := f, succMiss := x, missAt := c } }
  | _, _ => s
/-- SEAL_COMPARISON (R70). -/
def execSealComparison (t : Nat) (s : State) : Host.Outcome State Fault Refusal := happensAt t s (s.sealComparison t)

/-! ### Steps 2 to 4 of R70 -/

/-- Fields of the yield set that survive: what the masks of R117 name, and for `yield` everything R116 lists. -/
structure SaveSet where
  s : Word64 := BitVec.allOnes 64
  v : BitVec 32 := BitVec.allOnes 32
  a : BitVec 8 := 0
  q : BitVec 8 := BitVec.allOnes 8
  bd : Bool := false

/-- The save masks of `cwait` (R117). -/
def SaveSet.of (m0 m1 : Word64) : SaveSet :=
  { s := m0, v := m1.setWidth 32, a := m1.extractLsb' 32 8, q := m1.extractLsb' 40 8, bd := m1.getLsbD 48 }

/-- The task that a yield set keeps; everything else is as at a task's start (R116, R117). What its fences order goes on to
wait (R240). -/
def Task.kept (k : Task) (m : SaveSet) (resume : Nat) : Task :=
  let z : Regs := {}
  let pick {α : Type} (on : Nat → Bool) (now start : List α) : List α :=
    (now.zip start).zipIdx.map fun (p, i) => if on i then p.1 else p.2
  { record := { k.record with hasctx := true, resume := resume }, part := k.part, gpos := k.gpos
    pc := resume
    fences := k.fences.map fun f => { f with waitBlk := none }
    blk := { seq := k.blk.seq + 1 }
    regs := { z with
      s := pick (fun i => m.s.getLsbD i) k.regs.s z.s, v := pick (fun i => m.v.getLsbD i) k.regs.v z.v
      a := pick (fun i => m.a.getLsbD i) k.regs.a z.a, q := pick (fun i => m.q.getLsbD i) k.regs.q z.q
      bd := if m.bd then k.regs.bd else z.bd, bound := if m.bd then k.regs.bound else z.bound
      vshape := k.regs.vshape, round := k.regs.round, fpflags := k.regs.fpflags, fptrap := k.regs.fptrap
      debug := k.regs.debug } }

/-- Every result in flight landed, beat by beat, and the arithmetic trap that the first of them raises, whatever stop is due
(R52, R452). -/
def Task.landAll (k : Task) : Task × Option (Cause × Landing) :=
  let beats := ((k.landings.map (·.due)).dedup).insertionSort fun a b => a ≤ b
  let out := beats.foldl (fun (acc : Task × Option (Cause × Landing)) b => match acc with
    | (y, none) => y.landBeat b
    | stopped => stopped) ({ k with stop := none, landings := k.landings.map fun l => { l with caught := false } }, none)
  ({ out.1 with stop := k.stop }, out.2)

/-- A fault that is due as a stop. -/
def Task.faultDue (k : Task) : Option StopDue :=
  match k.stop with
  | some (.fault c cls a d n) => some (.fault c cls a d n)
  | _ => none

/-- A fault that a responder has found and that no bundle boundary will take: its record alone (R311). -/
def State.logPending (s : State) (t : Nat) (k : Task) : State :=
  match k.stop with
  | some (.fault c cls addr data info) =>
    s.log k.part { cause := c, cls := cls, tile := some t, task := k.record.taskid, bundle := addr, data := data
                   a := info.toNat }
  | _ => s

/-- What a suspending task leaves behind: its exposed results landed and its yield set saved, with the record that
returns; none where a trap or its context area stops it instead (R116, R117, R286, R452). `carry` is that a fault that is due as a
stop goes with it, and stops it as it returns (log 86); else it is logged alone (R311). -/
def State.leaveTile (s : State) (t c : Nat) (m : SaveSet) (resume : Nat) (carry : Bool) : Option Task × State :=
  match (s.tile t).task with
  | none => (none, s)
  | some k =>
    let (k, trap) := k.landAll
    match trap with
    | some (cause, l) => (none, (s.putTask t k).abort t { cause := cause, cls := .a, beat := c, bundle := l.addr })
    | none =>
      let s := s.flushPeer t
      let y := { k.kept m resume with stop := if carry then k.faultDue else none }
      match s.saveCtx t y .v false with
      | .error (cause, va) => (none, (s.spoilCtx t y).ctxFail t k { cause := cause, cls := .s } cause va)
      | .ok u =>
        let u := u.markLeft k.part k.record.taskid
        (some y, if carry then u else u.logPending t k)

/-- The record of a task that has saved its yield set returns to the commons; until a general slot is free the tile holds, with
nothing left of the task but what has been saved (R121, R452). -/
def State.yieldRecord (s : State) (t : Nat) (b : Block) (y : Task) : State :=
  if s.generalFree y.part then (s.freeTile t).enterCommons y.part y.record .general s.clockMax
  else (s.putTask t { y with blk := { b with phase := .commit, eOp := none, held := [], heldAt := [], readSet := []
                                             yielded := true } }).raiseHold t .yieldSlot

/-- Step 3 of R70 for a `yield`, or the suspension of an atomic in a merge round (R252, R253, R451, R452). -/
def State.yieldTask (s : State) (t c : Nat) (k : Task) : State :=
  if (s.quads.getD k.part {}).tt then (s.putTask t { k with inj := none }).finishBlock t
  else if k.blk.yielded then s.yieldRecord t k.blk k
  else
    match s.leaveTile t c {} k.pc (k.blk.ending == .suspend) with
    | (none, u) => u
    | (some y, u) =>
      let u := u.logInject t k k.blk.replay
      if s.inRound k then
        ((u.holdMerge k.part k.record.taskid (.enqueue y.record false)).mergeSync k.part k).freeTile t
      else u.yieldRecord t k.blk y

/-- The lead of a tile's gang has ended the gang's task for the frame (R351). -/
def State.leadDone (s : State) (t : Nat) : Bool :=
  (s.tile t).gangLead.any fun l => l != t && (s.tile l).task.isNone

/-- Steps 3 and 4 of R70. The `done` of a gang's lead ends its members too (R351). A `trap` stops the task in place of step 4, on the beat of the successor's first bundle; a fault that
a responder has found before it is logged (R311, R424). -/
def State.endBlock (s : State) (t c : Nat) : State :=
  match (s.tile t).task with
  | none => s
  | some k =>
    match if s.leadDone t then .done else k.blk.ending with
    | .go => s.finishBlock t
    | .done => (((s.logInject t k k.blk.replay).logPending t k).flushPeer t).endTask t k |>.runHeld
    | .yield | .suspend => s.yieldTask t c k
    | .trap code =>
      match k.locks.find? fun l => l.blk == k.blk.seq with
      | some l => s.raiseHold t (.lock l.reg)
      | none =>
        let s := (s.logPending t k).putTask t { k with
          stop := some (.fault .trap .k k.blk.eAddr 0 (code.setWidth 64)), stopFrom := none, stopBlk := none }
        s.finishBlock t

/-- Step 2 of R70: the E bundle's operation of R69 starts on the comparison beat, also where a stop is due in place of step 4
(R276, R324, R346). A fault found there stops the task at
once; one of class S is attempted again on revival (R311). -/
def State.commitOp (s : State) (t c : Nat) : State :=
  match (s.tile t).task with
  | none => s
  | some k =>
    let s := s.atSeal t c
    match k.blk.eOp with
    | none => s.endBlock t c
    | some i =>
      match startOp i s with
      | .ok u =>
        let y := u.me
        match y.blk.eState with
        | .waiting => (u.setMe { y with blk := { y.blk with eOp := none } }).endBlock t c
        | _ => u
      | .error (.hold h) => s.raiseHold t h
      | .error (.after x d) => s.skipAt x d
      | .error (.fault x d) =>
        s.abort t { cause := x, cls := Cause.startClass .d x, beat := c, bundle := k.blk.eAddr, data := d }
      | .error e => s.settled (.error e)

/-- The block may reach its order point: its partition is not fenced, its gang has passed, and its partner agrees
(R148, R154, R289). -/
def State.orderReady (s : State) (t : Nat) (k : Task) : Bool :=
  !s.fenced k.part && !k.blk.stale && (s.tile t).pairPend.isEmpty
  && (s.gangOf t).all fun m => match (s.tile m).task with
    | some y => decide (k.blk.seq < y.blk.seq)
        || (y.blk.seq == k.blk.seq && (y.blk.phase == .order || y.blk.phase == .commit))
    | none => true

/-- The members of a tile's gang whose block stands at its order point with the tile's. -/
def State.orderMembers (s : State) (t : Nat) : List Nat :=
  (s.gangOf t).filter fun m => match (s.tile m).task with
    | some y => y.blk.phase == .order
    | none => false

/-- The order point of every member of a gang at once: none of their effects apply where one of them has to wait or has read
what has changed; the member that it is, with what it finds (R148, R235). -/
def State.gangOrder (s : State) (ms : List Nat) : Nat × Ordered :=
  ms.foldl (fun acc m => match acc with
    | (n, .applied u) => match (u.tile m).task with
      | none => (n, .applied u)
      | some k => match u.orderHeld m k.blk k.blk.held k.blk.readSet with
        | .applied v => (m, .applied v)
        | .stale v => (m, .stale (if ms.length ≤ 1 then v else s))
        | r => (m, r)
    | r => r) (0, .applied s)

/-- The order point of a block whose seal has passed, and the commit steps after it. -/
def State.orderStep (s : State) (t c : Nat) : State :=
  match (s.tile t).task with
  | none => s
  | some k =>
    if !s.orderReady t k then s
    else if k.blk.phase == .commit then (if k.blk.eState == .waiting then s.commitOp t c else s)
    else
      let s := s.atSeal t c
      match s.gangOrder (s.orderMembers t) with
      | (m, .waits) => s.raiseHold m .storeApply
      | (m, .misses ls) => s.raiseHold m (.miss ls)
      | (m, .stale u) => u.modTile m fun x => { x with task := x.task.map fun y => { y with blk := { y.blk with stale := true } } }
      | (m, .poisoned b va x) =>
        match (s.tile m).task with
        | none => s
        | some y => (s.takeBack m (y.rollback (some (sealOf y.blk.sealWord)))).abort m
            { cause := x, cls := .s, beat := c, bundle := b, data := va }
      | (_, .applied u) =>
        ((s.orderMembers t).foldl (fun u m => match (u.tile m).task with
          | none => u
          | some y => (u.putTask m ({ y with blk := y.blk.committing }).proceed).clearFills m) u).commitOp t c

/-- The order point that is due on a tile, or what takes its place. -/
def State.orderPoint (s : State) (t : Nat) : State :=
  match s.dueOf t .order with
  | some c =>
    match s.overtaken t c false with
    | some u => u
    | none => if s.awaiting t then s.raiseHold t .context else (s.overdue t c).orderStep t c
  | none => s

/-- ORDER_POINT (R235). -/
def execOrderPoint (t : Nat) (s : State) : Host.Outcome State Fault Refusal := happensAt t s (s.orderPoint t)

end Sys2Proof.Machine
end

