-- ==== Sys2Proof/Machine/TileEvents.lean ====
section
/-! DEFINITION. What comes about on a tile beside its bundles: fills and recalls of stash lines, values that return, the
replies to `cwait`, the release of `rel`, forced pre-emption, the watchdog and retirement (spec 01 R14, R15; 06 R117-R119;
07 R145, R150; 08 R179; 10 R212, R213; 11 R245; 13 R277, R282, R283, R288). -/

namespace Sys2Proof.Machine

/-! ### Stash lines (R212, R213, R236) -/

/-- The access for which a tile holds is a load: it comes to issue, or a delayed start is due; the stores of a block obtain their
lines at its order point. -/
def State.loadHolds (s : State) (t : Nat) (b : Block) : Bool :=
  b.phase == .open || match s.nextDue t with
    | some (_, .delayed) => true
    | _ => false

/-- A line that a held tile has requested arrives: under ownership for a store and in a locked run, else under a lease. It waits
while a locked run keeps it; a locked run keeps what it has obtained (R236). A line that it takes the place of still serves the
access that holds (R213, R308). -/
def State.fillLine (s : State) (t : Nat) (b : Block) (line : Nat) : State :=
  if s.lineKept t b line then s
  else
    let load := s.loadHolds t b
    let old := s.tile t
    let s := s.leaveSlices (quadOf t) [line]
    let s := if load && b.run < 3 then s.fillShared t line else s.fillOwned t line
    let e : ReadEntry := { line := line, wts := (s.dirLine line).wts, side := false }
    s.modTile t fun x => { x with
      asked := x.asked.filter fun l => l != line
      fills := (match x.lineAt line with
        | some y => y :: x.fills
        | none => x.fills) ++ old.stash.filter fun y => y.serves old.clock b.run && (x.lineAt y.line).isNone
      task := x.task.map fun k => if load && 3 ≤ b.run then
          { k with blk := { k.blk with readSet := k.blk.readSet ++ [e] } } else k }

/-- The lines that a tile's held access has requested arrive; where no slice had room for them, they are requested (R308). -/
def State.stashFill (s : State) (t : Nat) : State :=
  match (s.tile t).hold, (s.tile t).task with
  | some (.miss lines), some k =>
    if (s.tile t).asked.isEmpty then s.askLines t lines (s.loadHolds t k.blk)
    else ((s.tile t).asked.foldl (fun s l => s.fillLine t k.blk l) s).runHeld
  | _, _ => s

/-- STASH_FILL (R213). -/
def execStashFill (t : Nat) (s : State) : Host.Outcome State Fault Refusal := happensAt t s (s.stashFill t)

/-- LINE_RECALL (R212): the owner of a line gives it up and keeps a leased copy. -/
def execLineRecall (line : Nat) (s : State) : Host.Outcome State Fault Refusal := heldBack s (s.recall line)

/-! ### Values that return (R53, R277) -/

/-- A responder writes the value of an operation that has not delivered into the context area of its task, which marks it present;
the memory system of the task's partition does it, through quadrant p (R277, log 16). -/
def State.forward (s : State) (e : SavedCtx) (l : Lock) (v : Word64) : State :=
  let p := e.part
  let n := l.reg.toNat
  match s.accessRange p p (e.va + hdrReplies) 8 .write,
      s.accessRange p p (e.va + hdrReplies + 8 + 8 * n) 8 .write with
  | .ok ms, .ok vs =>
    let mask := leNat (ms.map fun x => s.cohByte x.1)
    let s := s.lowWrite ((vs.map (·.1)).zip (leBytes 8 v.toNat))
    s.lowWrite ((ms.map (·.1)).zip (leBytes 8 (mask ||| 2 ^ n)))
  | _, _ => s

/-- A reply reaches the lock it is for, on a tile or in a context area; one whose lock has gone is discarded. -/
def State.deliver (s : State) (r : Reply) : State :=
  let lock (k : Task) : Option Lock := k.locks.find? fun l => l.serial == r.serial
  let s : State := { s with
    replies := s.replies.filter fun x => x.n != r.n
    tiles := s.tiles.map fun x => match x.task, x.task.bind lock with
      | some k, some l => { x.deliverBefore l r.value with task := some (k.deliver l r.value) }
      | _, _ => x }
  s.saved.foldl (fun s e => match lock e.task with
    | some l => s.forward e l r.value
    | none => s) s

/-- A pending reply is delivered. -/
def State.valueDelivery (s : State) (n : Nat) : State :=
  match s.replies.find? fun r => r.n == n with
  | some r => s.deliver r
  | none => s
/-- VALUE_DELIVERY (R53). -/
def execValueDelivery (n : Nat) (s : State) : Host.Outcome State Fault Refusal := heldBack s (s.valueDelivery n)

/-! ### `cwait` (R117-R119, R245) -/

/-- The state of the E bundle's operation set. -/
def State.setEState (s : State) (t : Nat) (k : Task) (e : EState) : State :=
  s.putTask t { k with blk := { k.blk with eState := e } }

/-- A suspension in a merge round: the waiter is held until the close (R253). -/
def State.cwaitMerge (s : State) (t : Nat) (k : Task) (c : CwaitArgs) : State :=
  match s.leaveTile t k.blk.compareAt (SaveSet.of c.mask0 c.mask1) c.resume true with
  | (none, u) => u
  | (some y, u) =>
    let u := u.logInject t k k.blk.replay
    ((u.holdMerge k.part k.record.taskid (.waiter c.pa c.target y.record)).mergeSync k.part k).freeTile t

/-- The slice's answer to a `cwait`: a poisoned counter, which stops the task at the next bundle boundary in class K (R311, R347),
satisfied, no free entry, or a provisional waiter. -/
def State.cwaitAnswer (s : State) (t : Nat) (k : Task) (c : CwaitArgs) : State :=
  let past := { k with blk := { k.blk with eOp := none, eState := .waiting } }
  if s.cohPoisoned (lineOf c.pa) then
    (s.putTask t { past with
      stop := some (k.stop.getD (.fault .eccUncorrectable .k k.blk.eAddr c.va 0)) }).endBlock t k.blk.compareAt
  else if c.target.toNat ≤ leNat (s.lowBytes c.pa 8) then
    ((s.readSide t (lineOf c.pa)).putTask t past).endBlock t k.blk.compareAt
  else if (s.quads.getD k.part {}).tt then s.raiseHold t .cwait
  else if Config.waiterLimit ≤ s.waiterCount (homeSlice c.pa) then
    (s.raiseHold t .cwait).modTile t fun x => match x.task with
      | some y => { x with task := some { y with blk := { y.blk with eState := .cwaitRetry c (x.cyc + 1024) } } }
      | none => x
  else if s.inRound k then s.cwaitMerge t k c
  else
    let w : Waiter := { n := s.serial, pa := c.pa, part := k.part, target := c.target, confirmed := false
                        reached := false, tile := t, record := k.record }
    ({ s with waiters := s.waiters ++ [w], serial := s.serial + 1 }).setEState t k (.cwaitWaiter c w.n)

/-- The reply to a `cwait` that has been sent. -/
def State.cwaitReply (s : State) (t : Nat) : State :=
  match (s.tile t).task with
  | none => s
  | some k =>
    if s.fenced k.part || k.blk.phase != .commit then s
    else
      match k.blk.eState with
      | .cwaitSent c => s.cwaitAnswer t k c
      | _ => s
/-- CWAIT_REPLY (R117, R348). -/
def execCwaitReply (t : Nat) (s : State) : Host.Outcome State Fault Refusal := happensAt t s (s.cwaitReply t)

/-- The tile has held for its 1,024 cycles and presents the `cwait` again (R245). -/
def State.cwaitRetry (s : State) (t : Nat) : State :=
  match (s.tile t).task with
  | none => s
  | some k =>
    match k.blk.eState with
    | .cwaitRetry c due =>
      let n := due - (s.tile t).cyc
      ((s.busyHold t n).setEState t k (.cwaitSent c)).modTile t fun x => { x with held := x.held + n, watch := x.watch + n }
    | _ => s
/-- CWAIT_RETRY (R245). -/
def execCwaitRetry (t : Nat) (s : State) : Host.Outcome State Fault Refusal := happens s (s.cwaitRetry t)

/-- The tile has saved its yield set and confirms its waiter, which is woken at once where its target has been reached
(R117, R118); a task that cannot be saved withdraws it (R286). -/
def State.confirm (s : State) (w : Waiter) (k : Task) (c : CwaitArgs) : State :=
  let rest := fun (s : State) => s.waiters.filter fun x => x.n != w.n
  match s.leaveTile w.tile k.blk.compareAt (SaveSet.of c.mask0 c.mask1) c.resume true with
  | (none, u) => { u with waiters := rest u }
  | (some y, u) =>
    let u := (u.logInject w.tile k k.blk.replay).freeTile w.tile
    let reached := u.waiters.any fun x => x.n == w.n && x.reached
    let w : Waiter := { w with confirmed := true, reached := reached, record := y.record }
    let u : State := { u with waiters := rest u ++ [w] }
    if reached then u.wake w (u.dirLine (lineOf w.pa)).wts else u

/-- The confirmation of a provisional waiter. -/
def State.waiterConfirm (s : State) (n : Nat) : State :=
  match s.waiters.find? fun w => w.n == n with
  | none => s
  | some w =>
    match (s.tile w.tile).task with
    | none => s
    | some k =>
      match k.blk.eState with
      | .cwaitWaiter c m => if m == n && !w.confirmed && !s.fenced k.part then s.confirm w k c else s
      | _ => s
/-- WAITER_CONFIRM (R118). -/
def execWaiterConfirm (n : Nat) (s : State) : Host.Outcome State Fault Refusal := heldBack s (s.waiterConfirm n)

/-! ### The release of `rel` (R145, R146) -/

/-- A bundle that waits on `rel` issues, the beats it has waited being no cycles of the watchdog (R145, R288). -/
def State.relRelease (s : State) (t : Nat) : State :=
  match (s.tile t).task with
  | none => s
  | some k =>
    match k.blk.relAt, s.relTarget t k with
    | some b, some n =>
      if n ≤ (s.frameOf k.part).2 && s.relTurn t && !s.fenced k.part && s.dueOf t .issue == some k.nextIssue then
        ((s.approach t k.nextIssue).issue t k.nextIssue).modTile t fun x =>
          { x with watch := x.watch - (k.nextIssue - b) }
      else s
    | _, _ => s
/-- REL_RELEASE (R145). -/
def execRelRelease (t : Nat) (s : State) : Host.Outcome State Fault Refusal := happensAt t s (s.relRelease t)

/-! ### Forced pre-emption (R282, R283) -/

/-- A request that has been pending for its bound is forced. -/
def State.preemptForced (s : State) (t : Nat) : State :=
  let x := s.tile t
  match x.task with
  | some k => if x.forcedBy k x.beat && !s.fenced k.part then s.force t else s
  | none => s

/-- PREEMPT_FORCED (R283). -/
def execPreemptForced (t : Nat) (s : State) : Host.Outcome State Fault Refusal := happensAt t s (s.preemptForced t)

/-! ### The watchdog (R288) -/

/-- The watchdog of a tile that goes no further: its count has reached the bound (R288). -/
def State.watchdog (s : State) (t : Nat) : State :=
  match (s.tile t).task with
  | none => s
  | some k =>
    match s.hangAt t k (s.tile t).beat with
    | some f => if s.fenced k.part then s else s.hang t f
    | none => s

/-- WATCHDOG_EXPIRY (R288). -/
def execWatchdogExpiry (t : Nat) (s : State) : Host.Outcome State Fault Refusal := happensAt t s (s.watchdog t)

/-! ### Retirement (R14, R15, R179) -/

/-- The spare that takes the place of a tile of a quadrant: the lowest column of row 5 (R14). -/
def State.freeSpare (s : State) (quad : Nat) : Option Nat :=
  ([32, 33, 34, 35].map fun i => quad * 36 + i).find? fun u => (s.tile u).life == .spare

/-- A local index bound to a physical tile, or left unbound. -/
def State.bind (s : State) (quad i : Nat) (u : Option Nat) : State :=
  { s with quads := updAt s.quads quad fun q => { q with mesh := q.mesh.set i (u.map fun t => (meshOf t).setWidth 6) } }

/-- The local index that a physical tile is bound to. -/
def State.localOf (s : State) (t : Nat) : Option Nat := (s.logicalOf t).map fun n => n % 32

/-- The task of a retiring tile is saved, its index i goes to a spare, and the task resumes there with its context, in its place
in its gang; a stop that is due goes with it, and so does an armed `inj` (R16, R179, log 91). -/
def State.moveTask (s : State) (t u i : Nat) (k : Task) : State :=
  let stop := if k.engineStop then none else k.stop
  let k := { k with stopBeat := k.nextIssue, stop := stop, stopFrom := if stop.isNone then none else k.stopFrom
                    record := { k.record with hasctx := true, resume := k.pc } }
  let lead := (s.tile t).gangLead
  match s.saveCtx t k .v true with
  | .error (c, va) => (((s.spoilCtx t k).ctxFail t k { cause := c, cls := .s } c va).bind (quadOf t) i (some u)).modTile u fun x =>
      { x with pairPend := [] }
  | .ok s =>
    let s := (s.freeTile t).bind (quadOf t) i (some u)
    let s := (s.placeTask u k.part k.record ((s.tile u).beat + 1)).modTile u fun x => { x with gangLead := lead }
    match lead with
    | none => s
    | some l =>
      let re (x : Tile) : Tile := if x.gangLead == some t then { x with gangLead := some u } else x
      if l == t then { s with tiles := s.tiles.map re } else s

/-- The islands of a partition are pinned (R151). -/
def State.pinned (s : State) (p : Nat) : Bool :=
  let x := s.parts.getD p {}
  x.frames.isSome || x.pendingStart.isSome

/-- A spare enters service: at full speed in a pinned partition, and switched on in any (R14, R151, R302); what is pending of the
index with its partner goes to it (R154). -/
def State.serve (s : State) (t u p : Nat) : State :=
  let x := s.tile t
  s.modTile u fun y => { y with
    life := .service, stamps := [], point := if s.pinned p || y.point == .off then .p1750 else y.point
    pairPend := x.pairPend, pairIn := x.pairIn, pairSeq := x.pairSeq, pairAgain := x.pairAgain }

/-- A retiring tile that stands at a block boundary, or at the bundle that found no instance, leaves service (R15, R179). -/
def State.retirement (s : State) (t : Nat) : State :=
  let x := s.tile t
  let p := s.partOf (quadOf t)
  let ready := match x.task with
    | none => true
    | some k => (k.betweenBlocks || k.engineStop)
        && (match s.nextDue t with
            | some (_, d) => d == .issue || d == .stop
            | none => true)
  if x.life != .retiring || !ready || s.fenced p then s
  else
    let s := s.log p { cause := .tileRetired, cls := .v, tile := some t, task := match x.task with
      | some k => k.record.taskid
      | none => 0 }
    let i := (s.localOf t).getD 0
    let was := s.logicalOf t
    let s := s.flushPeer t
    let s := match s.freeSpare (quadOf t) with
      | some u =>
        let s := s.serve t u p
        match (s.tile t).task with
        | some k => s.moveTask t u i k
        | none => s.bind (quadOf t) i (some u)
      | none =>
        let s := if (s.quads.getD p {}).tt then s.fencePart p { cause := .tileRetired, cls := .f, tile := some t }
          else match (s.tile t).task with
            | some k => s.giveUp t k.nextIssue true none
            | none => s
        s.bind (quadOf t) i none
    s.modTile t fun y => { y with life := .retired, was := was, pairPend := [], pairIn := [] }
/-- TILE_RETIREMENT (R179). -/
def execTileRetirement (t : Nat) (s : State) : Host.Outcome State Fault Refusal := happensAt t s (s.retirement t)

end Sys2Proof.Machine
end

