-- ==== Sys2Proof/Machine/Engines.lean ====
section
/-! DEFINITION. The engines beside the tiles: copies with the chunk commit protocol and resume tokens, mills, the
reduction engine, write-combining, memory errors and the errors of engines (spec 02 R31, R40; 09 R198-R201; 10 R217,
R224, R225; 11 R251; 12 R261-R270; 13 R289). -/

namespace Sys2Proof.Machine

open Host (Cell)

/-! ### Resume tokens (R264, R265) -/

/-- A halted command that is still held: a mill goes when its task leaves its tile for good (R270). -/
def State.haltedLive (s : State) (r : HaltedRef) : Bool :=
  let has (k : Task) (n : Nat) : Bool := k.mills.any fun m => m.serial == n && m.token.isSome
  match r with
  | .mill _ n => (s.tiles.any fun x => match x.task with
      | some k => has k n
      | none => false) || s.saved.any fun e => has e.task n
  | _ => true

/-- A token for a command that halts on a quadrant, none where 256 are held. Tokens count up from 1 and pass over
those in use (log 39). -/
def State.haltToken (s : State) (quad : Nat) (ref : HaltedRef) : Option (BitVec 16) × State :=
  let q := s.quads.getD quad {}
  let used (x : BitVec 16) : Bool := x == 0#16 || q.halted.any fun h => h.1 == x
  match ((List.range 258).map fun i => q.nextToken + 1 + BitVec.ofNat 16 i).find? fun x => !used x with
  | none => (none, s)
  | some tok =>
    if Config.haltedLimit ≤ (q.halted.filter fun h => s.haltedLive h.2).length then (none, s)
    else (some tok, { s with quads := updAt s.quads quad fun q =>
      { q with halted := q.halted ++ [(tok, ref)], nextToken := tok } })

/-- The cause that a halt records: a translation or a permission is COPY_XLATE. -/
def haltCause (c : Cause) : Cause :=
  match c with
  | .xlateNotpresent | .xlatePerm | .counterAlign => .copyXlate
  | c => c

/-- The log record of a command that halts (R264). -/
def haltRecord (c : Cause) (tok : Option (BitVec 16)) (chunk va : Nat) (tids : BitVec 64) : LogRec :=
  { cause := haltCause c, cls := .e, data := va, a := (tok.getD 0).toNat, b := chunk, c := tids.toNat }

/-- A partition in which engines stand still (R287, R289). -/
def State.engineStill (s : State) (p : Nat) : Bool := s.fenced p || (s.quads.getD p {}).halt

/-! ### Copies (R261-R265, R267) -/

/-- The commands of a copy engine that run and those that have halted. -/
def State.copies (s : State) (e : CopyEngine) : List CopyCmd × List CopyCmd :=
  match e with
  | .tile t => ((s.tile t).copyQ, (s.tile t).copyHalted)
  | .cp q => ((s.quads.getD q {}).copyQ, (s.quads.getD q {}).copyHalted)

/-- The commands of a copy engine set. -/
def State.setCopies (s : State) (e : CopyEngine) (run halted : List CopyCmd) : State :=
  match e with
  | .tile t => s.modTile t fun x => { x with copyQ := run, copyHalted := halted }
  | .cp q => { s with quads := updAt s.quads q fun x => { x with copyQ := run, copyHalted := halted } }

/-- The quadrant of a copy engine. -/
def engineQuad : CopyEngine → Nat
  | .tile t => quadOf t
  | .cp q => q

/-- What a token of a copy engine's command names. -/
def engineRef (e : CopyEngine) (n : Nat) : HaltedRef :=
  match e with
  | .tile t => .tileCopy t n
  | .cp _ => .cpCopy n

/-- Index number k of given extents, dim 0 innermost. -/
def indexTuple : List Nat → Nat → List Nat
  | [], _ => []
  | m :: rest, k => k % max m 1 :: indexTuple rest (k / max m 1)

/-- The extents that a copy visits (R261). -/
def CopyCmd.extents (c : CopyCmd) : List Nat :=
  (List.range 5).map fun i => min (c.dst.extent i) (c.src.extent i)

/-- Every visited element: its offset in the destination and in the source. -/
def CopyCmd.elements (c : CopyCmd) : List (Nat × Nat) :=
  (List.range (c.extents.foldl (· * ·) 1)).map fun k =>
    let ix := indexTuple c.extents k
    ((c.dst.position ix).toNat, (c.src.position ix).toNat)

/-- The destination block of 4 KiB that an element lies in. -/
def CopyCmd.blockOf (c : CopyCmd) (x : Nat × Nat) : Nat := (c.dst.base + c.dst.byteOff x.1) / 4096

/-- The chunks of a copy, in ascending order (R263). -/
def CopyCmd.chunks (c : CopyCmd) : List Nat :=
  ((c.elements.map c.blockOf).dedup).insertionSort fun a b => a ≤ b

/-- A source element as the destination holds it (R31, R261). -/
def recode (d e : Desc) (mode : Round) (code : Nat) (off : Int) : Nat :=
  match formatOf d.fmt, formatOf e.fmt with
  | some (.int w' s'), some (.int w s) => (convert (.int w s) (.int w' s') mode d.saturate code).1
  | some (.float g), _ => (roundTo g mode d.saturate ((e.value code off).scale (-d.scale))).1
  | some (.int w sg), _ => (toIntFmt w sg mode d.saturate (e.value code off)).1
  | none, _ => 0

/-- One chunk of a copy: it reads all its source elements, then writes. -/
def State.copyBlock (s : State) (quad : Nat) (c : CopyCmd) (block : Nat) : Except (Cause × Nat) State :=
  let mode := (roundOf c.round).getD .rne
  match allOk (fun (x : Nat × Nat) => match s.elemAt quad c.part none c.src x.2 true with
      | .error e => .error e
      | .ok (code, off) => .ok (x.1, recode c.dst c.src mode code off))
    (c.elements.filter fun x => c.blockOf x == block) with
  | .error e => .error e
  | .ok xs => s.writeElems quad c.part c.dst xs 0 c.wcw

/-- The counter add of a finished copy; it waits for the close of an open merge round (R254). -/
def State.copyAdd (s : State) (e : CopyEngine) (c : CopyCmd) : Except (Cause × Nat) State :=
  match c.counter with
  | none => .ok s
  | some va =>
    match s.counterPa (engineQuad e) c.part va .write with
    | .error x => .error (x, va)
    | .ok pa => .ok (s.addOrHold c.part va pa 1)

/-- A copy command halts with a token, or is abandoned where none is free. -/
def State.haltCopy (s : State) (e : CopyEngine) (c : CopyCmd) (cause : Cause) (va : Nat) : State :=
  let (tok, s) := s.haltToken (engineQuad e) (engineRef e c.serial)
  let s := s.log c.part { haltRecord cause tok c.chunk va c.tids with
    tile := match e with
      | .tile t => some t
      | .cp _ => none
    task := BitVec.ofNat 64 c.owner }
  let (run, halted) := s.copies e
  s.setCopies e (run.filter fun x => x.serial != c.serial) (match tok with
    | some n => halted ++ [{ c with token := some n }]
    | none => halted)

/-- The first command of an engine may run. -/
def State.copyReady (s : State) (e : CopyEngine) (c : CopyCmd) : Bool :=
  !s.engineStill c.part && match e with
    | .tile _ => s.clearedOf c.part c.owner c.waits c.waitBlk
    | .cp _ => !(c.waits.any fun n => s.outstanding n)

/-- One chunk of the engine's command, and after its last chunk the counter add. -/
def State.copyChunk (s : State) (e : CopyEngine) : State :=
  match (s.copies e).1 with
  | [] => s
  | c :: rest =>
    if !s.copyReady e c then s
    else
      let s := s.others (engineQuad e)
      let finish (s : State) (c : CopyCmd) : State :=
        match s.copyAdd e c with
        | .ok u => u.setCopies e rest (u.copies e).2
        | .error (x, va) => s.haltCopy e { c with addOnly := true } x va
      if c.addOnly then finish s { c with token := none }
      else
        match c.chunks[c.chunk]? with
        | none => finish s c
        | some b =>
          match s.copyBlock (engineQuad e) c b with
          | .error (x, va) => s.haltCopy e c x va
          | .ok u =>
            let c : CopyCmd := { c with chunk := c.chunk + 1, token := none }
            if c.chunk < c.chunks.length then u.setCopies e (c :: rest) (u.copies e).2 else finish u c
/-- COPY_CHUNK (R263). -/
def execCopyChunk (e : CopyEngine) (s : State) : Host.Outcome State Fault Refusal := heldBack s (s.copyChunk e)

/-! ### Mills (R268-R270) -/

/-- The mill of a side of a ring that may move a block. -/
def State.millReady (s : State) (t : Nat) (g : BitVec 3) (push : Bool) : Option (Task × Mill) :=
  match (s.tile t).task with
  | none => none
  | some k =>
    match k.mills.find? fun m => m.g == g && m.push == push with
    | none => none
    | some m =>
      let r := k.regs.ring g
      if m.token.isNone && !s.engineStill k.part && s.cleared m.waits m.waitBlk k
          && decide (0 < if push then r.free else r.filled) then some (k, m) else none

/-- Elements of block k of a mill's tensor: the offset of each, none beyond the last one. -/
def Mill.elements (m : Mill) (slot : Nat) : List (Option Nat) :=
  let n := m.desc.perBlock slot
  (List.range n).map fun i =>
    let j := m.next * n + i
    if j < m.desc.count then
      some (m.desc.position (indexTuple ((List.range 5).map m.desc.extent) j)).toNat
    else none

/-- A mill halts at its block with a token, or is abandoned: it detaches (R264, R269). The chunk index of its record is, as the model
has it, the number of the block (log 87). -/
def State.haltMill (s : State) (t : Nat) (m : Mill) (cause : Cause) (va : Nat) : State :=
  let (tok, s) := s.haltToken (quadOf t) (.mill t m.serial)
  let s := s.log m.part { haltRecord cause tok m.next va (BitVec.ofNat 64 m.tid) with
    tile := some t
    task := match (s.tile t).task with
      | some k => k.record.taskid
      | none => 0 }
  match (s.tile t).task, tok with
  | some k, some n => s.putTask t { k with mills := k.mills.map fun x =>
      if x.serial == m.serial then { m with token := some n } else x }
  | some k, none =>
    (s.putTask t { k with mills := k.mills.filter fun x => x.serial != m.serial }).modRegsAt t fun r =>
      r.setRing m.g (if m.push then { r.ring m.g with millP := false } else { r.ring m.g with millC := false })
  | none, _ => s

/-- A mill after its block: the next one, or detached after its last (R269). -/
def State.millMoved (s : State) (t : Nat) (m : Mill) : State :=
  let last : Bool := m.left ≤ 1
  let s := s.modTile t fun x => { x with task := x.task.map fun k => { k with
    mills := if last then k.mills.filter fun y => y.serial != m.serial
             else k.mills.map fun y =>
               if y.serial == m.serial then { y with next := y.next + 1, left := y.left - 1, chunk := 0 } else y } }
  if last then
    s.modRegsAt t fun r =>
      r.setRing m.g (if m.push then { r.ring m.g with millP := false } else { r.ring m.g with millC := false })
  else s

/-- The tag of a slot that a mill fills (R217). -/
def Mill.tag (m : Mill) : Word32 :=
  mix32 (m.desc.seed.setWidth 32 ^^^ m.desc.seed.extractLsb' 32 32 ^^^ BitVec.ofNat 32 m.next)

/-- A ring whose slot at acq a mill has filled; it does not count among the earlier publications of a later `rpub`: the model's choice (R217,
log 93). -/
def Ring.pushed (r : Ring) (tag : Word32) : Ring :=
  { r with acq := (r.acq + 1) % 2 ^ r.lcount.toNat, pub := (r.pub + 1) % 2 ^ r.lcount.toNat, free := r.free - 1
           filled := r.filled + 1, freeTags := r.freeTags.tail, fillTags := r.fillTags ++ [tag] }

/-- A ring whose slot at get a mill has emptied. -/
def Ring.pulled (r : Ring) : Ring :=
  { r with get := (r.get + 1) % 2 ^ r.lcount.toNat, rel := (r.rel + 1) % 2 ^ r.lcount.toNat, filled := r.filled - 1
           free := r.free + 1, fillTags := r.fillTags.tail, freeTags := r.freeTags ++ [freeTag r.freed]
           freed := r.freed + 1 }

/-- A pushing mill fills the slot at acq with its next block. -/
def State.millPush (s : State) (t : Nat) (g : BitVec 3) : State :=
  match s.millReady t g true with
  | none => s
  | some (k, m) =>
    let r := k.regs.ring g
    let slot := 2 ^ r.lslot.toNat
    let quad := s.dieQuad m.die k.part
    let s := s.others quad
    match allOk (fun (x : Option Nat) => match x with
        | none => .ok 0
        | some p => match s.elemAt quad k.part none m.desc p true with
          | .error e => .error e
          | .ok (c, _) => .ok c) (m.elements slot) with
    | .error (c, va) => s.haltMill t m c va
    | .ok cs =>
      let cells := cellsAt (r.base.toNat * 128 + r.acq * slot) (leBytes slot (packElems m.desc.width cs))
      let s := s.modTile t fun x => x.writeRing cells
      (s.modRegsAt t fun x => x.setRing g ((x.ring g).pushed m.tag)).millMoved t m
/-- MILL_BLOCK_PUSH (R217, R269). -/
def execMillBlockPush (t : Nat) (g : BitVec 3) (s : State) : Host.Outcome State Fault Refusal :=
  heldBack s (s.millPush t g)

/-- Elements written chunk by chunk, one for each 4 KiB of destination VA, but for the first `done` chunks, which stand written: the
chunks before a fault stay written, and their number is given with it (R263-R265, R269). -/
def State.writeChunks (s : State) (quad part : Nat) (d : Desc) (xs : List (Nat × Nat)) (off : Int) (wcw done : Nat) :
    State × Option (Nat × Cause × Nat) :=
  let block (x : Nat × Nat) : Nat := (d.base + d.byteOff x.1) / 4096
  ((((xs.map block).dedup).insertionSort fun a b => a ≤ b).zipIdx.drop done).foldl (fun acc b =>
    match acc with
    | (s, some e) => (s, some e)
    | (s, none) => match s.writeElems quad part d (xs.filter fun x => block x == b.1) off wcw with
      | .error e => (s, some (b.2, e))
      | .ok u => (u, none)) (s, none)

/-- A pulling mill writes the slot at get to its tensor and frees it once all of it has been written; one that is resumed goes on at
the chunk where it halted (R265). The frames of a compressed or autoscaled tensor take the scale offset 0 (log 88). -/
def State.millPull (s : State) (t : Nat) (g : BitVec 3) : State :=
  match s.millReady t g false with
  | none => s
  | some (k, m) =>
    let r := k.regs.ring g
    let slot := 2 ^ r.lslot.toNat
    let at_ := r.base.toNat * 128 + r.get * slot
    let bs := Memory.range (s.tile t).ringMem at_ slot
    let w := m.desc.width
    let xs := ((m.elements slot).zipIdx.filterMap fun (x, i) => x.map fun p => (p, leNat bs / 2 ^ (w * i) % 2 ^ w))
    let s := s.others (s.dieQuad m.die k.part)
    if (s.tile t).ringPoison.any fun l => decide (at_ < 128 * (l + 1)) && decide (128 * l < at_ + slot) then
      s.haltMill t m .eccUncorrectable (windowBase + at_)
    else
    match s.writeChunks (s.dieQuad m.die k.part) k.part m.desc xs 0 m.wcw m.chunk with
    | (s, some (n, c, va)) => s.haltMill t { m with chunk := n } c va
    | (s, none) => (s.modRegsAt t fun x => x.setRing g (x.ring g).pulled).millMoved t m
/-- MILL_BLOCK_PULL (R263, R269). -/
def execMillBlockPull (t : Nat) (g : BitVec 3) (s : State) : Host.Outcome State Fault Refusal :=
  heldBack s (s.millPull t g)

/-! ### Reductions (R40, R251) -/

/-- The indices of a chunk of a reduction: its destination elements in one 4 KiB block. -/
def ReduceCmd.chunkAt (c : ReduceCmd) : List Nat :=
  let block := c.dst / 4096 + c.chunk
  (List.range 1024).filterMap fun i =>
    let va := block * 4096 + 4 * i
    if c.dst ≤ va ∧ va < c.dst + 4 * c.count then some ((va - c.dst) / 4) else none

/-- Chunks of a reduction. -/
def ReduceCmd.chunks (c : ReduceCmd) : Nat := (c.dst + 4 * c.count - 1) / 4096 + 1 - c.dst / 4096

/-- FP32 words of a source. -/
def State.words (s : State) (quad part va n : Nat) : Except (Cause × Nat) (List Nat) :=
  match s.engBytes quad part none va (4 * n) with
  | .error e => .error e
  | .ok bs => .ok ((List.range n).map fun i => byteField bs (4 * i) 4)

/-- One chunk of a reduction: every source is read, then the chunk is written. -/
def State.reduceBlock (s : State) (quad : Nat) (c : ReduceCmd) : Except (Cause × Nat) State :=
  let js := c.chunkAt
  let lo := js.headD 0
  match allOk (fun b => s.words quad c.part (b + 4 * lo) js.length) c.srcs with
  | .error e => .error e
  | .ok wss =>
    let out := (List.range js.length).map fun i => (pairTree fp32Sum 4 (wss.map fun ws => ws.getD i 0)).headD 0
    s.engWrite quad c.part (cellsAt (c.dst + 4 * lo) ((out.map fun w => leBytes 4 w).flatten))

/-- A reduction halts at its chunk with a token, or is abandoned. -/
def State.haltReduce (s : State) (die : Nat) (c : ReduceCmd) (cause : Cause) (va : Nat) : State :=
  let (tok, s) := s.haltToken (s.dieQuad die c.part) (.reduce die c.serial)
  let s := s.log c.part { haltRecord cause tok c.chunk va 0 with tile := some c.tile, task := BitVec.ofNat 64 c.owner }
  { s with dies := updAt s.dies die fun x => { x with
      reduceQ := x.reduceQ.filter fun y => y.serial != c.serial
      reduceHalted := match tok with
        | some n => x.reduceHalted ++ [{ c with token := some n }]
        | none => x.reduceHalted } }

/-- The first `mred` that a fence no longer holds back and that its engine has room for has its parameter block read; a fault
answers its task (R240, R311, R376). -/
def State.readAsk (s : State) : Option State :=
  (s.asks.find? fun a => !s.engineStill a.part && s.reduceGoes a).map fun a =>
    let s : State := { s with asks := s.asks.filter fun x => x.serial != a.serial }
    match s.takeReduce { a with waits := [], waitBlk := none } with
    | .ok u => u
    | .error (c, va) => s.respondTo a.part (BitVec.ofNat 64 a.owner) a.addr c va a.left

/-- One chunk of a base die's reduction engine, and after the last one the counter add; it reads the parameter block of a waiting
command first. -/
def State.reductionChunk (s : State) (die : Nat) : State :=
  match s.readAsk, (s.dies.getD die {}).reduceQ with
  | some u, _ => u
  | none, [] => s
  | none, c :: rest =>
    if s.engineStill c.part || !s.clearedOf c.part c.owner c.waits c.waitBlk then s
    else
      let quad := s.dieQuad die c.part
      let s := s.others quad
      let queue (s : State) (q : List ReduceCmd) : State :=
        { s with dies := updAt s.dies die fun x => { x with reduceQ := q } }
      let finish (s : State) (c : ReduceCmd) : State :=
        match c.counter with
        | none => queue s rest
        | some va =>
          match s.counterAdd quad c.part va c.addVal.toNat with
          | .ok u => queue u rest
          | .error x => s.haltReduce die { c with addOnly := true } x va
      if c.addOnly || c.chunks ≤ c.chunk then finish s c
      else
        match s.reduceBlock quad c with
        | .error (x, va) => s.haltReduce die c x va
        | .ok u =>
          let c : ReduceCmd := { c with chunk := c.chunk + 1, token := none }
          if c.chunk < c.chunks then queue u (c :: rest) else finish u c
/-- REDUCTION_CHUNK (R40, R251). -/
def execReductionChunk (die : Nat) (s : State) : Host.Outcome State Fault Refusal := heldBack s (s.reductionChunk die)

/-! ### Write-combining (R200, R201) -/

/-- A partial write of bytes into a frame of a compressed tensor, with the wait that it carries. -/
def State.wcWrite (s : State) (p id f : Nat) (off : Int) (bs : List (Nat × Byte)) : State :=
  match s.tensor p id with
  | none => s
  | some d =>
    if !d.compressed || !d.writable || d.frames ≤ f || bs.isEmpty then s
    else (s.others p).partialFrame p p d f bs (max (-31) off) (s.wcWait p d)
/-- WC_PARTIAL_WRITE (R200). -/
def execWcPartialWrite (p : Nat) (t : BitVec 10) (frame : Nat) (off : BitVec 6) (bytes : List (BitVec 9 × BitVec 8))
    (s : State) : Host.Outcome State Fault Refusal :=
  heldBack s (s.wcWrite p t.toNat frame off.toInt (bytes.map fun b => (b.1.toNat, b.2)))

/-- An open frame whose wait has passed closes. -/
def State.wcTimeout (s : State) (die n : Nat) : State :=
  match (s.dies.getD die {}).wc[n]? with
  | none => s
  | some w => if s.refTick < w.deadline || s.engineStill w.part then s
    else (s.others (s.dieQuad die w.part)).closeFrame die w
/-- WC_TIMEOUT (R200). -/
def execWcTimeout (die n : Nat) (s : State) : Host.Outcome State Fault Refusal := heldBack s (s.wcTimeout die n)

/-! ### Memory errors (R224, R225) -/

/-- Corrected errors change no value; each that a patrol finds is counted in the record of the slice that serves its line: of the
quadrant whose tile owns the line, else of the die's (log 40). -/
def State.scrub (s : State) (die : Nat) (found : List Nat) : State :=
  found.foldl (fun (s : State) l =>
    if homeDie (l * 128) != die || !s.populated (l * 128) 128 || isCtrl (l * 128) then s
    else
      let quad : Nat := match (s.dirLine l).owner with
        | some t => quadOf t
        | none => die
      s.modPerf (s.sliceFor quad l) fun p => { p with cerr := bump p.cerr 1 }) s

/-- PATROL_SCRUB (R224). -/
def execPatrolScrub (die : Nat) (found : List Nat) (s : State) : Host.Outcome State Fault Refusal :=
  happens s (s.scrub die found)

/-- The tile and the line of its stash that a line number above those of the PAs names: a line of a ring area. -/
def ringLineOf (line : Nat) : Option (Nat × Nat) :=
  if 2 ^ 45 ≤ line then some ((line - 2 ^ 45) / 8192, (line - 2 ^ 45) % 8192) else none

/-- An uncorrectable error poisons the line where it is held: in the stash that owns it, in the ring area of a stash, else below the
stashes. -/
def State.eccError (s : State) (line : Nat) : State :=
  match ringLineOf line with
  | some (t, l) =>
    if (s.tile t).inRing (128 * l) && t < Config.physTiles then
      s.modTile t fun x => { x with ringPoison := if x.ringPoison.contains l then x.ringPoison else l :: x.ringPoison }
    else s
  | none =>
  if !s.populated (line * 128) 128 || isCtrl (line * 128) then s
  else
    let below : State := { s with poison := if s.poison.contains line then s.poison else line :: s.poison }
    match (s.dirLine line).owner with
    | none => below
    | some t =>
      match (s.tile t).lineAt line with
      | some l => s.modTile t fun x => x.putLine { l with st := .poisoned }
      | none => below
/-- ECC_UNCORRECTABLE (R225). -/
def execEccUncorrectable (line : Nat) (s : State) : Host.Outcome State Fault Refusal := happens s (s.eccError line)

/-! ### Internal errors of base-die engines (R289) -/

/-- The reduction engine of a base die stops, and its commands halt with tokens. -/
def State.reductionError (s : State) (die : Nat) : State :=
  let q := (s.dies.getD die {}).reduceQ
  let s : State := { s with dies := updAt s.dies die fun x =>
    { x with stopped := if x.stopped.contains .reduction then x.stopped else x.stopped ++ [.reduction] } }
  q.foldl (fun s c => s.haltReduce die c .eccUncorrectable c.dst) s

/-- The write-combining buffer of a base die stops, and its open frames halt with tokens (log 41). -/
def State.combiningError (s : State) (die : Nat) : State :=
  let ws := (s.dies.getD die {}).wc
  let s : State := { s with dies := updAt s.dies die fun x =>
    { x with wc := [], stopped := if x.stopped.contains .writeCombining then x.stopped
                                  else x.stopped ++ [.writeCombining] } }
  ws.foldl (fun s w =>
    let va := w.desc.base + 512 * w.frame
    let (tok, s) := s.haltToken (s.dieQuad die w.part) (.wcFrame die w.part va)
    let s := s.log w.part (haltRecord .eccUncorrectable tok 0 va 0)
    match tok with
    | some _ => { s with dies := updAt s.dies die fun x => { x with wcHalted := x.wcHalted ++ [w] } }
    | none => s) s

/-- The mill that serves a command stops for good, and the command halts with a token; resumed, it goes to a sibling on the die,
of which there is always one (log 64). -/
def State.millError (s : State) (die n : Nat) : State :=
  (List.range Config.physTiles).foldl (fun s t =>
    match (s.tile t).task with
    | none => s
    | some k =>
      match k.mills.find? fun m => m.serial == n && m.die == die && m.token.isNone with
      | some m =>
        let s : State := { s with dies := updAt s.dies die fun x =>
          { x with stopped := if x.stopped.contains (.mill n) then x.stopped else x.stopped ++ [.mill n] } }
        s.haltMill t m .eccUncorrectable m.desc.base
      | none => s) s

/-- An internal uncorrectable error in a unit of a base die. -/
def State.engineError (s : State) (die : Nat) (u : BaseUnit) : State :=
  match u with
  | .mill n => s.millError die n
  | .reduction => s.reductionError die
  | .writeCombining => s.combiningError die
/-- ENGINE_INTERNAL_ERROR (R289). -/
def execEngineInternalError (die : Nat) (unit : BaseUnit) (s : State) : Host.Outcome State Fault Refusal :=
  heldBack s (s.engineError die unit)

end Sys2Proof.Machine
end

