-- ==== Sys2Proof/Machine/CmdProc.lean ====
section
/-! DEFINITION. The command processors: user-mode queues, their packets, and the graph walker (spec 06 R112, R127-R138;
16 R305). -/

namespace Sys2Proof.Machine

open Host (Cell)

/-! ### Packets (R130, R131, R134, R142) -/

/-- The 8-byte header. -/
def Packet.header (k : Packet) : Nat := byteField k.bytes 0 8

/-- Its type. -/
def Packet.type (k : Packet) : Nat := k.header / 16 % 256

/-- Its format: 2 or 3. -/
def Packet.fmt (k : Packet) : Nat := k.header / 2 % 8

/-- The host's own tag. -/
def Packet.seqtag (k : Packet) : Nat := k.header / 2 ^ 32

/-- Bytes of a slot of a format (R127). -/
def slotBytes (fmt : Nat) : Nat := if fmt == 3 then 128 else 64

/-- Every byte beyond the first m that lies in none of the ranges is 0. -/
def onlyNamed (bs : List Byte) (m : Nat) (named : List (Nat × Nat)) : Bool :=
  bs.zipIdx.all fun (b, i) => decide (i < m) || named.any (fun r => decide (r.1 ≤ i) && decide (i < r.2)) || b == 0#8

/-- The bytes that the table of a packet's type names. -/
def namedBytes (type fmt : Nat) : List (Nat × Nat) :=
  match type with
  | 0x01 => if fmt == 3 then [(8, 38), (40, 96)] else [(8, 64)]
  | 0x02 => [(8, 32)]
  | 0x03 | 0x04 | 0x14 => [(8, 24)]
  | 0x05 => [(8, 12), (16, 24)]
  | 0x06 => [(8, 10)]
  | 0x10 | 0x13 => [(8, 18), (20, 32)]
  | 0x11 => [(8, 16)]
  | _ => []

/-- The types of R130 and R142. -/
def knownType (type : Nat) : Bool :=
  (decide (1 ≤ type) && decide (type ≤ 6)) || (decide (0x10 ≤ type) && decide (type ≤ 0x14))

/-- Every reserved bit of a packet is 0. -/
def Packet.clean (k : Packet) : Bool :=
  k.header / 65536 % 65536 == 0 && onlyNamed k.bytes 8 (namedBytes k.type k.fmt)
  && (k.type != 6 || (decide (byteField k.bytes 8 1 < 64) && decide (byteField k.bytes 9 1 < 64)))

/-- The body of a v3 LAUNCH; a kernel node of a graph has bytes 8–55 of one (R131, R136). -/
def launchSpec3 (bs : List Byte) (prio : BitVec 2) (rel : Bool) : LaunchSpec :=
  { entry := byteField bs 8 8, argA := byteField bs 16 8, argB := BitVec.ofNat 64 (byteField bs 24 8)
    count := byteField bs 32 4, kernel := BitVec.ofNat 16 (byteField bs 36 2), ctx := byteField bs 40 8
    ctxStep := byteField bs 48 4, argAStep := (BitVec.ofNat 32 (byteField bs 52 4)).toInt
    counter := byteField bs 56 8, value := byteField bs 64 8
    groups := (List.range 4).map fun g => BitVec.ofNat 16 (byteField bs (72 + 2 * g) 2)
    start := byteField bs 80 8, target := byteField bs 88 8, prio := prio, rel := rel }

/-- The body of a v2 LAUNCH. -/
def launchSpec2 (bs : List Byte) (prio : BitVec 2) (rel : Bool) : LaunchSpec :=
  { entry := byteField bs 8 8, argA := byteField bs 16 8, argB := BitVec.ofNat 64 (byteField bs 56 8)
    count := byteField bs 24 4, kernel := BitVec.ofNat 16 (byteField bs 28 2), ctx := byteField bs 40 8
    ctxStep := byteField bs 48 4, argAStep := (BitVec.ofNat 32 (byteField bs 52 4)).toInt
    counter := byteField bs 32 8, value := 1, groups := [BitVec.ofNat 16 (byteField bs 30 2), 0, 0, 0]
    start := 0, target := 0, prio := prio, rel := rel }

/-- The priority that a header names. -/
def Packet.prio (k : Packet) : BitVec 2 := BitVec.ofNat 2 (k.header / 2 ^ 14)

/-- The body of a LAUNCH packet. -/
def Packet.launch (k : Packet) : LaunchSpec :=
  (if k.fmt == 3 then launchSpec3 else launchSpec2) k.bytes k.prio (k.header.testBit 13)

/-! ### Accesses on path H -/

/-- Bytes that the command processor of a quadrant reads, with R. -/
def State.hRead (s : State) (quad va n : Nat) : Except (Cause × Nat) (List Byte) :=
  s.engBytes quad (s.partOf quad) none va n

/-- Bytes that it reads and is to write back, with R and W. -/
def State.hOpen (s : State) (quad va n : Nat) : Except (Cause × Nat) (List Byte) :=
  match s.accessRange quad (s.partOf quad) va n .both with
  | .error e => .error e
  | .ok _ => s.hRead quad va n

/-- Bytes that it writes where they can be written. -/
def State.hWrite (s : State) (quad va : Nat) (bs : List Byte) : State :=
  match s.engWrite quad (s.partOf quad) (cellsAt va bs) with
  | .ok u => u
  | .error _ => s

/-- A counter that a packet names (R134). -/
def State.hCounter (s : State) (quad va : Nat) : Except Cause Nat := s.counterPa quad (s.partOf quad) va .both

/-- An add of a command processor: it publishes path H, and waits for the close of an open merge round (R134,
R254). -/
def State.hAdd (s : State) (quad va n : Nat) : Except Cause State :=
  let p := s.partOf quad
  match s.hCounter quad va with
  | .error c => .error c
  | .ok pa => .ok (s.addOrHold p va pa n)

/-- A counter that a packet names stands at a target or above. -/
def State.hReached (s : State) (quad va target : Nat) : Except Cause Bool :=
  match s.hCounter quad va with
  | .error c => .error c
  | .ok pa => .ok (decide (target ≤ leNat (s.lowBytes pa 8)))

/-! ### Queues (R127-R130, R135) -/

/-- A queue. -/
def State.queue (s : State) (quad n : Nat) : Queue := (s.quads.getD quad {}).queues.getD n {}

/-- A queue changed. -/
def State.modQueue (s : State) (quad n : Nat) (f : Queue → Queue) : State :=
  { s with quads := updAt s.quads quad fun q => { q with queues := updAt q.queues n f } }

/-- What a command processor finds at the head of a queue. -/
inductive Look where
  | idle
  | unreachable (c : Cause)
  | halt (status : Nat) (c : Option Cause) (va seq : Nat)
  | sleep
  | packet (k : Packet)
deriving DecidableEq, Repr

/-- The checks of R127 and R130 at the head of a queue that is awake. A breach in the descriptor itself has no packet: its record
carries the descriptor's VA, and 0 for seqtag, and so does that of a slot that cannot be read (log 80). -/
def State.look (s : State) (quad n : Nat) : Look :=
  let x := s.queue quad n
  let va := s.queueVa quad n
  if !x.awake || x.halted || x.stall.isSome || s.engineStill (s.partOf quad) then .idle
  else
    match s.hOpen quad va 32 with
    | .error e => .unreachable e.1
    | .ok d =>
      let b8 := byteField d 8 1
      let fmt := b8 / 16 % 4
      let base := byteField d 0 8
      if b8 < 128 then .idle
      else if fmt < 2 then .halt 2 none va 0
      else if b8.testBit 6 || !zeroBytes d 10 2 || !zeroBytes d 16 16 then .halt 4 none va 0
      else if b8 % 16 < 4 || base % 4096 != 0 then .halt 5 none va 0
      else
        let slot := base + byteField d 12 4 % 2 ^ (b8 % 16) * slotBytes fmt
        match s.hOpen quad slot (slotBytes fmt) with
        | .error e => .halt 5 (some e.1) slot 0
        | .ok bs =>
          let k : Packet := { slot := slot, bytes := bs }
          if !k.header.testBit 0 then .sleep
          else if k.fmt != fmt then .halt 2 none slot k.seqtag
          else if !knownType k.type then .halt 3 none slot k.seqtag
          else if !k.clean then .halt 4 none slot k.seqtag
          else .packet k

/-- The record of a halt (R135). -/
def haltLog (quad n status : Nat) (c : Option Cause) (va seq : Nat) : LogRec :=
  { cause := .queueHalt, cls := .v, data := va, a := seq
    b := status + n * 2 ^ 8 + quad * 2 ^ 16 + (match c with
      | some x => x.code.toNat
      | none => 0) * 2 ^ 24 }

/-- A queue halts with a status and a record; its packet has no effect. -/
def State.haltQueue (s : State) (quad n status : Nat) (c : Option Cause) (va seq : Nat) : State :=
  let s := (s.queueStatus quad n status).log (s.partOf quad) (haltLog quad n status c va seq)
  s.modQueue quad n fun x => { x with awake := false, halted := true, rewritten := false, stall := none }

/-- A queue halts at a packet. -/
def State.haltAt (s : State) (quad n : Nat) (k : Packet) (status : Nat) (c : Option Cause) : State :=
  s.haltQueue quad n status c k.slot k.seqtag

/-- The command processor looks at the head of a queue: it sleeps at an invalid header, halts the queue at a breach,
and otherwise stands ready to run the packet. -/
def State.lookOn (s : State) (quad n : Nat) : State :=
  let at_ := s.queueVa quad n
  let base := match s.hRead quad at_ 8 with
    | .ok bs => leNat bs
    | .error _ => 0
  let s := s.othersOn quad (s.partOf quad) [at_, base]
  match s.look quad n with
  | .idle => s
  | .unreachable c =>
    (s.log (s.partOf quad) (haltLog quad n 0xFF (some c) (s.queueVa quad n) 0)).modQueue quad n fun x =>
      { x with awake := false }
  | .halt st c va seq => s.haltQueue quad n st c va seq
  | .sleep => (s.queueStatus quad n 1).modQueue quad n fun x => { x with awake := false }
  | .packet _ => s.queueStatus quad n 0

/-- A launch that has not completed. -/
def State.launchOf (s : State) (p n : Nat) : Option Launch := (s.parts.getD p {}).launches.find? fun x => x.n == n

/-- A graph in progress. -/
def State.graphOf (s : State) (quad n : Nat) : Option Graph := (s.quads.getD quad {}).graphs.find? fun x => x.n == n

/-- A copy of a command processor that has not completed. -/
def State.cpCopyLive (s : State) (quad serial : Nat) : Bool :=
  let q := s.quads.getD quad {}
  (q.copyQ ++ q.copyHalted).any fun c => c.serial == serial

/-- A started packet has not completed (R129). -/
def State.workLive (s : State) (quad : Nat) (w : PktWork) : Bool :=
  let p := s.parts.getD (s.partOf quad) {}
  match w with
  | .launch n => (s.launchOf (s.partOf quad) n).isSome
  | .graph n => (s.graphOf quad n).isSome
  | .copy n => s.cpCopyLive quad n
  | .ttStart => p.pendingStart.isSome
  | .ttStop => p.frames.any fun f => f.stopping
  | .ttSwap => p.nextTable.isSome

/-- The packets of a queue that have started and not completed. -/
def State.liveWork (s : State) (quad n : Nat) : List PktWork := (s.queue quad n).live.filter (s.workLive quad)

/-- The packet at the head of a queue, where it is of a type and its barrier lets it start (R129). -/
def State.takePacket (s : State) (quad n type : Nat) : Option Packet :=
  match s.look quad n with
  | .packet k => if k.type == type && (!k.header.testBit 12 || (s.liveWork quad n).isEmpty) then some k else none
  | _ => none

/-- A packet is consumed: its header becomes invalid, rdidx increments, and the next slot is looked at (R129). -/
def State.consume (s : State) (quad n : Nat) (k : Packet) (work : List PktWork) : State :=
  let live := s.liveWork quad n ++ work
  let va := s.queueVa quad n
  let rd := match s.hRead quad (va + 12) 4 with
    | .ok bs => leNat bs
    | .error _ => 0
  let s := s.hWrite quad k.slot [k.bytes.headD 0 &&& 0xFE]
  let s := s.hWrite quad (va + 12) (leBytes 4 (rd + 1))
  (s.modQueue quad n fun x => { x with live := live, stall := none }).lookOn quad n

/-- A write of wridx: it wakes the command processor, and closes the window of R12. -/
def State.notify (s : State) (quad n : Nat) (v : BitVec 32) : State :=
  let p := s.partOf quad
  if s.fenced p then s
  else
    let s := s.modQueue quad n fun x => { x with wridx := v, awake := x.awake || !x.halted }
    let s := (s.quadsOf p).foldl (fun (s : State) q =>
      { s with quads := updAt s.quads q fun y => { y with setup := false } }) s
    s.lookOn quad n
/-- NOTIFY_WRITE (R12, R128, R129). -/
def execNotifyWrite (quad queue : Nat) (wridx : BitVec 32) (s : State) : Host.Outcome State Fault Refusal :=
  heldBack s (s.notify quad queue wridx)

/-- A halted queue whose packet and descriptor the host has rewritten, with en = 1, goes on. -/
def State.queueResume (s : State) (quad n : Nat) : State :=
  let x := s.queue quad n
  if s.fenced (s.partOf quad) || !x.halted || !x.rewritten || !s.queueEnabled quad n then s
  else (s.modQueue quad n fun x => { x with halted := false, rewritten := false, awake := true }).lookOn quad n
/-- QUEUE_RESUME (R135). -/
def execQueueResume (quad queue : Nat) (s : State) : Host.Outcome State Fault Refusal :=
  heldBack s (s.queueResume quad queue)

/-! ### LAUNCH (R112, R131-R133) -/

/-- The limits of R131, and the checks of R110 on the records to be created. -/
def State.launchOk (s : State) (p : Nat) (x : LaunchSpec) : Bool :=
  let r := 2 ^ 64 - x.ctx
  x.entry % 32 == 0 && decide (x.entry < 2 ^ 52) && decide (1 ≤ x.count) && decide (x.count ≤ 65536)
  && (s.kernel p x.kernel).isSome && x.ctx != 0 && x.ctx % 64 == 0 && x.ctxStep % 64 == 0
  && !(x.ctxStep != 0 && r % x.ctxStep == 0 && decide (r / x.ctxStep < x.count))
  && x.groups.all fun g => decide (g.toNat < 4096)

/-- The record of task i (R132). -/
def Launch.record (l : Launch) (i : Nat) : Record :=
  { resume := l.spec.entry, ctx := BitVec.ofNat 64 (l.spec.ctx + i * l.spec.ctxStep)
    taskid := l.first + BitVec.ofNat 64 i, argA := BitVec.ofInt 64 (l.spec.argA + i * l.spec.argAStep)
    argB := l.spec.argB, prio := l.spec.prio, kernel := l.spec.kernel, groups := l.spec.groups }

/-- The next record of a launch enters a general slot, where one is free. -/
def State.createOne (s : State) (p n : Nat) : State :=
  match s.launchOf p n with
  | none => s
  | some l =>
    if l.spec.count ≤ l.made || !s.generalFree p then s
    else
      let r := l.record l.made
      let s := s.groupsUpdate p r.groups true
      let s : State := { s with parts := updAt s.parts p fun x => { x with
        launches := x.launches.map fun y => if y.n == n then { y with made := y.made + 1 } else y } }
      s.enterCommons p r .general s.clockMax

/-- The records of a launch enter the commons in order while slots are free. -/
def State.createAll (s : State) (p n : Nat) : State :=
  match s.launchOf p n with
  | none => s
  | some l => (List.range (l.spec.count - l.made)).foldl (fun s _ => s.createOne p n) s

/-- A launch begins: it takes its ids as one run and creates its records. -/
def State.beginLaunch (s : State) (quad queue : Nat) (k : Packet) (x : LaunchSpec) (node : Bool) : Nat × State :=
  let p := s.partOf quad
  let y := s.parts.getD p {}
  let l : Launch := { n := y.nextLaunch, spec := x, first := y.nextId, quad := quad, queue := queue, packet := k
                      node := node }
  let s : State := { s with parts := updAt s.parts p fun y => { y with
    launches := y.launches ++ [l], nextLaunch := y.nextLaunch + 1, nextId := y.nextId + BitVec.ofNat 64 x.count } }
  (l.n, s.createAll p l.n)

/-- Every record of a launch has been created. -/
def State.launchMade (s : State) (p n : Nat) : Bool :=
  match s.launchOf p n with
  | none => true
  | some l => decide (l.spec.count ≤ l.made)

/-- A LAUNCH goes on to the next packet once it has created all of its records; until then the queue stalls. -/
def State.launchOn (s : State) (quad n : Nat) (k : Packet) (m : Nat) : State :=
  if s.launchMade (s.partOf quad) m then s.consume quad n k [.launch m]
  else s.modQueue quad n fun x => { x with stall := some (.create k m) }

/-- A LAUNCH whose start counter has been reached. -/
def State.launchGo (s : State) (quad n : Nat) (k : Packet) : State :=
  let (m, s) := s.beginLaunch quad n k k.launch false
  s.launchOn quad n k m

/-- A LAUNCH packet is started: its limits, its counters, and its wait for the start counter. -/
def State.startLaunch (s : State) (quad n : Nat) (k : Packet) : State :=
  let x := k.launch
  if !s.launchOk (s.partOf quad) x then s.haltAt quad n k 5 none
  else
    match [x.counter, x.start].findSome? fun va => if va == 0 then none
        else match s.hCounter quad va with
          | .error c => some c
          | .ok _ => none with
    | some c => s.haltAt quad n k 5 (some c)
    | none =>
      match (if x.start == 0 then .ok true else s.hReached quad x.start x.target : Except Cause Bool) with
      | .ok true => s.launchGo quad n k
      | _ => s.modQueue quad n fun y => { y with stall := some (.start k) }

/-- A launch of a kernel node of a queue's graphs that still has records to create. -/
def State.stalledNode (s : State) (quad n : Nat) : Option Launch :=
  (s.parts.getD (s.partOf quad) {}).launches.find? fun l =>
    l.node && l.quad == quad && l.queue == n && decide (l.made < l.spec.count)

/-- A kernel node of the queue's graphs stalls on a full commons (R139). -/
def State.nodeStalled (s : State) (quad n : Nat) : Bool := (s.stalledNode quad n).isSome

/-- A LAUNCH is started, or one that stalls on a full commons, of the queue or of a kernel node of its graphs, goes on
as slots free. -/
def State.launchPacket (s : State) (quad n : Nat) : State :=
  let p := s.partOf quad
  if s.engineStill p then s
  else
    match (s.queue quad n).stall with
    | some (.create k m) => (s.createAll p m).launchOn quad n k m
    | _ =>
      match s.stalledNode quad n with
      | some l => s.createAll p l.n
      | none =>
        match s.takePacket quad n 0x01 with
        | some k => s.startLaunch quad n k
        | none => s
/-- LAUNCH (R131, R132). -/
def execLaunch (quad queue : Nat) (s : State) : Host.Outcome State Fault Refusal :=
  heldBack s (s.launchPacket quad queue)

/-- The start counter of a waiting LAUNCH has been reached. -/
def State.startRelease (s : State) (quad n : Nat) : State :=
  match (s.queue quad n).stall with
  | some (.start k) =>
    if s.engineStill (s.partOf quad) then s
    else
      match s.hReached quad k.launch.start k.launch.target with
      | .error c => s.haltAt quad n k 5 (some c)
      | .ok true => (s.modQueue quad n fun x => { x with stall := none }).launchGo quad n k
      | .ok false => s
  | _ => s
/-- LAUNCH_START_RELEASE (R132). -/
def execLaunchStartRelease (quad queue : Nat) (s : State) : Host.Outcome State Fault Refusal :=
  heldBack s (s.startRelease quad queue)

/-- Every task of a launch has ended: with rel, or as a node of a graph, every path of the partition is fenced, and
then the counter takes its add. A counter that can no longer take it halts the queue (log 42). -/
def State.launchComplete (s : State) (p n : Nat) : State :=
  match s.launchOf p n with
  | none => s
  | some l =>
    if l.made < l.spec.count || l.ended.length < l.spec.count || s.engineStill p then s
    else
      let s := if l.spec.rel || l.node then s.writeBackAll p else s
      let s : State := { s with parts := updAt s.parts p fun x =>
        { x with launches := x.launches.filter fun y => y.n != n } }
      if l.spec.counter == 0 then s
      else
        match s.hAdd l.quad l.spec.counter l.spec.value with
        | .ok u => u
        | .error c => s.haltAt l.quad l.queue l.packet 5 (some c)
/-- LAUNCH_COMPLETE (R133). -/
def execLaunchComplete (p n : Nat) (s : State) : Host.Outcome State Fault Refusal := heldBack s (s.launchComplete p n)

/-! ### Counters, copies and fences (R134, R305) -/

/-- COUNTER_ADD adds, publishing path H. -/
def State.counterAddPacket (s : State) (quad n : Nat) : State :=
  match s.takePacket quad n 0x03 with
  | none => s
  | some k =>
    match s.hAdd quad (byteField k.bytes 8 8) (byteField k.bytes 16 8) with
    | .error c => s.haltAt quad n k 5 (some c)
    | .ok u => u.consume quad n k []
/-- COUNTER_ADD (R134). -/
def execCounterAdd (quad queue : Nat) (s : State) : Host.Outcome State Fault Refusal :=
  heldBack s (s.counterAddPacket quad queue)

/-- COUNTER_WAIT passes at once, or its queue waits. -/
def State.counterWait (s : State) (quad n : Nat) : State :=
  match s.takePacket quad n 0x04 with
  | none => s
  | some k =>
    match s.hReached quad (byteField k.bytes 8 8) (byteField k.bytes 16 8) with
    | .error c => s.haltAt quad n k 5 (some c)
    | .ok true => s.consume quad n k []
    | .ok false => s.modQueue quad n fun x => { x with stall := some (.wait k) }
/-- COUNTER_WAIT (R134). -/
def execCounterWait (quad queue : Nat) (s : State) : Host.Outcome State Fault Refusal :=
  heldBack s (s.counterWait quad queue)

/-- The counter of a waiting COUNTER_WAIT has reached its target. -/
def State.waitRelease (s : State) (quad n : Nat) : State :=
  match (s.queue quad n).stall with
  | some (.wait k) =>
    if s.engineStill (s.partOf quad) then s
    else
      match s.hReached quad (byteField k.bytes 8 8) (byteField k.bytes 16 8) with
      | .error c => s.haltAt quad n k 5 (some c)
      | .ok true => s.consume quad n k []
      | .ok false => s
  | _ => s
/-- COUNTER_WAIT_RELEASE (R134). -/
def execCounterWaitRelease (quad queue : Nat) (s : State) : Host.Outcome State Fault Refusal :=
  heldBack s (s.waitRelease quad queue)

/-- A copy on the command processor's own engine, rounding with RNE: its serial number, or the cause of R260. The
fields stand at byte 0 of what is given. -/
def State.startCopy (s : State) (quad : Nat) (bs : List Byte) : Except Cause (Nat × State) :=
  let p := s.partOf quad
  let td := byteField bs 0 2
  let ts := byteField bs 2 2
  let va := byteField bs 8 8
  match s.tensor p td, s.tensor p ts with
  | some d, some e =>
    if !d.writable then .error .xlatePerm
    else if d.overlaps e then .error .tdefAlias
    else
      match (if va == 0 then .ok 0 else s.hCounter quad va : Except Cause Nat) with
      | .error c => .error c
      | .ok _ =>
        let (n, s) := s.fresh
        let c : CopyCmd := {
          serial := n, part := p, dst := d, src := e, counter := if va == 0 then none else some va, round := 1
          wcw := s.wcWait p d, waits := [], waitBlk := none, owner := 0
          tids := BitVec.ofNat 64 (ts * 2 ^ 16 + td) }
        .ok (n, { s with quads := updAt s.quads quad fun q => { q with copyQ := q.copyQ ++ [c] } })
  | _, _ => .error .tidInvalid

/-- COPY starts a copy. -/
def State.copyPacket (s : State) (quad n : Nat) : State :=
  match s.takePacket quad n 0x05 with
  | none => s
  | some k =>
    match s.startCopy quad (k.bytes.drop 8) with
    | .error c => s.haltAt quad n k 5 (some c)
    | .ok (m, u) => u.consume quad n k [.copy m]
/-- COPY (R134). -/
def execCopy (quad queue : Nat) (s : State) : Host.Outcome State Fault Refusal := heldBack s (s.copyPacket quad queue)

/-- What has been performed so far becomes visible on path O to the tasks of a partition: the clock of each of its tiles passes every
lease given before (R305, log 10). -/
def State.showAll (s : State) (p : Nat) : State :=
  (s.tilesOf p).foldl (fun u t => u.modTile t fun x => { x with clock := max x.clock s.clockMax }) s

/-- FENCE: every performed access of its before paths becomes visible to every party on every path (R305): path O keeps writes from
the others in the stashes (log 10), and what a lease still shows is shown no longer. -/
def State.fencePkt (s : State) (quad n : Nat) : State :=
  match s.takePacket quad n 0x06 with
  | none => s
  | some k =>
    let before := byteField k.bytes 8 1
    let p := s.partOf quad
    let s := if before.testBit 5 then s.writeBackAll p else s
    (if before % 64 == 0 then s else s.showAll p).consume quad n k []
/-- The FENCE packet (R134, R305). -/
def execFencePacket (quad queue : Nat) (s : State) : Host.Outcome State Fault Refusal :=
  heldBack s (s.fencePkt quad queue)

/-! ### The graph walker (R136-R138) -/

/-- A graph changed. -/
def State.modGraph (s : State) (quad n : Nat) (f : Graph → Graph) : State :=
  { s with quads := updAt s.quads quad fun q => { q with graphs := q.graphs.map fun g => if g.n == n then f g else g } }

/-- A node of a graph changed. -/
def State.modNode (s : State) (quad n i : Nat) (f : GNode → GNode) : State :=
  s.modGraph quad n fun g => { g with nodes := updAt g.nodes i f }

/-- A graph removed. -/
def State.dropGraph (s : State) (quad n : Nat) : State :=
  { s with quads := updAt s.quads quad fun q => { q with graphs := q.graphs.filter fun g => g.n != n } }

/-- The bytes of a node that its type names. -/
def nodeBytes (type : Nat) : List (Nat × Nat) :=
  match type with
  | 1 => [(4, 12), (16, 46), (48, 64)]
  | 2 => [(4, 12), (16, 20), (24, 32)]
  | 3 | 4 => [(4, 12), (16, 32)]
  | 5 | 6 => [(4, 12), (16, 24)]
  | _ => [(4, 12)]

/-- The successors of a node: 0xFFFF is none. -/
def nodeSucc (bs : List Byte) : List Nat := (List.range 4).map fun j => byteField bs (4 + 2 * j) 2

/-- The condition word of a node read at the instant it becomes ready, with its trace entry (R138). -/
def State.readCondition (s : State) (quad : Nat) (g : Graph) (i type va : Nat) : Except (Nat × Option Cause) (Nat × State) :=
  if va % 8 != 0 then .error (5, none)
  else
    match s.hRead quad va 8 with
    | .error e => .error (5, some e.1)
    | .ok w =>
      let (f, l) := s.frameOf (s.partOf quad)
      let entry := leBytes 2 i ++ leBytes 1 type ++ leBytes 1 0 ++ leBytes 4 (f * 2 ^ 24 + l) ++ leBytes 8 (leNat w)
      match s.engWrite quad (s.partOf quad) (cellsAt (g.traceVa + 16 * (g.tracePos % g.traceLen)) entry) with
      | .error e => .error (5, some e.1)
      | .ok u => .ok (leNat w, u.modGraph quad g.n fun g => { g with tracePos := g.tracePos + 1 })

/-- The work of a node that becomes ready: the node's fields and the state, or the status and cause of the halt. A successor index that
names no node is malformed: the model's choice (R136, log 90). -/
def State.nodeWork (s : State) (quad : Nat) (g : Graph) (i : Nat) (bs : List Byte) :
    Except (Nat × Option Cause) (GNode × State) :=
  let ty := byteField bs 0 1
  let succ := nodeSucc bs
  let named (xs : List Nat) : List Nat := xs.filter fun j => j != 0xFFFF
  let va := byteField bs 16 8
  let x : GNode := { preds := byteField bs 1 1, left := byteField bs 1 1, running := true, kind := ty, names := named succ }
  if ty == 0 || 7 < ty || succ.any (fun j => j != 0xFFFF && decide (g.nodes.length ≤ j)) then .error (5, none)
  else if !onlyNamed bs 2 (nodeBytes ty) then .error (4, none)
  else
    match ty with
    | 1 =>
      let spec := launchSpec3 (List.replicate 8 0 ++ bs.drop 16 ++ List.replicate 72 0) g.packet.prio true
      let spec : LaunchSpec := { spec with counter := 0 }
      if !s.launchOk (s.partOf quad) spec then .error (5, none)
      else
        let (m, u) := s.beginLaunch quad g.queue g.packet spec true
        .ok ({ x with job := m }, u)
    | 2 =>
      match s.startCopy quad (bs.drop 16) with
      | .error c => .error (5, some c)
      | .ok (m, u) => .ok ({ x with job := m }, u)
    | 3 =>
      match s.hAdd quad va (byteField bs 24 8) with
      | .error c => .error (5, some c)
      | .ok u => .ok (x, u)
    | 4 =>
      match s.hCounter quad va with
      | .error c => .error (5, some c)
      | .ok _ => .ok ({ x with counter := va, target := byteField bs 24 8 }, s)
    | 5 =>
      match s.readCondition quad g i ty va with
      | .error e => .error e
      | .ok (w, u) => .ok ({ x with names := named (if w != 0 then succ.take 2 else succ.drop 2) }, u)
    | 6 =>
      match s.readCondition quad g i ty va with
      | .error e => .error e
      | .ok (w, u) => .ok ({ x with names := named [if w != 0 then succ.getD 0 0xFFFF else succ.getD 2 0xFFFF] }, u)
    | _ => .ok (x, s)

/-- A node becomes ready: its count reloads, and its work starts; one that still runs starts again when it has
completed. -/
def State.activate (s : State) (quad n i : Nat) : Except (Nat × Option Cause) State :=
  match s.graphOf quad n with
  | none => .ok s
  | some g =>
    match g.nodes[i]? with
    | none => .ok s
    | some x =>
      if x.running then .ok (s.modNode quad n i fun y => { y with again := y.again + 1, left := y.preds })
      else
        match s.hRead quad (g.nodesVa + 64 * i) 64 with
        | .error e => .error (5, some e.1)
        | .ok bs =>
          match s.nodeWork quad g i bs with
          | .error e => .error e
          | .ok (y, u) => .ok (u.modNode quad n i fun z => { y with again := z.again })

/-- A completed node decrements the counts of the successors that it names; those that reach zero become ready. A node whose
predecessor count is 0 stands at zero already: named, it becomes ready again (log 79). -/
def State.nameSuccessors (s : State) (quad n : Nat) (js : List Nat) : Except (Nat × Option Cause) State :=
  js.foldl (fun acc j =>
    match acc with
    | .error e => .error e
    | .ok s =>
      let left := match s.graphOf quad n with
        | some g => (g.nodes[j]?.map fun y => y.left).getD 0
        | none => 0
      let s := s.modNode quad n j fun y => { y with left := y.left - 1 }
      if left ≤ 1 then s.activate quad n j else .ok s) (.ok s)

/-- A graph in which no node is ready or runs completes, and adds its value to its counter. -/
def State.graphEnd (s : State) (quad n : Nat) : Except (Nat × Option Cause) State :=
  match s.graphOf quad n with
  | none => .ok s
  | some g =>
    if g.nodes.any fun x => x.running then .ok s
    else
      let s := s.dropGraph quad n
      let va := byteField g.packet.bytes 16 8
      if va == 0 then .ok s
      else
        match s.hAdd quad va (byteField g.packet.bytes 24 8) with
        | .ok u => .ok u
        | .error c => .error (5, some c)

/-- The descriptor that 64 bytes hold: node count, node array, trace and its length; or the status of its breach. -/
def graphDesc (bs : List Byte) : Except Nat (Nat × Nat × Nat × Nat) :=
  let count := byteField bs 0 4
  let len := byteField bs 24 4
  if !onlyNamed bs 4 [(8, 28)] then .error 4
  else if count == 0 || 65535 < count || len == 0 || 2 ^ Nat.log2 len != len then .error 5
  else .ok (count, byteField bs 8 8, byteField bs 16 8, len)

/-- A GRAPH packet: its descriptor and nodes are read, and the nodes with a count of 0 become ready. -/
def State.startGraph (s : State) (quad n : Nat) (k : Packet) : Except (Nat × Option Cause) (Nat × State) :=
  let p := s.partOf quad
  let va := byteField k.bytes 16 8
  match (if va == 0 then .ok 0 else s.hCounter quad va : Except Cause Nat) with
  | .error c => .error (5, some c)
  | .ok _ =>
    match s.hRead quad (byteField k.bytes 8 8) 64 with
    | .error e => .error (5, some e.1)
    | .ok d =>
      match graphDesc d with
      | .error st => .error (st, none)
      | .ok (count, nodesVa, traceVa, len) =>
        match s.hRead quad nodesVa (64 * count) with
        | .error e => .error (5, some e.1)
        | .ok bs =>
          let m := (s.parts.getD p {}).nextGraph
          let pred (i : Nat) : Nat := byteField bs (64 * i + 1) 1
          let g : Graph := {
            n := m, queue := n, packet := k, nodesVa := nodesVa, traceVa := traceVa, traceLen := len
            nodes := (List.range count).map fun i => { preds := pred i, left := pred i } }
          let s : State := { s with
            parts := updAt s.parts p fun x => { x with nextGraph := x.nextGraph + 1 }
            quads := updAt s.quads quad fun q => { q with graphs := q.graphs ++ [g] } }
          let ready := (List.range count).filter fun i => pred i == 0
          match ready.foldl (fun acc i => match acc with
              | .error e => .error e
              | .ok u => u.activate quad m i) (.ok s : Except (Nat × Option Cause) State) with
          | .error e => .error e
          | .ok u =>
            match u.graphEnd quad m with
            | .error e => .error e
            | .ok v => .ok (m, v)

/-- A GRAPH starts. -/
def State.graphPacket (s : State) (quad n : Nat) : State :=
  match s.takePacket quad n 0x02 with
  | none => s
  | some k =>
    match s.startGraph quad n k with
    | .error (st, c) => s.haltAt quad n k st c
    | .ok (m, u) => u.consume quad n k [.graph m]
/-- GRAPH (R136, R137). -/
def execGraph (quad queue : Nat) (s : State) : Host.Outcome State Fault Refusal :=
  heldBack s (s.graphPacket quad queue)

/-- The work of a running node is done. -/
def State.nodeDone (s : State) (quad : Nat) (x : GNode) : Except (Nat × Option Cause) Bool :=
  match x.kind with
  | 1 => .ok (s.launchOf (s.partOf quad) x.job).isNone
  | 2 => .ok (!s.cpCopyLive quad x.job)
  | 4 =>
    match s.hReached quad x.counter x.target with
    | .error c => .error (5, some c)
    | .ok b => .ok b
  | _ => .ok true

/-- A node completes. -/
def State.completeNode (s : State) (quad n i : Nat) (x : GNode) : Except (Nat × Option Cause) State :=
  match (s.modNode quad n i fun y => { y with running := false }).nameSuccessors quad n x.names with
  | .error e => .error e
  | .ok u =>
    match (if x.again == 0 then .ok u
           else (u.modNode quad n i fun y => { y with again := y.again - 1 }).activate quad n i) with
    | .error e => .error e
    | .ok v => v.graphEnd quad n

/-- The completion of a node, and of its graph where none is left; a breach or a fault on path H halts the queue and
ends the graph (log 42). -/
def State.graphNode (s : State) (quad n i : Nat) : State :=
  match s.graphOf quad n with
  | none => s
  | some g =>
    match g.nodes[i]? with
    | none => s
    | some x =>
      if !x.running || s.engineStill (s.partOf quad) then s
      else
        let fail (e : Nat × Option Cause) : State := (s.dropGraph quad n).haltAt quad g.queue g.packet e.1 e.2
        match s.nodeDone quad x with
        | .error e => fail e
        | .ok false => s
        | .ok true =>
          match (s.others quad).completeNode quad n i x with
          | .error e => fail e
          | .ok u => u
/-- GRAPH_NODE_COMPLETE (R137, R138). -/
def execGraphNodeComplete (quad n node : Nat) (s : State) : Host.Outcome State Fault Refusal :=
  heldBack s (s.graphNode quad n node)

end Sys2Proof.Machine
end

