-- ==== Sys2Proof/Machine/Tasks.lean ====
section
/-! DEFINITION. The commons and what the host does to a partition: picks, launch queues, halt and resume, the fence, the
revival of aborted tasks, halted commands and the invalidation of translations (spec 06 R113, R120-R124; 10 R231; 11
R248, R252; 12 R265; 13 R278, R287, R289). -/

namespace Sys2Proof.Machine

/-! ### Launch queues (R118, R248) -/

/-- The oldest record of a partition in the launch queue of a slice enters a general slot, but not while a merge round is open
(R253, R254); a wake or an operation that waits for an entry takes the one that it leaves. -/
def State.drainLaunch (s : State) (slice p : Nat) : State :=
  match s.launchQ.find? fun e => e.slice == slice && e.part == p with
  | none => s
  | some e =>
    if !s.generalFree p || s.fenced p || (s.parts.getD p {}).round.isSome then s
    else ((({ s with launchQ := s.launchQ.erase e }).enterCommons p e.record .general e.stamp).wakeReached).runHeld
/-- LAUNCH_QUEUE_DRAIN (R121, R248). -/
def execLaunchQueueDrain (slice part : Nat) (s : State) : Host.Outcome State Fault Refusal :=
  heldBack s (s.drainLaunch slice part)

/-! ### Records that wait for a slot (R254) -/

/-- The records that a closed merge round has left enter the commons in their order while general slots are free. -/
def State.enterWaiting (s : State) (p : Nat) : State :=
  (s.parts.getD p {}).entering.foldl (fun (s : State) x =>
    if !s.generalFree p then s
    else
      let s : State := { s with parts := updAt s.parts p fun y => { y with entering := y.entering.tail } }
      let (r, s) := if x.2 then s.newRecord p x.1 else (x.1, s)
      s.enterCommons p r .general s.clockMax) s

/-! ### Picks (R113, R122) -/

/-- The next lower level that holds a record, below level l. -/
def lowerLevel (has : Nat → Bool) : Nat → Option Nat
  | 0 => none
  | l + 1 => if has l then some l else lowerLevel has l

/-- The level of the pick rule, from level l down: a level that has had its 1,024 picks passes while one below it
holds a record. -/
def pickLevel (has : Nat → Bool) (run : List Nat) : Nat → Nat → Nat
  | 0, l => l
  | n + 1, l =>
    if 1024 ≤ run.getD l 0 then
      match lowerLevel has l with
      | some m => pickLevel has run n m
      | none => l
    else l

/-- The timetable in force: that of the frame in progress, or the one that a TT_START has anchored. -/
def State.tableInForce (s : State) (p : Nat) : Option Timetable :=
  let x := s.parts.getD p {}
  match x.frames, x.pendingStart with
  | some f, _ => some f.table
  | none, some _ => x.nextTable.orElse fun _ => x.table
  | none, none => none

/-- The tile is named by the timetable in force (R144). -/
def State.inTable (s : State) (p t : Nat) : Bool :=
  match s.tableInForce p with
  | none => false
  | some tb => tb.entries.any fun e => (List.range e.size).any fun i => s.physOf (e.lead + i) == some t

/-- The records that a tile may take: none marked tt, and in merge mode only those of the round's set. -/
def State.offered (s : State) (p : Nat) : List Queued :=
  let x := s.parts.getD p {}
  let free := x.commons.filter fun q => !q.record.tt
  if (s.quads.getD p {}).mg then
    match x.round with
    | some r => free.filter fun q => r.members.contains q.record.taskid
    | none => []
  else free

/-- An idle tile takes the record that the pick rule gives it, after a number of idle beats. -/
def State.taskPick (s : State) (t idle : Nat) : State :=
  let p := s.partOf (quadOf t)
  if !s.idle t || s.engineStill p || s.inTable p t then s
  else
    let qs := s.offered p
    let has (l : Nat) : Bool := qs.any fun q => q.record.prio.toNat == l
    match lowerLevel has 4 with
    | none => s
    | some top =>
      let l := pickLevel has (s.parts.getD p {}).run 4 top
      match qs.find? fun q => q.record.prio.toNat == l with
      | none => s
      | some q =>
        let s : State := { s with parts := updAt s.parts p fun x => { x with
          commons := x.commons.erase q
          run := (List.range 4).map fun h =>
            if h == l then x.run.getD l 0 + 1 else if l < h then 0 else x.run.getD h 0 } }
        let s := s.modTile t fun x => { x with
          beat := x.beat + idle, clock := max (x.clock + idle) q.stamp, req := none, gangLead := none }
        (s.placeTask t p q.record ((s.tile t).beat + 1)).enterWaiting p
/-- TASK_PICK (R113, R122). -/
def execTaskPick (t idle : Nat) (s : State) : Host.Outcome State Fault Refusal := happensAt t s (s.taskPick t idle)

/-! ### Halt and resume of a partition (R287) -/

/-- The command that a copy engine works on halts at its chunk boundary with a token when its partition is halted. R287 names no
cause for the record that gives the host the token: the model's is PREEMPT_FORCED (log 43). -/
def State.pauseCopy (s : State) (e : CopyEngine) : State :=
  match (s.copies e).1 with
  | [] => s
  | c :: _ => s.haltCopy e c .preemptForced 0

/-- The mills of a tile halt likewise. -/
def State.pauseMills (s : State) (t : Nat) : State :=
  match (s.tile t).task with
  | none => s
  | some k => (k.mills.filter fun m => m.token.isNone).foldl (fun s m => s.haltMill t m .preemptForced 0) s

/-- The halt field of a partition. -/
def State.setHalt (s : State) (p : Nat) (b : Bool) : State :=
  { s with quads := updAt s.quads p fun q => { q with halt := b } }

/-- A partition halts: every running task is forced at once, and engines and queues stand still. In a fenced partition everything
stands still already: only the field changes (R289, R290). -/
def State.haltPartition (s : State) (p : Nat) : State :=
  if (s.quads.getD p {}).halt then s
  else if s.fenced p then s.setHalt p true
  else
    let s := (s.tilesOf p).foldl (fun s t => ((s.pauseCopy (.tile t)).pauseMills t).force t) (s.setHalt p true)
    (s.quadsOf p).foldl (fun s q => s.pauseCopy (.cp q)) s
/-- PARTITION_HALT (R287). -/
def execPartitionHalt (p : Nat) (s : State) : Host.Outcome State Fault Refusal := heldBack s (s.haltPartition p)

/-- The tile that leads the gang of a task on a tile (R148, R149). -/
def State.leadOf (s : State) (t : Nat) (k : Task) : Option Nat :=
  if (k.gpos.extractLsb' 4 4).toNat ≤ 1 then none
  else (s.logicalOf t).bind fun n => s.physOf (n - (k.gpos.extractLsb' 0 4).toNat)

/-- A timetable record that its tile gave up returns to that tile: no pick offers it (R144, log 44). -/
def State.restoreTimetable (s : State) (p : Nat) : State :=
  (s.parts.getD p {}).commons.foldl (fun s q =>
    match q.slot with
    | .ret t =>
      if !q.record.tt || !s.idle t then s
      else
        let s : State := { s with parts := updAt s.parts p fun x => { x with commons := x.commons.erase q } }
        let s := s.placeTask t p q.record ((s.tile t).beat + 1)
        match (s.tile t).task with
        | some k => s.modTile t fun x => { x with gangLead := s.leadOf t k }
        | none => s
    | _ => s) s

/-- A halted partition goes on. -/
def State.resumePartition (s : State) (p : Nat) : State :=
  if !(s.quads.getD p {}).halt then s
  else if s.fenced p then s.setHalt p false
  else
    let s := (s.setHalt p false).restoreTimetable p
    (s.quadsOf p).foldl (fun s q => (List.range 64).foldl (fun s n => s.lookOn q n) s) s
/-- PARTITION_RESUME (R287). -/
def execPartitionResume (p : Nat) (s : State) : Host.Outcome State Fault Refusal := heldBack s (s.resumePartition p)

/-- PARTITION_FENCE: the host's fence field (R289). -/
def execPartitionFence (p : Nat) (s : State) : Host.Outcome State Fault Refusal :=
  heldBack s (s.fencePart p { cause := .partitionFence, cls := .f })

/-! ### Revival (R278) -/

/-- The record copy in a context header, where it passes R111 and the context names this stepping. -/
def State.revivable (s : State) (p va : Nat) : Option Record :=
  match s.accessRange p p va 320 .read with
  | .error _ => none
  | .ok pas =>
    if (pas.any fun x => s.cohPoisoned (lineOf x.1)) || s.saved.any (fun e => e.part == p && e.va == va && e.spoiled) then none
    else
      let h := pas.map fun x => s.cohByte x.1
      if s.recordOk p (h.take 64) && byteField h 68 4 == s.fixed.stepping.toNat && byteField h 64 1 != 0 then
        some (recordOf h)
      else none

/-- An aborted task enters a general slot again, with its task id, marked raf; its groups count again. Where no slot
is free nothing happens (log 45). -/
def State.revive (s : State) (p va : Nat) : State :=
  match s.revivable p va with
  | none => s
  | some r =>
    if !s.generalFree p || s.fenced p then s
    else (s.groupsUpdate p r.groups true).enterCommons p { r with raf := true } .general s.clockMax
/-- REVIVE (R278). -/
def execRevive (p ctx : Nat) (s : State) : Host.Outcome State Fault Refusal := heldBack s (s.revive p (alignDown ctx 64))

/-! ### Halted commands (R265) -/

/-- A resumed copy behind the command in progress and those resumed before it. -/
def resumeCopyIn (run : List CopyCmd) (c : CopyCmd) : List CopyCmd :=
  let first (x : CopyCmd) : Bool := x.token.isSome || decide (0 < x.chunk) || x.addOnly
  run.takeWhile first ++ c :: run.dropWhile first

/-- A resumed reduction likewise. -/
def resumeReduceIn (run : List ReduceCmd) (c : ReduceCmd) : List ReduceCmd :=
  let first (x : ReduceCmd) : Bool := x.token.isSome || decide (0 < x.chunk) || x.addOnly
  run.takeWhile first ++ c :: run.dropWhile first

/-- A mill changed or removed, on its tile or in a saved context. -/
def State.onMill (s : State) (n : Nat) (f : Mill → Option Mill) : State :=
  let put (k : Task) : Task := { k with mills := k.mills.filterMap fun m => if m.serial == n then f m else some m }
  { s with
    tiles := s.tiles.map fun x => { x with task := x.task.map put }
    saved := s.saved.map fun e => { e with task := put e.task } }

/-- The side of its ring that a mill leaves. -/
def Ring.detach (r : Ring) (push : Bool) : Ring := if push then { r with millP := false } else { r with millC := false }

/-- A mill detaches from its ring, on its tile or in a saved context. -/
def State.detachMill (s : State) (n : Nat) : State :=
  let of (k : Task) : Option Mill := k.mills.find? fun m => m.serial == n
  let put (m : Mill) (k : Task) : Task :=
    let free (r : Regs) : Regs := r.setRing m.g ((r.ring m.g).detach m.push)
    { k with regs := free k.regs, ckpt := k.ckpt.map free }
  { s with
    tiles := s.tiles.map fun x => match x.task.bind of with
      | some m => x.everyTask (put m)
      | none => x
    saved := s.saved.map fun e => match of e.task with
      | some m => { e with task := put m e.task }
      | none => e }

/-- A halted copy of an engine: it runs next, or it is abandoned. -/
def State.haltedCopy (s : State) (e : CopyEngine) (n : Nat) (go : Bool) : State :=
  let (run, halted) := s.copies e
  let rest := halted.filter fun c => c.serial != n
  match halted.find? fun c => c.serial == n with
  | some c => s.setCopies e (if go then resumeCopyIn run c else run) rest
  | none => s

/-- A halted reduction of a base die. -/
def State.haltedReduce (s : State) (die n : Nat) (go : Bool) : State :=
  match (s.dies.getD die {}).reduceHalted.find? fun c => c.serial == n with
  | none => s
  | some c =>
    let s : State := { s with dies := updAt s.dies die fun x =>
      { x with reduceHalted := x.reduceHalted.filter fun c => c.serial != n } }
    if go then { s with dies := updAt s.dies (s.engineDie .reduction die) fun x =>
      { x with reduceQ := resumeReduceIn x.reduceQ c } }
    else s

/-- A halted open frame of a base die. -/
def State.haltedFrame (s : State) (die p va : Nat) (go : Bool) : State :=
  let mine (w : WcFrame) : Bool := w.part == p && w.desc.base + 512 * w.frame == va
  match (s.dies.getD die {}).wcHalted.find? mine with
  | none => s
  | some w =>
    let s : State := { s with dies := updAt s.dies die fun x => { x with wcHalted := x.wcHalted.erase w } }
    if go then { s with dies := updAt s.dies (s.engineDie .writeCombining die) fun x => { x with wc := x.wc ++ [w] } }
    else s

/-- The command that a token of a quadrant names is resumed or abandoned; a token that names none is ignored. -/
def State.actOnToken (s : State) (quad : Nat) (tok : BitVec 16) (go : Bool) : State :=
  match (s.quads.getD quad {}).halted.find? fun h => h.1 == tok with
  | none => s
  | some (_, r) =>
    let s : State := { s with quads := updAt s.quads quad fun q =>
      { q with halted := q.halted.filter fun h => h.1 != tok } }
    match r with
    | .tileCopy t n => s.haltedCopy (.tile t) n go
    | .cpCopy n => s.haltedCopy (.cp quad) n go
    | .mill _ n => if go then s.onMill n fun m => some { m with token := none }
                   else (s.detachMill n).onMill n fun _ => none
    | .reduce die n => s.haltedReduce die n go
    | .wcFrame die p va => s.haltedFrame die p va go
/-- RESUME_HALTED (R265). -/
def execResumeHalted (quad : Nat) (token : BitVec 16) (s : State) : Host.Outcome State Fault Refusal :=
  happens s (s.actOnToken quad token true)
/-- ABANDON_HALTED (R265). -/
def execAbandonHalted (quad : Nat) (token : BitVec 16) (s : State) : Host.Outcome State Fault Refusal :=
  happens s (s.actOnToken quad token false)

/-! ### Invalidation of translations (R231) -/

/-- An invalidation starts, of the range that the page of the partition's first quadrant names. -/
def State.startInvalidate (s : State) (quad : Nat) : State :=
  if s.partOf quad != quad then s
  else { s with quads := updAt s.quads quad fun q =>
    { q with busy := true, invalidating := q.invalidating ++ [(q.iva.toNat, q.icount.toNat)] } }
/-- TLB_INVALIDATE (R231). -/
def execTlbInvalidate (quad : Nat) (s : State) : Host.Outcome State Fault Refusal := happens s (s.startInvalidate quad)

/-- A cached leaf overlaps a range of 64 KiB units; a count of 0 is the whole partition. -/
def TlbEntry.inRange (e : TlbEntry) (p unit count : Nat) : Bool :=
  e.part == p && (count == 0 || (decide (e.va < (unit + count) * 65536) && decide (unit * 65536 < e.va + 2 ^ e.size)))

/-- Every invalidation under way is done: no unit of the partition holds a translation of its range. -/
def State.endInvalidate (s : State) (quad : Nat) : State :=
  let rs := (s.quads.getD quad {}).invalidating
  if rs.isEmpty then s
  else
    let s : State := { s with tiles := s.tiles.map fun x =>
      { x with micro := x.micro.filter fun e => !rs.any fun r => e.inRange quad r.1 r.2 } }
    let s := (s.quadsOf quad).foldl (fun (s : State) x => { s with quads := updAt s.quads x fun q =>
      { q with tlb := q.tlb.filter fun e => !rs.any fun r => e.inRange quad r.1 r.2 } }) s
    { s with quads := updAt s.quads quad fun q => { q with busy := false, invalidating := [] } }
/-- TLB_INVALIDATE_DONE (R231). -/
def execTlbInvalidateDone (quad : Nat) (s : State) : Host.Outcome State Fault Refusal :=
  happens s (s.endInvalidate quad)

end Sys2Proof.Machine
end

