-- ==== Sys2Proof/Machine/Timetable.lean ====
section
/-! DEFINITION. Timetable mode: its packets, its entries and its frames (spec 07 R141-R152). -/

namespace Sys2Proof.Machine

/-! ### Tables (R142, R143) -/

/-- An entry as 32 bytes give it, with whether its fields are in range by themselves: an address of 2^52 or more names no bundle (log
76). -/
def ttEntryOf (bs : List Byte) : TtEntry × Bool :=
  let e : TtEntry := {
    entry := byteField bs 0 8, argA := BitVec.ofNat 64 (byteField bs 8 8), ctx := BitVec.ofNat 64 (byteField bs 16 8)
    kernel := BitVec.ofNat 16 (byteField bs 24 2), lead := byteField bs 26 1, size := byteField bs 27 1
    stride := BitVec.ofNat 32 (byteField bs 28 4) }
  (e, e.entry % 32 == 0 && decide (e.entry < 2 ^ 52) && decide (1 ≤ e.size) && decide (e.size ≤ 8))

/-- The logical tiles of an entry. -/
def TtEntry.tiles (e : TtEntry) : List Nat := (List.range e.size).map fun i => e.lead + i

/-- The limits of R143 that the partition sets: the kernel, and tiles of one of its quadrants that are bound and do not
share an instance. -/
def State.ttEntryOk (s : State) (p : Nat) (e : TtEntry) : Bool :=
  (s.kernel p e.kernel).isSome && s.partOf (e.lead / 32) == p && decide (e.lead % 32 + e.size ≤ 32)
  && e.tiles.all fun n => match s.physOf n with
    | some t => !(s.tile t).splits && !(s.tile t).splitv
    | none => false

/-- The table that a TT_LOAD or TT_SWAP names, or the status and cause of its failure. -/
def State.readTable (s : State) (quad : Nat) (bs : List Byte) : Except (Nat × Option Cause) Timetable :=
  let p := s.partOf quad
  let va := byteField bs 8 8
  let n := byteField bs 16 2
  let len := byteField bs 20 4
  let size := byteField bs 28 4
  if !(s.quads.getD p {}).tt || va % 32 != 0 || n == 0 || 256 < n || len % 64 != 0 || len < 4096 || 1048576 < len
      || size % 64 != 0 then .error (5, none)
  else
    match s.hRead quad va (32 * n) with
    | .error e => .error (5, some e.1)
    | .ok raw =>
      let es := (List.range n).map fun i => ttEntryOf ((raw.drop (32 * i)).take 32)
      let named : List Nat := (es.map fun e => e.1.tiles).flatten
      if es.all (fun e => e.2 && s.ttEntryOk p e.1) && decide named.Nodup then
        .ok { entries := es.map (·.1), len := len, limit := byteField bs 24 4, ctxSize := size }
      else .error (5, none)

/-- TT_LOAD copies a checked table in. -/
def State.ttLoad (s : State) (quad n : Nat) : State :=
  match s.takePacket quad n 0x10 with
  | none => s
  | some k =>
    match s.readTable quad k.bytes with
    | .error (st, c) => s.haltAt quad n k st c
    | .ok t => ({ s with parts := updAt s.parts (s.partOf quad) fun x => { x with table := some t } }).consume quad n k []
/-- TT_LOAD (R142, R143). -/
def execTtLoad (quad queue : Nat) (s : State) : Host.Outcome State Fault Refusal := heldBack s (s.ttLoad quad queue)

/-- TT_SWAP: the new table is in force from the next frame start. -/
def State.ttSwap (s : State) (quad n : Nat) : State :=
  match s.takePacket quad n 0x13 with
  | none => s
  | some k =>
    match s.readTable quad k.bytes with
    | .error (st, c) => s.haltAt quad n k st c
    | .ok t => ({ s with parts := updAt s.parts (s.partOf quad) fun x =>
        { x with nextTable := some t } }).consume quad n k [.ttSwap]
/-- TT_SWAP (R142, R143). -/
def execTtSwap (quad queue : Nat) (s : State) : Host.Outcome State Fault Refusal := heldBack s (s.ttSwap quad queue)

/-- The islands of a partition at 1.75 GHz (R151). -/
def State.fullSpeed (s : State) (p : Nat) : State :=
  let s := (s.tilesOf p).foldl (fun s t => s.modTile t fun x =>
    { x with point := if (s.logicalOf t).isSome then .p1750 else x.point }) s
  (s.quadsOf p).foldl (fun (s : State) q => { s with
    quads := updAt s.quads q fun x => { x with point := .p1750 }
    dies := updAt s.dies q fun x => { x with point := .p1750 } }) s

/-- TT_START anchors frame 0 at a tick at least 2^16 ahead; it is refused without a table, or while one runs. -/
def State.ttStart (s : State) (quad n : Nat) : State :=
  match s.takePacket quad n 0x11 with
  | none => s
  | some k =>
    let p := s.partOf quad
    let x := s.parts.getD p {}
    let a := byteField k.bytes 8 8
    if !(s.quads.getD p {}).tt || x.table.isNone || x.frames.isSome || x.pendingStart.isSome
        || a < s.refTick + 2 ^ 16 then s.haltAt quad n k 5 none
    else
      let s : State := { s with parts := updAt s.parts p fun x => { x with pendingStart := some a } }
      (s.fullSpeed p).consume quad n k [.ttStart]
/-- TT_START (R142). -/
def execTtStart (quad queue : Nat) (s : State) : Host.Outcome State Fault Refusal := heldBack s (s.ttStart quad queue)

/-- TT_STOP: the frame in progress is the last. Where none is, the packet is done at once, and a TT_START that has not come to its
anchor goes on (log 75). -/
def State.ttStop (s : State) (quad n : Nat) : State :=
  match s.takePacket quad n 0x12 with
  | none => s
  | some k =>
    let stop (f : Frames) : Frames := { f with stopping := true }
    ({ s with parts := updAt s.parts (s.partOf quad) fun x =>
        { x with frames := x.frames.map stop } }).consume quad n k [.ttStop]
/-- TT_STOP (R142). -/
def execTtStop (quad queue : Nat) (s : State) : Host.Outcome State Fault Refusal := heldBack s (s.ttStop quad queue)

/-- The busy/idle table of a partition: its quadrants, their local indices and 64 phases, 8 bytes each (R152). -/
def State.busyBytes (s : State) (p : Nat) : List Byte :=
  let busy := (s.parts.getD p {}).busy
  ((s.quadsOf p).map fun q => ((List.range 32).map fun i => ((List.range 64).map fun ph =>
    leBytes 8 ((assoc busy ((q * 32 + i) * 64 + ph)).getD 0).toNat).flatten).flatten).flatten

/-- TT_READ copies and clears the busy/idle table, and adds 1 to its counter. -/
def State.ttRead (s : State) (quad n : Nat) : State :=
  match s.takePacket quad n 0x14 with
  | none => s
  | some k =>
    let p := s.partOf quad
    let va := byteField k.bytes 8 8
    let ctr := byteField k.bytes 16 8
    if va % 64 != 0 then s.haltAt quad n k 5 none
    else
      match (if ctr == 0 then .ok 0 else s.hCounter quad ctr : Except Cause Nat) with
      | .error c => s.haltAt quad n k 5 (some c)
      | .ok _ =>
        match s.engWrite quad p (cellsAt va (s.busyBytes p)) with
        | .error e => s.haltAt quad n k 5 (some e.1)
        | .ok u =>
          let u : State := { u with parts := updAt u.parts p fun x => { x with busy := [] } }
          let u := if ctr == 0 then u
            else match u.hAdd quad ctr 1 with
              | .ok v => v
              | .error _ => u
          u.consume quad n k []
/-- TT_READ (R142, R152). -/
def execTtRead (quad queue : Nat) (s : State) : Host.Outcome State Fault Refusal := heldBack s (s.ttRead quad queue)

/-! ### Frames (R141, R144, R146, R147) -/

/-- Every tile that a table names can take its record. -/
def State.tableIdle (s : State) (tb : Timetable) : Bool :=
  tb.entries.all fun e => e.tiles.all fun n => match s.physOf n with
    | some t => s.idle t
    | none => false

/-- A member's task: its gang position, its context area, and its first bundle i beats after the lead's (R144, R145,
R149). -/
def State.placeMember (s : State) (p : Nat) (tb : Timetable) (e : TtEntry) (r : Record) (i : Nat) : State :=
  match s.physOf (e.lead + i) with
  | none => s
  | some t =>
    let r : Record := { r with ctx := e.ctx + BitVec.ofNat 64 (i * tb.ctxSize) }
    let s := s.placeTask t p r ((s.tile t).beat + 1 + i)
    match (s.tile t).task with
    | none => s
    | some k =>
      let gpos : Word64 := (e.stride * BitVec.ofNat 32 i) ++ 0#24 ++ BitVec.ofNat 4 e.size ++ BitVec.ofNat 4 i
      s.modTile t fun x => { x with
        task := some { k with gpos := gpos }
        gangLead := if e.size == 1 then none else s.physOf e.lead }

/-- An entry's record at the start of a frame. -/
def State.placeEntry (s : State) (p : Nat) (tb : Timetable) (frame : Nat) (e : TtEntry) : State :=
  let (id, s) := s.takeId p
  let r : Record := {
    resume := e.entry, tt := true, argA := e.argA, argB := BitVec.ofNat 64 frame, taskid := id, prio := 3
    kernel := e.kernel }
  (List.range e.size).foldl (fun s i => s.placeMember p tb e r i) s

/-- Frame f begins, on the tick that is its start. Its table is the loaded one from then on, also where a TT_LOAD has come since the
one before began (log 75). -/
def State.beginFrame (s : State) (p anchor start frame : Nat) (tb : Timetable) : State :=
  let f : Frames := { table := tb, anchor := anchor, frame := frame, start := start, slip := 0, stopping := false }
  let s : State := { s with parts := updAt s.parts p fun x =>
    { x with frames := some f, pendingStart := none, nextTable := none, table := some tb } }
  (tb.entries.foldl (fun s e => s.placeEntry p tb frame e) s).noteFrame p

/-- The tick on which the tasks of a frame have ended. -/
def Frames.over (f : Frames) : Nat := max (f.anchor + f.table.len) (f.ended.getD 0)

/-- A frame ends after its successor's anchor: the overrun enters the slip total and the log (R147). -/
def State.overrun (s : State) (p : Nat) (f : Frames) : State :=
  let extra := f.over - (f.anchor + f.table.len)
  if extra == 0 then s
  else
    let s := s.log p { cause := .slip, cls := .v, a := extra, b := f.frame }
    if f.table.limit != 0 && f.table.limit < f.slip + extra then
      s.fencePart p { cause := .slip, cls := .f, a := extra, b := f.frame }
    else s

/-- Frame 0 starts at its anchor, and each later frame at the later of its anchor and the end of the one before; a stopped
timetable ends with its frame. Its tasks are placed once the tiles of its table are free (R146, log 46). -/
def State.frameStart (s : State) (p : Nat) : State :=
  let x := s.parts.getD p {}
  if s.engineStill p then s
  else
    match x.frames, x.pendingStart with
    | none, some a =>
      match x.nextTable.orElse fun _ => x.table with
      | some tb => if s.refTick < a || !s.tableIdle tb then s else s.beginFrame p a a 0 tb
      | none => s
    | some f, _ =>
      let next := f.anchor + f.table.len
      if s.refTick < next || s.frameBusy p then s
      else
        let tb := x.nextTable.getD f.table
        if f.stopping then
          let s := s.overrun p f
          { s with parts := updAt s.parts p fun x => { x with frames := none } }
        else if !s.tableIdle tb then s
        else
          let s := s.overrun p f
          if s.fenced p then s else s.beginFrame p next f.over (f.frame + 1) tb
    | none, none => s
/-- FRAME_START (R144, R146, R147). -/
def execFrameStart (p : Nat) (s : State) : Host.Outcome State Fault Refusal := heldBack s (s.frameStart p)

end Sys2Proof.Machine
end

