-- ==== Sys2Proof/Machine/Merge.lean ====
section
/-! DEFINITION. Merge rounds: their opening, and the six steps of their close (spec 11 R252-R254). -/

namespace Sys2Proof.Machine

open Host (Cell)

/-! ### Opening (R252) -/

/-- A round opens over the records that stand in the commons, which see memory as it stands now: a placement is ordered after
everything performed so far (R253, log 11); those that still wait to enter join a later one. -/
def State.mergeOpen (s : State) (p : Nat) : State :=
  let x := s.parts.getD p {}
  let ids := (x.commons.filter fun q => !q.record.tt).map fun q => q.record.taskid
  if !(s.quads.getD p {}).mg || x.round.isSome || ids.isEmpty || s.engineStill p then s
  else { s with parts := updAt s.parts p fun x =>
    { x with round := some { members := ids, running := ids, log := [], ops := [] } } }
/-- MERGE_ROUND_OPEN (R252). -/
def execMergeRoundOpen (p : Nat) (s : State) : Host.Outcome State Fault Refusal := heldBack s (s.mergeOpen p)

/-! ### Step 1: conflicts (R254) -/

/-- The bytes that a log entry or a held drain entry writes, by VA. -/
def PrivLine.bytesAt (l : PrivLine) : List Cell :=
  (List.range 128).filterMap fun i => if l.mask.getLsbD i then some (l.va + i, lineByte l.data i) else none

/-- Every byte that a task of the round writes, with its task: by PA where it translates (log 47). -/
def State.mergeBytes (s : State) (p : Nat) (r : MergeRound) : List (Nat × Nat × Nat) :=
  let key (va : Nat) : Nat := match s.access p p va .write with
    | .ok l => l.pa
    | .error _ => 2 ^ 52 + va
  (r.log.map fun (id, l) => l.bytesAt.map fun c => (key c.1, c.1, id.toNat)).flatten
  ++ (r.ops.map fun (id, o) => match o with
      | .entry d xs _ _ => (plainCells d (fun _ => 0) xs).map fun c => (key c.1, c.1, id.toNat)
      | _ => []).flatten

/-- The lowest byte that two tasks have written, and the two lowest of their ids. -/
def mergeClash (bs : List (Nat × Nat × Nat)) : Option (Nat × Nat × Nat) :=
  let bad := bs.filter fun b => bs.any fun c => c.1 == b.1 && c.2.2 != b.2.2
  match bad.insertionSort fun a b => decide (a.2.1 ≤ b.2.1) with
  | [] => none
  | b :: _ =>
    let ids := (((bs.filter fun c => c.1 == b.1).map fun c => c.2.2).dedup).insertionSort fun x y => decide (x ≤ y)
    some (b.2.1, ids.getD 0 0, ids.getD 1 0)

/-! ### Step 2: the log applies -/

/-- A line of the merge log in memory. -/
def State.mergeLine (s : State) (p : Nat) (l : PrivLine) : State :=
  match s.access p p l.va .write with
  | .ok x => s.lowWrite (l.bytesAt.map fun c => (x.pa + (c.1 - l.va), c.2))
  | .error _ => s

/-- The writes of a round: its log, and the drain entries held for tensors with metadata (log 37). -/
def State.mergeWrites (s : State) (p : Nat) (log : List (Word64 × PrivLine)) (ops : List (Word64 × MergeOp)) : State :=
  let s := log.foldl (fun s x => s.mergeLine p x.2) s
  ops.foldl (fun s x => match x.2 with
    | .entry d xs off wcw => match s.writeElems p p d xs off wcw with
      | .ok u => u
      | .error (c, va) => s.log p { cause := haltCause c, cls := .e, task := x.1, data := va }
    | _ => s) s

/-! ### Step 3: atomics -/

/-- The scalar section of a context marked; one that was not is written as at a task's start first (R113, R286). -/
def State.markScalars (s : State) (p c maskPa : Nat) : State :=
  if (s.cohByte maskPa).getLsbD 1 then s
  else
    let z : Regs := {}
    let s := match s.accessRange p p (c + 0x1000) z.sSection.length .write with
      | .ok xs => s.lowWrite ((xs.map fun (x : Nat × Leaf) => x.1).zip z.sSection)
      | .error _ => s
    s.lowWrite [(maskPa, s.cohByte maskPa ||| 2#8)]

/-- The old value of a held atomic in the saved register of its task's context. -/
def State.mergeReply (s : State) (p : Nat) (ctx : Word64) (d : BitVec 6) (v : Nat) : State :=
  let c := ctx.toNat
  if d == 0#6 then s
  else
    match s.accessRange p p (c + 0x1000 + 8 * d.toNat) 8 .write, s.access p p (c + 66) .both with
    | .ok xs, .ok m =>
      let s := s.markScalars p c m.pa
      s.lowWrite ((xs.map fun (x : Nat × Leaf) => x.1).zip (leBytes 8 v))
    | _, _ => s

/-- The E bundle of an operation held in a round. -/
def MergeOp.addr : MergeOp → Nat
  | .amo _ _ _ _ _ _ _ a | .amoc _ _ _ _ _ _ _ a | .add _ _ a => a
  | _ => 0

/-- A held operation that cannot be performed after its task has been suspended: one record, with the task id and the address of its
E bundle; nothing else changes (R311, log 47). -/
def State.mergeFail (s : State) (p : Nat) (id : Word64) (o : MergeOp) (c : Cause) (va : Nat) : State :=
  s.log p { cause := c, cls := .k, task := id, bundle := o.addr, data := va }

/-- Where a held atomic acts. -/
def State.mergePlace (s : State) (p va : Nat) : Except Cause Nat :=
  match s.access p p va .both with
  | .error c => .error c
  | .ok l => if s.cohPoisoned (lineOf l.pa) then .error .eccUncorrectable else .ok l.pa

/-- A held atomic performed: the record of its errand, if any (R246, R247). -/
def State.mergeAtomic (s : State) (p : Nat) (o : MergeOp) : Except (Cause × Nat) (Option Record × State) :=
  match o with
  | .amo ctx d op wide va x y _ =>
    match s.mergePlace p va with
    | .error c => .error (c, va)
    | .ok pa =>
      let (old, s) := s.amoAt pa op wide x y
      .ok (none, s.mergeReply p ctx d old)
  | .amoc ctx d op cc va x tmpl _ =>
    match s.template p p tmpl with
    | .error c => .error (c, tmpl)
    | .ok r =>
      match s.mergePlace p va with
      | .error c => .error (c, va)
      | .ok pa =>
        let old := leNat (s.lowBytes pa 8)
        if !intCond cc 64 old x.toNat then .ok (none, s.mergeReply p ctx d old)
        else
          let (_, s) := s.amoAt pa op true x 0
          .ok (some (r.errandOf (BitVec.ofNat 64 old) x), s.mergeReply p ctx d old)
  | _ => .ok (none, s)

/-- Every held atomic performed; an errand takes the place of its operation among the records. -/
def State.mergeAtomics (s : State) (p : Nat) (ops : List (Word64 × MergeOp)) : State × List (Word64 × MergeOp) :=
  ops.foldl (fun (acc : State × List (Word64 × MergeOp)) x =>
    let (s, done) := acc
    match x.2 with
    | .amo .. | .amoc .. =>
      match s.mergeAtomic p x.2 with
      | .ok (some r, s) => (s, done ++ [(x.1, .enqueue r true)])
      | .ok (none, s) => (s, done)
      | .error (c, va) => (s.mergeFail p x.1 x.2 c va, done)
    | _ => (s, done ++ [x])) (s, [])

/-! ### Steps 4 and 5: copies and adds -/

/-- A held copy run to completion, but for its counter add; the command where that add is still due. -/
def State.mergeCopy (s : State) (tile : Nat) (c : CopyCmd) : Option CopyCmd × State :=
  let bs := c.chunks
  let out := bs.foldl (fun (acc : Bool × CopyCmd × State) b =>
    let (ok, c, s) := acc
    if !ok then (ok, c, s)
    else
      match s.copyBlock (tileUnit tile) c b with
      | .ok u => (true, { c with chunk := c.chunk + 1 }, u)
      | .error (x, va) => (false, c, s.haltCopy (.tile tile) c x va)) (true, c, s)
  (if out.1 then some out.2.1 else none, out.2.2)

/-- The counter add of a copy that has run. -/
def State.mergeCopyAdd (s : State) (tile : Nat) (c : CopyCmd) : State :=
  match s.copyAdd (.tile tile) c with
  | .ok u => u
  | .error (x, va) => s.haltCopy (.tile tile) { c with addOnly := true } x va

/-- A held add, or a held update of a group's count (log 47). -/
def State.mergeAdd (s : State) (p : Nat) (x : Word64 × MergeOp) : State :=
  match x.2 with
  | .add va n at_ =>
    match s.counterAdd p p va n.toNat with
    | .ok u => u
    | .error c => s.log p { cause := c, cls := .k, task := x.1, bundle := at_, data := va }
  | .group g up => s.groupUpdate p g.toNat up
  | _ => s

/-- A suspended task of the round waits at its counter. -/
def State.mergeWaiter (s : State) (p : Nat) (x : Word64 × MergeOp) : State :=
  match x.2 with
  | .waiter pa target r => { s with
      waiters := s.waiters ++ [{ n := s.serial, pa := pa, part := p, target := target, confirmed := true
                                 reached := false, tile := 0, record := r }]
      serial := s.serial + 1 }
  | _ => s

/-! ### Step 6 and the close -/

/-- The records that a round leaves, with the task that each belongs to: those held, and those that its adds have woken, also
beyond what the launch queue of a slice has room for. -/
def State.mergeRecords (s : State) (p : Nat) (ops : List (Word64 × MergeOp)) : List (Record × Bool) :=
  let held := ops.filterMap fun x => match x.2 with
    | .enqueue r fresh => some (x.1, r, fresh)
    | _ => none
  let woken := (s.launchQ.filter fun e => e.part == p).map fun e => (e.record.taskid, e.record, false)
  let more := (s.waiters.filter fun w => w.part == p && w.confirmed && w.reached).map fun w =>
    (w.record.taskid, w.record, false)
  ((held ++ woken ++ more).insertionSort fun a b => decide (a.1.toNat ≤ b.1.toNat)).map fun x => x.2

/-- The steps 2 to 6 of a close. -/
def State.mergeApply (s : State) (p : Nat) (r : MergeRound) : State :=
  let byId {α : Type} (xs : List (Word64 × α)) : List (Word64 × α) :=
    xs.insertionSort fun a b => decide (a.1.toNat ≤ b.1.toNat)
  let late := (s.parts.getD p {}).deferred
  let s : State := { s with parts := updAt s.parts p fun x => { x with round := none, deferred := [] } }
  let ops := byId r.ops
  let s := s.mergeWrites p (byId r.log) ops
  let (s, ops) := s.mergeAtomics p ops
  let (left, s) := ops.foldl (fun (acc : List (Nat × CopyCmd) × State) x => match x.2 with
    | .copy t c => match acc.2.mergeCopy t c with
      | (some c, u) => (acc.1 ++ [(t, c)], u)
      | (none, u) => (acc.1, u)
    | _ => acc) ([], s)
  let s := ops.foldl (fun s x => s.mergeWaiter p x) s
  let s := ops.foldl (fun s x => s.mergeAdd p x) s
  let s := left.foldl (fun s x => s.mergeCopyAdd x.1 x.2) s
  let s := late.foldl (fun s o => s.mergeAdd p (0, o)) s
  let s := ((s.waiters.filter fun w => w.part == p).map fun w => w.pa).dedup.foldl
    (fun s pa => s.testWaiters pa s.clockMax) s
  let rs := s.mergeRecords p ops
  let s : State := { s with
    launchQ := s.launchQ.filter fun e => e.part != p
    waiters := s.waiters.filter fun w => !(w.part == p && w.confirmed && w.reached)
    parts := updAt s.parts p fun x => { x with entering := x.entering ++ rs } }
  (s.wakeReached.enterWaiting p).runHeld

/-- A round closes once every task of it has reached a sync point; two tasks that have written one byte fence the
partition instead. -/
def State.mergeClose (s : State) (p : Nat) : State :=
  match (s.parts.getD p {}).round with
  | none => s
  | some r =>
    if !r.running.isEmpty || s.engineStill p then s
    else
      match mergeClash (s.mergeBytes p r) with
      | some (va, a, b) => s.fencePart p { cause := .mergeConflict, cls := .f, data := va, a := a, b := b }
      | none => s.mergeApply p r
/-- MERGE_ROUND_CLOSE (R254). -/
def execMergeRoundClose (p : Nat) (s : State) : Host.Outcome State Fault Refusal := heldBack s (s.mergeClose p)

end Sys2Proof.Machine
end

