-- ==== Sys2Proof/Machine/Fabric.lean ====
section
/-! DEFINITION. Peer ports: what a link sends and takes, delivery to port channels, channels switched on and off, link
loss, and PTP (spec 07 R140, R154; 14 R295-R299; 23 R390). -/

namespace Sys2Proof.Machine

/-! ### Sending messages (R297, R298, R390) -/

/-- Data bytes of a DATA frame at most. -/
def fragmentBytes : Nat := 8192

/-- The fragments of a message. -/
def fragmentsOf (bs : List Byte) : List (List Byte) :=
  (List.range (ceilDiv bs.length fragmentBytes)).map fun i => (bs.drop (fragmentBytes * i)).take fragmentBytes

/-- A message sent as its DATA frames, one after another. -/
def State.sendMessage (s : State) (p c : Nat) (queue : Bool) (off : Word64) (bs : List Byte) : State :=
  let fs := fragmentsOf bs
  fs.zipIdx.foldl (fun s (f, i) => s.sendSeq p fun n =>
    .data { ch := BitVec.ofNat 5 c, first := i == 0, last := i + 1 == fs.length, queue := queue, seq := n, arg := off
            payload := (if i == 0 then leBytes 4 bs.length ++ leBytes 4 (crc32c bs).toNat else []) ++ f }) s

/-- A send may go: what the fences of its task make it wait for is done, and where its source is still to be read, its partition's
engines run (R240, R287). -/
def State.sendReady (s : State) (m : Send) : Bool :=
  (m.data.isSome || !s.engineStill m.part) && s.clearedOf m.part m.task.toNat m.waits m.waitBlk

/-- The message that a port accepts next on a channel: of each tile only the oldest is offered, and among those that may
go, the one that started first. -/
def State.nextSend (s : State) (p c : Nat) : Option Send :=
  let heads := s.tiles.filterMap fun x => x.sends.find? fun m => m.port == p && m.ch == c
  match (heads.filter fun m => s.sendReady m).insertionSort fun a b => decide (a.serial ≤ b.serial) with
  | [] => none
  | m :: _ => some m

/-- A fault that a port finds when it reads a source: it stops the task in class K where it still runs, and is recorded
otherwise (R311, R390). -/
def State.sendFault (s : State) (m : Send) (c : Cause) (va : Nat) : State :=
  match (s.tile m.tile).task with
  | some k =>
    if k.record.taskid == m.task && k.part == m.part && !m.left then
      s.putTask m.tile { k with stop := some (k.stop.getD (.fault c .k m.addr va 0)) }
    else s.log m.part { cause := c, cls := .k, tile := some m.tile, task := m.task, bundle := m.addr, data := va }
  | none => s.log m.part { cause := c, cls := .k, tile := some m.tile, task := m.task, bundle := m.addr, data := va }

/-- A port sends the next message of a channel, once the channel holds credits for all of it. -/
def State.messageSend (s : State) (p c : Nat) : State :=
  match s.nextSend p c with
  | none => s
  | some m =>
    let x := s.chan p c
    let n := creditsOf m.len
    if x.credits < n || unackedLimit < (s.port p).pending.length + ceilDiv m.len fragmentBytes then s
    else
      let left := s.modTile m.tile fun y => { y with sends := y.sends.filter fun z => z.serial != m.serial }
      let go (left : State) (off : Word64) (bs : List Byte) : State :=
        (left.modChan p c fun y => { y with credits := y.credits - n }).sendMessage p c m.data.isSome off bs
      match m.data with
      | some bs => go left 0 bs
      | none =>
        let left := left.others (quadOf m.tile)
        match s.engBytes (tileUnit m.tile) m.part none m.va m.len with
        | .ok bs => go left (BitVec.ofNat 64 (m.va - x.sbase.toNat)) bs
        | .error (e, va) => left.sendFault m e va
/-- MESSAGE_SEND (R297, R298). -/
def execMessageSend (port ch : Nat) (s : State) : Host.Outcome State Fault Refusal := heldBack s (s.messageSend port ch)

/-! ### Acknowledgements and credits (R298) -/

/-- An ACK that names the last frame taken in order. -/
def State.sendAck (s : State) (p : Nat) : State :=
  (s.modPort p fun x => { x with sinceAck := 0 }).emit p (.ack ((s.port p).recvSeq - 1))

/-- Every frame not yet acknowledged sent again, from the first. -/
def State.resend (s : State) (p : Nat) : State :=
  (s.port p).pending.foldl (fun s f => s.emit p f) s

/-- How many of a list of frames are those of whole messages: a message whose last frame has not been acknowledged may have to be
sent again from its first (R298). -/
def wholeFrames (fs : List LinkFrame) : Nat :=
  let closed (k : Nat) : Bool := ((fs.take k).reverse.findSome? fun f => match f with
    | .data d => some d.last
    | _ => none).getD true
  ((List.range (fs.length + 1)).filter closed).getLastD 0

/-- The first n of the frames that a port holds are acknowledged. -/
def Port.acknowledge (x : Port) (n : Nat) : Port :=
  let k := wholeFrames (x.unacked.take n)
  { x with unacked := x.unacked.drop k, acked := n - k }

/-- The port number of the other end, learned from the first frame since link training. -/
def State.learn (s : State) (p : Nat) (src : BitVec 8) : State :=
  s.modPort p fun x => { x with learned := some (x.learned.getD src) }

/-- An ACK arrives: it frees the frames that it names, or asks for those after it again. The number before a message whose CRC
differed asks for frames that had been acknowledged. -/
def State.ackIn (s : State) (p : Nat) (src : BitVec 8) (seq : BitVec 32) : State :=
  let x := s.port p
  if !x.up then s
  else
    let s := s.learn p src
    let first := x.sendSeq - BitVec.ofNat 32 x.unacked.length
    let n := (seq + 1 - first).toNat
    if 2 ^ 31 ≤ n then s.resend p
    else if x.unacked.length < n then s
    else if n ≤ x.acked then (s.modPort p fun y => { y with acked := n }).resend p
    else (s.modPort p fun y => { y.acknowledge n with ackAt := s.refTick }).sendPairs p
/-- ACK (R298). -/
def execAck (port : Nat) (src : BitVec 8) (seq : BitVec 32) (s : State) : Host.Outcome State Fault Refusal :=
  happens s (s.ackIn port src seq)

/-- A CREDIT frame arrives: the sender's count of the channel grows, or starts anew under the reset flag. -/
def State.creditIn (s : State) (p : Nat) (src : BitVec 8) (c : Nat) (reset : Bool) (n : Nat) : State :=
  if !(s.port p).up then s
  else (s.learn p src).modChan p c fun x => { x with credits := if reset then n else x.credits + n }
/-- CREDIT (R298). -/
def execCredit (port : Nat) (src : BitVec 8) (ch : BitVec 5) (reset : Bool) (n : BitVec 32) (s : State) :
    Host.Outcome State Fault Refusal :=
  happens s (s.creditIn port src ch.toNat reset n.toNat)

/-- A numbered frame: taken where it is the next expected one; any other is dropped and answered with an ACK. -/
def State.takeFrame (s : State) (p : Nat) (src : BitVec 8) (seq : BitVec 32) : Bool × State :=
  let s := s.learn p src
  if seq != (s.port p).recvSeq then (false, s.sendAck p)
  else
    (true, s.modPort p fun x => { x with
      recvSeq := x.recvSeq + 1, sinceAck := x.sinceAck + 1, again := x.again - 1
      takenAt := if x.sinceAck == 0 then s.refTick else x.takenAt })

/-- The ACK after eight frames taken. -/
def State.ackEight (s : State) (p : Nat) : State := if 8 ≤ (s.port p).sinceAck then s.sendAck p else s

/-- A PAIR frame arrives: each of its messages reaches its tile, but for a frame that comes again since a message around it did
(R297). -/
def State.pairIn (s : State) (p : Nat) (src : BitVec 8) (seq : BitVec 32) (ms : List PairMsg) : State :=
  if !(s.port p).up then s
  else
    let (ok, u) := s.takeFrame p src seq
    if !ok then u
    else (if (s.port p).again == 0 then ms.foldl (fun s m => s.pairArrive m) u else u).ackEight p
/-- PAIR (R154, R298). -/
def execPair (port : Nat) (src : BitVec 8) (seq : BitVec 32) (msgs : List PairMsg) (s : State) :
    Host.Outcome State Fault Refusal :=
  heldBack s (s.pairIn port src seq msgs)

/-- 1 µs after the first frame taken since the last ACK, an ACK is due; a tick is 1/218.75 µs. -/
def State.ackTimer (s : State) (p : Nat) : State :=
  let x := s.port p
  if x.up && decide (0 < x.sinceAck) && decide (x.takenAt + 219 ≤ s.refTick) then s.sendAck p else s
/-- ACK_TIMER (R298). -/
def execAckTimer (port : Nat) (s : State) : Host.Outcome State Fault Refusal := happens s (s.ackTimer port)

/-- 20 µs after the last ACK that advanced, the frames still held are sent again (log 48). -/
def State.resendTimeout (s : State) (p : Nat) : State :=
  let x := s.port p
  if x.up && !x.pending.isEmpty && decide (x.ackAt + 4375 ≤ s.refTick) then
    (s.resend p).modPort p fun y => { y with ackAt := s.refTick }
  else s
/-- RESEND_TIMEOUT (R298). -/
def execResendTimeout (port : Nat) (s : State) : Host.Outcome State Fault Refusal := happens s (s.resendTimeout port)

/-- A frame that is not taken: a bad FCS or an unexpected number is answered with an ACK, an unknown type with nothing. -/
def State.notTaken (s : State) (p : Nat) (src : BitVec 8) (why : FrameFate) : State :=
  if !(s.port p).up then s
  else
    match why with
    | .badFcs => s.sendAck p
    | .unexpectedSeq => (s.learn p src).sendAck p
    | .unknownType => s.learn p src
/-- FRAME_NOT_TAKEN (R298). -/
def execFrameNotTaken (port : Nat) (src : BitVec 8) (why : FrameFate) (s : State) : Host.Outcome State Fault Refusal :=
  heldBack s (s.notTaken port src why)

/-! ### Delivery to a channel (R296, R297) -/

/-- The checks of a deposit before its first byte: the translation of every byte with W, and the counter. -/
def State.depositCheck (s : State) (c : Channel) (va n : Nat) : Option (Cause × Nat) :=
  let p := c.part.toNat
  match s.accessRange p p va n .write with
  | .error e => some e
  | .ok _ =>
    if c.actr == 0#49 then none
    else
      let ca := c.actr.toNat * 8
      match s.counterPa p p ca .write with
      | .error e => some (e, ca)
      | .ok _ => none

/-- A message for a deposit channel: its bytes at their place in the receive window, then the arrival add; a message that
fails a check is discarded and recorded. Its credits return. -/
def State.deposit (s : State) (p ch : Nat) (c : Channel) (queue : Bool) (arg : Nat) (bs : List Byte) : State :=
  let part := c.part.toNat
  let slots := c.rlen.toNat / 512
  let off := if queue then 512 * (c.m % max slots 1) else arg
  let va := c.rbase.toNat + off
  let back (s : State) : State := s.returnCredits p ch (creditsOf bs.length)
  let discard (s : State) (e : Cause) (a : Nat) : State := back (s.log part { cause := e, cls := .v, data := a })
  if queue && slots == 0 then discard s .remoteWindow va
  else
    let s := if queue then s.modChan p ch fun x => { x with m := x.m + 1 } else s
    if c.rlen.toNat < off + bs.length then discard s .remoteWindow va
    else
      match s.depositCheck c va bs.length with
      | some (e, a) => discard s e a
      | none =>
        match (s.others part).engWrite part part (cellsAt va bs) with
        | .error (e, a) => discard s e a
        | .ok u =>
          if c.actr == 0#49 then back u
          else
            match u.counterAdd part part (c.actr.toNat * 8) 1 with
            | .ok v => back v
            | .error _ => back u

/-- A whole message reaches its channel. -/
def State.deliverMessage (s : State) (p ch : Nat) (queue : Bool) (arg : Nat) (bs : List Byte) : State :=
  let c := s.chan p ch
  if !c.en then s.log c.part.toNat { cause := .netPort, cls := .v }
  else if c.dep then s.deposit p ch c queue arg bs
  else s.modChan p ch fun x => { x with skew := x.skew ++ bs, spans := x.spans ++ [(bs.length, creditsOf bs.length)] }

/-- A DATA frame that has been taken joins its message; the last one delivers it, unless its CRC-32C differs: then the
message is dropped and asked for again. -/
def State.fragment (s : State) (p : Nat) (f : DataFrame) : State :=
  let s := s.modPort p fun x =>
    if f.first then
      { x with part := f.payload.drop 8, partCh := f.ch.toNat, partLen := byteField f.payload 0 4
               partCrc := BitVec.ofNat 32 (byteField f.payload 4 4), partArg := f.arg, partQueue := f.queue
               partFirst := f.seq }
    else { x with part := x.part ++ f.payload }
  if !f.last then s
  else
    let x := s.port p
    let s := s.modPort p fun x => { x with part := [] }
    if x.part.length == x.partLen && crc32c x.part == x.partCrc then
      s.deliverMessage p x.partCh x.partQueue x.partArg.toNat x.part
    else (s.modPort p fun x => { x with recvSeq := x.partFirst, again := (x.recvSeq - x.partFirst).toNat }).sendAck p

/-- A DATA frame arrives. -/
def State.dataIn (s : State) (p : Nat) (src : BitVec 8) (f : DataFrame) : State :=
  if !(s.port p).up then s
  else
    let (ok, u) := s.takeFrame p src f.seq
    if ok then (u.fragment p f).ackEight p else u
/-- DATA (R297, R298). -/
def execData (port : Nat) (src : BitVec 8) (f : DataFrame) (s : State) : Host.Outcome State Fault Refusal :=
  heldBack s (s.dataIn port src f)

/-! ### Channels (R295, R391) -/

/-- Credits of a whole skew buffer. -/
def fullCredits : Nat := Config.skewBytes / 512

/-- A channel's en becomes 1: it grants its skew buffer. -/
def State.enableChan (s : State) (p c : Nat) : State :=
  if (s.chan p c).en then s
  else (s.modChan p c fun x => { x with en := true, m := 0 }).sendCredit p c true fullCredits
/-- CHANNEL_ENABLE (R295, R298). -/
def execChannelEnable (port ch : Nat) (s : State) : Host.Outcome State Fault Refusal := happens s (s.enableChan port ch)

/-- A tile that holds for bytes of a channel tries its `nrecv` again (R392). -/
def State.retryRecv (s : State) (p c t : Nat) : State :=
  if (s.tile t).hold != some (.recv p c) then s
  else match s.nextDue t with
    | some (_, .delayed) => s.delayedStart t
    | _ => s.bundleIssue t

/-- A channel's en is cleared: its bytes, its queue count and its holder go, and every credit is withdrawn; an `nrecv` that holds
for its bytes faults at once. -/
def State.disableChan (s : State) (p c : Nat) : State :=
  if !(s.chan p c).en then s
  else
    let drop (r : Regs) : Regs := { r with recv := r.recv.filter fun x => x.1 != p * 32 + c }
    let gone (k : Task) : Task := { k with regs := drop k.regs, ckpt := k.ckpt.map drop }
    let s : State := { s with
      tiles := s.tiles.map fun x => x.everyTask gone
      saved := s.saved.map fun e => { e with task := gone e.task } }
    let s := (s.modChan p c fun x =>
      { x with en := false, skew := [], spans := [], m := 0, holder := none }).sendCredit p c true 0
    (List.range Config.physTiles).foldl (fun s t => s.retryRecv p c t) s
/-- CHANNEL_DISABLE (R295, R298, R391, R392). -/
def execChannelDisable (port ch : Nat) (s : State) : Host.Outcome State Fault Refusal := heldBack s (s.disableChan port ch)

/-! ### Link training and loss (R298, R299) -/

/-- A link has trained: the frames that waited leave, each enabled channel grants its credits again, and sending goes on at the
first frame not yet acknowledged. What the other pairing port holds passes to this one where its link is down (R299). -/
def State.trainLink (s : State) (p : Nat) : State :=
  let ws := (s.port p).waiting
  let s := s.modPort p fun x => { x with up := true, learned := none, waiting := [], passed := false }
  let s := ws.foldl (fun s f => s.emit p f) s
  let s := (List.range 32).foldl (fun s c =>
    if (s.chan p c).en then s.sendCredit p c true fullCredits else s) s
  ((s.resend p).sendPairs p).passPairs (29 - p)
/-- LINK_TRAINING (R298). -/
def execLinkTraining (port : Nat) (s : State) : Host.Outcome State Fault Refusal := happens s (s.trainLink port)

/-- A link is lost. What a pairing port still had to carry passes to the other link (R299). -/
def State.loseLink (s : State) (p : Nat) : State := (s.modPort p fun x => { x with up := false }).passPairs p
/-- LINK_DOWN (R298, R299). -/
def execLinkDown (port : Nat) (s : State) : Host.Outcome State Fault Refusal := happens s (s.loseLink port)

/-! ### PTP (R140) -/

/-- A PTP message on the selected port, 0 the host port and 1 peer port 0, disciplines the reference tick (log 22). -/
def State.ptpIn (s : State) (port : Nat) (tick : BitVec 64) : State :=
  if (port == 1) != s.dev.ptp then s else { s with refTick := tick.toNat, ptpLock := true }
/-- PTP_MESSAGE (R140). -/
def execPtpMessage (port : Nat) (tick : BitVec 64) (s : State) : Host.Outcome State Fault Refusal :=
  happens s (s.ptpIn port tick)

/-- The partitions of the layout in force (R11). -/
def State.partitions (s : State) : List Nat := if s.dev.layout == 0 then [0] else List.range 8

/-- PTP lock is lost: the reference runs free, and every partition's log takes a record, whose cause and class the spec
does not name: free bytes (log 22). -/
def State.ptpLost (s : State) : State :=
  if !s.ptpLock then s
  else
    let c := Config.freeByte s.free
    let f := Config.freeByte (s.free + 1)
    let s : State := { s with ptpLock := false, free := s.free + 2 }
    s.partitions.foldl (fun s p => s.logAs p { cause := .hang, cls := .v } (some (c, f))) s
/-- PTP_LOCK_LOSS (R140). -/
def execPtpLockLoss (s : State) : Host.Outcome State Fault Refusal := heldBack s s.ptpLost

end Sys2Proof.Machine
end

