-- ==== Sys2Proof/Machine/Reset.lean ====
section
/-! DEFINITION. Resets, self-test, the partition layout, the partition reset and power (spec 01 R10, R14; 03 R62; 07
R151; 14 R294, R302, R303). -/

namespace Sys2Proof.Machine

open Host (Cell)

/-! ### Device reset (R303) -/

/-- Memory below an address that a reset has left undefined (log 15). -/
def undefinedMem (n limit : Nat) : List Cell :=
  Memory.writes [] ((Config.undefinedCells n).filter fun c => decide (c.1 < limit))

/-- Every register at its reset value; memory and the stashes undefined, no record in the commons (log 49). The loader's
key is kept, and what has left the package stays outside. -/
def State.deviceReset (s : State) : State :=
  { State.reset with
    fixed := s.fixed
    mem := undefinedMem s.free (2 ^ 52)
    tiles := State.reset.tiles.zipIdx.map fun (x, i) => { x with ringMem := undefinedMem (s.free + 1 + i) (2 ^ 20) }
    outputs := s.outputs, agenda := s.agenda, free := s.free + 1 + Config.physTiles, serial := s.serial }
/-- DEVICE_RESET (R294, R303). -/
def execDeviceReset (s : State) : Host.Outcome State Fault Refusal := happens s s.deviceReset
/-- POWER_ON_RESET (R303): its effect is that of a device reset. -/
def execPowerOnReset (s : State) : Host.Outcome State Fault Refusal := happens s s.deviceReset

/-! ### Self-test (R14, R62, R303) -/

/-- The binding of a pair of syllables to the instances that work: two of them, one for both with the split bit, or
none. -/
def boundTo (works : List Bool) : BitVec 2 × BitVec 2 × Bool :=
  match (List.range 3).filter fun i => works.getD i false with
  | [] => (3, 3, false)
  | [a] => (BitVec.ofNat 2 a, BitVec.ofNat 2 a, true)
  | a :: b :: _ => (BitVec.ofNat 2 a, BitVec.ofNat 2 b, false)

/-- `cr.slotmap` of a tile as the self-test sets it from the units that failed. -/
def Tile.selfTest (x : Tile) (t : Nat) (bad : List BadUnit) : Tile :=
  let works (vector : Bool) : List Bool := (List.range 3).map fun u =>
    !bad.any fun b => b.tile == t && b.vector == vector && b.unit.toNat == u
  let (sa, sb, splits) := boundTo (works false)
  let (va, vb, splitv) := boundTo (works true)
  { x with scalars := works false, vectors := works true, sa := sa, sb := sb, va := va, vb := vb
           splits := splits, splitv := splitv, failing := [] }

/-- A tile without a scalar or without a vector instance cannot serve. -/
def Tile.fit (x : Tile) : Bool := x.sa != 3#2 && x.va != 3#2

/-- A tile that cannot serve leaves the mesh map: its index goes to a fit spare, or is bound to none. -/
def State.testTile (s : State) (t : Nat) : State :=
  if (s.tile t).fit then s
  else
    let q := quadOf t
    let i := s.localOf t
    let s := s.modTile t fun x => { x with life := .retired }
    match i with
    | none => s
    | some i =>
      match s.freeSpare q with
      | some u => (s.bind q i (some u)).modTile u fun x => { x with life := .service }
      | none => s.bind q i none

/-- The self-test finds the units that fail, sets the slot maps and the mesh maps, and trains memory. It runs once after
a reset. -/
def State.selfTest (s : State) (bad : List BadUnit) : State :=
  if s.dev.ready then s
  else
    let s : State := { s with tiles := s.tiles.zipIdx.map fun (x, t) => x.selfTest t bad }
    let spares := (List.range Config.physTiles).filter fun t => (s.tile t).life == .spare
    let s := spares.foldl (fun s t => s.testTile t) s
    let s := (List.range Config.physTiles).foldl (fun s t => s.testTile t) s
    { s with dev := { s.dev with ready := true } }
/-- SELF_TEST (R62, R303). -/
def execSelfTest (bad : List BadUnit) (s : State) : Host.Outcome State Fault Refusal := happens s (s.selfTest bad)

/-! ### The partition layout (R10, R294) -/

/-- The layout: device-wide or eight single quadrants, while no tile runs a task; anything else is refused. The first
write after a device reset closes the window of resv, also where it is refused (log 50). -/
def State.setLayout (s : State) (v : BitVec 8) : State :=
  let s : State := { s with dev := { s.dev with resvOpen := false } }
  if (v != 0x00#8 && v != 0xFF#8) || s.tiles.any fun x => x.task.isSome then s
  else { s with dev := { s.dev with layout := v } }
/-- PARTITION_LAYOUT (R10). -/
def execPartitionLayout (v : BitVec 8) (s : State) : Host.Outcome State Fault Refusal := happens s (s.setLayout v)

/-! ### Partition reset (R303) -/

/-- A tile after the reset of its partition: its instances, its transient stamps and its place in service stay. -/
def Tile.cleared (x : Tile) : Tile :=
  { life := x.life, clock := x.clock, sa := x.sa, sb := x.sb, va := x.va, vb := x.vb, splits := x.splits
    splitv := x.splitv, scalars := x.scalars, vectors := x.vectors, failing := x.failing, stamps := x.stamps
    point := x.point }

/-- A tile's dirty lines return to memory, and the tile is cleared. -/
def State.clearTile (s : State) (t : Nat) : State :=
  let s := s.clearFills t
  ((s.tile t).stash.foldl (fun s l => if (s.dirLine l.line).owner == some t then s.recall l.line else s) s).modTile t
    Tile.cleared

/-- The group table cleared where it lies in memory (R125, R303, log 49). -/
def State.clearGroups (s : State) (p : Nat) : State :=
  match s.access p p ((s.quads.getD p {}).gbase.toNat * 65536) .write with
  | .ok l => s.lowWrite (cellsAt l.pa (List.replicate 65536 0))
  | .error _ => s

/-- A quadrant's command processor and engines cleared; the setup window opens again (R12). -/
def Quad.cleared (q : Quad) : Quad :=
  { q with setup := true, lwr := 0, copyQ := [], copyHalted := [], graphs := [], halted := []
           queues := q.queues.map fun x => { x with awake := false, halted := false, rewritten := false, live := []
                                                    stall := none } }

/-- A channel of a partition cleared; the credits that the other end has granted stay. -/
def State.clearChans (s : State) (p : Nat) : State :=
  (List.range 16).foldl (fun s n => (List.range 32).foldl (fun s c =>
    if (s.chan n c).part.toNat == p && (s.chan n c) != { credits := (s.chan n c).credits } then
      (s.disableChan n c).modChan n c fun x => { credits := x.credits }
    else s) s) s

/-- Everything that R303 lists cleared; loaded kernels, the control page and memory stay, and task ids restart at 1
(log 49). -/
def State.partitionReset (s : State) (p : Nat) : State :=
  if !s.partitions.contains p then s
  else
    let mine := s.tilesOf p
    let s := mine.foldl (fun s t => s.clearTile t) s
    let s := (s.heldLines.filter fun h => h.part == p && h.counted).foldl (fun s h => s.leaveSlices p [h.line]) s
    let s := (s.clearGroups p).clearChans p
    let s := (s.quadsOf p).foldl (fun (s : State) q => { s with quads := updAt s.quads q Quad.cleared }) s
    let die (x : Die) : Die :=
      { x with reduceQ := x.reduceQ.filter fun c => c.part != p
               reduceHalted := x.reduceHalted.filter fun c => c.part != p
               wc := x.wc.filter fun w => w.part != p, wcHalted := x.wcHalted.filter fun w => w.part != p }
    State.wakeReached { s with
      parts := updAt s.parts p fun x => { kernels := x.kernels, nextLaunch := x.nextLaunch, nextGraph := x.nextGraph
                                          nextCopy := x.nextCopy }
      dies := s.dies.map die
      waiters := s.waiters.filter fun w => w.part != p
      launchQ := s.launchQ.filter fun e => e.part != p
      heldLines := s.heldLines.filter fun h => h.part != p
      asks := s.asks.filter fun a => a.part != p
      replies := s.replies.filter fun r => !mine.contains r.tile }
/-- PARTITION_RESET (R303). -/
def execPartitionReset (p : Nat) (s : State) : Host.Outcome State Fault Refusal := happens s (s.partitionReset p)

/-! ### Power (R151, R302) -/

/-- The partition that holds an island. -/
def State.islandPart (s : State) (i : Island) : Nat :=
  match i with
  | .tile t => s.partOf (quadOf t)
  | .l2 q => s.partOf q
  | .base d => s.partOf d

/-- The place of an operating point, the lowest first. -/
def pointRank : OpPoint → Nat
  | .off => 0 | .p0700 => 1 | .p1050 => 2 | .p1400 => 3 | .p1750 => 4

/-- The operating point of an island. -/
def State.pointOf (s : State) (i : Island) : OpPoint :=
  match i with
  | .tile t => (s.tile t).point
  | .l2 q => (s.quads.getD q {}).point
  | .base d => (s.dies.getD d {}).point

/-- An island is pinned: one of a tile that a partition has, of its L2 quadrants or of its base dies, from TT_START to the end of the
last frame (R151). -/
def State.islandPinned (s : State) (i : Island) : Bool :=
  s.pinned (s.islandPart i) && match i with
    | .tile t => (s.logicalOf t).isSome
    | _ => true

/-- An island that power management may lower further (R151, R302). -/
def State.lowerable (s : State) (i : Island) : Bool :=
  let lowest : OpPoint := match i with
    | .tile t => if (s.tile t).life == .spare then .off else .p0700
    | _ => .p1400
  !s.islandPinned i && decide (pointRank lowest < pointRank (s.pointOf i))

/-- The islands of a partition. -/
def State.islandsOf (s : State) (p : Nat) : List Island :=
  ((s.quadsOf p).map fun q => [Island.l2 q, .base q] ++ (List.range 36).map fun i => .tile (q * 36 + i)).flatten

/-- Tiles of a partition that run a task. -/
def State.running (s : State) (p : Nat) : Nat := ((s.tilesOf p).filter fun t => (s.tile t).task.isSome).length

/-- A partition that still has an island to lower comes before p: it runs fewer tasks (R302). -/
def State.othersFirst (s : State) (p : Nat) : Bool :=
  s.partitions.any fun q => decide (s.running q < s.running p) && (s.islandsOf q).any s.lowerable

/-- An island at an operating point; only a spare tile is switched off. -/
def State.setPoint (s : State) (i : Island) (v : OpPoint) : State :=
  match i with
  | .tile t => if v == .off && (s.tile t).life != .spare then s else s.modTile t fun x => { x with point := v }
  | .l2 q => { s with quads := updAt s.quads q fun x => { x with point := v } }
  | .base d => { s with dies := updAt s.dies d fun x => { x with point := v } }

/-- Power management moves an island. It lowers those of the partitions with the fewest running tasks first, and never a pinned one:
where none but pinned islands is left to lower, the partition is fenced (R151, R302, log 20). -/
def State.powerCap (s : State) (i : Island) (v : OpPoint) : State :=
  let p := s.islandPart i
  if pointRank (s.pointOf i) ≤ pointRank v then s.setPoint i v
  else if s.islandPinned i then
    if s.partitions.any fun q => (s.islandsOf q).any s.lowerable then s
    else (s.setPoint i v).fencePart p { cause := .partitionFence, cls := .f }
  else if s.othersFirst p then s
  else s.setPoint i v
/-- POWER_CAP_ADJUST (R151, R302). -/
def execPowerCapAdjust (i : Island) (p : OpPoint) (s : State) : Host.Outcome State Fault Refusal :=
  heldBack s (s.powerCap i p)

end Sys2Proof.Machine
end

