-- ==== Sys2Proof/Machine/HostPort.lean ====
section
/-! DEFINITION. The host port: register maps by their words, the host address space, and the two transports (spec 00 R4,
R5; 01 R12; 06 R128; 10 R226, R231; 12 R265; 13 R287, R290; 14 R292-R295, R301; 16 R306). -/

namespace Sys2Proof.Machine

open Host (Cell)

/-! ### Register words -/

/-- Where an 8-byte word of the control region lies (R293). -/
inductive RegWord where
  | page (q off : Nat)
  | notify (q n : Nat)
  | device (off : Nat)
  | chan (port ch off : Nat)
  | reserved
deriving DecidableEq, Repr

/-- The word that an 8-byte aligned offset of the control region names, none where it reaches nothing. -/
def regWord (off : Nat) : Option RegWord :=
  if off < 0x8000 then some (.page (off / 0x1000) (off % 0x1000))
  else if 0x10000 ≤ off ∧ off < 0x18000 then
    let o := off - 0x10000
    some (if o % 0x1000 < 0x200 then .notify (o / 0x1000) (o % 0x1000 / 8) else .reserved)
  else if 0x20000 ≤ off ∧ off < 0x21000 then some (.device (off - 0x20000))
  else if 0x40000 ≤ off ∧ off < 0x44000 then
    some (.chan ((off - 0x40000) / 1024) ((off - 0x40000) / 32 % 32) (off % 32))
  else none

/-- A word of the device page (R294, R301). -/
def Device.word (d : Device) (f : Fixed) (off : Nat) : Word64 :=
  let b (x : Bool) : BitVec 1 := if x then 1 else 0
  match off with
  | 0x000 => 0#54 ++ d.mode ++ b d.ptp ++ 0#5 ++ 0#1 ++ b d.ready
  | 0x008 => 0#56 ++ d.layout
  | 0x010 => 0#50 ++ d.resv
  | 0x018 => 0#48 ++ d.cap
  | 0x028 => 0#16 ++ f.latency ++ 0#16 ++ f.stepping
  | 0x100 => 0#12 ++ d.img
  | 0x108 => 0#12 ++ d.ent
  | 0x110 => 0#40 ++ d.status ++ 0#7 ++ 0#1 ++ 0#3 ++ b d.op ++ 0#1 ++ d.lpart
  | _ => 0

/-- A word of a channel entry (R295). -/
def Channel.word (c : Channel) (off : Nat) : Word64 :=
  let b (x : Bool) : BitVec 1 := if x then 1 else 0
  match off with
  | 0x00 => b c.en ++ b c.dep ++ c.part ++ 0#7 ++ c.sbase
  | 0x08 => c.slen ++ c.rlen
  | 0x10 => 0#12 ++ c.rbase
  | 0x18 => 0#12 ++ c.actr ++ 0#3
  | _ => 0

/-- A register word as a read returns it. -/
def State.regRead (s : State) (w : RegWord) : Word64 :=
  match w with
  | .page q off => (s.quads.getD q {}).word off
  | .notify q n => (s.queue q n).wridx.setWidth 64
  | .device off => s.dev.word s.fixed off
  | .chan p c off => (s.chan p c).word off
  | .reserved => 0

/-- The bits that a byte mask names. -/
def byteMask (be : BitVec 8) : Word64 :=
  BitVec.ofNat 64 ((List.range 8).foldl (fun m i => if be.getLsbD i then m + 0xFF * 2 ^ (8 * i) else m) 0)

/-- A word as a write leaves it: the bytes it writes take the new value (R293). -/
def written (old v : Word64) (be : BitVec 8) : Word64 := (old &&& ~~~byteMask be) ||| (v &&& byteMask be)

/-! ### Control pages (R12, R226, R265, R290, R306) -/

/-- A quadrant's control page changed. -/
def State.modQuad (s : State) (q : Nat) (f : Quad → Quad) : State := { s with quads := updAt s.quads q f }

/-- The word at 0x058 as a write leaves it: refused whole in the cases that R12 lists. -/
def Quad.setMode (q : Quad) (f : Fixed) (n : Word64) : Quad :=
  let pair := n.getLsbD 7
  let mg := n.getLsbD 6
  let tt := n.getLsbD 5
  let lk := n.extractLsb' 0 5
  if (tt && mg) || (pair && !tt) || (pair && !f.pairable) || (mg && q.mlen == 0#5) || lk.toNat < 10 || 20 < lk.toNat then q
  else { q with pair := pair, mg := mg, tt := tt, lk := lk }

/-- The fields of a control page whose write has no further effect; those of 0x058 to 0x070 only in their window. -/
def Quad.setPlain (q : Quad) (f : Fixed) (window : Bool) (off : Nat) (n : Word64) : Quad :=
  match off with
  | 0x000 => { q with root := n.extractLsb' 16 36, en := n.getLsbD 0 }
  | 0x008 => { q with iva := n.extractLsb' 16 36, icount := n.extractLsb' 0 16 }
  | 0x018 =>
    let x := n.extractLsb' 0 6
    if 16 ≤ x.toNat ∧ x.toNat ≤ 40 then { q with lwd := x } else q
  | 0x020 =>
    let x := n.extractLsb' 0 6
    { q with lbase := n.extractLsb' 6 46, llen := if x == 0#6 || (6 ≤ x.toNat && x.toNat ≤ 20) then x else q.llen }
  | 0x030 => { q with lctr := n.extractLsb' 3 49 }
  | 0x038 => { q with evt := n.getLsbD 0 }
  | 0x040 => { q with reviveVa := n.extractLsb' 6 46 }
  | 0x048 => { q with ten := n.getLsbD 0 }
  | 0x050 => { q with wcwait := n.extractLsb' 0 32 }
  | 0x058 => if window then q.setMode f n else q
  | 0x060 => if window then { q with gbase := n.extractLsb' 16 36 } else q
  | 0x068 => if window then { q with qbase := n.extractLsb' 11 41 } else q
  | 0x070 =>
    let x := n.extractLsb' 0 5
    if window then { q with mbase := n.extractLsb' 12 40, mlen := if 10 ≤ x.toNat ∧ x.toNat ≤ 24 then x else q.mlen }
    else q
  | 0x800 => { q with token := n.extractLsb' 0 16, abandon := n.getLsbD 16 }
  | _ => q

/-- What a write of a control page sets off, in a partition whose acting page it is: an invalidation, halt, resume or
fence, a revival; and in every page a resume token's command. -/
def State.pageEffect (s : State) (q off : Nat) (v n : Word64) (be : BitVec 8) : State :=
  let acts := s.partOf q == q
  match off with
  | 0x010 => if be.getLsbD 0 && v.getLsbD 0 then s.startInvalidate q else s
  | 0x038 =>
    if !be.getLsbD 0 then s
    else if !acts then s.modQuad q fun x => { x with halt := n.getLsbD 2 }
    else
      let s := if n.getLsbD 2 then s.haltPartition q else s.resumePartition q
      if v.getLsbD 1 then s.fencePart q { cause := .partitionFence, cls := .f } else s
  | 0x040 => if be.getLsbD 0 && v.getLsbD 0 && acts then s.revive q (n.toNat / 64 * 64 % 2 ^ 52) else s
  | 0x800 => if be == 0#8 then s else s.actOnToken q (n.extractLsb' 0 16) (!n.getLsbD 16)
  | _ => s

/-- The W1C fields of a performance record under a write: bytes that are not written clear nothing. -/
def Quad.clearPerf (q : Quad) (off : Nat) (v : Word64) (be : BitVec 8) : Quad :=
  { q with perf := updAt q.perf ((off - 0x400) / 32) fun p => (List.range 8).foldl (fun p i =>
      if be.getLsbD i then p.clear (off % 32 + i) (v.extractLsb' (8 * i) 8) else p) p }

/-- A write of a word of a control page. -/
def State.pageWrite (s : State) (q off : Nat) (v : Word64) (be : BitVec 8) (priv : Bool) : State :=
  if 0x400 ≤ off ∧ off < 0x600 then s.modQuad q fun x => x.clearPerf off v be
  else if !priv || be == 0#8 then s
  else
    let n := written ((s.quads.getD q {}).word off) v be
    let window := (s.quads.getD (s.partOf q) {}).setup
    (s.modQuad q fun x => x.setPlain s.fixed window off n).pageEffect q off v n be

/-! ### The device page (R294, R301) -/

/-- A write of a word of the device page. -/
def State.deviceWrite (s : State) (off : Nat) (v : Word64) (be : BitVec 8) : State :=
  let n := written (s.dev.word s.fixed off) v be
  let d := s.dev
  match off with
  | 0x000 =>
    let m := n.extractLsb' 8 2
    let s : State := { s with dev := { d with mode := if m == 3#2 then d.mode else m, ptp := n.getLsbD 7 } }
    if be.getLsbD 0 && v.getLsbD 1 then s.deviceReset else s
  | 0x008 => if be.getLsbD 0 then s.setLayout (n.extractLsb' 0 8) else s
  | 0x010 =>
    let c := n.extractLsb' 0 14
    if d.ready && d.resvOpen && c.toNat ≤ 8192 then { s with dev := { d with resv := c } } else s
  | 0x018 => { s with dev := { d with cap := n.extractLsb' 0 16 } }
  | 0x020 => if !be.getLsbD 0 then s
    else (List.range 8).foldl (fun s q => if v.getLsbD q then s.partitionReset q else s) s
  | 0x100 => { s with dev := { d with img := n.extractLsb' 0 52 } }
  | 0x108 => { s with dev := { d with ent := n.extractLsb' 0 52 } }
  | 0x110 =>
    let go := be.getLsbD 1 && v.getLsbD 8
    { s with dev := { d with op := n.getLsbD 4, lpart := n.extractLsb' 0 3
                             status := if go then 0xFF else d.status } }
  | _ => s

/-! ### Channel entries (R295) -/

/-- The fields of a channel entry, but for en. -/
def Channel.set (c : Channel) (off : Nat) (n : Word64) : Channel :=
  match off with
  | 0x00 => { c with dep := n.getLsbD 62, part := n.extractLsb' 59 3, sbase := n.extractLsb' 0 52 }
  | 0x08 => { c with slen := n.extractLsb' 32 32, rlen := n.extractLsb' 0 32 }
  | 0x10 => { c with rbase := n.extractLsb' 0 52 }
  | 0x18 => { c with actr := n.extractLsb' 3 49 }
  | _ => c

/-- A write of a word of a channel entry: while en = 1 only the write that clears it acts. -/
def State.chanWrite (s : State) (p c off : Nat) (v : Word64) (be : BitVec 8) : State :=
  let x := s.chan p c
  let n := written (x.word off) v be
  if x.en then
    if off == 0 && !n.getLsbD 63 then (s.disableChan p c).modChan p c fun y => y.set off n else s
  else
    let s := s.modChan p c fun y => y.set off n
    if off == 0 && n.getLsbD 63 then s.enableChan p c else s

/-! ### Register writes (R4, R293) -/

/-- A write of a register word, with its byte mask. Every field but wridx and the W1C fields is for privileged code. -/
def State.regWrite (s : State) (w : RegWord) (v : Word64) (be : BitVec 8) (priv : Bool) : State :=
  match w with
  | .page q off => s.pageWrite q off v be priv
  | .notify q n =>
    if be.extractLsb' 0 4 == 0#4 then s
    else s.notify q n ((written ((s.queue q n).wridx.setWidth 64) v be).setWidth 32)
  | .device off => if priv && be != 0#8 then s.deviceWrite off v be else s
  | .chan p c off => if priv && be != 0#8 then s.chanWrite p c off v be else s
  | .reserved => s

/-- A register write at an offset of the control region. -/
def State.registerWrite (s : State) (off : Nat) (v : Word64) (be : BitVec 8) (priv : Bool) : State :=
  if off % 8 != 0 then s
  else
    match regWord off with
    | some w => s.regWrite w v be priv
    | none => s
/-- REGISTER_WRITE (R4, R293). -/
def execRegisterWrite (off : Nat) (v : BitVec 64) (be : BitVec 8) (priv : Bool) (s : State) :
    Host.Outcome State Fault Refusal :=
  heldBack s (s.registerWrite off v be priv)

/-! ### The host address space (R293) -/

/-- The 8-byte words that n bytes from an offset touch: the word's offset, the byte mask, and the value of its bytes. -/
def wordsOf (off : Nat) (bs : List Byte) : List (Nat × BitVec 8 × Word64) :=
  (List.range (ceilDiv (off % 8 + bs.length) 8)).map fun i =>
    let w := alignDown off 8 + 8 * i
    let at_ (j : Nat) : Option Byte := if off ≤ w + j then bs[w + j - off]? else none
    (w, BitVec.ofNat 8 ((List.range 8).foldl (fun m j => if (at_ j).isSome then m + 2 ^ j else m) 0),
      BitVec.ofNat 64 ((List.range 8).foldl (fun m j => m + ((at_ j).getD 0).toNat * 2 ^ (8 * j)) 0))

/-- The places that a host access reaches: physical bytes, or the words of the control region. -/
inductive HostPlace where
  | bytes (pas : List Nat)
  | region (off : Nat)
  | nothing
deriving DecidableEq, Repr

/-- The decode of a host address, with the checks of R229 for an access of n bytes. -/
def State.hostPlace (s : State) (a n : Nat) (need : Need) : HostPlace :=
  let o := a % 2 ^ 52
  let sel := a / 2 ^ 52
  if n == 0 then .bytes []
  else if sel < 8 then
    if !s.partitions.contains sel then .nothing
    else
      match s.accessRange sel sel o n need with
      | .ok xs => .bytes (xs.map (·.1))
      | .error _ => .nothing
  else if sel == 8 then
    if s.populated o n then .bytes ((List.range n).map fun i => o + i) else .nothing
  else if sel == 9 then
    if (wordsOf o (List.replicate n 0)).all fun w => (regWord w.1).isSome then .region o else .nothing
  else .nothing

/-- A host read: its bytes, none where it is not performed. It reads below the stashes, where the add that published a write has put
it (R134, R241, R304), and finds an open frame as if it had closed (R200). -/
def State.hostRead (s : State) (a n : Nat) : Option (List Byte) :=
  match s.hostPlace a n .read with
  | .nothing => none
  | .bytes pas =>
    if pas.any fun x => !isCtrl x && s.cohPoisoned (lineOf x) then none
    else
      let v := s.asClosed
      some (pas.map fun x => if isCtrl x then s.ctrlByte x else Memory.read v.mem x)
  | .region o => some ((List.range n).map fun i =>
      match regWord (alignDown (o + i) 8) with
      | some w => (s.regRead w).extractLsb' (8 * ((o + i) % 8)) 8
      | none => 0)

/-- A host write of the status byte's neighbours: it rewrites the descriptor of a halted queue where it covers its byte 8
(R135). -/
def State.noteRewrite (s : State) (pas : List Nat) : State :=
  (List.range 8).foldl (fun s q => (List.range 64).foldl (fun s n =>
    if !(s.queue q n).halted then s
    else
      match s.access q (s.partOf q) (s.queueVa q n) .read with
      | .error _ => s
      | .ok l => if pas.contains (l.pa + 8) then s.modQueue q n fun x => { x with rewritten := true } else s) s) s

/-- Register words of the control range written through a mapping or a physical address; the bytes beyond the pages take
no write (R209). -/
def State.ctrlWrite (s : State) (cs : List Cell) : State :=
  let ws := (cs.map fun c => alignDown (c.1 - ctrlBase) 8).dedup
  ws.foldl (fun s w =>
    let mine := cs.filter fun c => alignDown (c.1 - ctrlBase) 8 == w
    let be := BitVec.ofNat 8 ((mine.map fun c => c.1 % 8).dedup.foldl (fun m j => m + 2 ^ j) 0)
    let v : Word64 := BitVec.ofNat 64 (mine.foldl (fun n c => n + c.2.toNat * 2 ^ (8 * (c.1 % 8))) 0)
    if w < 0x8000 then s.pageWrite (w / 0x1000) (w % 0x1000) v be true else s) s

/-- A host write: the state after it, none where it is not performed. A poisoned line is written whole or not at all. -/
def State.hostWrite (s : State) (a : Nat) (bs : List Byte) : Option State :=
  match s.hostPlace a bs.length .write with
  | .nothing => none
  | .bytes pas =>
    let cs : List Cell := pas.zip bs
    let plain := cs.filter fun c => !isCtrl c.1
    let covered (l : Nat) : Nat := ((plain.filter fun c => lineOf c.1 == l).map (·.1)).dedup.length
    if plain.any fun c => s.cohPoisoned (lineOf c.1) && decide (covered (lineOf c.1) < 128) then none
    else some (((s.lowWrite plain).ctrlWrite (cs.filter fun c => isCtrl c.1)).noteRewrite (plain.map (·.1)))
  | .region o => some ((wordsOf o bs).foldl (fun s w =>
      match regWord w.1 with
      | some r => s.regWrite r w.2.2 w.2.1 true
      | none => s) s)

/-! ### RoCE v2 (R292, R293) -/

/-- What leaves the package. -/
def State.output (s : State) (o : Output) : State := { s with outputs := s.outputs ++ [o] }

/-- The requests of a host access to the L2 slices: of its partition, or of the device for a physical address. -/
def State.hostTraffic (s : State) (a n : Nat) : State :=
  let o := a % 2 ^ 52
  let sel := a / 2 ^ 52
  if sel < 8 then s.othersOn sel sel [o, o + (n - 1)]
  else if sel == 8 && !isCtrl o then (List.range 8).foldl (fun s q => s.others q) s
  else s

/-- RDMA_READ (R292, R293). -/
def execRdmaRead (conn : Nat) (addr : BitVec 56) (len : Nat) (s : State) : Host.Outcome State Fault Refusal :=
  happens s (match s.hostRead addr.toNat len with
    | some bs => (s.hostTraffic addr.toNat len).output (.rdmaData conn bs)
    | none => s.output (.rdmaNak conn))

/-- RDMA_WRITE (R292, R293). -/
def execRdmaWrite (conn : Nat) (addr : BitVec 56) (data : List Byte) (s : State) : Host.Outcome State Fault Refusal :=
  heldBack s (match s.hostWrite addr.toNat data with
    | some u => (u.hostTraffic addr.toNat data.length).output (.rdmaDone conn)
    | none => s.output (.rdmaNak conn))

/-! ### The queue transport (R292) -/

/-- Bytes of a request at most. -/
def qtLimit : Nat := 8192

/-- An answer: the request's address, length and opcode word, the status, and the data of a performed read. -/
def qtAnswer (addr : BitVec 64) (len op : Nat) (seq : BitVec 16) (ok : Bool) (data : List Byte) : List Byte :=
  leBytes 8 addr.toNat ++ leBytes 4 len ++ leBytes 4 (seq.toNat * 65536 + op + 0x80)
  ++ leBytes 4 (if ok then 0 else 0xFF) ++ data

/-- The source of a request, known or new: the number of its first request is the one expected. -/
def State.qtSource (s : State) (src : Nat) (seq : BitVec 16) : QtSource :=
  match s.qt.find? fun q => q.src == src with
  | some q => q
  | none => { src := src, expect := seq }

/-- A request: performed and answered where its number is expected, answered again from the record where it is one of the
256 before it, and dropped otherwise; one that resets the device leaves no number expected. A request longer than the transport
carries is dropped (log 51). -/
def State.qtRequest (s : State) (src : Nat) (seq : BitVec 16) (len : Nat) (perform : State → State × List Byte) : State :=
  let q := s.qtSource src seq
  let back := (q.expect - seq).toNat
  if qtLimit < len then s
  else if back == 0 then
    let (u, ans) := perform { s with qt := { q with expect := q.expect + 1 } :: s.qt.filter fun x => x.src != src }
    { u.output (.answer src ans) with qt := u.qt.map fun x =>
        if x.src == src then { x with answers := ((seq, ans) :: x.answers).take 256 } else x }
  else if back ≤ 256 then
    match q.answers.find? fun a => a.1 == seq with
    | some a => s.output (.answer src a.2)
    | none => s
  else s

/-- QUEUE_TRANSPORT_READ (R292). -/
def execQueueTransportRead (src : Nat) (seq : BitVec 16) (addr : BitVec 64) (len : Nat) (s : State) :
    Host.Outcome State Fault Refusal :=
  happens s (s.qtRequest src seq len fun s =>
    match (if addr.toNat < 2 ^ 56 then s.hostRead addr.toNat len else none) with
    | some bs => (s.hostTraffic addr.toNat len, qtAnswer addr len 1 seq true bs)
    | none => (s, qtAnswer addr len 1 seq false []))

/-- QUEUE_TRANSPORT_WRITE (R292). -/
def execQueueTransportWrite (src : Nat) (seq : BitVec 16) (addr : BitVec 64) (data : List Byte) (s : State) :
    Host.Outcome State Fault Refusal :=
  heldBack s (s.qtRequest src seq data.length fun s =>
    match (if addr.toNat < 2 ^ 56 then s.hostWrite addr.toNat data else none) with
    | some u => (u.hostTraffic addr.toNat data.length, qtAnswer addr data.length 2 seq true [])
    | none => (s, qtAnswer addr data.length 2 seq false []))

/-- HOST_PORT_LINK_TRAINING: the selected rate takes effect (R292). -/
def execHostPortLinkTraining (s : State) : Host.Outcome State Fault Refusal :=
  happens s { s with dev := { s.dev with rate := s.dev.mode } }

end Sys2Proof.Machine
end

