-- ==== Sys2Proof/Machine/Loader.lean ====
section
/-! DEFINITION. The loader: the lineage of every operation as the encoding alone gives it, the checks on an image's
bundles and seals, and cache entries (spec 03 R66, R72-R76; 04 R95, R96; 05 R105; 08 R165-R172; 14 R300, R301). -/

namespace Sys2Proof.Machine

/-! ### Static lineage (R72-R74, R105) -/

/-- The lineage of an operation in its slot. -/
def SlotOp.lineage (o : SlotOp) : Option Lineage :=
  match o.op.hcw with
  | some h => some (hcwLineage (maskUnitOf o.slot) o.rot o.op h)
  | none => directLineage o.op

/-- What the static execution of a block holds: the tag of every register, none where a ring gives it at run time (R217);
the fold; the registers read before they are written; those written; the bundles and the stores so far. -/
structure BlockScan where
  tags : List (Option Word32) := (List.range 256).map fun c =>
    some (if taggedCodes.contains c && c != 0 && c != 192 then canonTag c else 0)
  fold : Option Word64 := some foldStart
  live : List Nat := []
  made : List Nat := []
  n : Nat := 0
  stores : Nat := 0
deriving DecidableEq, Repr

/-- The tag of source i. -/
def BlockScan.src (b : BlockScan) (l : Lineage) (i : Nat) : Option Word32 :=
  match l.srcs.getD i none with
  | some r => b.tags.getD r.code none
  | none => some 0

/-- An operation's tag. -/
def BlockScan.tag (b : BlockScan) (o : SlotOp) (l : Lineage) : Option Word32 :=
  match b.src l 0, b.src l 1, b.src l 2, (match l.pq with
      | some r => b.tags.getD r.code none
      | none => some 0) with
  | some x, some y, some z, some p =>
    some (opTag (opid b.n o.slot.code l.opc (destcodeOf l.dests.head?)) x y (z ^^^ p))
  | _, _, _, _ => none

/-- The tag that an operation writes (R167). -/
def BlockScan.given (b : BlockScan) (i : Instr) (l : Lineage) (t : Option Word32) : Option Word32 :=
  match i with
  | .ld _ _ _ _ _ | .vld _ _ _ => (b.src l 0).map fun x => mix32 (0x10AD0000#32 ^^^ x)
  | .racq _ _ | .rget _ _ => none
  | _ => t

/-- The beats between a bundle's issue and the start of one of its operations: an operation of R69 starts no earlier than the
comparison (R50, R70). -/
def startsAfter (ops : List SlotOp) (o : SlotOp) : Nat :=
  if commitOp o.op then (ops.map (·.delay)).foldl max 0 else o.delay

/-- One operation of a bundle, in slot order. On the bundle's issue beat it reads what earlier bundles left; under a start delay
the earlier slots of its own bundle have been its producers too (R54, R74). `old` is the scan as the bundle found it. -/
def BlockScan.op (old : BlockScan) (late : Bool) (b : BlockScan) (o : SlotOp) (l : Lineage) : BlockScan :=
  let view : BlockScan := if late then b else old
  let t := view.tag o l
  let fold := match b.fold, t with
    | some f, some t => some (foldStep f t)
    | _, _ => none
  let codes := (((l.srcs ++ [l.pq]).filterMap id ++ l.more).filter fun r => !r.fixed).map Reg.code
  let fresh := (codes.filter fun c => !view.made.contains c && !b.live.contains c).dedup
  let wr := (l.dests.filter fun r => !r.fixed).map Reg.code
  { b with tags := wr.foldl (fun ts c => ts.set c (view.given o.op l t)) b.tags, fold := fold, live := b.live ++ fresh
           made := b.made ++ wr }

/-- A bundle of a block. -/
def BlockScan.bundle (b : BlockScan) (ops : List SlotOp) : BlockScan :=
  let c := ops.foldl (fun c o => match o.lineage with
    | some l => b.op (startsAfter ops o != 0) c o l
    | none => c) b
  let store (o : SlotOp) : Bool := match o.op with
    | .st _ _ _ _ | .vst _ _ _ => true
    | _ => false
  { c with n := b.n + 1, stores := b.stores + (ops.filter store).length }

/-- A mask of the live registers of a bank. -/
def liveMask (live : List Nat) (lo n : Nat) : Nat :=
  (List.range n).foldl (fun m i => if live.contains (lo + i) then m + 2 ^ i else m) 0

/-! ### The checks of a bundle (R58, R75, R76, R95, R96) -/

/-- Statuses of the loader (R301). -/
def statusLoaded : Nat := 0
def statusStructure : Nat := 1
def statusSeal : Nat := 2
def statusStepping : Nat := 3
def statusGeneration : Nat := 4
def statusEntry : Nat := 5

/-- The decode fault that a control word meets when it issues with a format and a shape in `cr.vshape` (R58, R76, R94, R426): the
same checks as at issue, on a task that holds nothing else. -/
def hcwProbe (i : Instr) (slot : Slot) (code shape : BitVec 8) : Option Cause :=
  let k : Task := { regs := { vshape := code ++ shape } }
  ({ tiles := [{ task := some k }] } : State).probe { slot := slot, op := i }

/-- The format codes of R18. -/
def formatCodes : List (BitVec 8) := ((List.range 256).map (BitVec.ofNat 8)).filter fun c => (formatOf c).isSome

/-- What is wrong with a control word whatever its task's registers hold: a fault of R76 that it meets in every format and shape
it can take, an immediate wider than its elements, and the packed `vmacw` of a generation-2 image (R58, R75, R92 to R95). -/
def hcwStatus (gen : Nat) (i : Instr) (h : Hcw) : Nat :=
  let vector := (Instr.hcwRow i).cls == 2
  let codes := if vector && h.fmt == 0#8 then formatCodes else [h.fmt]
  let shapes := if vector && h.shape == 0#8 then (List.range 256).map (BitVec.ofNat 8) else [h.shape]
  let packed : Bool := match i, formatOf h.fmt with
    | .vmacw _, some (.int 4 _) => true
    | _, _ => false
  let narrow : Bool := match formatOf h.fmt with
    | some f => h.imm && (Instr.hcwRow i).src2 == .v && !immFits f.width h.immA
    | none => false
  let faults (c x : BitVec 8) : Bool := match hcwProbe i (if vector then .va else .sa) c x with
    | some x => x == .formatInvalid || x == .opcodeUndefined
    | none => false
  if packed && 2 ≤ gen then statusGeneration
  else if narrow || shapes.all (fun x => codes.all fun c => faults c x) then statusStructure
  else statusLoaded

/-- The operations of a bundle where every static check passes. `next` is the header of the next bundle. -/
def staticOps (gen : Nat) (hcw : List Word256) (addr : Nat) (w : Word256) (next : Option Header) :
    Except Nat (List SlotOp) :=
  let bd : Bundle := ⟨addr, w, headerOf (headerWord w), none⟩
  if !bundleReservedOk w || bd.brkStalls then .error statusStructure
  else
    let ops := (bd.slots hcw).foldr (fun x acc => match x, acc with
      | .error _, _ => .error statusStructure
      | .ok _, .error e => .error e
      | .ok none, .ok os => .ok os
      | .ok (some o), .ok os => .ok (o :: os)) (.ok [] : Except Nat (List SlotOp))
    match ops with
    | .error e => .error e
    | .ok os =>
      let ends := os.any fun o => endOp o.op
      let early := bd.hd.eob || match next with
        | some h => !h.eob
        | none => true
      let misplaced (o : SlotOp) : Bool := (transferOp o.op && early)
        || ((endOp o.op || commitOp o.op) && !bd.hd.eob) || (isCwait o.op && ends)
      if os.any misplaced then .error statusStructure
      else
        match (os.map fun o => match o.op.hcw with
            | some h => hcwStatus gen o.op h
            | none => 0).find? fun x => x != 0 with
        | some e => .error e
        | none => .ok os

/-! ### The checks of a block (R65-R68, R105, R172) -/

/-- A block that has been read: its scan, the operations of its E bundle, its seal, the address after its seal, the
targets that its `bprep` operations load, what each buffer was last loaded with (nothing that is known, where `bprepi` loaded
it), and its transfer with what its buffer held before it. -/
structure ReadBlock where
  scan : BlockScan
  last : List SlotOp := []
  sl : Seal := sealOf 0
  after : Nat := 0
  targets : List Nat := []
  loaded : List (Nat × Option Nat) := []
  xfer : Option (Instr × Option Nat) := none

/-- The target that a `bprep` of a bundle loads. -/
def targetsOf (addr : Nat) (os : List SlotOp) : List Nat :=
  os.filterMap fun o => match o.op with
    | .bprep _ off => some (((addr : Int) + 32 * off.toInt) % 2 ^ 52).toNat
    | _ => none

/-- The buffer that a transfer reads. -/
def transferBuffer : Instr → Option (BitVec 3)
  | .xfer b _ | .xferF b _ | .xferMz b _ | .xferMnz b _ | .call b => some b
  | _ => none

/-- A block with one more bundle. -/
def ReadBlock.bundle (r : ReadBlock) (addr : Nat) (os : List SlotOp) : ReadBlock :=
  let xfer := os.findSome? fun o => (transferBuffer o.op).map fun b => (o.op, (assoc r.loaded b.toNat).join)
  let loaded := os.foldl (fun ls o => match o.op with
    | .bprep b _ => assocSet ls b.toNat (targetsOf addr [o]).head?
    | .bprepi b _ => assocSet ls b.toNat none
    | _ => ls) r.loaded
  { r with scan := r.scan.bundle os, targets := r.targets ++ targetsOf addr os, loaded := loaded
           xfer := xfer.or r.xfer }

/-- A block read from an address, of at most n bundles; `word` reads the image. -/
def readBlock (word : Nat → Option Word256) (gen : Nat) (hcw : List Word256) :
    Nat → Nat → ReadBlock → Except Nat ReadBlock
  | 0, _, _ => .error statusStructure
  | n + 1, addr, r =>
    match word addr with
    | none => .error statusStructure
    | some w =>
      match staticOps gen hcw addr w ((word (addr + 32)).map fun x => headerOf (headerWord x)) with
      | .error e => .error e
      | .ok os =>
        let r := r.bundle addr os
        if !(headerOf (headerWord w)).eob then readBlock word gen hcw n (addr + 32) r
        else
          match word (addr + 32) with
          | none => .error statusStructure
          | some x => .ok { r with last := os, sl := sealOf x, after := addr + 64 }

/-- The taken digest that R105 gives a block without a `.succ`: of its transfer's target where a `bprep` of the block has loaded
it, and of the next block where it holds no transfer. -/
def ReadBlock.digT (r : ReadBlock) : Option (BitVec 16) :=
  match r.xfer with
  | none => some (digest r.after)
  | some (_, a) => a.map digest

/-- The seal of a block is what R105 makes it. Under mode 00 a `.succ` may have named any label, so a taken digest that is not
the block's own must be that of some bundle of the image (log 52). -/
def ReadBlock.sealOk (r : ReadBlock) (labels : List Nat) : Bool :=
  let x := r.sl
  let ends : Bool := r.last.any fun o => match o.op with
    | .done | .trap _ => true
    | _ => false
  x.ok && x.len.toNat + 1 == r.scan.n && x.sbound.toNat == r.scan.stores
  && x.liveS.toNat == liveMask r.scan.live 0 64 && x.liveV.toNat == liveMask r.scan.live 64 32
  && x.liveA.toNat == liveMask r.scan.live 128 8 && x.liveQ.toNat == liveMask r.scan.live 192 8
  && (match r.scan.fold with
      | some f => x.fold == f
      | none => true)
  && (if x.smode == 0#2 then x.digF == digest r.after && (r.digT == some x.digT || labels.any fun a => digest a == x.digT)
      else x.digT == 0#16 && x.digF == 0#16)
  && (x.smode != 2#2 || ends)

/-- Where a block can go on: after its seal, unless it ends its task or always transfers, and at the targets it prepares. The
block after a `call` is reached by the return from it. -/
def ReadBlock.successors (r : ReadBlock) : List Nat :=
  let leaves : Bool := (r.last.any fun o => o.op == .done) || match r.xfer with
    | some (.xfer _ q, _) => q == 0
    | _ => false
  (if leaves then [] else [r.after]) ++ r.targets

/-- Every block of the image that can be reached from a list of addresses, each read once (log 52). -/
def checkBlocks (word : Nat → Option Word256) (gen : Nat) (hcw : List Word256) (labels : List Nat) :
    Nat → List Nat → List Nat → Nat
  | 0, _, _ => statusLoaded
  | _, [], _ => statusLoaded
  | n + 1, a :: rest, seen =>
    if seen.contains a then checkBlocks word gen hcw labels n rest seen
    else
      match readBlock word gen hcw 256 a { scan := {} } with
      | .error e => e
      | .ok r =>
        if !r.sealOk labels then statusSeal
        else checkBlocks word gen hcw labels n
          (rest ++ r.successors.filter fun x => !seen.contains x && (word x).isSome) (a :: seen)

/-! ### The image -/

/-- The header of an image. -/
structure ImageHeader where
  gen : Nat
  steppings : List Nat
  latency : Nat
  kernels : Nat
  table : Nat
  length : Nat
deriving DecidableEq, Repr

/-- The fields of 64 bytes, none where the structure is broken. -/
def imageHeader (bs : List Byte) : Option ImageHeader :=
  let n := byteField bs 6 2
  if byteField bs 0 4 != 0x4D495853 || n == 0 || 8 < n || !zeroBytes bs (8 + 2 * n) (16 - 2 * n) || !zeroBytes bs 48 16
  then none
  else some { gen := byteField bs 4 2, steppings := (List.range n).map fun i => byteField bs (8 + 2 * i) 2
              latency := byteField bs 24 4, kernels := byteField bs 28 4, table := byteField bs 32 8
              length := byteField bs 40 8 }

/-- A kernel entry: four 8-byte fields (log 52). -/
structure KernelEntry where
  id : Nat
  text : Nat
  hcw : Nat
  count : Nat
deriving DecidableEq, Repr

/-- Bytes of the image in its partition, as path H reads them. -/
def State.imageBytes (s : State) (p va n : Nat) : Option (List Byte) :=
  match s.engBytes p p none va n with
  | .ok bs => some bs
  | .error _ => none

/-- The kernel entries of an image, none where one is broken. -/
def State.kernelEntries (s : State) (p img : Nat) (h : ImageHeader) : Option (List KernelEntry) :=
  if h.length < h.table + 32 * h.kernels || h.table % 32 != 0 then none
  else
    (List.range h.kernels).foldr (fun i acc => match acc, s.imageBytes p (img + h.table + 32 * i) 32 with
      | some es, some bs =>
        let e : KernelEntry := ⟨byteField bs 0 8, byteField bs 8 8, byteField bs 16 8, byteField bs 24 8⟩
        if e.id < 65536 ∧ e.text % 32 = 0 ∧ e.hcw % 32 = 0 ∧ e.count ≤ 512 ∧ e.text < h.length
            ∧ e.hcw + 32 * e.count ≤ h.length then some (e :: es) else none
      | _, _ => none) (some [])

/-- A word of the image by its VA. -/
def State.imageWord (s : State) (p img len va : Nat) : Option Word256 :=
  if va < img || img + len < va + 32 then none
  else (s.imageBytes p va 32).map fun bs => BitVec.ofNat 256 (leNat bs)

/-- The control words of a kernel. -/
def State.kernelHcw (s : State) (p img len : Nat) (e : KernelEntry) : List Word256 :=
  (List.range e.count).map fun i => (s.imageWord p img len (img + e.hcw + 32 * i)).getD 0

/-- The checks of a kernel: every control word, and every block that can be reached. A word of class 0 within the section breaks
the class check of R58. -/
def State.checkKernel (s : State) (p img : Nat) (h : ImageHeader) (e : KernelEntry) : Nat :=
  let hcw := s.kernelHcw p img h.length e
  let bad := hcw.findSome? fun w => match decodeHcw w with
    | .error _ => some statusStructure
    | .ok i => match i.hcw with
      | some x => if hcwStatus h.gen i x == 0 then none else some (hcwStatus h.gen i x)
      | none => none
  match bad with
  | some st => st
  | none =>
    checkBlocks (fun a => s.imageWord p img h.length a) h.gen hcw
      ((List.range (h.length / 32)).map fun i => img + 32 * i) (2 * (h.length / 32) + 2) [img + e.text] []

/-- Every check of op 0 on the image at a VA: its status, and where it passes its header and kernels. -/
def State.checkImage (s : State) (p img : Nat) : Nat × Option (ImageHeader × List KernelEntry) :=
  if img % 4096 != 0 then (statusStructure, none)
  else
    match (s.imageBytes p img 64).bind imageHeader with
    | none => (statusStructure, none)
    | some h =>
      if 2 ^ 52 < img + h.length || h.length < 64 then (statusStructure, none)
      else
        match s.kernelEntries p img h with
        | none => (statusStructure, none)
        | some es =>
          if h.gen != 1 && h.gen != 2 then (statusGeneration, none)
          else if !h.steppings.contains s.fixed.stepping.toNat || h.latency != s.fixed.latency.toNat then
            (statusStepping, none)
          else
            match (es.map fun e => s.checkKernel p img h e).find? fun x => x != 0 with
            | some st => (st, none)
            | none => (statusLoaded, some (h, es))

/-- The kernels of an image loaded into its partition; a kernel id loaded again takes the new image (log 52). -/
def State.loadKernels (s : State) (p img : Nat) (h : ImageHeader) (es : List KernelEntry) : State :=
  let ks : List Kernel := es.map fun e =>
    { id := BitVec.ofNat 16 e.id, img := img, text := e.text, hcw := s.kernelHcw p img h.length e, gen := h.gen
      steppings := h.steppings.map fun x => BitVec.ofNat 16 x }
  { s with parts := updAt s.parts p fun x =>
    { x with kernels := ks ++ x.kernels.filter fun k => !ks.any fun y => y.id == k.id } }

/-! ### Cache entries (R301) -/

/-- A cache entry without its tag: the bytes before it and those after it. -/
def entryParts (len : Nat) (nonce : BitVec 96) (stepping gen : Nat) : List Byte × List Byte :=
  (leBytes 8 len ++ leBytes 12 nonce.toNat, leBytes 2 stepping ++ leBytes 1 gen ++ leBytes 25 0)

/-- The status of a request that has ended. -/
def State.loaderDone (s : State) (st : Nat) : State :=
  { s with dev := { s.dev with status := BitVec.ofNat 8 st } }

/-- A request of op 0: the image is checked, sealed into a cache entry, and loaded (log 52). -/
def State.checkSeal (s : State) : State :=
  let d := s.dev
  let p := d.lpart.toNat
  let img := d.img.toNat
  let ent := d.ent.toNat
  if d.status != 0xFF#8 || d.op then s
  else
    match s.checkImage p img with
    | (st, none) => s.loaderDone st
    | (_, some (h, es)) =>
      match s.imageBytes p img h.length with
      | none => s.loaderDone statusStructure
      | some bytes =>
        let nonce := Config.loaderNonce s.free
        let (a, b) := entryParts h.length nonce s.fixed.stepping.toNat h.gen
        let tag := Config.loaderTag nonce (a ++ b ++ bytes)
        if ent % 64 != 0 then s.loaderDone statusStructure
        else
          match s.engWrite p p (cellsAt ent (a ++ leBytes 16 tag.toNat ++ b)) with
          | .error _ => s.loaderDone statusStructure
          | .ok u =>
            let u : State := { u with free := s.free + 1 }
            (u.loadKernels p img h es).loaderDone statusLoaded
/-- LOADER_CHECK_SEAL (R300, R301). -/
def execLoaderCheckSeal (s : State) : Host.Outcome State Fault Refusal := heldBack s s.checkSeal

/-- A request of op 1: the entry's tag is verified against the image, which is loaded without the other checks. -/
def State.loadEntry (s : State) : State :=
  let d := s.dev
  let p := d.lpart.toNat
  let img := d.img.toNat
  let ent := d.ent.toNat
  if d.status != 0xFF#8 || !d.op then s
  else if img % 4096 != 0 then s.loaderDone statusStructure
  else if ent % 64 != 0 then s.loaderDone statusEntry
  else
    match s.imageBytes p ent 64 with
    | none => s.loaderDone statusEntry
    | some e =>
      let len := byteField e 0 8
      if 2 ^ 52 < img + len then s.loaderDone statusEntry
      else
        match s.imageBytes p img len, (s.imageBytes p img 64).bind imageHeader with
        | some bytes, some h =>
          let tag := Config.loaderTag (BitVec.ofNat 96 (byteField e 8 12)) (e.take 20 ++ e.drop 36 ++ bytes)
          if leBytes 16 tag.toNat != (e.drop 20).take 16 then s.loaderDone statusEntry
          else
            match s.kernelEntries p img h with
            | some es => (s.loadKernels p img h es).loaderDone statusLoaded
            | none => s.loaderDone statusEntry
        | _, _ => s.loaderDone statusEntry
/-- LOADER_LOAD_ENTRY (R301). -/
def execLoaderLoadEntry (s : State) : Host.Outcome State Fault Refusal := happens s s.loadEntry

end Sys2Proof.Machine
end

