-- ==== Sys2Proof/Machine/Dispatch.lean ====
section
/-! DEFINITION. One arm for each constructor of Instr: the call of its meaning, or its rejection by name. -/

namespace Sys2Proof.Machine

def exec (i : Instr) (s : State) : Host.Outcome State Fault Refusal :=
  match i with
  | .bundleIssue t => Sys2Proof.Machine.execBundleIssue t s
  | .delayedStart t => Sys2Proof.Machine.execDelayedStart t s
  | .sealComparison t => Sys2Proof.Machine.execSealComparison t s
  | .orderPoint t => Sys2Proof.Machine.execOrderPoint t s
  | .blockReplay t => Sys2Proof.Machine.execBlockReplay t s
  | .blockRerun t => Sys2Proof.Machine.execBlockRerun t s
  | .tileRetirement t => Sys2Proof.Machine.execTileRetirement t s
  | .engineInstanceFailure t vector unit => Sys2Proof.Machine.execEngineInstanceFailure t vector unit s
  | .stashFill t => Sys2Proof.Machine.execStashFill t s
  | .lineRecall line => Sys2Proof.Machine.execLineRecall line s
  | .valueDelivery n => Sys2Proof.Machine.execValueDelivery n s
  | .cwaitReply t => Sys2Proof.Machine.execCwaitReply t s
  | .waiterConfirm n => Sys2Proof.Machine.execWaiterConfirm n s
  | .cwaitRetry t => Sys2Proof.Machine.execCwaitRetry t s
  | .launchQueueDrain slice part => Sys2Proof.Machine.execLaunchQueueDrain slice part s
  | .taskPick t idle => Sys2Proof.Machine.execTaskPick t idle s
  | .preemptForced t => Sys2Proof.Machine.execPreemptForced t s
  | .watchdogExpiry t => Sys2Proof.Machine.execWatchdogExpiry t s
  | .frameStart p => Sys2Proof.Machine.execFrameStart p s
  | .relRelease t => Sys2Proof.Machine.execRelRelease t s
  | .mmaExecute t => Sys2Proof.Machine.execMmaExecute t s
  | .mzeroExecute t => Sys2Proof.Machine.execMzeroExecute t s
  | .mloadExecute t => Sys2Proof.Machine.execMloadExecute t s
  | .mdrainExecute t => Sys2Proof.Machine.execMdrainExecute t s
  | .drainEntryFill t => Sys2Proof.Machine.execDrainEntryFill t s
  | .peerAdditionApply t => Sys2Proof.Machine.execPeerAdditionApply t s
  | .peerAck t => Sys2Proof.Machine.execPeerAck t s
  | .chainStep t => Sys2Proof.Machine.execChainStep t s
  | .copyChunk e => Sys2Proof.Machine.execCopyChunk e s
  | .millBlockPush t g => Sys2Proof.Machine.execMillBlockPush t g s
  | .millBlockPull t g => Sys2Proof.Machine.execMillBlockPull t g s
  | .reductionChunk die => Sys2Proof.Machine.execReductionChunk die s
  | .wcPartialWrite p t frame off bytes => Sys2Proof.Machine.execWcPartialWrite p t frame off bytes s
  | .wcTimeout die n => Sys2Proof.Machine.execWcTimeout die n s
  | .patrolScrub die found => Sys2Proof.Machine.execPatrolScrub die found s
  | .eccUncorrectable line => Sys2Proof.Machine.execEccUncorrectable line s
  | .engineInternalError die unit => Sys2Proof.Machine.execEngineInternalError die unit s
  | .launch quad queue => Sys2Proof.Machine.execLaunch quad queue s
  | .launchStartRelease quad queue => Sys2Proof.Machine.execLaunchStartRelease quad queue s
  | .launchComplete p n => Sys2Proof.Machine.execLaunchComplete p n s
  | .graph quad queue => Sys2Proof.Machine.execGraph quad queue s
  | .graphNodeComplete quad n node => Sys2Proof.Machine.execGraphNodeComplete quad n node s
  | .counterAdd quad queue => Sys2Proof.Machine.execCounterAdd quad queue s
  | .counterWait quad queue => Sys2Proof.Machine.execCounterWait quad queue s
  | .counterWaitRelease quad queue => Sys2Proof.Machine.execCounterWaitRelease quad queue s
  | .copy quad queue => Sys2Proof.Machine.execCopy quad queue s
  | .fencePacket quad queue => Sys2Proof.Machine.execFencePacket quad queue s
  | .ttLoad quad queue => Sys2Proof.Machine.execTtLoad quad queue s
  | .ttStart quad queue => Sys2Proof.Machine.execTtStart quad queue s
  | .ttStop quad queue => Sys2Proof.Machine.execTtStop quad queue s
  | .ttSwap quad queue => Sys2Proof.Machine.execTtSwap quad queue s
  | .ttRead quad queue => Sys2Proof.Machine.execTtRead quad queue s
  | .notifyWrite quad queue wridx => Sys2Proof.Machine.execNotifyWrite quad queue wridx s
  | .queueResume quad queue => Sys2Proof.Machine.execQueueResume quad queue s
  | .mergeRoundOpen p => Sys2Proof.Machine.execMergeRoundOpen p s
  | .mergeRoundClose p => Sys2Proof.Machine.execMergeRoundClose p s
  | .tlbInvalidate quad => Sys2Proof.Machine.execTlbInvalidate quad s
  | .tlbInvalidateDone quad => Sys2Proof.Machine.execTlbInvalidateDone quad s
  | .resumeHalted quad token => Sys2Proof.Machine.execResumeHalted quad token s
  | .abandonHalted quad token => Sys2Proof.Machine.execAbandonHalted quad token s
  | .partitionHalt p => Sys2Proof.Machine.execPartitionHalt p s
  | .partitionResume p => Sys2Proof.Machine.execPartitionResume p s
  | .partitionFence p => Sys2Proof.Machine.execPartitionFence p s
  | .revive p ctx => Sys2Proof.Machine.execRevive p ctx s
  | .deviceReset => Sys2Proof.Machine.execDeviceReset s
  | .powerOnReset => Sys2Proof.Machine.execPowerOnReset s
  | .selfTest bad => Sys2Proof.Machine.execSelfTest bad s
  | .partitionLayout v => Sys2Proof.Machine.execPartitionLayout v s
  | .partitionReset p => Sys2Proof.Machine.execPartitionReset p s
  | .loaderCheckSeal => Sys2Proof.Machine.execLoaderCheckSeal s
  | .loaderLoadEntry => Sys2Proof.Machine.execLoaderLoadEntry s
  | .powerCapAdjust x p => Sys2Proof.Machine.execPowerCapAdjust x p s
  | .registerWrite off v be priv => Sys2Proof.Machine.execRegisterWrite off v be priv s
  | .channelEnable port ch => Sys2Proof.Machine.execChannelEnable port ch s
  | .channelDisable port ch => Sys2Proof.Machine.execChannelDisable port ch s
  | .rdmaRead conn addr len => Sys2Proof.Machine.execRdmaRead conn addr len s
  | .rdmaWrite conn addr data => Sys2Proof.Machine.execRdmaWrite conn addr data s
  | .queueTransportRead src seq addr len => Sys2Proof.Machine.execQueueTransportRead src seq addr len s
  | .queueTransportWrite src seq addr data => Sys2Proof.Machine.execQueueTransportWrite src seq addr data s
  | .data port src f => Sys2Proof.Machine.execData port src f s
  | .ack port src seq => Sys2Proof.Machine.execAck port src seq s
  | .credit port src ch reset n => Sys2Proof.Machine.execCredit port src ch reset n s
  | .pair port src seq msgs => Sys2Proof.Machine.execPair port src seq msgs s
  | .messageSend port ch => Sys2Proof.Machine.execMessageSend port ch s
  | .ackTimer port => Sys2Proof.Machine.execAckTimer port s
  | .resendTimeout port => Sys2Proof.Machine.execResendTimeout port s
  | .pairTimeout t => Sys2Proof.Machine.execPairTimeout t s
  | .linkTraining port => Sys2Proof.Machine.execLinkTraining port s
  | .linkDown port => Sys2Proof.Machine.execLinkDown port s
  | .ptpMessage port tick => Sys2Proof.Machine.execPtpMessage port tick s
  | .ptpLockLoss => Sys2Proof.Machine.execPtpLockLoss s
  | .nop => Sys2Proof.Machine.execNop s
  | .bprep b off => Sys2Proof.Machine.execBprep b off s
  | .bprepi b n => Sys2Proof.Machine.execBprepi b n s
  | .xfer b q => Sys2Proof.Machine.execXfer b q s
  | .xferF b q => Sys2Proof.Machine.execXferF b q s
  | .xferMz b u => Sys2Proof.Machine.execXferMz b u s
  | .xferMnz b u => Sys2Proof.Machine.execXferMnz b u s
  | .call b => Sys2Proof.Machine.execCall b s
  | .lmark n len => Sys2Proof.Machine.execLmark n len s
  | .lmarkImm count len => Sys2Proof.Machine.execLmarkImm count len s
  | .ilock n lines => Sys2Proof.Machine.execIlock n lines s
  | .iunlock n lines => Sys2Proof.Machine.execIunlock n lines s
  | .wait ld st cp mx => Sys2Proof.Machine.execWait ld st cp mx s
  | .rel n => Sys2Proof.Machine.execRel n s
  | .done => Sys2Proof.Machine.execDone s
  | .yield => Sys2Proof.Machine.execYield s
  | .trap code => Sys2Proof.Machine.execTrap code s
  | .brk tag => Sys2Proof.Machine.execBrk tag s
  | .inj slot k d step => Sys2Proof.Machine.execInj slot k d step s
  | .mma a tA tB c => Sys2Proof.Machine.execMma a tA tB c s
  | .mzero a => Sys2Proof.Machine.execMzero a s
  | .mdrain a t dq => Sys2Proof.Machine.execMdrain a t dq s
  | .mdrainRed a t tile aM => Sys2Proof.Machine.execMdrainRed a t tile aM s
  | .mload a n => Sys2Proof.Machine.execMload a n s
  | .chset bd n => Sys2Proof.Machine.execChset bd n s
  | .chsetImm bd v => Sys2Proof.Machine.execChsetImm bd v s
  | .chrun n m => Sys2Proof.Machine.execChrun n m s
  | .chstep n => Sys2Proof.Machine.execChstep n s
  | .chstepPick n m => Sys2Proof.Machine.execChstepPick n m s
  | .ld d base sz signed off => Sys2Proof.Machine.execLd d base sz signed off s
  | .st n base sz off => Sys2Proof.Machine.execSt n base sz off s
  | .vld v base stride => Sys2Proof.Machine.execVld v base stride s
  | .vst v base stride => Sys2Proof.Machine.execVst v base stride s
  | .stq dq t c => Sys2Proof.Machine.execStq dq t c s
  | .racq d g => Sys2Proof.Machine.execRacq d g s
  | .rpub g => Sys2Proof.Machine.execRpub g s
  | .rget d g => Sys2Proof.Machine.execRget d g s
  | .rrel g => Sys2Proof.Machine.execRrel g s
  | .sflush base lines => Sys2Proof.Machine.execSflush base lines s
  | .sinv base lines => Sys2Proof.Machine.execSinv base lines s
  | .cpy tD tS c => Sys2Proof.Machine.execCpy tD tS c s
  | .msub g t n => Sys2Proof.Machine.execMsub g t n s
  | .mret g t n => Sys2Proof.Machine.execMret g t n s
  | .cadd a n => Sys2Proof.Machine.execCadd a n s
  | .caddImm a v => Sys2Proof.Machine.execCaddImm a v s
  | .cwait a t m b => Sys2Proof.Machine.execCwait a t m b s
  | .cread d a => Sys2Proof.Machine.execCread d a s
  | .amo op wide d a n => Sys2Proof.Machine.execAmo op wide d a n s
  | .amoc op cc d a n => Sys2Proof.Machine.execAmoc op cc d a n s
  | .mred p c => Sys2Proof.Machine.execMred p c s
  | .fence before after => Sys2Proof.Machine.execFence before after s
  | .spawn a => Sys2Proof.Machine.execSpawn a s
  | .join g => Sys2Proof.Machine.execJoin g s
  | .leave g => Sys2Proof.Machine.execLeave g s
  | .tdef t d => Sys2Proof.Machine.execTdef t d s
  | .tdrop t => Sys2Proof.Machine.execTdrop t s
  | .nsend port ch a l => Sys2Proof.Machine.execNsend port ch a l s
  | .nrecv port ch a l => Sys2Proof.Machine.execNrecv port ch a l s
  | .nsendq port ch dq => Sys2Proof.Machine.execNsendq port ch dq s
  | .tmovPortV p v => Sys2Proof.Machine.execTmovPortV p v s
  | .tmovVPort v p => Sys2Proof.Machine.execTmovVPort v p s
  | .tmovPortPort d p => Sys2Proof.Machine.execTmovPortPort d p s
  | .tmovPortS p n => Sys2Proof.Machine.execTmovPortS p n s
  | .tmovSPort n p => Sys2Proof.Machine.execTmovSPort n p s
  | .qntQ => Sys2Proof.Machine.execQntQ s
  | .qntQs => Sys2Proof.Machine.execQntQs s
  | .qntDq => Sys2Proof.Machine.execQntDq s
  | .qntAmax => Sys2Proof.Machine.execQntAmax s
  | .trnE8 => Sys2Proof.Machine.execTrnE8 s
  | .trnE16 => Sys2Proof.Machine.execTrnE16 s
  | .trnE32 => Sys2Proof.Machine.execTrnE32 s
  | .trnE4 => Sys2Proof.Machine.execTrnE4 s
  | .crcInit => Sys2Proof.Machine.execCrcInit s
  | .crcV => Sys2Proof.Machine.execCrcV s
  | .crcS => Sys2Proof.Machine.execCrcS s
  | .crcFin => Sys2Proof.Machine.execCrcFin s
  | .hshKey => Sys2Proof.Machine.execHshKey s
  | .hshNb => Sys2Proof.Machine.execHshNb s
  | .hshId => Sys2Proof.Machine.execHshId s
  | .hshBkt => Sys2Proof.Machine.execHshBkt s
  | .topK => Sys2Proof.Machine.execTopK s
  | .topGo => Sys2Proof.Machine.execTopGo s
  | .topIdx => Sys2Proof.Machine.execTopIdx s
  | .topClr => Sys2Proof.Machine.execTopClr s
  | .sadd h => Sys2Proof.Machine.execSadd h s
  | .ssub h => Sys2Proof.Machine.execSsub h s
  | .smul h => Sys2Proof.Machine.execSmul h s
  | .smulh h => Sys2Proof.Machine.execSmulh h s
  | .smulhu h => Sys2Proof.Machine.execSmulhu h s
  | .sand h => Sys2Proof.Machine.execSand h s
  | .sor h => Sys2Proof.Machine.execSor h s
  | .sxor h => Sys2Proof.Machine.execSxor h s
  | .sandn h => Sys2Proof.Machine.execSandn h s
  | .sshl h => Sys2Proof.Machine.execSshl h s
  | .sshr h => Sys2Proof.Machine.execSshr h s
  | .ssar h => Sys2Proof.Machine.execSsar h s
  | .smin h => Sys2Proof.Machine.execSmin h s
  | .smax h => Sys2Proof.Machine.execSmax h s
  | .sminu h => Sys2Proof.Machine.execSminu h s
  | .smaxu h => Sys2Proof.Machine.execSmaxu h s
  | .sclz h => Sys2Proof.Machine.execSclz h s
  | .sctz h => Sys2Proof.Machine.execSctz h s
  | .spopc h => Sys2Proof.Machine.execSpopc h s
  | .ssel h => Sys2Proof.Machine.execSsel h s
  | .sli h => Sys2Proof.Machine.execSli h s
  | .smov h => Sys2Proof.Machine.execSmov h s
  | .sext h => Sys2Proof.Machine.execSext h s
  | .scmp h => Sys2Proof.Machine.execScmp h s
  | .sqop h => Sys2Proof.Machine.execSqop h s
  | .sgetc h => Sys2Proof.Machine.execSgetc h s
  | .ssetc h => Sys2Proof.Machine.execSsetc h s
  | .slget h => Sys2Proof.Machine.execSlget h s
  | .vadd h => Sys2Proof.Machine.execVadd h s
  | .vsub h => Sys2Proof.Machine.execVsub h s
  | .vmul h => Sys2Proof.Machine.execVmul h s
  | .vfma h => Sys2Proof.Machine.execVfma h s
  | .vfms h => Sys2Proof.Machine.execVfms h s
  | .vmin h => Sys2Proof.Machine.execVmin h s
  | .vmax h => Sys2Proof.Machine.execVmax h s
  | .vminn h => Sys2Proof.Machine.execVminn h s
  | .vmaxn h => Sys2Proof.Machine.execVmaxn h s
  | .vabs h => Sys2Proof.Machine.execVabs h s
  | .vneg h => Sys2Proof.Machine.execVneg h s
  | .vcvt h => Sys2Proof.Machine.execVcvt h s
  | .vand h => Sys2Proof.Machine.execVand h s
  | .vor h => Sys2Proof.Machine.execVor h s
  | .vxor h => Sys2Proof.Machine.execVxor h s
  | .vshl h => Sys2Proof.Machine.execVshl h s
  | .vshr h => Sys2Proof.Machine.execVshr h s
  | .vsar h => Sys2Proof.Machine.execVsar h s
  | .vcmp h => Sys2Proof.Machine.execVcmp h s
  | .vsel h => Sys2Proof.Machine.execVsel h s
  | .mpush h => Sys2Proof.Machine.execMpush h s
  | .minv h => Sys2Proof.Machine.execMinv h s
  | .mpop h => Sys2Proof.Machine.execMpop h s
  | .vredsum h => Sys2Proof.Machine.execVredsum h s
  | .vredmax h => Sys2Proof.Machine.execVredmax h s
  | .vredmin h => Sys2Proof.Machine.execVredmin h s
  | .vbcast h => Sys2Proof.Machine.execVbcast h s
  | .vmov h => Sys2Proof.Machine.execVmov h s
  | .vtrn h => Sys2Proof.Machine.execVtrn h s
  | .vrot h => Sys2Proof.Machine.execVrot h s
  | .vfrexp h => Sys2Proof.Machine.execVfrexp h s
  | .vldexp h => Sys2Proof.Machine.execVldexp h s
  | .vmacw h => Sys2Proof.Machine.execVmacw h s
  | .vpopq h => Sys2Proof.Machine.execVpopq h s
  | .resultLands t => Sys2Proof.Machine.execResultLands t s
  | .hostPortLinkTraining => Sys2Proof.Machine.execHostPortLinkTraining s
  | .frameNotTaken port src why => Sys2Proof.Machine.execFrameNotTaken port src why s

end Sys2Proof.Machine
end

