-- ==== Sys2Proof/Machine/Schedule.lean ====
section
/-! DEFINITION. Time that passes, the events that a machine left to itself can offer, and an instruction placed where the
next step runs it (log 1, log 5). -/

namespace Sys2Proof.Machine

open Host (Cell)

/-! ### Time -/

/-- A tile waits on `rel`, itself or with the lead of its gang. -/
def State.waitsRel (s : State) (x : Tile) : Bool :=
  let waits (y : Tile) : Bool := match y.task with
    | some k => k.blk.relAt.isSome
    | none => false
  waits x || match x.gangLead with
    | some l => waits (s.tile l)
    | none => false

/-- The beats of a tile that waits on `rel` go on while the reference runs: eight to a tick at 1.75 GHz (R3, R145, log 53). -/
def State.passRel (s : State) (n : Nat) (x : Tile) : Tile :=
  if s.waitsRel x then { x with task := x.task.map fun k => { k with nextIssue := k.nextIssue + 8 * n } } else x

/-- The partitions with the beats that count as held while tiles wait on `rel` (R152). -/
def State.relBusy (s : State) (n : Nat) : List Part :=
  (s.tiles.zipIdx.foldl (fun (u : State) x => match x.1.task with
    | some k => if s.waitsRel x.1 then u.busyWait k.part x.2 n else u
    | none => u) s).parts

/-- Reference ticks pass. -/
def State.pass (s : State) (n : Nat) : State :=
  if n == 0 then s
  else { s with refTick := s.refTick + n, tiles := s.tiles.map fun x => s.passRel n x, parts := s.relBusy n }

/-! ### What can happen next -/

/-- The event that what is due on a tile stands for; what the head of the M queue does of itself is that operation's event. -/
def Due.event (t : Nat) : Due → Instr
  | .stop | .issue => .bundleIssue t
  | .delayed => .delayedStart t
  | .compare => .sealComparison t
  | .order => .orderPoint t
  | .fill => .drainEntryFill t
  | .run => .mzeroExecute t
  | .land => .resultLands t

/-- The event of an M operation at the head of its queue. -/
def MWork.event (t : Nat) : MWork → Instr
  | .mma _ _ _ _ _ _ => .mmaExecute t
  | .mzero _ => .mzeroExecute t
  | .mload _ _ => .mloadExecute t
  | .drain _ _ _ _ _ _ _ => .mdrainExecute t
  | .red _ _ _ _ _ => .mdrainExecute t
  | .chain _ _ _ _ _ _ _ => .chainStep t

/-- The events that a task on a tile can offer. -/
def State.taskEvents (s : State) (t : Nat) (k : Task) : List Instr :=
  let x := s.tile t
  (match x.hold with
    | some (.miss _) => [.stashFill t]
    | _ => [])
  ++ (match s.nextDue t with
      | some (_, .run) | none => []
      | some (_, d) => [d.event t])
  ++ (if k.blk.foldMiss || k.blk.succMiss then [.blockReplay t] else [])
  ++ (if k.blk.stale then [.blockRerun t] else [])
  ++ (if k.blk.relAt.isSome then [.relRelease t] else [])
  ++ (match k.blk.eState with
      | .waiting => []
      | .cwaitSent _ => [.cwaitReply t]
      | .cwaitRetry _ _ => [.cwaitRetry t]
      | .cwaitWaiter _ n => [.waiterConfirm n])
  ++ (match k.mq with
      | [] => []
      | m :: _ => [m.work.event t])
  ++ (if k.acks.isEmpty then [] else [.peerAck t])
  ++ (k.mills.map fun m => if m.push then .millBlockPush t m.g else .millBlockPull t m.g)
  ++ (if x.req.isSome then [.preemptForced t] else [])
  ++ (if 2 ^ (s.quads.getD k.part {}).lwd.toNat ≤ x.watch then [.watchdogExpiry t] else [])

/-- The events that a tile can offer. -/
def State.tileEvents (s : State) (t : Nat) : List Instr :=
  let x := s.tile t
  (match x.task with
    | some k => s.taskEvents t k
    | none => if s.idle t && !(s.offered (s.partOf (quadOf t))).isEmpty then [.taskPick t 0] else [])
  ++ (if x.peerIn.isEmpty then [] else [.peerAdditionApply t])
  ++ (if x.copyQ.isEmpty then [] else [.copyChunk (.tile t)])
  ++ (x.sends.map fun m => .messageSend m.port m.ch)
  ++ (if x.life == .retiring then [.tileRetirement t] else [])
  ++ (if x.pairPend.isEmpty then [] else [.pairTimeout t])

/-- The event of the packet at the head of a queue. -/
def packetEvent (q n type : Nat) : List Instr :=
  match type with
  | 0x01 => [.launch q n]
  | 0x02 => [.graph q n]
  | 0x03 => [.counterAdd q n]
  | 0x04 => [.counterWait q n]
  | 0x05 => [.copy q n]
  | 0x06 => [.fencePacket q n]
  | 0x10 => [.ttLoad q n]
  | 0x11 => [.ttStart q n]
  | 0x12 => [.ttStop q n]
  | 0x13 => [.ttSwap q n]
  | 0x14 => [.ttRead q n]
  | _ => []

/-- The events that a queue can offer. -/
def State.queueEvents (s : State) (q n : Nat) : List Instr :=
  let x := s.queue q n
  (match x.stall with
    | some (.wait _) => [.counterWaitRelease q n]
    | some (.start _) => [.launchStartRelease q n]
    | some (.create _ _) => [.launch q n]
    | none => [])
  ++ (if s.nodeStalled q n && !(match x.stall with
      | some (.create _ _) => true
      | _ => false) then [.launch q n] else [])
  ++ (if x.halted && x.rewritten then [.queueResume q n] else [])
  ++ (if !x.awake then [] else match s.look q n with
      | .packet k => packetEvent q n k.type
      | _ => [])

/-- The events that a quadrant can offer. -/
def State.quadEvents (s : State) (q : Nat) : List Instr :=
  let x := s.quads.getD q {}
  ((List.range 64).map fun n => s.queueEvents q n).flatten
  ++ (if x.copyQ.isEmpty then [] else [.copyChunk (.cp q)])
  ++ (x.graphs.map fun g => g.nodes.zipIdx.filterMap fun (y, i) =>
        if y.running then some (.graphNodeComplete q g.n i) else none).flatten
  ++ (if x.invalidating.isEmpty then [] else [.tlbInvalidateDone q])

/-- The events that a partition can offer. -/
def State.partEvents (s : State) (p : Nat) : List Instr :=
  let x := s.parts.getD p {}
  (x.launches.map fun l => .launchComplete p l.n)
  ++ (if x.frames.isSome || x.pendingStart.isSome then [.frameStart p] else [])
  ++ (if !(s.quads.getD p {}).mg then []
      else if x.round.isSome then [.mergeRoundClose p] else [.mergeRoundOpen p])

/-- The events of ports, base dies, slices and the loader. -/
def State.otherEvents (s : State) : List Instr :=
  (s.replies.map fun r => .valueDelivery r.n)
  ++ (s.launchQ.map fun e => .launchQueueDrain e.slice e.part)
  ++ ((List.range 8).map fun d =>
        (if (s.dies.getD d {}).reduceQ.isEmpty && s.asks.isEmpty then [] else [.reductionChunk d])
        ++ (List.range (s.dies.getD d {}).wc.length).map fun n => .wcTimeout d n).flatten
  ++ ((List.range 16).map fun p =>
        (if 0 < (s.port p).sinceAck then [.ackTimer p] else [])
        ++ (if (s.port p).pending.isEmpty then [] else [.resendTimeout p])).flatten
  ++ (if s.dev.status != 0xFF#8 then [] else if s.dev.op then [.loaderLoadEntry] else [.loaderCheckSeal])

/-- Every event that the machine can offer by itself, in one order. -/
def State.internal (s : State) : List Instr :=
  ((List.range Config.physTiles).map fun t => s.tileEvents t).flatten
  ++ ((List.range 8).map fun q => s.quadEvents q).flatten
  ++ (s.partitions.map fun p => s.partEvents p).flatten
  ++ s.otherEvents

/-- The event that a step takes where the agenda names none: the offered ones in turn, by the reference tick; on every
tick after the last of them nothing happens but the tick (log 1). -/
def State.next (s : State) : Option Instr :=
  let cs := s.internal
  cs[s.refTick % (cs.length + 1)]?

/-! ### An instruction placed where the next step runs it (log 5) -/

/-- VA and PA of the placed bundle, and the tables that map the first gigabyte to itself (R227). -/
def codeAddr : Nat := 0x100000
def rootTable : Nat := 0x20000000
def middleTable : Nat := 0x20010000

/-- An E bundle that holds nothing, and a seal that checks no successor (R47, R66). -/
def plainEnd : Word256 := 0x04000000#32 ++ 0#224
def plainSeal : Word256 := 0#216 ++ 0#6 ++ 1#2 ++ 0x0002#16 ++ 0#16

/-- A line of memory that starts with words of the given numbers of bytes. -/
def lineCells (a : Nat) (bs : List Byte) : List Cell := cellsAt a (bs ++ List.replicate (128 - bs.length) 0)

/-- The bytes from codeAddr: the bundle, an E bundle after it where it is none itself, and the seal. -/
def codeBytes (w : Word256) : List Byte :=
  leBytes 32 w.toNat
  ++ (if (headerOf (headerWord w)).eob then leBytes 32 plainSeal.toNat
      else leBytes 32 plainEnd.toNat ++ leBytes 32 plainSeal.toNat)

/-- A machine that is about to issue a bundle on tile 0, with one control word in every place of its table. -/
def State.placed (s : State) (w hcw : Word256) : State :=
  let s : State := { s with
    quads := updAt s.quads 0 fun q => { q with en := true, root := BitVec.ofNat 36 (rootTable / 65536), tlb := [] }
    parts := updAt s.parts 0 fun p => { p with
      fenced := none
      kernels := { id := 0, img := 0, text := codeAddr, hcw := [], gen := 1, steppings := [s.fixed.stepping] } ::
        p.kernels.filter fun k => k.id != 0 } }
  let s := s.lowWrite (lineCells rootTable (leBytes 8 (middleTable + 1)))
  let s := s.lowWrite (lineCells middleTable (leBytes 8 0x1F))
  let s := s.lowWrite (lineCells codeAddr (codeBytes w))
  s.modTile 0 fun x => { x with
    life := .service, hold := none, req := none, gangLead := none, micro := []
    task := some { pc := codeAddr, nextIssue := x.beat + 1, testEn := true, hcw := List.replicate 512 hcw } }

end Sys2Proof.Machine
end

