-- ==== Sys2Proof/Machine/Step.lean ====
section
/-! DEFINITION. One step of the machine, and the placing of an instruction where the next step runs it. -/

namespace Sys2Proof.Machine

/-- One step: the event at the head of the agenda, after its ticks; with an empty agenda the machine's own next event,
and a tick (log 1). An event of a unit that does not exist cannot come about. -/
def step (s : State) : Host.Outcome State Fault Refusal :=
  match s.agenda with
  | e :: rest =>
    if e.ev.wf then exec e.ev ({ s with agenda := rest }.pass e.ticks) else .fault .illFormed
  | [] =>
    match s.next with
    | some i => exec i (s.pass 1)
    | none => .next (s.pass 1)

/-- The state with an instruction placed where the next step runs it (log 5). -/
def State.withFetchWord (s : State) (nbits w : Nat) : State :=
  let v := w % 2 ^ nbits
  let t := s.placed (BitVec.ofNat 256 v) (BitVec.ofNat 256 (v / 2 ^ 256))
  { t with agenda := { ticks := 0, ev := .bundleIssue 0 } :: t.agenda }

end Sys2Proof.Machine
end

