-- ==== Sys2Proof/Safety.lean ====
section
/-! DEFINITION. The terms that claims about the machine use: a safe run, when the start of an operation is not held back, what it
records, and what a result on its way holds. -/

namespace Sys2Proof.Machine

/-- Nothing holds back the start of an operation that reads `named` and writes `dests`: the tile runs a task, none of the
registers is locked (R53), pending-bit mode finds no early read (R55), and no `inj` fires (R180). -/
structure Clear (s : State) (named dests : List Reg) : Prop where
  task : s.here.task.isSome = true
  unlocked : ∀ r ∈ named ++ dests, s.lockedReg r = false
  landed : (s.me.regs.debug && named.any fun r => s.earlyRead r) = false
  quiet : s.injFires = none

/-- What an operation of a slot reads, writes and folds in a state (R166): of a control word with the rotation and the mask unit of
its position, of any other operation as its encoding gives it. -/
def lineageAt (i : Instr) (s : State) : Lineage :=
  match i.hcw with
  | some h => hcwLineage (maskUnitOf s.cur.slot) s.cur.rot i h
  | none => (directLineage i).getD { opc := 0 }

/-- The registers that an operation reads: its sources, its predicate, and what it reads beyond them. -/
def Lineage.named (l : Lineage) : List Reg := (l.srcs ++ [l.pq]).filterMap id ++ l.more

/-- The task with an operation's reads and writes in its block's record: the live-in reads and the pending-read flag (R168, R169,
R176) as `noteRead` enters them, and then the writes. -/
def recorded (s : State) (named dests : List Reg) : Task :=
  dests.foldl (fun k r => k.noteWrite s.cur.beat s.cur.ord s.cur.slot.code r)
    (named.foldl (fun k r => k.noteRead s.cur.beat r) s.me)

/-- The state once an operation has started: its reads and writes are recorded, and its tag is folded into the block (R73);
nothing else has changed. -/
def begun (s : State) (tag : Word32) (named dests : List Reg) : State :=
  let k := recorded s named dests
  s.setMe { k with blk := { k.blk with folds := k.blk.folds ++ [(s.cur.idx, s.cur.slot.code, tag)] } }

/-- The state once operation i has started under its tag. -/
def started (s : State) (i : Instr) (tag : Word32) : State := begun s tag (lineageAt i s).named (lineageAt i s).dests

/-- One result in flight (R52): it lands at the end of beat s + L − 1, and sets its registers' tags. -/
def inFlight (s : State) (lat : Nat) (wr : Wr) (dests : List Reg) (tag : Word32) (flags : FpFlags) : Landing :=
  { due := s.cur.beat + lat - 1, blk := s.me.blk.seq, ord := s.cur.ord, slot := s.cur.slot.code, wr := wr
    dests := dests, tag := tag, flags := flags, addr := s.cur.addr }

/-- The state with one more result in flight. -/
def State.fly (s : State) (l : Landing) : State := s.setMe { s.me with landings := s.me.landings ++ [l] }

/-- An operation that starts, records itself under its tag, and leaves what f says of the state so started. -/
def Does (s : State) (i : Instr) (tag : Word32) (f : State → State) : Prop := exec i s = .next (f (started s i tag))

/-- An operation whose one effect, beside its record, is one result in flight. -/
def Flies (s : State) (i : Instr) (lat : Nat) (wr : Wr) (dests : List Reg) (tag : Word32) (flags : FpFlags) : Prop :=
  Does s i tag fun u => u.fly (inFlight s lat wr dests tag flags)

end Sys2Proof.Machine

namespace Sys2Proof

/-- A run of n steps that meets neither a fault nor a refusal. -/
def safeRun (n : Nat) (s : Machine.State) : Prop := ∃ t, core.run n s = .next t

end Sys2Proof
end

