-- ==== Sys2Proof/Certificates/Slice0/Obligations.lean ====
section
/-! DEFINITION. The statements for the provers, with the terms in which they are said: the rules of spec/ as functions of
an operation's operands, written beside the machine's own, and the effect of each operation and event on the state. -/

namespace Sys2Proof.Claims

open Machine

/-! ### How an operation ends -/

/-- An operation that traps at its start in a class: the task stops at the bundle, as `faultAt` says (R276, R278). -/
def Traps (s : State) (i : Instr) (c : Cause) (cls : FaultClass) (data : Nat) : Prop :=
  exec i s = .next { s.faultAt c cls data with fixed := s.fixed }

/-- An operation that raises the hold line (R51). -/
def Waits (s : State) (i : Instr) (h : HoldReason) : Prop :=
  exec i s = .next { s.raiseHold s.cur.tile h with fixed := s.fixed }

/-! ### Operations of the S and V slots -/

/-- The registers that a control word's operation reads, predicate included, and those it writes. -/
def reads (i : Instr) (h : Hcw) (s : State) : List Reg :=
  (h.srcRegs (Instr.hcwRow i) s.cur.rot ++ [h.predReg]).filterMap id
def dests (i : Instr) (h : Hcw) (s : State) : List Reg := (h.dstReg (Instr.hcwRow i) s.cur.rot).toList

/-- The tag of R72 of a control word's operation: opcode12, destcode, sources and predicate. -/
def tagAt (i : Instr) (h : Hcw) (s : State) : Word32 :=
  s.tagOf (Instr.hcwRow i).opc (destcodeOf (h.dstReg (Instr.hcwRow i) s.cur.rot))
    (h.srcRegs (Instr.hcwRow i) s.cur.rot) h.predReg

/-- The scalar register or the condition that source n names, as it reads; the immediate in place of source 2. -/
def srcS (i : Instr) (h : Hcw) (s : State) (n : Nat) : Word64 :=
  if h.imm && n == 1 then h.immA
  else match (h.srcRegs (Instr.hcwRow i) s.cur.rot).getD n none with
    | some (.s k) => s.me.regs.sreg k
    | _ => 0
def srcQ (i : Instr) (h : Hcw) (s : State) (n : Nat) : Bool :=
  match (h.srcRegs (Instr.hcwRow i) s.cur.rot).getD n none with
  | some (.q k) => s.me.regs.qreg k
  | _ => true

/-! ### Scalar results (R385, R396-R413) -/

/-- An operand as a signed integer, or as an unsigned one where uns is set. -/
def operand (uns : Bool) (x : Word64) : Int := if uns then x.toNat else x.toInt

/-- An exact result: modulo 2^64, or under saturation clamped with io (R385). -/
def clamped (h : Hcw) (x : Int) : Word64 × FpFlags :=
  let lo : Int := if h.uns then 0 else -2 ^ 63
  let hi : Int := if h.uns then 2 ^ 64 - 1 else 2 ^ 63 - 1
  if !h.sat then (BitVec.ofInt 64 x, 0)
  else if x < lo then (BitVec.ofInt 64 lo, .io)
  else if hi < x then (BitVec.ofInt 64 hi, .io)
  else (BitVec.ofInt 64 x, 0)

/-- A condition code of R86 on two words. -/
def holds (c : BitVec 6) (a b : Word64) : Bool :=
  match c.toNat with
  | 0 => a == b
  | 1 => a != b
  | 2 => a.slt b
  | 3 => !a.slt b
  | 4 => a.ult b
  | 5 => !a.ult b
  | _ => a == b

/-- The operands of a scalar operation: sources 1 and 2 as words, sources 1, 2 and 3 as conditions, and the remaining
count of the loop. -/
structure Args where
  a : Word64
  b : Word64
  p : Bool
  q : Bool
  r : Bool
  count : Nat

/-- The rules of R396-R413: an operation's control word, its latency, its result and the flag it raises. -/
def scalarRule (g : Args) : Instr → Option (Hcw × Nat × Word64 × FpFlags)
  | .sadd h => some (h, 1, clamped h (operand h.uns g.a + operand h.uns g.b))
  | .ssub h => some (h, 1, clamped h (operand h.uns g.a - operand h.uns g.b))
  | .smul h => some (h, 3, clamped h (operand h.uns g.a * operand h.uns g.b))
  | .smulh h => some (h, 3, BitVec.ofInt 64 (operand h.uns g.a * operand h.uns g.b / 2 ^ 64), 0)
  | .smulhu h => some (h, 3, BitVec.ofNat 64 (g.a.toNat * g.b.toNat / 2 ^ 64), 0)
  | .sand h => some (h, 1, g.a &&& g.b, 0)
  | .sor h => some (h, 1, g.a ||| g.b, 0)
  | .sxor h => some (h, 1, g.a ^^^ g.b, 0)
  | .sandn h => some (h, 1, g.a &&& ~~~g.b, 0)
  | .sshl h => some (h, 1, clamped h (operand h.uns g.a * 2 ^ g.b.toNat))
  | .sshr h => some (h, 1, g.a >>> g.b.toNat, 0)
  | .ssar h => some (h, 1, if h.uns then g.a >>> g.b.toNat else g.a.sshiftRight g.b.toNat, 0)
  | .smin h => some (h, 1, if operand h.uns g.a ≤ operand h.uns g.b then g.a else g.b, 0)
  | .smax h => some (h, 1, if operand h.uns g.a ≤ operand h.uns g.b then g.b else g.a, 0)
  | .sminu h => some (h, 1, if g.a ≤ g.b then g.a else g.b, 0)
  | .smaxu h => some (h, 1, if g.a ≤ g.b then g.b else g.a, 0)
  | .sclz h => some (h, 1, g.a.clz, 0)
  | .sctz h => some (h, 1, g.a.ctz, 0)
  | .spopc h => some (h, 1, g.a.cpop, 0)
  | .ssel h => some (h, 1, if g.r then g.a else g.b, 0)
  | .sli h => some (h, 1, h.immA, 0)
  | .smov h => some (h, 1, g.a, 0)
  | .sext h => some (h, 1, if 1 ≤ g.b.toNat ∧ g.b.toNat ≤ 64 then (g.a.setWidth g.b.toNat).signExtend 64 else g.a, 0)
  | .scmp h => some (h, 1, if holds h.src3 g.a g.b then 1 else 0, 0)
  | .sqop h => some (h, 1, if h.src3.getLsbD (2 * g.p.toNat + g.q.toNat) then 1 else 0, 0)
  | .slget h => some (h, 1, BitVec.ofNat 64 g.count, 0)
  | _ => none

/-- The operands that an operation reads in a state: its sources as they are when it starts, and the count of the loop in
progress (R406). -/
def argsAt (i : Instr) (h : Hcw) (s : State) : Args where
  a := srcS i h s 0
  b := srcS i h s 1
  p := srcQ i h s 0
  q := srcQ i h s 1
  r := srcQ i h s 2
  count := match s.me.regs.loop with | some l => l.count | none => 0

/-- What lands in the destination: a scalar register takes the word, a condition its bit 0. -/
def intoDest (i : Instr) (h : Hcw) (s : State) (v : Word64) : Wr :=
  match h.dstReg (Instr.hcwRow i) s.cur.rot with
  | some (.s n) => .s n v
  | some (.q n) => .q n (v.getLsbD 0)
  | _ => .none

end Sys2Proof.Claims

open Sys2Proof Sys2Proof.Machine Sys2Proof.Claims in
/-- R385, R396-R400, R405-R408, R411-R413: twenty-six scalar operations, in any syllable, with any rotation and in any
state, give the result of their rule after their latency, into the register their control word names, with the tag of
R72; beside the result on its way and the block's record nothing changes. -/
def Obligations.ScalarResult : Prop :=
  ∀ (i : Instr) (h : Hcw) (lat : Nat) (v : Word64) (g : FpFlags) (s : State),
    i.wf = true → i.hcw = some h → scalarRule (argsAt i h s) i = some (h, lat, v, g) →
    Clear s (reads i h s) (dests i h s) → h.predOk s.me.regs = true →
    Flies s i lat (intoDest i h s v) (dests i h s) (tagAt i h s) g

namespace Sys2Proof.Claims

open Machine

/-! ### Control registers (R93, R403) -/

/-- The running fold of a block at a bundle: the tags of its earlier bundles, by bundle and slot, folded from the constant of
R73. -/
def foldSoFar (b : Block) (idx : Nat) : Word64 :=
  ((b.folds.filter fun x => decide (x.1 < idx)).insertionSort fun x y => x.1 < y.1 || (x.1 == y.1 && x.2.1 ≤ y.2.1)).foldl
    (fun f x => (f <<< 9 ||| f >>> 55) ^^^ x.2.2.setWidth 64 * 0x9E3779B97F4A7C15) 0x243F6A8885A308D3

/-- The frame position of a partition (R141, R146): its frame and the logical tick in it; with no frame in progress, the reference
tick in their places, which within timetable mode is the model's choice (log 75). -/
def framePosition (s : State) (p : Nat) : Nat :=
  match (s.parts.getD p {}).frames with
  | some f => f.frame * 2 ^ 24 + min (s.refTick - f.start - f.slip) (2 ^ 20 - 1)
  | none => s.refTick / 2 ^ 20 * 2 ^ 24 + s.refTick % 2 ^ 20

/-- A bit as a number. -/
def bit (b : Bool) : Nat := if b then 1 else 0

/-- What `sgetc` reads from each control register of R93: the configured and sticky fields, the task's identity and where it was
placed, the position in its frame, the fold of its block, its rings, its tile's instances, and the fields that privileged code
sets. -/
def cregRule (s : State) (n : Nat) : Option Word64 :=
  let k := s.me
  match n with
  | 0x00 => some (k.regs.vshape.setWidth 64)
  | 0x01 => some (k.regs.round.setWidth 64)
  | 0x02 => some (k.regs.fpflags.setWidth 64)
  | 0x03 => some (k.regs.fptrap.setWidth 64)
  | 0x04 => some k.record.taskid
  | 0x05 => some k.place
  | 0x06 => some k.gpos
  | 0x07 => some (BitVec.ofNat 64 s.here.beat)
  | 0x08 => some (BitVec.ofNat 64 (framePosition s k.part))
  | 0x09 => some (k.regs.pbound.setWidth 64)
  | 0x0A => some (k.record.depth.setWidth 64)
  | 0x0B => some (k.record.prio.setWidth 64)
  | 0x0C => some (foldSoFar k.blk s.cur.idx)
  | 0x0D => some (k.regs.uflow.setWidth 64)
  | 0x0E => some (k.regs.oflow.setWidth 64)
  | 0x18 => some (if k.regs.debug then 1 else 0)
  | 0x19 => some (if k.testEn then 1 else 0)
  | 0x1A =>
    let x := s.here
    some (BitVec.ofNat 64 (bit x.splitv * 2 ^ 9 + bit x.splits * 2 ^ 8 + x.vb.toNat * 2 ^ 6 + x.va.toNat * 2 ^ 4
      + x.sb.toNat * 2 ^ 2 + x.sa.toNat))
  | 0x1B => some ((s.quads.getD k.part {}).wcwait.setWidth 64)
  | _ =>
    if 0x10 ≤ n ∧ n ≤ 0x17 then
      let r := k.regs.rings.getD (n - 0x10) {}
      some (BitVec.ofNat 64 (r.filled % 256 * 2 ^ 56 + r.free % 256 * 2 ^ 48 + r.lslot.toNat * 2 ^ 40 + r.lcount.toNat * 2 ^ 37
        + bit r.en * 2 ^ 32 + r.base.toNat * 2 ^ 7))
    else none

/-- The number of the control register that immediate A names (R402). -/
def cregNo (h : Hcw) : Nat := (h.immA.extractLsb' 0 8).toNat

/-- What a write of a control register leaves of each one that takes writes (R403): the six that do, as functions of the
word written. -/
def afterCreg (r : Regs) (n : Nat) (v : Word64) : Regs :=
  if n = 0x00 then { r with vshape := v.extractLsb' 0 16 }
  else if n = 0x01 then (if v.extractLsb' 0 3 = 0 ∨ v.extractLsb' 0 3 = 6 ∨ v.extractLsb' 0 3 = 7 then r
    else { r with round := v.extractLsb' 0 3 })
  else if n = 0x02 then { r with fpflags := v.extractLsb' 0 6 &&& 0b111101 }
  else if n = 0x03 then { r with fptrap := v.extractLsb' 0 6 &&& 0b111101 }
  else if n = 0x09 then (if v.extractLsb' 0 16 = 0 then r else { r with pbound := v.extractLsb' 0 16 })
  else if n = 0x18 then { r with debug := v.getLsbD 0 }
  else r

/-! ### Vector results (R425-R445) -/

/-- The vector register that source n names, or immediate A in every element in place of source 2 (R94). -/
def srcV (i : Instr) (h : Hcw) (s : State) (w cnt n : Nat) : Vec512 :=
  if h.imm && n == 1 then replicate w cnt h.immA
  else match (h.srcRegs (Instr.hcwRow i) s.cur.rot).getD n none with
    | some (.v k) => s.me.regs.vreg k
    | _ => 0

/-- An exact integer result in w bits: modulo 2^w, or under saturation clamped with io (R32). -/
def narrowed (w : Nat) (signed sat : Bool) (x : Int) : Nat × FpFlags :=
  let lo : Int := if signed then -2 ^ (w - 1) else 0
  let hi : Int := if signed then 2 ^ (w - 1) - 1 else 2 ^ w - 1
  if !sat then ((x % 2 ^ w).toNat, 0)
  else if x < lo then ((lo % 2 ^ w).toNat, .io)
  else if hi < x then ((hi % 2 ^ w).toNat, .io)
  else ((x % 2 ^ w).toNat, 0)

/-- An element of w bits as an integer. -/
def num (w : Nat) (signed : Bool) (c : Nat) : Int := if signed && decide (2 ^ (w - 1) ≤ c) then (c : Int) - 2 ^ w else c

/-- The operands of a vector operation: its format, rows and columns, the rounding mode in force, its three sources, the
scalar that `vbcast` and `vrot` read, and the condition code. -/
structure VArgs where
  t : Format
  rows : Nat
  cols : Nat
  m : Round
  a : Vec512
  b : Vec512
  c : Vec512
  x : Word64

/-- The elements of a source. -/
def VArgs.els (g : VArgs) (v : Vec512) : List Nat := elems v g.t.width (g.rows * g.cols)

/-- An operation on the elements of one, two or three sources. -/
def VArgs.map1 (g : VArgs) (f : Nat → Nat × FpFlags) : List (Nat × FpFlags) := (g.els g.a).map f
def VArgs.map2 (g : VArgs) (f : Nat → Nat → Nat × FpFlags) : List (Nat × FpFlags) :=
  List.zipWith f (g.els g.a) (g.els g.b)
def VArgs.map3 (g : VArgs) (f : Nat → Nat → Nat → Nat × FpFlags) : List (Nat × FpFlags) :=
  ((g.els g.a).zip ((g.els g.b).zip (g.els g.c))).map fun (a, b, c) => f a b c

/-- An elementwise operation that takes values of a floating format one way and integers another (R430, R436). -/
def VArgs.byFormat (g : VArgs) (uns sat : Bool) (ff : FloatFmt → Val → Val → Nat × FpFlags) (fi : Int → Int → Int)
    (a b : Nat) : Nat × FpFlags :=
  match g.t with
  | .float f => ff f (f.decode a) (f.decode b)
  | .int w sg => narrowed w (sg && !uns) sat (fi (num w (sg && !uns) a) (num w (sg && !uns) b))

/-- The smaller or larger of two elements, with or without the number rule for NaN (R33, R442). -/
def VArgs.pick (g : VArgs) (uns big number : Bool) (a b : Nat) : Nat × FpFlags :=
  match g.t with
  | .float f => floatMinMax f big number a b
  | .int w sg =>
    let le : Bool := decide (num w (sg && !uns) a ≤ num w (sg && !uns) b)
    (if le != big then a else b, 0)

/-- The all-ones element for true, zero for false (R433). -/
def truth (w : Nat) (p : Bool) : Nat := if p then 2 ^ w - 1 else 0

/-- A comparison of two elements under a condition of R86: lt and ge take the format's reading. -/
def VArgs.test (g : VArgs) (cc : Cond) (a b : Nat) : Nat × FpFlags :=
  match g.t with
  | .float f =>
    let x := f.decode a
    let y := f.decode b
    (truth g.t.width (floatCond cc x y),
      if (if cc == .eq || cc == .ne then x.isSnan || y.isSnan else x.isNan || y.isNan) then .nv else 0)
  | .int w sg =>
    (truth g.t.width (match cc with
      | .eq => a == b
      | .ne => a != b
      | .lt => decide (num w sg a < num w sg b)
      | .ge => decide (num w sg b ≤ num w sg a)
      | .ltu => decide (a < b)
      | .geu => decide (b ≤ a)), 0)

/-- The rules of R429-R437, R442, R445: an operation's control word, its latency and the elements of its result. -/
def vectorRule (g : VArgs) : Instr → Option (Hcw × Nat × List (Nat × FpFlags))
  | .vadd h => some (h, 2, g.map2 (g.byFormat h.uns h.sat (fun f x y => floatAdd f g.m h.sat x y) (· + ·)))
  | .vsub h => some (h, 2, g.map2 (g.byFormat h.uns h.sat (fun f x y => floatAdd f g.m h.sat x y.negate) (· - ·)))
  | .vmul h => some (h, 4, g.map2 (g.byFormat h.uns h.sat (fun f x y => floatMul f g.m h.sat x y) (· * ·)))
  | .vfma h => some (h, 4, g.map3 fun a b c => match g.t with
      | .float f => floatFma f g.m h.sat (f.decode a) (f.decode b) (f.decode c)
      | .int w sg => narrowed w sg h.sat (num w sg a * num w sg b + num w sg c))
  | .vfms h => some (h, 4, g.map3 fun a b c => match g.t with
      | .float f => floatFma f g.m h.sat (f.decode a) (f.decode b) (f.decode c).negate
      | .int w sg => narrowed w sg h.sat (num w sg a * num w sg b - num w sg c))
  | .vmin h => some (h, 2, g.map2 (g.pick h.uns false false))
  | .vmax h => some (h, 2, g.map2 (g.pick h.uns true false))
  | .vminn h => some (h, 2, g.map2 (g.pick h.uns false true))
  | .vmaxn h => some (h, 2, g.map2 (g.pick h.uns true true))
  | .vabs h => some (h, 2, g.map1 fun a => match g.t with
      | .float f => if (f.decode a).isNan then (f.nanCode, if (f.decode a).isSnan then .nv else 0)
          else (if f.signed then a % 2 ^ (f.ebits + f.fbits) else a, 0)
      | .int w sg => if sg then narrowed w true h.sat |num w true a| else (a, 0))
  | .vneg h => some (h, 2, g.map1 fun a => match g.t with
      | .float f => negElem h.sat (.float f) a
      | .int w sg => narrowed w sg h.sat (-(num w sg a)))
  | .vand h => some (h, 2, g.map2 fun a b => (a &&& b, 0))
  | .vor h => some (h, 2, g.map2 fun a b => (a ||| b, 0))
  | .vxor h => some (h, 2, g.map2 fun a b => (a ^^^ b, 0))
  | .vshl h => some (h, 2, g.map2 fun a n => match g.t with
      | .float _ => (0, 0)
      | .int w sg => narrowed w (sg && !h.uns) h.sat (num w (sg && !h.uns) a * 2 ^ n))
  | .vshr h => some (h, 2, g.map2 fun a n => (a / 2 ^ n, 0))
  | .vsar h => some (h, 2, g.map2 fun a n => ((num g.t.width true a / 2 ^ n % 2 ^ g.t.width).toNat, 0))
  | .vcmp h => some (h, 2, g.map2 (g.test (Hcw.condOf h)))
  | .vsel h => some (h, 2, g.map3 fun a b c => (if c ≠ 0 then a else b, 0))
  | .vbcast h => some (h, 3, List.replicate (g.rows * g.cols) (g.x.toNat % 2 ^ g.t.width, 0))
  | .vmov h => some (h, 3, g.map1 fun a => (a, 0))
  | .vtrn h => some (h, 4, (List.range (g.cols * g.rows)).map fun k =>
      (element g.a g.t.width (k % g.rows * g.cols + k / g.rows), 0))
  | .vrot h => some (h, 2, (List.range (g.rows * g.cols)).map fun k =>
      (element g.a g.t.width ((k + g.x.toNat) % (g.rows * g.cols)), 0))
  | .vfrexp h => some (h, 2, g.map1 (frexpElem (h.immA.getLsbD 0) g.t))
  | .vldexp h => some (h, 4, g.map2 (ldexpElem g.m g.t))
  | _ => none

/-- An element with a NaN of its format in the canonical form (R22). -/
def canon (t : Format) (a : Nat) : Nat :=
  match t with
  | .float f => if (f.decode a).isNan then f.nanCode else a
  | .int _ _ => a

/-- The formats that an operation takes (R426, R433, R437, R445); uns goes with no floating format. -/
def takes (i : Instr) (h : Hcw) (t : Format) : Bool :=
  !(h.uns && t.isFloat) && (match i with
    | .vshl _ | .vshr _ | .vsar _ => !t.isFloat
    | .vfrexp _ => match t with | .float f => !f.p3109 | .int _ _ => false
    | .vldexp _ => t.isFloat
    | .vcmp _ => !(t.isFloat && (Hcw.condOf h == .ltu || Hcw.condOf h == .geu))
    | _ => true)

/-- The operands of a vector operation in a state. -/
def vargsAt (i : Instr) (h : Hcw) (s : State) (t : Format) (rows cols : Nat) : VArgs where
  t := t
  rows := rows
  cols := cols
  m := s.me.mode h
  a := srcV i h s t.width (rows * cols) 0
  b := srcV i h s t.width (rows * cols) 1
  c := srcV i h s t.width (rows * cols) 2
  x := srcS i h s (match i with | .vbcast _ => 0 | _ => 1)

/-- The write of a vector result: its elements from element 0, in the bytes that the issuing position's mask selects
(R427, R159). -/
def intoV (i : Instr) (h : Hcw) (s : State) (w : Nat) (xs : List (Nat × FpFlags)) : Wr :=
  wrV (h.dstReg (Instr.hcwRow i) s.cur.rot) s.myMask w xs

end Sys2Proof.Claims

open Sys2Proof Sys2Proof.Machine Sys2Proof.Claims in
/-- R402: `sgetc` samples a control register on its start beat, and the value lands at the end of the next beat; beside that
and the block's record nothing changes. -/
def Sys2Proof.Claims.ReadControlRegister : Prop :=
  ∀ (h : Hcw) (s : State), (Instr.sgetc h).wf = true →
    Clear s (reads (.sgetc h) h s) (dests (.sgetc h) h s) → h.predOk s.me.regs = true →
    Flies s (.sgetc h) 2 (intoDest (.sgetc h) h s (s.creg s.cur.tile s.me s.cur.idx (cregNo h)))
      (dests (.sgetc h) h s) (tagAt (.sgetc h) h s) 0

open Sys2Proof Sys2Proof.Machine Sys2Proof.Claims in
/-- R16, R62, R93, R141, R170, R215, R403: the value of each control register of R93; `cr.frame` in timetable mode with no frame in
progress is the model's choice (log 75). -/
def Sys2Proof.Claims.ControlRegisterValue : Prop :=
  ∀ (s : State) (n : Nat) (v : Word64), cregRule s n = some v → s.creg s.cur.tile s.me s.cur.idx n = v

open Sys2Proof Sys2Proof.Machine Sys2Proof.Claims in
/-- R215, R402, R404: `ssetc` of a register that is no ring and not privileged puts its write of the source on its way for the end
of its start beat; a write of a ring that passes the check of R215 and changes it is held to the block's order point, one that
leaves it as it is does nothing, and one that fails the check traps with RING_CONFIG. -/
def Sys2Proof.Claims.WriteControlRegister : Prop :=
  ∀ (h : Hcw) (s : State), (Instr.ssetc h).wf = true → cregNo h ≠ 0x19 → cregNo h ≠ 0x1B →
    Clear s (reads (.ssetc h) h s) [] → h.predOk s.me.regs = true →
    let n := cregNo h
    let v := srcS (.ssetc h) h s 0
    let rings := s.me.ringsAhead
    ((n < 0x10 ∨ 0x17 < n) → Flies s (.ssetc h) 1 (.creg n v) [] (tagAt (.ssetc h) h s) 0) ∧
    (0x10 ≤ n → n ≤ 0x17 → ringWriteOk rings (n - 0x10) v = true →
      Does s (.ssetc h) (tagAt (.ssetc h) h s) fun u =>
        let u' := if (rings.getD (n - 0x10) {}).sameCfg (Ring.ofValue v) then u
          else u.setMe { u.me with blk := u.me.blk.hold (s.cur.ord, s.cur.slot.code) [.ringCfg (n - 0x10) v] }
        u'.fly (inFlight s 1 .none [] (tagAt (.ssetc h) h s) 0)) ∧
    (0x10 ≤ n → n ≤ 0x17 → ringWriteOk rings (n - 0x10) v = false → Traps s (.ssetc h) .ringConfig .s 0)

open Sys2Proof Sys2Proof.Machine Sys2Proof.Claims in
/-- R403: what a landed write of a control register leaves: six registers take it, each its own bits and values, and every
other number leaves the registers as they are. -/
def Sys2Proof.Claims.ControlRegisterTakesWrite : Prop :=
  ∀ (r : Regs) (n : Nat) (v : Word64), r.apply (.creg n v) = afterCreg r n v

open Sys2Proof Sys2Proof.Machine Sys2Proof.Claims in
/-- R403: an `ssetc` of `cr.test` or `cr.wcwait` is PRIVILEGED, class D: it traps, and nothing of it happens. -/
def Sys2Proof.Claims.PrivilegedControlRegister : Prop :=
  ∀ (h : Hcw) (s : State), s.here.task.isSome = true → (cregNo h = 0x19 ∨ cregNo h = 0x1B) → s.cur.slot ≠ .l →
    s.cur.slot ≠ .d →
    exec (.ssetc h) s = .next { s.faultAt .privileged .d 0 with fixed := s.fixed }

open Sys2Proof Sys2Proof.Machine Sys2Proof.Claims in
/-- R425-R437, R442, R445: twenty-five vector operations give, for each element of their view, the element of their rule,
in the mask of the issuing position, with the flags of the active elements, after their latency. -/
def Obligations.VectorResult : Prop :=
  ∀ (i : Instr) (h : Hcw) (t : Format) (rows cols lat : Nat) (xs : List (Nat × FpFlags)) (s : State),
    i.wf = true → i.hcw = some h → s.vview h 0 = some (t, rows, cols) → takes i h t = true →
    (h.imm = true → (Instr.hcwRow i).src2 = .v → h.immA.toNat < 2 ^ t.width) →
    vectorRule (vargsAt i h s t rows cols) i = some (h, lat, xs) →
    Clear s (reads i h s) (dests i h s) → h.predOk s.me.regs = true →
    Flies s i lat (intoV i h s t.width xs) (dests i h s) (tagAt i h s) (laneFlags s.myMask t.width xs)

open Sys2Proof Sys2Proof.Machine Sys2Proof.Claims in
/-- R435: `vcvt` converts each element from the format of its immediate to the operation's, on a shape that fits the wider
of the two. -/
def Sys2Proof.Claims.VectorConvert : Prop :=
  ∀ (h : Hcw) (src t : Format) (rows cols : Nat) (s : State), (Instr.vcvt h).wf = true →
    formatOf (h.immA.extractLsb' 0 8) = some src → s.vview h src.width = some (t, rows, cols) →
    Clear s (reads (.vcvt h) h s) (dests (.vcvt h) h s) → h.predOk s.me.regs = true →
    let xs := (elems (srcV (.vcvt h) h s 0 0 0) src.width (rows * cols)).map (convert src t (s.me.mode h) h.sat)
    Flies s (.vcvt h) 3 (intoV (.vcvt h) h s t.width xs) (dests (.vcvt h) h s) (tagAt (.vcvt h) h s)
      (laneFlags s.myMask t.width xs)

open Sys2Proof Sys2Proof.Machine Sys2Proof.Claims in
/-- R22, R39, R444: the three reductions put the pairwise tree over the active elements into element 0 of their destination,
whatever the mask, after six beats, a NaN in its canonical form. -/
def Sys2Proof.Claims.VectorReduction : Prop :=
  ∀ (i : Instr) (h : Hcw) (t : Format) (rows cols : Nat) (s : State), i.wf = true → i.hcw = some h →
    s.vview h 0 = some (t, rows, cols) →
    Clear s (reads i h s) (dests i h s) → h.predOk s.me.regs = true →
    let g := vargsAt i h s t rows cols
    let tree (f : Nat → Nat → Nat × FpFlags) (none : Nat) := reduceTree s.myMask t.width (g.els g.a) f none
    let lands (x : Nat × FpFlags) : Prop :=
      Flies s i 6 (wrV (h.dstReg (Instr.hcwRow i) s.cur.rot) (BitVec.allOnes 512) t.width [(canon t x.1, x.2)])
        (dests i h s) (tagAt i h s) x.2
    let empty := match t with | .float f => f.nanCode | .int _ _ => 0
    (i = .vredsum h → lands (tree (g.byFormat false false (fun f x y => floatAdd f g.m false x y) (· + ·)) 0)) ∧
    (i = .vredmax h → lands (tree (g.pick false true false) empty)) ∧
    (i = .vredmin h → lands (tree (g.pick false false false) empty))

namespace Sys2Proof.Claims

open Machine

/-- The task of the operation changed, and its block changed. -/
def withMe (f : Task → Task) (u : State) : State := u.setMe (f u.me)
def withBlk (f : Block → Block) (u : State) : State := withMe (fun k => { k with blk := f k.blk }) u

/-- The registers changed, and with them those that a replay of the block in progress restores where the operation is of an
earlier block (R175), and what pending paired blocks would restore (R155). -/
def withRegs (f : Regs → Regs) (u : State) : State :=
  let v := withMe (fun k => { k with regs := f k.regs, ckpt := if u.cur.older then k.ckpt.map f else k.ckpt }) u
  if u.cur.older then v.modTile u.cur.tile fun x => x.modBefore u.me.blk.seq fun k => { k with regs := f k.regs } else v

/-- A drain queue without its oldest entry (R193). -/
def poppedQueue (x : DrainQueue) : DrainQueue :=
  { x with reserved := x.reserved - 1, filled := x.filled - 1, head := (x.head + 1) % 32 }

/-! ### Masks (R369, R370) -/

/-- The mask unit of the issuing position. -/
def unit (s : State) : MaskUnit := if s.cur.slot = .vb then .vb else .va

/-- The bytes of the elements that are not zero. -/
def nonzeroBytes (v : Vec512) (w n : Nat) : MaskEntry :=
  (List.range n).foldl (fun m i => if element v w i = 0 then m else m ||| byteRun (w * i / 8) ((w + 7) / 8)) 0

/-! ### The palette (R271-R273) -/

/-- The transpose of an r × c view at a width, or an invalid configuration. -/
def transposed (p : Palette) (w : Nat) : Fired :=
  let r := 2 ^ (p.trn.cfg.extractLsb' 0 4).toNat
  let c := 2 ^ (p.trn.cfg.extractLsb' 4 4).toNat
  if r * c * w ≤ 4096 then
    ⟨p, some (BitVec.ofNat 4096 (packElems w ((List.range (r * c)).map fun k => element p.trn.a w (k % r * c + k / r)))), 0⟩
  else ⟨p, some 0, 0x80⟩

/-- A CRC unit that holds a running state and shows its complement. -/
def crcShows (p : Palette) (shown held : Word32) : Fired := ⟨{ p with crcState := held }, some ((~~~shown).setWidth 4096), 0⟩

/-- The trigger's unit, its latency (R109), and what it leaves (R273). -/
def triggerRule (p : Palette) (m : Round) : Instr → Option (Nat × Nat × Fired)
  | .qntQ => some (0, 6, p.quantise m false)
  | .qntQs => some (0, 6, p.quantise m true)
  | .qntDq => some (0, 6, p.dequantise m)
  | .qntAmax => some (0, 6, p.largest)
  | .trnE8 => some (1, 4, transposed p 8)
  | .trnE16 => some (1, 4, transposed p 16)
  | .trnE32 => some (1, 4, transposed p 32)
  | .trnE4 => some (1, 4, transposed p 4)
  | .crcInit => some (2, 4, crcShows p (~~~(p.crc.cfg.setWidth 32)) (~~~(p.crc.cfg.setWidth 32)))
  | .crcV => some (2, 8, crcShows p (crcFeed p.crcState (leBytes 512 p.crc.a.toNat)) (crcFeed p.crcState (leBytes 512 p.crc.a.toNat)))
  | .crcS => some (2, 4, crcShows p (crcFeed p.crcState (leBytes 8 p.crc.a.toNat)) (crcFeed p.crcState (leBytes 8 p.crc.a.toNat)))
  | .crcFin => some (2, 4, crcShows p p.crcState 0xFFFFFFFF)
  | .hshKey => some (3, 4, ⟨{ p with key := p.hsh.cfg }, none, 0⟩)
  | .hshNb => some (3, 4, ⟨{ p with nb := p.hsh.cfg.extractLsb' 0 32 }, none,
      if p.hsh.cfg.extractLsb' 0 32 = 0 then 0x80 else 0⟩)
  | .hshId => some (3, 8, ⟨p, some ((hashH p.key (p.hsh.a.extractLsb' 0 64)).setWidth 4096), 0⟩)
  | .hshBkt => some (3, 8, if p.nb = 0 then ⟨p, some 0, 0x80⟩
      else ⟨p, some (BitVec.ofNat 4096 ((hashH p.key (p.hsh.a.extractLsb' 0 64)).toNat * p.nb.toNat / 2 ^ 64)), 0⟩)
  | .topK => some (4, 4, p.loadK)
  | .topGo => some (4, 12, p.mergeBest)
  | .topIdx => some (4, 12, p.bestIndices)
  | .topClr => some (4, 4, ⟨{ p with best := [], base := 0, count := 0 }, none, 0⟩)
  | _ => none

/-- The unit's state as the trigger leaves it. -/
def firedRegs (m : Round) (i : Instr) (r : Regs) : Regs :=
  match triggerRule r.pal m i with
  | some (_, _, f) => { r with pal := f.pal }
  | none => r

/-- A trigger on its start beat: the unit's state changes now; `res` and `st` are on their way, and set no tag. -/
def triggered (s : State) (m : Round) (i : Instr) (unit lat : Nat) (f : Fired) (u : State) : State :=
  (withRegs (firedRegs m i) u).fly (inFlight s lat (.res unit f.res f.st) [] 0 0)

/-- A trigger that starts one beat later (R421). -/
def nextBeat (s : State) (k : Task) (g : Instr) : Delayed :=
  { due := s.cur.beat + 1, blk := k.blk.seq, ord := s.cur.ord, slot := .t, idx := s.cur.idx, op := g, addr := s.cur.addr }

/-- The scalar or vector register that a `tmov` reads, as a port's 512 bytes. -/
def portData (s : State) : Instr → Option (BitVec 6 × Reg × Vec512)
  | .tmovPortV p v => some (p, .v v, s.me.regs.vreg v)
  | .tmovPortS p n => some (p, .s n, (s.me.regs.sreg n).setWidth 4096)
  | _ => none

/-! ### The C slot -/

/-- The prefetched copy of a target, where it can be fetched (R157, R321). -/
def prefetched (s : State) (a : Nat) : Option Word256 :=
  match s.fetch s.cur.tile s.me.part a with
  | .ok w => some w
  | .error _ => none

/-- The four conditional transfers: buffer, opcode, condition register, and whether it is taken (R450). -/
def xferRule (s : State) : Instr → Option (BitVec 3 × Nat × Reg × Bool)
  | .xfer b q => some (b, 0x03, .q q, s.me.regs.qreg q)
  | .xferF b q => some (b, 0x03, .q q, !s.me.regs.qreg q)
  | .xferMz b m => some (b, 0x04, .mask m, s.me.regs.top m == 0)
  | .xferMnz b m => some (b, 0x04, .mask m, s.me.regs.top m != 0)
  | _ => none

/-- A block with its transfer decided. -/
def decided (x : Target) (taken : Bool) (b : Block) : Block :=
  { b with hasXfer := true, taken := if taken then some x.addr else none, takenCopy := if taken then x.copy else none }

/-- The two `lmark` forms: the count and the length; a count of 0 is 1 (R365). -/
def markRule (s : State) : Instr → Option (Option Reg × Nat × Nat)
  | .lmark n len => some (some (.s n), max 1 ((s.me.regs.sreg n).toNat % 2 ^ 32), len.toNat)
  | .lmarkImm c len => some (none, max 1 c.toNat, len.toNat)
  | _ => none

/-- Lines locked in turn, each that is not locked yet, translates for a fetch, and finds one of the 1,024 places (R355). -/
def lockEach (ok : Nat → Bool) (ls : List Nat) : List Nat → List Nat
  | [] => ls
  | l :: rest => lockEach ok (if ls.length < 1024 ∧ l ∉ ls ∧ ok l = true then ls ++ [l] else ls) rest

/-- What a block's end instruction leaves for the order point (R349, R423, R451). -/
def endRule : Instr → Option (Nat × BlockEnd)
  | .done => some (0x0B, .done)
  | .yield => some (0x0C, .yield)
  | .trap code => some (0x0D, .trap code)
  | _ => none

/-- The corrupted read that an `inj` arms (R180): its source, distance and step, and its own word. -/
def armed (slot step : BitVec 6) (src : BitVec 2) (d : BitVec 8) : Inj :=
  { slot := slot.toNat, k := src.toNat, left := d.toNat, step := step.toNat
    word := 0x0F#6 ++ slot ++ src ++ d ++ 0#4 ++ step, d := d.toNat, blk := 0 }

/-- The counts that `wait` compares lie within its fields; 31 is any (R446, R447). -/
def within (ld st cp mx : BitVec 5) (c : Nat × Nat × Nat × Nat) : Prop :=
  (ld = 31 ∨ c.1 ≤ ld.toNat) ∧ (st = 31 ∨ c.2.1 ≤ st.toNat) ∧ (cp = 31 ∨ c.2.2.1 ≤ cp.toNat)
    ∧ (mx = 31 ∨ c.2.2.2 ≤ mx.toNat)

end Sys2Proof.Claims

open Sys2Proof Sys2Proof.Machine Sys2Proof.Claims in
/-- R59: an operation of the S slot whose predicate fails writes its tag alone, at the end of its start beat; so does a vector
operation on a view that its format and shape allow. -/
def Obligations.FailedPredicateWritesTag : Prop :=
  ∀ (i : Instr) (h : Hcw) (s : State), i.wf = true → i.hcw = some h → h.predOk s.me.regs = false →
    Clear s (reads i h s) (dests i h s) →
    ((Instr.hcwRow i).cls = 1 → (∀ c, i = .ssetc c → cregNo c ≠ 0x19 ∧ cregNo c ≠ 0x1B) →
      Flies s i 1 .none (dests i h s) (tagAt i h s) 0) ∧
    (∀ t rows cols, s.vview h 0 = some (t, rows, cols) → takes i h t = true →
      (h.imm = true → (Instr.hcwRow i).src2 = .v → h.immA.toNat < 2 ^ t.width) →
      (vectorRule (vargsAt i h s t rows cols) i).isSome = true →
      Flies s i 1 .none (dests i h s) (tagAt i h s) 0)

open Sys2Proof Sys2Proof.Machine Sys2Proof.Claims in
/-- R440, R441: `vmacw` adds to each 32-bit lane of its destination the products of the lane's elements, wrapped or clamped,
for a kernel of the generation that has it. -/
def Sys2Proof.Claims.WideningMultiplyAccumulate : Prop :=
  ∀ (h : Hcw) (w : Nat) (sg : Bool) (rows cols : Nat) (n m d : BitVec 5) (s : State), (Instr.vmacw h).wf = true →
    s.vview h 0 = some (.int w sg, rows, cols) → w ≠ 32 → rows * cols % (32 / w) = 0 →
    (w = 4 → ((s.kernel s.me.part s.me.record.kernel).map (·.gen)).getD 1 < 2) →
    h.dstReg (Instr.hcwRow (.vmacw h)) s.cur.rot = some (.v d) →
    h.srcRegs (Instr.hcwRow (.vmacw h)) s.cur.rot = [some (.v n), some (.v m), none] →
    Clear s (([some (.v n), some (.v m), some (.v d), h.predReg] : List (Option Reg)).filterMap id) [.v d] → h.predOk s.me.regs = true →
    let g := 32 / w
    let term (i : Nat) : Int := num w (sg && !h.uns) (element (s.me.regs.vreg n) w i)
      * num w (sg && !h.uns) (element (s.me.regs.vreg m) w i)
    let lanes := (List.range (rows * cols / g)).map fun l => narrowed 32 (!h.uns) h.sat
      ((List.range g).foldl (fun x i => x + term (l * g + i)) (num 32 (!h.uns) (element (s.me.regs.vreg d) 32 l)))
    let tag := s.tagOf (Instr.hcwRow (.vmacw h)).opc (Reg.code (.v d)) [some (.v n), some (.v m), some (.v d)] h.predReg
    Flies s (.vmacw h) 4 (wrV (some (.v d)) s.myMask 32 lanes) [.v d] tag (laneFlags s.myMask 32 lanes)

open Sys2Proof Sys2Proof.Machine Sys2Proof.Claims in
/-- R193, R443: `vpopq` takes the oldest entry of its drain queue, once it is filled, and its data lands after six beats; an
entry not yet filled holds the tile, and an empty queue traps. -/
def Sys2Proof.Claims.PopDrainQueue : Prop :=
  ∀ (h : Hcw) (d : BitVec 5) (s : State), (Instr.vpopq h).wf = true →
    h.dstReg (Instr.hcwRow (.vpopq h)) s.cur.rot = some (.v d) →
    let q := h.immA.extractLsb' 0 2
    let x := s.me.regs.drain q
    let tag := s.tagOf (Instr.hcwRow (.vpopq h)).opc (Reg.code (.v d)) [some (.dq q), none, none] h.predReg
    Clear s (([some (.dq q), h.predReg] : List (Option Reg)).filterMap id) [.v d] → h.predOk s.me.regs = true →
    (0 < x.reserved → 0 < x.filled →
      Does s (.vpopq h) tag fun u =>
        (withRegs (fun r => r.setDrain q (poppedQueue (r.drain q))) u).fly
        (inFlight s 6 (.v d (x.entries.getD x.head {}).data (activeBits s.myMask 8 512)) [.v d] tag 0)) ∧
    (0 < x.reserved → x.filled = 0 → Waits s (.vpopq h) .drainFill) ∧
    (x.reserved = 0 → Traps s (.vpopq h) .queueUnderflow .s 0)

open Sys2Proof Sys2Proof.Machine Sys2Proof.Claims in
/-- R369, R370: `mpush` pushes the bytes of the elements that are not zero under the old top, `minv` turns the top over within
the entry below, and `mpop` drops the top, each on the stack of its position; an `mpush` on sixteen entries, and a `minv` or `mpop` on none, traps
with MASK_STACK. -/
def Sys2Proof.Claims.MaskStack : Prop :=
  ∀ (h : Hcw) (n : BitVec 5) (t : Format) (rows cols : Nat) (s : State),
    let u := unit s
    let m : Reg := .mask u
    let st := s.me.regs.stack u
    h.predOk s.me.regs = true →
    ((Instr.mpush h).wf = true → s.vview h 0 = some (t, rows, cols) →
      hcwReg .v h.src1 (h.reloc.getLsbD 2) s.cur.rot = some (.v n) →
      Clear s (([some (.v n), some m, h.predReg] : List (Option Reg)).filterMap id) [m] →
      (st.length < 16 →
        Flies s (.mpush h) 2 (.maskPush u (s.me.regs.top u &&& nonzeroBytes (s.me.regs.vreg n) t.width (rows * cols))) [m]
          (s.tagOf (Instr.hcwRow (.mpush h)).opc m.code [some (.v n), some m, none] h.predReg) 0) ∧
      (16 ≤ st.length → Traps s (.mpush h) .maskStack .s 0)) ∧
    (Clear s (([some m, h.predReg] : List (Option Reg)).filterMap id) [m] →
      (∀ top below, (Instr.minv h).wf = true → st = top :: below →
        Flies s (.minv h) 2 (.maskTop u (below.headD (BitVec.allOnes 512) &&& ~~~top)) [m]
          (s.tagOf (Instr.hcwRow (.minv h)).opc m.code [some m, none, none] h.predReg) 0) ∧
      ((Instr.mpop h).wf = true → st ≠ [] →
        Flies s (.mpop h) 2 (.maskPop u) [m]
          (s.tagOf (Instr.hcwRow (.mpop h)).opc m.code [some m, none, none] h.predReg) 0) ∧
      (st = [] → Traps s (.minv h) .maskStack .s 0 ∧ Traps s (.mpop h) .maskStack .s 0))

open Sys2Proof Sys2Proof.Machine Sys2Proof.Claims in
/-- R271-R273: each of the twenty triggers, on the beat on which it starts, leaves its unit's state and puts its result and its
status on their way. -/
def Sys2Proof.Claims.PaletteTrigger : Prop :=
  ∀ (i : Instr) (m : Round) (unit lat : Nat) (f : Fired) (s : State), s.here.task.isSome = true →
    m = s.roundMode → triggerRule s.me.regs.pal m i = some (unit, lat, f) →
    exec i s = .next (triggered s m i unit lat f s)

open Sys2Proof Sys2Proof.Machine Sys2Proof.Claims in
/-- R420-R422: a `tmov` from a register puts its data on its way to a plain port for the end of its beat, and starts the trigger
of a trigger port on that beat; one from a port reads `res` or `st` as they are and lands one beat later. -/
def Sys2Proof.Claims.PaletteMove : Prop :=
  ∀ (s : State),
    (∀ i p r d, portData s i = some (p, r, d) → i.wf = true → Clear s [r] [] →
      let tag := s.tagOf (match i with | .tmovPortV _ _ => 0x01 | _ => 0x04) 0xFF [some r, none, none] none
      (triggerOf p = none → Does s i tag fun u => u.fly (inFlight s 1 (.port p d) [] 0 0)) ∧
      (∀ g unit lat f, triggerOf p = some g → triggerRule s.me.regs.pal s.roundMode g = some (unit, lat, f) →
        Does s i tag fun u => triggered s s.roundMode g unit lat f u)) ∧
    (∀ v p, (Instr.tmovVPort v p).wf = true → Clear s [] [.v v] →
      let tag := s.tagOf 0x02 (Reg.code (.v v)) [none, none, none] none
      Flies s (.tmovVPort v p) 2 (.v v (s.me.regs.pal.read p) (BitVec.allOnes 4096)) [.v v] tag 0) ∧
    (∀ n p, (Instr.tmovSPort n p).wf = true → Clear s [] [.s n] →
      let tag := s.tagOf 0x05 (Reg.code (.s n)) [none, none, none] none
      Flies s (.tmovSPort n p) 2 (.s n ((s.me.regs.pal.read p).setWidth 64)) [.s n] tag 0) ∧
    (∀ d p, (Instr.tmovPortPort d p).wf = true → Clear s [] [] →
      let tag := s.tagOf 0x03 0xFF [none, none, none] none
      (triggerOf d = none →
        Does s (.tmovPortPort d p) tag fun u => u.fly (inFlight s 2 (.port d (s.me.regs.pal.read p)) [] 0 0)) ∧
      (∀ g, triggerOf d = some g → Does s (.tmovPortPort d p) tag fun u => withMe (fun k => { k with
        delayed := k.delayed ++ [nextBeat s k g] }) u))

open Sys2Proof Sys2Proof.Machine Sys2Proof.Claims in
/-- R73, R388: `nop` leaves the machine as it is; it folds nothing. -/
def Sys2Proof.Claims.NopDoesNothing : Prop :=
  ∀ (s : State), exec .nop s = .next s

open Sys2Proof Sys2Proof.Machine Sys2Proof.Claims in
/-- R320, R321: `bprep` loads its buffer with the bundle address plus 32 times its signed offset, `bprepi` with the address in its
register, each modulo 2^52 with the target's prefetched copy, after three beats; `bprepi` of an address that is no
multiple of 32 traps with ALIGN. -/
def Sys2Proof.Claims.PrepareTarget : Prop :=
  ∀ (b : BitVec 3) (off : BitVec 23) (n : BitVec 6) (s : State),
    (Clear s [] [.b b] →
      let a := (BitVec.ofNat 52 s.cur.addr + 32 * off.signExtend 52).toNat
      Flies s (.bprep b off) 3 (.b b ⟨a, prefetched s a⟩) [.b b] (s.tagOf 0x01 (Reg.code (.b b)) [none, none, none] none) 0) ∧
    (Clear s [.s n] [.b b] →
      let v := (s.me.regs.sreg n).toNat
      (v % 32 = 0 → Flies s (.bprepi b n) 3 (.b b ⟨v % 2 ^ 52, prefetched s (v % 2 ^ 52)⟩) [.b b]
        (s.tagOf 0x02 (Reg.code (.b b)) [some (.s n), none, none] none) 0) ∧
      (v % 32 ≠ 0 → Traps s (.bprepi b n) .align .s v))

open Sys2Proof Sys2Proof.Machine Sys2Proof.Claims in
/-- R157, R160, R450, R330: the four conditional transfers decide by their condition whether the block takes their buffer's
target, and `call` always takes it and links `s63` to the address after the block; an empty buffer traps with TARGET_EMPTY. -/
def Sys2Proof.Claims.TransferDecides : Prop :=
  ∀ (s : State),
    (∀ i b opc c taken, xferRule s i = some (b, opc, c, taken) → Clear s [c, .b b] [] →
      let tag := s.tagOf opc 0xFF [some c, some (.b b), none] none
      (∀ x, s.me.regs.breg b = some x → Does s i tag (withBlk (decided x taken))) ∧
      (s.me.regs.breg b = none → Traps s i .targetEmpty .s 0)) ∧
    (∀ b, Clear s [.b b] [.s 63] →
      let tag := s.tagOf 0x05 0x3F [none, some (.b b), none] none
      (∀ x, s.me.regs.breg b = some x → Does s (.call b) tag fun u => (withBlk (decided x true) u).fly
        (inFlight s 1 (.s 63 (BitVec.ofNat 64 ((s.cur.addr + 96) % 2 ^ 52))) [.s 63] tag 0)) ∧
      (s.me.regs.breg b = none → Traps s (.call b) .targetEmpty .s 0))

open Sys2Proof Sys2Proof.Machine Sys2Proof.Claims in
/-- R161, R365: `lmark` puts a loop state on its way, whose body is bound when the next block is entered; within a loop it traps
with LOOP_NEST. -/
def Sys2Proof.Claims.MarkLoop : Prop :=
  ∀ (i : Instr) (src : Option Reg) (count len : Nat) (s : State), i.wf = true → markRule s i = some (src, count, len) →
    (s.me.regs.loop = none → Clear s src.toList [] →
      Flies s i 1 (.loop ⟨count, 0, len, 0, false⟩) [] (s.tagOf 0x06 0xFF [src, none, none] none) 0) ∧
    (s.me.regs.loop ≠ none → Traps s i .loopNest .s 0)

open Sys2Proof Sys2Proof.Machine Sys2Proof.Claims in
/-- R164, R355: `ilock` locks the lines from its address that translate for a fetch, up to 1,024 in all, and adds no request of
its own but those of the translations; `iunlock` unlocks the lines of its range that translate for a fetch. -/
def Sys2Proof.Claims.InstructionCacheLocks : Prop :=
  ∀ (n : BitVec 6) (lines : BitVec 16) (s : State), Clear s [.s n] [] →
    let first := (s.me.regs.sreg n).toNat % 2 ^ 52 / 128
    let ok (l : Nat) : Bool := match s.access s.myUnit s.me.part (l * 128) .fetch with | .ok _ => true | .error _ => false
    Does s (.ilock n lines) (s.tagOf 0x07 0xFF [some (.s n), none, none] none) (fun u =>
      (withMe (fun k => { k with locked := lockEach ok k.locked ((List.range lines.toNat).map (first + ·)) }) u).others
        (quadOf s.cur.tile)) ∧
    Does s (.iunlock n lines) (s.tagOf 0x08 0xFF [some (.s n), none, none] none)
      (fun u => (withMe (fun k => { k with
        locked := k.locked.filter fun l => decide (l < first ∨ first + lines.toNat ≤ l) || !ok l }) u).others (quadOf s.cur.tile))

open Sys2Proof Sys2Proof.Machine Sys2Proof.Claims in
/-- R207, R446-R448: `wait` goes on once every count lies within its field; where it needs M operations, what the first of them have
left surfaces with it, a chain that has stopped at one of them among it, and a count beyond its field holds the tile. A chain
stopped beyond them does not concern it. How `st` and `ld` count is partly the model's choice (log 28). -/
def Sys2Proof.Claims.WaitGoesOn : Prop :=
  ∀ (ld st cp mx : BitVec 5) (s : State), Clear s [] [] →
    let tag := s.tagOf 0x09 0xFF [none, none, none] none
    let upto := s.me.mStarted - mx.toNat
    (∀ f, s.me.mFault = some f → mx ≠ 31 → f.idx ≤ upto →
      exec (.wait ld st cp mx) s = .next { s.lateAt f.cause f.addr f.va f.step none with fixed := s.fixed }) ∧
    ((∀ f, s.me.mFault = some f → mx = 31 ∨ upto < f.idx) →
    (within ld st cp mx s.waitCounts → mx = 31 → Does s (.wait ld st cp mx) tag id) ∧
    (within ld st cp mx s.waitCounts → mx ≠ 31 → s.me.firstLate upto = none →
      Does s (.wait ld st cp mx) tag (withMe fun k => k.surface (some upto))) ∧
    (¬ within ld st cp mx s.waitCounts → Waits s (.wait ld st cp mx) .waitOp))

open Sys2Proof Sys2Proof.Machine Sys2Proof.Claims in
/-- R145, R146, R395: outside a frame `rel` goes on at once; in timetable mode, between frames, that is the model's choice (log 75). In
a frame, the lead tile's `rel` holds until the logical tick it names, goes on at that tick, and after it charges the ticks by which
it is late to the frame; in a replay, a re-run, or where its task resumes at it, it goes on at once. -/
def Sys2Proof.Claims.ReleaseAtTick : Prop :=
  ∀ (n : BitVec 20) (s : State), Clear s [] [] →
    let tag := s.tagOf 0x0A 0xFF [none, none, none] none
    ((s.parts.getD s.me.part {}).frames = none → Does s (.rel n) tag id) ∧
    (∀ f, (s.parts.getD s.me.part {}).frames = some f → s.here.gangLead.getD s.cur.tile = s.cur.tile →
      n.toNat < f.table.len →
      let again := s.me.blk.replay = true ∨ 1 < s.me.blk.run ∨ s.me.blk.resumed = some s.cur.ord
      (again → Does s (.rel n) tag id) ∧
      (¬ again →
      let now := (s.frameOf s.me.part).2
      (now < n.toNat → Waits s (.rel n) .rel) ∧
      (now = n.toNat → Does s (.rel n) tag id) ∧
      (n.toNat < now → Does s (.rel n) tag fun u => u.charge s.me.part s.cur.tile s.cur.addr (now - n.toNat))))

open Sys2Proof Sys2Proof.Machine Sys2Proof.Claims in
/-- R349, R423, R451: `done`, `yield` and `trap` leave their end for the block's order point, and nothing else. -/
def Sys2Proof.Claims.BlockEndsHeld : Prop :=
  ∀ (i : Instr) (opc : Nat) (e : BlockEnd) (s : State), endRule i = some (opc, e) → Clear s [] [] →
    Does s i (s.tagOf opc 0xFF [none, none, none] none) (withBlk fun b => { b with ending := e })

open Sys2Proof Sys2Proof.Machine Sys2Proof.Claims in
/-- R323, R324: `brk` stops its task on the next beat with BREAKPOINT, class S, and its tag, unless a stop is due already. -/
def Sys2Proof.Claims.BreakpointStops : Prop :=
  ∀ (g : BitVec 16) (s : State), Clear s [] [] →
    Does s (.brk g) (s.tagOf 0x0E 0xFF [none, none, none] none) (withMe fun k => { k with
      stop := some (k.stop.getD (.fault .breakpoint .s s.cur.addr 0 (g.setWidth 64)))
      stopFrom := some (k.stopFrom.getD (s.cur.beat + 1))
      stopBlk := if k.stop.isSome then k.stopBlk else some k.blk.seq })

open Sys2Proof Sys2Proof.Machine Sys2Proof.Claims in
/-- R180, R356, R357: `inj` in test mode arms one corrupted read; in a replay or a re-run it arms nothing; without test mode it
traps with PRIVILEGED. -/
def Sys2Proof.Claims.InjectArms : Prop :=
  ∀ (slot step : BitVec 6) (src : BitVec 2) (d : BitVec 8) (s : State), (Instr.inj slot src d step).wf = true →
    let tag := s.tagOf 0x0F 0xFF [none, none, none] none
    let i := Instr.inj slot src d step
    (s.me.testEn = true → s.me.blk.replay = false → s.me.blk.run ≤ 1 → Clear s [] [] →
      Does s i tag (withMe fun k => { k with inj := some (armed slot step src d) })) ∧
    (s.me.testEn = true → (s.me.blk.replay = true ∨ 1 < s.me.blk.run) → Clear s [] [] → Does s i tag id) ∧
    (s.here.task.isSome = true → s.me.testEn = false → s.cur.slot = .c → Traps s i .privileged .d 0)

namespace Sys2Proof.Claims

open Machine

/-! ### The M slot (R182-R184, R332, R366-R382) -/

/-- What an operation of the M engine is when it starts: opcode, destcode, the registers it writes and reads, whether it names
a tensor, whether it reads memory, and its work with the operands captured; none where a check of its start refuses it. -/
structure MStart where
  opc : Nat
  dc : Nat
  dests : List Reg
  srcs : List (Option Reg)
  names : Bool
  fetches : Bool
  work : MWork

/-- The eight operations that enter the M queue. -/
def mRule (s : State) : Instr → Option MStart
  | .mma a tA tB c =>
    let p : BitVec 6 := 16 + 2 * c.setWidth 6
    let x := s.me.regs.sreg p
    let y := s.me.regs.sreg (p + 1)
    match s.tensor s.me.part tA.toNat, s.tensor s.me.part tB.toNat with
    | some dA, some dB =>
      if dA.rank = 2 ∧ dB.rank = 2 ∧ (mmaClass dA.fmt).isSome = true ∧ mmaClass dA.fmt = mmaClass dB.fmt
          ∧ x.extractLsb' 32 32 = y.extractLsb' 32 32 then
        some ⟨0x01, 128 + a.toNat, [.a a], [some (.a a), some (.s p), some (.s (p + 1))], true, true, .mma a a dA dB x y⟩
      else none
    | _, _ => none
  | .mzero a => some ⟨0x02, 128 + a.toNat, [.a a], [none, none, none], false, false, .mzero a⟩
  | .mload a n =>
    let va := (s.me.regs.sreg n).toNat
    if va % 128 = 0 then some ⟨0x05, 128 + a.toNat, [.a a], [some (.s n), none, none], false, true, .mload a va⟩ else none
  | .mdrain a t dq =>
    match s.tensor s.me.part t.toNat with
    | some d =>
      let q := s.me.regs.drain dq
      if (formatOf d.fmt).isSome = true ∧ codeWidth d.fmt ≤ 32 - q.reserved - q.leaving then
        some ⟨0x03, 248 + dq.toNat, [.dq dq], [some (.a a), none, none], true, false,
          .drain a d t.toNat dq ((q.head + q.reserved) % 32) (codeWidth d.fmt) s.cur.round⟩
      else none
    | none => none
  | .mdrainRed a t tile aM =>
    match s.tensor s.me.part t.toNat with
    | some d =>
      if (s.peerOf s.cur.tile s.me.part tile.toNat).isSome = true ∧ s.inRound s.me = false then
        some ⟨0x04, 0xFF, [], [some (.a a), none, none], true, false, .red a (!intFmt d.fmt) tile.toNat aM false⟩
      else none
    | none => none
  | .chrun n m =>
    let va := (s.me.regs.sreg n).toNat
    if va % 16 = 0 then some ⟨0x09, 0xFF, [], [some (.s n), some (.s m), none], false, true,
      .chain va false false (s.me.regs.sreg m) s.me.regs.bd 0 none⟩ else none
  | .chstep n =>
    let va := (s.me.regs.sreg n).toNat
    if va % 16 = 0 then some ⟨0x0A, 0xFF, [], [some (.s n), none, none], false, true,
      .chain va true false 0 s.me.regs.bd 0 (some 1)⟩ else none
  | .chstepPick n m =>
    let va := (s.me.regs.sreg n).toNat
    if va % 16 = 0 then some ⟨0x0A, 0xFF, [], [some (.s n), some (.s m), none], false, true,
      .chain va true true (s.me.regs.sreg m) s.me.regs.bd 0 (some 1)⟩ else none
  | _ => none

/-- The cause with which a check of its start refuses an operation of the M engine, and its data address (R182, R186, R191, R193,
R196, R332). -/
def mRefused (s : State) : Instr → Option (Cause × Nat)
  | .mma _ tA tB c =>
    let x := s.me.regs.sreg (16 + 2 * c.setWidth 6)
    let y := s.me.regs.sreg (16 + 2 * c.setWidth 6 + 1)
    match s.tensor s.me.part tA.toNat, s.tensor s.me.part tB.toNat with
    | some dA, some dB =>
      if dA.rank ≠ 2 ∨ dB.rank ≠ 2 then some (.mmaShape, 0)
      else if (mmaClass dA.fmt).isNone = true ∨ mmaClass dA.fmt ≠ mmaClass dB.fmt then some (.formatInvalid, 0)
      else if x.extractLsb' 32 32 ≠ y.extractLsb' 32 32 then some (.mmaShape, 0)
      else none
    | _, _ => some (.tidInvalid, 0)
  | .mload _ n => if (s.me.regs.sreg n).toNat % 128 ≠ 0 then some (.align, (s.me.regs.sreg n).toNat) else none
  | .mdrain _ t dq =>
    match s.tensor s.me.part t.toNat with
    | none => some (.tidInvalid, 0)
    | some d =>
      let q := s.me.regs.drain dq
      if formatOf d.fmt = none then some (.formatInvalid, 0)
      else if 32 - q.reserved - q.leaving < codeWidth d.fmt then some (.queueOverflow, 0)
      else none
  | .mdrainRed _ t tile _ =>
    match s.tensor s.me.part t.toNat with
    | none => some (.tidInvalid, 0)
    | some _ =>
      if s.peerOf s.cur.tile s.me.part tile.toNat = none then some (.peerAcc, 0)
      else if s.inRound s.me = true then some (.mergeConflict, 0)
      else none
  | .chrun n _ | .chstep n | .chstepPick n _ =>
    if (s.me.regs.sreg n).toNat % 16 ≠ 0 then some (.align, (s.me.regs.sreg n).toNat) else none
  | _ => none

/-- The operations of the M engine that name a tensor (R237). -/
def namesTensor : Instr → Bool
  | .mma _ _ _ _ | .mdrain _ _ _ | .mdrainRed _ _ _ _ => true
  | _ => false

/-- What starting reserves: the drain's entries of its queue (R193), in order after those reserved before. -/
def reserves (x : MStart) : State → State :=
  match x.work with
  | .drain _ d _ dq _ n _ => withRegs fun r =>
    let q := r.drain dq
    r.setDrain dq { q with
      reserved := q.reserved + n
      entries := (List.range n).foldl (fun es i => es.set ((q.head + q.reserved + i) % 32) ⟨0, d.fmt, 0⟩) q.entries }
  | _ => id

/-- The operation at the end of the M queue, numbered among the task's, with the commands that its fences name. -/
def enqueued (s : State) (x : MStart) (tag : Word32) (u : State) : State :=
  let f := if x.fetches then s.me.fenceFor pathF else ([], none)
  let m : MOp := { serial := s.serial, idx := s.me.mStarted + 1, beat := s.cur.beat, blk := s.me.blk.seq, addr := s.cur.addr
                   work := x.work, waits := f.1, waitBlk := f.2 }
  let v := withMe (fun k => { k with mq := s.me.mq ++ [m], mStarted := s.me.mStarted + 1 }) (reserves x u)
  ({ v with serial := s.serial + 1 } : State).fly (inFlight s 1 .none x.dests tag 0)

/-! ### Accesses of path O -/

/-- Nothing orders an access of path O after what has not been done: no operation waits at a slice, and no fence names
path O (R237, R240). -/
def Unordered (s : State) : Prop := s.oPending = false ∧ ∀ f ∈ s.me.fences, f.orders pathO = false

/-- What an access leaves that only reads: memory, every register of the task, what its block holds back, every other tile
and every other unit. Its own stash, its read set, the stamps of the lines it has read and the quadrants' translation
caches and counters may change. -/
structure OnlyReads (s t : State) : Prop where
  mem : t.mem = s.mem
  poison : t.poison = s.poison
  units : t.parts = s.parts ∧ t.dies = s.dies ∧ t.ports = s.ports ∧ t.dev = s.dev ∧ t.fixed = s.fixed
  flight : t.waiters = s.waiters ∧ t.launchQ = s.launchQ ∧ t.heldLines = s.heldLines ∧ t.replies = s.replies
  saved : t.saved = s.saved ∧ t.outputs = s.outputs
  regs : t.me.regs = s.me.regs ∧ t.me.ckpt = s.me.ckpt
  held : t.me.blk.held = s.me.blk.held ∧ t.me.mq = s.me.mq ∧ t.me.locks = s.me.locks
  others : ∀ u, u ≠ s.cur.tile → t.tile u = s.tile u

/-- Bytes of a size, and the effective address of R83 and R149: base plus the signed offset in units of the size, plus a gang
member's offset, modulo 2^64. -/
def size : MemSize → Nat
  | .b => 1 | .h => 2 | .w => 4 | .d => 8
def address (s : State) (base : BitVec 6) (sz : MemSize) (off : BitVec 10) : Nat :=
  (s.me.regs.sreg base + off.signExtend 64 * BitVec.ofNat 64 (size sz) + (s.me.gpos >>> 32)).toNat

/-- Bytes as a signed or unsigned number in 64 bits. -/
def extended (signed : Bool) (bs : List Byte) : Word64 :=
  if signed then (BitVec.ofNat (8 * bs.length) (leNat bs)).signExtend 64 else BitVec.ofNat 64 (leNat bs)

/-- The rows of a vector access (R439), where its format and shape fit and every row is aligned. -/
def rowsAt (s : State) (base stride : BitVec 6) : Option VecRows :=
  match s.me.vecRows (s.me.regs.sreg base) (s.me.regs.sreg stride) (stride == 0) with
  | .ok x => some x
  | .error _ => none

/-- Every row of a load, as `loadRow` finds it, with nothing missing. -/
def rowsFound (s : State) (n : Nat) (vas : List Nat) (got : List Loaded) : Prop :=
  vas.map (fun va => s.loadRow va n) = got.map .ok ∧ ∀ l ∈ got, l.missing = []

/-- Effects held back, at the operation's place in the program order of the block's held effects (R174). -/
def holdingAll (hs : List Held) (u : State) : State :=
  let n := (u.me.blk.heldAt.takeWhile fun k => decide (k.1 < u.cur.ord ∨ (k.1 = u.cur.ord ∧ k.2 ≤ u.cur.slot.code))).length
  withBlk (fun b => { b with
    held := b.held.take n ++ hs ++ b.held.drop n
    heldAt := b.heldAt.take n ++ List.replicate hs.length (u.cur.ord, u.cur.slot.code) ++ b.heldAt.drop n }) u

/-- One effect held back. -/
def holding (e : Held) : State → State := holdingAll [e]

/-- One store-buffer entry taken. -/
def oneEntry (hs : List Held) (u : State) : State := withBlk (fun b => { b with stores := b.stores + 1 }) (holdingAll hs u)

/-- A ring whose producer takes the next free slot, or whose consumer takes the next filled one (R216, R217). -/
def producerTakes (r : Ring) : Ring :=
  { r with acq := (r.acq + 1) % 2 ^ r.lcount.toNat, free := r.free - 1, heldP := r.heldP + 1, freeTags := r.freeTags.tail }
def consumerTakes (r : Ring) : Ring :=
  { r with get := (r.get + 1) % 2 ^ r.lcount.toNat, filled := r.filled - 1, heldC := r.heldC + 1, fillTags := r.fillTags.tail }

/-- The rows of a vector store with their bytes. -/
def storedRows (s : State) (x : VecRows) (v : Vec512) (m : MaskEntry) (rows : List (Bool × List Nat)) : List Held :=
  (x.vas.zip rows).zipIdx.map fun ((va, w, as), i) =>
    if w then .window s.cur.addr va (rowCells x m v i as) else .store s.cur.addr va (rowCells x m v i as)

end Sys2Proof.Claims

open Sys2Proof Sys2Proof.Machine Sys2Proof.Claims in
/-- R182-R184, R193, R332, R366-R382: the eight operations of the M engine that pass their checks enter its queue, of at most 16,
with their operands captured; the tag of their destination lands at the end of the start beat. One that fails a check traps with
its cause, and one that finds the queue full with QUEUE_OVERFLOW; a chain that has stopped surfaces at any of them. Two whose start
delays reverse their issue order enter in the order of their starts, which is the model's choice (log 84). -/
def Sys2Proof.Claims.MatrixOperationEnters : Prop :=
  ∀ (i : Instr) (s : State),
    (∀ x, mRule s i = some x → s.me.mFault = none →
      (x.names = true → s.oPending = false) → Clear s (x.srcs.filterMap id) x.dests →
      let tag := s.tagOf x.opc x.dc x.srcs none
      (s.me.mq.length < 16 → Does s i tag (enqueued s x tag)) ∧
      (16 ≤ s.me.mq.length → Traps s i .queueOverflow .s 0)) ∧
    (∀ c d, mRefused s i = some (c, d) → s.me.mFault = none → s.cur.slot = .m → (namesTensor i = true → s.oPending = false) →
      Clear s (lineageAt i s).named (lineageAt i s).dests → Traps s i c .s d) ∧
    (∀ f, ((mRule s i).isSome || (mRefused s i).isSome) = true → s.me.mFault = some f → s.here.task.isSome = true →
      exec i s = .next { s.lateAt f.cause f.addr f.va f.step none with fixed := s.fixed })

open Sys2Proof Sys2Proof.Machine Sys2Proof.Claims in
/-- R336, R337: `chset` puts 16 bits, of its register or of its field, on their way to a bond register for the end of the beat. -/
def Sys2Proof.Claims.SetBond : Prop :=
  ∀ (bd : BitVec 4) (n : BitVec 6) (v : BitVec 16) (s : State),
    (Clear s [.s n] [.bd bd] → Flies s (.chset bd n) 1 (.bd bd ((s.me.regs.sreg n).extractLsb' 0 16)) [.bd bd]
      (s.tagOf 0x08 (224 + bd.toNat) [some (.s n), none, none] none) 0) ∧
    (Clear s [] [.bd bd] → Flies s (.chsetImm bd v) 1 (.bd bd v) [.bd bd]
      (s.tagOf 0x08 (224 + bd.toNat) [none, none, none] none) 0)

open Sys2Proof Sys2Proof.Machine Sys2Proof.Claims in
/-- R83, R167, R362: `ld` of an aligned address below 2^52 whose bytes are at hand puts them, extended to 64 bits, on their way to
its register for six beats later, with the load tag; memory and everything else that it does not read stays. -/
def Sys2Proof.Claims.LoadScalar : Prop :=
  ∀ (d base : BitVec 6) (sz : MemSize) (sg : Bool) (off : BitVec 10) (x : Loaded) (s : State),
    Clear s [.s base] [.s d] → Unordered s → s.here.pairPend = [] →
    let ea := address s base sz off
    ea < 2 ^ 52 → ea % size sz = 0 → s.loadRow ea (size sz) = .ok x → x.missing = [] →
    ∃ t, exec (.ld d base sz sg off) s = .next t ∧ OnlyReads s t ∧
      t.me.blk.readSet = s.me.blk.readSet ++ x.reads ∧
      t.me.landings = s.me.landings ++
        [inFlight s 6 (.s d (extended sg x.bytes)) [.s d] (mix32 (0x10AD0000#32 ^^^ s.me.regs.tag (.s base))) 0]

open Sys2Proof Sys2Proof.Machine Sys2Proof.Claims in
/-- R83, R229: `ld` and `st` of an address of 2^52 or more trap with XLATE_NOTPRESENT, and of one that is no multiple of their size
with ALIGN, in class S with that address. -/
def Sys2Proof.Claims.UnalignedAccessTraps : Prop :=
  ∀ (d base : BitVec 6) (sz : MemSize) (sg : Bool) (off : BitVec 10) (s : State), Unordered s → s.cur.slot = .l →
    let ea := address s base sz off
    (Clear s [.s base] [.s d] →
      (2 ^ 52 ≤ ea → Traps s (.ld d base sz sg off) .xlateNotpresent .s ea) ∧
      (ea < 2 ^ 52 → ea % size sz ≠ 0 → Traps s (.ld d base sz sg off) .align .s ea)) ∧
    (Clear s [.s d, .s base] [] →
      (2 ^ 52 ≤ ea → Traps s (.st d base sz off) .xlateNotpresent .s ea) ∧
      (ea < 2 ^ 52 → ea % size sz ≠ 0 → Traps s (.st d base sz off) .align .s ea))

open Sys2Proof Sys2Proof.Machine Sys2Proof.Claims in
/-- R439: `vld` reads every row under `cr.vshape` and puts the active elements on their way to its register. -/
def Sys2Proof.Claims.LoadVector : Prop :=
  ∀ (v : BitVec 5) (base stride : BitVec 6) (x : VecRows) (got : List Loaded) (s : State),
    Clear s [.s base, .s stride] [.v v] → Unordered s → s.here.pairPend = [] →
    rowsAt s base stride = some x → rowsFound s x.bytes x.vas got →
    ∃ t, exec (.vld v base stride) s = .next t ∧ OnlyReads s t ∧
      t.me.blk.readSet = s.me.blk.readSet ++ (got.map (·.reads)).flatten ∧
      t.me.landings = s.me.landings ++
        [inFlight s 6 (.v v (bytesVec (got.map (·.bytes)).flatten) (activeBits (s.me.regs.top .va) x.w (x.vas.length * x.cols)))
          [.v v] (mix32 (0x10AD0000#32 ^^^ s.me.regs.tag (.s base))) 0]

open Sys2Proof Sys2Proof.Machine Sys2Proof.Claims in
/-- R174, R212, R223, R253: what one byte of a load is: the store of an earlier bundle that the block has buffered, where there is one; otherwise the byte of
memory at a memory-side page, and elsewhere the byte of the stash's line, where that serves. -/
def Sys2Proof.Claims.LoadSees : Prop :=
  ∀ (s : State) (va : Nat) (l : Leaf), va < 2 ^ 52 → inWindow va = false →
    s.access s.myUnit s.me.part va .read = .ok l → l.c = false → isCtrl l.pa = false → s.me.priv = [] →
    (l.ms = true → s.poisoned (lineOf l.pa) = false →
      ∃ x, s.loadRow va 1 = .ok x ∧ x.missing = [] ∧
        x.bytes = [(s.me.buffered s.cur.ord false l.pa).getD (Memory.read s.mem l.pa)]) ∧
    (∀ y, l.ms = false → s.here.lineAt (lineOf l.pa) = some y → y.st ≠ .poisoned → y.serves s.here.clock s.me.blk.run = true →
      ∃ x, s.loadRow va 1 = .ok x ∧ x.missing = [] ∧
        x.bytes = [(s.me.buffered s.cur.ord false l.pa).getD (lineByte y.data (l.pa % 128))])

open Sys2Proof Sys2Proof.Machine Sys2Proof.Claims in
/-- R174, R415: `st` takes one entry of the block's store buffer for the bytes at its address, and nothing else of the machine
changes before the block's order point. -/
def Sys2Proof.Claims.StoreScalar : Prop :=
  ∀ (n base : BitVec 6) (sz : MemSize) (off : BitVec 10) (win : Bool) (as : List Nat) (s : State),
    Clear s [.s n, .s base] [] → Unordered s →
    let ea := address s base sz off
    ea < 2 ^ 52 → ea % size sz = 0 → s.storeRow ea (size sz) = .ok (win, as) → s.bufferRoom = true →
    let cs := as.zip (leBytes (size sz) (s.me.regs.sreg n).toNat)
    Does s (.st n base sz off) (s.tagOf 0x02 0xFF [some (.s n), some (.s base), none] none)
      (oneEntry [if win then .window s.cur.addr ea cs else .store s.cur.addr ea cs])

open Sys2Proof Sys2Proof.Machine Sys2Proof.Claims in
/-- R174, R439: `vst` takes one entry for the active elements of every row. -/
def Sys2Proof.Claims.StoreVector : Prop :=
  ∀ (v : BitVec 5) (base stride : BitVec 6) (x : VecRows) (rows : List (Bool × List Nat)) (s : State),
    Clear s [.v v, .s base, .s stride] [] → Unordered s → rowsAt s base stride = some x →
    x.vas.map (fun va => s.storeRow va x.bytes) = rows.map .ok → s.bufferRoom = true →
    Does s (.vst v base stride) (s.tagOf 0x04 0xFF [some (.v v), some (.s base), some (.s stride)] none)
      (oneEntry (storedRows s x (s.me.regs.vreg v) (s.me.regs.top .va) rows))

open Sys2Proof Sys2Proof.Machine Sys2Proof.Claims in
/-- R195, R417: `stq` pops its drain queue's oldest entry, keeps its place occupied, and holds the entry for the tensor's elements
that it covers. -/
def Sys2Proof.Claims.StoreDrainEntry : Prop :=
  ∀ (dq : BitVec 2) (t : BitVec 10) (c : BitVec 6) (d : Desc) (s : State), Clear s [.dq dq, .s c] [] → Unordered s →
    s.tensor s.me.part t.toNat = some d →
    let q := s.me.regs.drain dq
    let e := q.entries.getD q.head {}
    let row := ((s.me.regs.sreg c).extractLsb' 32 32).toNat
    let col := ((s.me.regs.sreg c).extractLsb' 0 32).toNat
    let xs := entryElems d e row col
    0 < q.reserved → 0 < q.filled → e.fmt = d.fmt → d.rank = 2 → d.writable = true →
    (d.compressed = true → d.strideOf 0 = 1 ∧ d.strideOf 1 = 64 ∧ col = 0 ∧ row % entryRows d.width = 0) →
    (∀ va ∈ entryBytes d xs, ∃ l, s.access s.myUnit s.me.part va .write = .ok l ∧ (isCtrl l.pa && ctrlPrivileged l.pa) = false) →
    s.inRound s.me = false →
    Does s (.stq dq t c) (s.tagOf 0x05 0xFF [some (.dq dq), some (.s c), none] none) fun u =>
      holding (.entry s.cur.addr dq d e row col (s.wcWait s.me.part d) (s.entryCells s.me d xs))
        (withRegs (fun r => r.setDrain dq { poppedQueue (r.drain dq) with leaving := (r.drain dq).leaving + 1 }) u)

open Sys2Proof Sys2Proof.Machine Sys2Proof.Claims in
/-- R216, R217, R394: `racq` and `rget` take the next slot of their ring and put its address, with the slot's tag, on their way for
six beats later; `rpub` and `rrel` hold the publication or release of a slot that is held. An empty or full ring holds the tile,
and the wrong side or a disabled ring traps with RING_CONFIG. -/
def Sys2Proof.Claims.RingOperations : Prop :=
  ∀ (d : BitVec 6) (g : BitVec 3) (s : State),
    let r := s.me.regs.ring g
    let n := 2 ^ r.lcount.toNat
    let slot (i : Nat) : Wr := .s d (BitVec.ofNat 64 (0xFFFFFFFF00000 + r.base.toNat * 128 + (i % n) * 2 ^ r.lslot.toNat))
    (Clear s [.g g] [.s d] →
      let acq := s.tagOf 0x06 d.toNat [some (.g g), none, none] none
      let get := s.tagOf 0x08 d.toNat [some (.g g), none, none] none
      (r.en = true → r.millP = false → 0 < r.free → Does s (.racq d g) acq fun u =>
        (withRegs (fun x => x.setRing g (producerTakes (x.ring g))) u).fly
          (inFlight s 6 (slot r.acq) [.s d] (r.freeTags.headD 0) 0)) ∧
      (r.en = true → r.millC = false → 0 < r.filled → Does s (.rget d g) get fun u =>
        (withRegs (fun x => x.setRing g (consumerTakes (x.ring g))) u).fly
          (inFlight s 6 (slot r.get) [.s d] (r.fillTags.headD 0) 0)) ∧
      (r.en = true → r.millP = false → r.free = 0 → Waits s (.racq d g) .ringFull) ∧
      (r.en = true → r.millC = false → r.filled = 0 → Waits s (.rget d g) .ringEmpty) ∧
      ((r.en = false ∨ r.millP = true) → Traps s (.racq d g) .ringConfig .s 0) ∧
      ((r.en = false ∨ r.millC = true) → Traps s (.rget d g) .ringConfig .s 0)) ∧
    (Clear s [.g g] [] →
      (r.en = true → r.millP = false → s.me.heldOn g true < r.heldP →
        Does s (.rpub g) (s.tagOf 0x07 0xFF [some (.g g), none, none] none) (holding (.publish g))) ∧
      (r.en = true → r.millC = false → s.me.heldOn g false < r.heldC →
        Does s (.rrel g) (s.tagOf 0x09 0xFF [some (.g g), none, none] none) (holding (.release g))) ∧
      (r.heldP ≤ s.me.heldOn g true → Traps s (.rpub g) .ringConfig .s 0) ∧
      (r.heldC ≤ s.me.heldOn g false → Traps s (.rrel g) .ringConfig .s 0))

open Sys2Proof Sys2Proof.Machine Sys2Proof.Claims in
/-- R214, R401: `sflush` and `sinv` hold the write-back or invalidation of their lines to the block's order point. -/
def Sys2Proof.Claims.StashMaintenanceHeld : Prop :=
  ∀ (base : BitVec 6) (lines : BitVec 14) (s : State), Clear s [.s base] [] →
    let va := (s.me.regs.sreg base).toNat / 128 * 128
    Does s (.sflush base lines) (s.tagOf 0x0A 0xFF [some (.s base), none, none] none) (holding (.flush va lines.toNat)) ∧
    Does s (.sinv base lines) (s.tagOf 0x0B 0xFF [some (.s base), none, none] none) (holding (.inval va lines.toNat))

namespace Sys2Proof.Claims

open Machine

/-! ### The D slot (R237, R240-R251, R255-R270, R296, R311) -/

/-- The tag of a D-slot operation, from the lineage of its reference entry (R72, R166). -/
def tagD (s : State) (i : Instr) : Word32 := s.tagOf (dSpec i).opc (destcodeOf (dSpec i).dest) (dSpec i).srcs none

/-- Nothing holds back the start of a D-slot operation. -/
def ClearD (s : State) (i : Instr) : Prop := Clear s ((dSpec i).srcs.filterMap id ++ dMore i) (dSpec i).dest.toList

/-- A fault of class K of an operation that R69 places at step 2: it has no effect (R278, R311). -/
def Skips (s : State) (i : Instr) (c : Cause) (data : Nat) : Prop :=
  exec i s = .next { s.skipAt c data with fixed := s.fixed }

/-- The word of a counter: 8-byte aligned on a memory-side page that the task may use, and not poisoned (R243). -/
structure Counter (s : State) (va : Nat) (need : Need) (l : Leaf) : Prop where
  aligned : va % 8 = 0
  mapped : s.access s.myUnit s.me.part va need = .ok l
  side : l.ms = true
  clean : s.cohPoisoned (lineOf l.pa) = false

/-- The next serial number is taken. -/
def numbered (u : State) : State := { u with serial := u.serial + 1 }

/-- The destination of a value-returning operation locked until its value arrives; `s0` locks nothing (R53). -/
def locking (d : BitVec 6) (tag : Word32) (line : Option Nat) (u : State) : State :=
  if d = 0 then u
  else withMe (fun k => { k with locks := k.locks ++ [{
    reg := d, serial := u.serial, blk := k.blk.seq, ord := u.cur.ord, beat := u.cur.beat, tag := tag, value := none
    line := line }] }) (numbered u)

/-- The serial number of that lock, 0 for none. -/
def lockNo (s : State) (d : BitVec 6) : Nat := if d = 0 then 0 else s.serial

/-- A value of a slice on its way to a lock. -/
def replying (s : State) (n : Nat) (v : Word64) (u : State) : State :=
  if n = 0 then u
  else { u with replies := u.replies ++ [⟨u.serial, s.cur.tile, n, 0, v⟩], serial := u.serial + 1 }

/-- A change of one partition. -/
def withPart (p : Nat) (f : Part → Part) (u : State) : State := { u with parts := updAt u.parts p f }

/-- A command in the tile's copy engine. -/
def copying (s : State) (c : CopyCmd) (u : State) : State := u.modTile s.cur.tile fun x => { x with copyQ := x.copyQ ++ [c] }

/-- A send on its way from the tile. -/
def sending (s : State) (m : Send) (u : State) : State := u.modTile s.cur.tile fun x => { x with sends := x.sends ++ [m] }

/-- The effects of a block with the bytes of a stream, from a place in it, given to its receives of one channel in program order
(R392). -/
def streamed (port ch : Nat) (skew : List Byte) : Nat → List Held → List Held
  | _, [] => []
  | n, h :: rest => match h with
    | .take b p c l va cs =>
      if p = port ∧ c = ch then
        .take b p c l va ((cs.map (·.1)).zip ((skew.drop n).take l)) :: streamed port ch skew (n + l) rest
      else h :: streamed port ch skew n rest
    | _ => h :: streamed port ch skew n rest

/-- The blocks that a mill moves: from the first it names, the number it names, or all there are (R268). -/
def millBlocks (d : Desc) (slot : Nat) (v : Word64) : Nat × Nat :=
  let first := (v.extractLsb' 0 32).toNat
  let n := (v.extractLsb' 32 32).toNat
  let all := d.blocks slot
  (first, if n = 0 then all - first else min n (all - first))

/-- What a fence of R240 records: the after paths wait for the commands of the before paths, and the paths but O for the
O accesses of the block, which its order point performs. -/
def fencing (s : State) (before after : BitVec 6) (u : State) : State :=
  let fromO : Bool := before &&& pathO != 0#6
  let own : Option Nat := if fromO then some s.me.blk.seq else none
  let v := withMe (fun k => { k with
    fences := (s.me.fences.filter fun f => f.orders pathO || !s.cleared f.waits f.waitBlk s.me)
      ++ [⟨after, s.fenceWaits before, none, s.me.blk.seq⟩, ⟨after &&& ~~~pathO, [], own, s.me.blk.seq⟩]
    blk := { k.blk with hasFenceO := k.blk.hasFenceO || fromO } }) u
  if fromO then v.writeBackAll s.me.part else v

end Sys2Proof.Claims

open Sys2Proof Sys2Proof.Machine Sys2Proof.Claims in
/-- R243, R326-R328: `cadd`, outside a merge round, sends its add to the counter's home slice; a misaligned counter is skipped with
COUNTER_ALIGN, class K. -/
def Sys2Proof.Claims.CounterAdd : Prop :=
  ∀ (i : Instr) (a : BitVec 6) (v : Word64) (l : Leaf) (s : State), ClearD s i → Unordered s →
    ((∃ n, i = .cadd a n ∧ v = s.me.regs.sreg n) ∨ ∃ m : BitVec 13, i = .caddImm a m ∧ v = m.setWidth 64) →
    let va := (s.me.regs.sreg a).toNat
    (va % 8 = 0 → s.access s.myUnit s.me.part va .write = .ok l → l.ms = true →
      (isCtrl l.pa && ctrlPrivilegedIn l.pa 8) = false → s.inRound s.me = false →
      Does s i (tagD s i) fun u => u.arrive s.me.part l.pa (.add (some s.cur.tile) v) va) ∧
    (va % 8 ≠ 0 → Skips s i .counterAlign va)

open Sys2Proof Sys2Proof.Machine Sys2Proof.Claims in
/-- R241, R243: an add that reaches a counter whose line nothing holds writes the partition's dirty lines back, leaves the
saturating sum in its eight bytes, and every other byte of memory as it was. -/
def Sys2Proof.Claims.CounterAddInMemory : Prop :=
  ∀ (s : State) (p pa tile va : Nat) (n : Word64), Memory.wf s.mem = true → pa % 8 = 0 → pa + 8 ≤ ctrlBase →
    s.lineHeld (some tile) (lineOf pa) = false → (s.dirLine (lineOf pa)).owner = none → s.cohPoisoned (lineOf pa) = false →
    let w := s.writeBackAll p
    let t := s.arrive p pa (.add (some tile) n) va
    leNat (Memory.range t.mem pa 8) = min (leNat (Memory.range w.mem pa 8) + n.toNat) (2 ^ 64 - 1) ∧
    ∀ a, (a < pa ∨ pa + 8 ≤ a) → Memory.read t.mem a = Memory.read w.mem a

open Sys2Proof Sys2Proof.Machine Sys2Proof.Claims in
/-- R174, R235, R253, R342-R344: `cread` reads its counter's word as the slice holds it, outside a merge round under the stores that
earlier bundles of its block have buffered, enters the counter with the stamp of its last write in the read set, and its value is on its way to the
register that it locks. -/
def Sys2Proof.Claims.CounterRead : Prop :=
  ∀ (d a : BitVec 6) (l : Leaf) (s : State), ClearD s (.cread d a) → Unordered s → s.here.pairPend = [] →
    let va := (s.me.regs.sreg a).toNat
    let line := lineOf l.pa
    Counter s va .read l →
    Does s (.cread d a) (tagD s (.cread d a)) fun u =>
      let word := l.pa % 128 / 8
      let v := withBlk (fun b => { b with readSet := b.readSet ++
        [{ line := line, wts := (assoc (s.dirLine line).words word).getD 0, side := true, word := some word }] }) u
      let seen := (s.lowBytes l.pa 8).zipIdx.map fun (b, i) =>
        if s.inRound s.me then b else (s.me.buffered s.cur.ord false (l.pa + i)).getD b
      replying s (lockNo s d) (BitVec.ofNat 64 (leNat seen))
        (locking d (tagD s (.cread d a)) (some line) (v.readSide s.cur.tile line))

open Sys2Proof Sys2Proof.Machine Sys2Proof.Claims in
/-- R345-R347: `cwait` leaves for the counter's slice with its counter, target, save masks and resume target; a misaligned counter or
an empty buffer is skipped with its cause. -/
def Sys2Proof.Claims.CounterWait : Prop :=
  ∀ (a t m : BitVec 6) (b : BitVec 3) (s : State), ClearD s (.cwait a t m b) → Unordered s →
    let i := Instr.cwait a t m b
    let va := (s.me.regs.sreg a).toNat
    (∀ x l, va % 8 = 0 → s.access s.myUnit s.me.part va .read = .ok l → l.ms = true → s.me.regs.breg b = some x →
      Does s i (tagD s i) (withBlk fun k => { k with eState := .cwaitSent ⟨va, l.pa, s.me.regs.sreg t, s.me.regs.sreg m, s.me.regs.sreg (m + 1), x.addr⟩ })) ∧
    (va % 8 ≠ 0 → Skips s i .counterAlign va) ∧
    (va % 8 = 0 → s.me.regs.breg b = none → Skips s i .targetEmpty va)

open Sys2Proof Sys2Proof.Machine Sys2Proof.Claims in
/-- R246, R312-R315: `amo`, outside a merge round, locks its destination and reaches its slice with its operands; on a line that L2
caches it is one request of the tile. -/
def Sys2Proof.Claims.Atomic : Prop :=
  ∀ (op : AmoOp) (wide : Bool) (d a n : BitVec 6) (l : Leaf) (s : State),
    let i := Instr.amo op wide d a n
    ClearD s i → Unordered s →
    let va := (s.me.regs.sreg a).toNat
    let y := if op = .cas then s.me.regs.sreg (n + 1) else 0
    let w := if wide then 8 else 4
    va % w = 0 → s.access s.myUnit s.me.part va .both = .ok l → l.c = false →
    (isCtrl l.pa && ctrlPrivilegedIn l.pa w) = false → s.inRound s.me = false →
    Does s i (tagD s i) fun u => (locking d (tagD s i) none u).arrive s.me.part l.pa
      (.amo s.cur.tile (lockNo s d) op wide (s.me.regs.sreg n) y) va (!(l.ms || isCtrl l.pa))

open Sys2Proof Sys2Proof.Machine Sys2Proof.Claims in
/-- R85, R246: an atomic on eight bytes, or four, that reaches a line which nothing holds and no stash owns leaves the result of its
operation there and every other byte of memory as it was, and answers the old value; a `cas` that fails writes nothing. -/
def Sys2Proof.Claims.AtomicInMemory : Prop :=
  ∀ (s : State) (pa : Nat) (op : AmoOp) (wide : Bool) (x y : Word64), Memory.wf s.mem = true →
    let n := if wide then 8 else 4
    pa % n = 0 → pa + n ≤ ctrlBase → (s.dirLine (lineOf pa)).owner = none →
    let r := s.amoAt pa op wide x y
    let old := leNat (Memory.range s.mem pa n)
    let xs := BitVec.ofNat (8 * n) x.toNat
    let os := BitVec.ofNat (8 * n) old
    r.1 = old ∧
    (∀ a, (a < pa ∨ pa + n ≤ a) → Memory.read r.2.mem a = Memory.read s.mem a) ∧
    leNat (Memory.range r.2.mem pa n) = (match op with
      | .add => os + xs
      | .min => if xs.slt os then xs else os
      | .max => if os.slt xs then xs else os
      | .minu => if xs < os then xs else os
      | .maxu => if os < xs then xs else os
      | .band => os &&& xs
      | .bor => os ||| xs
      | .bxor => os ^^^ xs
      | .swap => xs
      | .cas => if os = BitVec.ofNat (8 * n) y.toNat then xs else os).toNat

open Sys2Proof Sys2Proof.Machine Sys2Proof.Claims in
/-- R247, R316-R319: `amoc`, outside a merge round, whose template is a valid record, locks its destination and reaches its slice with
the condition, the operand and the record. -/
def Sys2Proof.Claims.AtomicConditional : Prop :=
  ∀ (op : AmoOp) (cc : Cond) (d a n : BitVec 6) (l : Leaf) (r : Record) (s : State),
    let i := Instr.amoc op cc d a n
    ClearD s i → Unordered s →
    let va := (s.me.regs.sreg a).toNat
    va % 8 = 0 → s.access s.myUnit s.me.part va .both = .ok l → l.ms = true → l.c = false →
    (isCtrl l.pa && ctrlPrivilegedIn l.pa 8) = false → s.inRound s.me = false →
    s.template s.myUnit s.me.part (s.me.regs.sreg (n + 1)).toNat = .ok r →
    Does s i (tagD s i) fun u => (locking d (tagD s i) none u).arrive s.me.part l.pa
      (.amoc s.cur.tile (lockNo s d) op cc (s.me.regs.sreg n) r) va

open Sys2Proof Sys2Proof.Machine Sys2Proof.Claims in
/-- R260, R338-R341: `cpy`, outside a merge round, between two tensors that do not overlap joins the tile's copy engine with both
descriptors, the rounding mode and its counter; a tensor id that names nothing is skipped with TID_INVALID. -/
def Sys2Proof.Claims.CopyJoins : Prop :=
  ∀ (tD tS : BitVec 10) (c : BitVec 6) (s : State),
    let i := Instr.cpy tD tS c
    ClearD s i → s.oPending = false → s.inRound s.me = false →
    let va := (s.me.regs.sreg c).toNat
    (∀ d e, s.tensor s.me.part tD.toNat = some d → s.tensor s.me.part tS.toNat = some e → d.writable = true →
      d.overlaps e = false → (c = 0 ∨ ∃ l, va % 8 = 0 ∧ s.access s.myUnit s.me.part va .write = .ok l ∧ l.ms = true) →
      s.cpCount < 16 →
      let f := s.me.fenceFor pathC
      Does s i (tagD s i) fun u => copying s
        { serial := s.serial, part := s.me.part, dst := d, src := e, counter := if c = 0 then none else some va
          round := s.me.regs.round, wcw := s.wcWait s.me.part d, waits := f.1, waitBlk := f.2
          owner := s.me.record.taskid.toNat, tids := tS.setWidth 48 ++ 0#6 ++ tD } (numbered u)) ∧
    ((s.tensor s.me.part tD.toNat = none ∨ s.tensor s.me.part tS.toNat = none) → Skips s i .tidInvalid 0)

open Sys2Proof Sys2Proof.Machine Sys2Proof.Claims in
/-- R268, R378-R380: `msub` and `mret`, outside a merge round, attach a mill to the producer or consumer side of an enabled ring that
nothing holds, for the blocks that their register names. -/
def Sys2Proof.Claims.MillAttaches : Prop :=
  ∀ (push : Bool) (g : BitVec 3) (t : BitVec 10) (n : BitVec 6) (d : Desc) (s : State),
    let i := if push then Instr.msub g t n else Instr.mret g t n
    ClearD s i → s.oPending = false → s.inRound s.me = false → s.tensor s.me.part t.toNat = some d →
    let r := s.me.regs.ring g
    let slot := 2 ^ r.lslot.toNat
    r.en = true → (if push then r.millP else r.millC) = false → (if push then r.heldP else r.heldC) = 0 →
    slot * 8 % d.width = 0 → (push = true ∨ d.writable = true) → s.cpCount < 16 →
    let b := millBlocks d slot (s.me.regs.sreg n)
    0 < b.2 →
    let w := s.me.fenceFor pathM
    Does s i (tagD s i) fun u => withRegs
      (fun x => x.setRing g (if push then { x.ring g with millP := true } else { x.ring g with millC := true }))
      (withMe (fun k => { k with
        mills := k.mills ++ [{ serial := s.serial, part := s.me.part, g := g, push := push, desc := d
                               die := match s.access s.myUnit s.me.part d.base .read with
                                 | .ok l => homeDie l.pa
                                 | .error _ => quadOf s.cur.tile
                               next := b.1, left := b.2, wcw := s.wcWait s.me.part d, tid := t.toNat, waits := w.1, waitBlk := w.2 }] })
        (numbered u))

open Sys2Proof Sys2Proof.Machine Sys2Proof.Claims in
/-- R240, R250, R251, R375-R377: `mred`, outside a merge round, whose parameter block is valid joins the reduction engine that serves
the home base die of its destination; behind a fence that has not let path M through, where that engine holds its 64 commands, or
behind another that has still to be taken, it waits, its block unread. -/
def Sys2Proof.Claims.ReductionJoins : Prop :=
  ∀ (p c : BitVec 6) (bs : List Byte) (x : ReduceParam) (l m : Leaf) (s : State),
    let i := Instr.mred p c
    ClearD s i → s.inRound s.me = false →
    let va := (s.me.regs.sreg p).toNat
    let ctr := (s.me.regs.sreg c).toNat
    let w := s.me.fenceFor pathM
    let named := if c = 0 then none else some ctr
    (c = 0 ∨ ∃ l, Counter s ctr .write l) →
    s.access s.myUnit s.me.part va .read = .ok l →
    s.access s.myUnit s.me.part (leNat (s.cohBytes l.pa 8)) .write = .ok m →
    let die := s.engineDie .reduction (homeDie m.pa)
    let unit := s.dieQuad die s.me.part
    let there := (s.dies.getD die {}).reduceQ.length + (s.dies.getD die {}).reduceHalted.length
    let behind : Bool := s.cleared w.1 w.2 s.me
    (behind = true → there < 64 → (∀ a ∈ s.asks, s.reduceGoes a = false) → va % 64 = 0 → s.engBytes unit s.me.part none va 192 = .ok bs →
      reduceParamOf bs = some x → x.clash = false →
      (∀ a ∈ x.dst :: x.srcs, s.compressedIn unit s.me.part a (4 * x.count) = false) →
      let cmd : ReduceCmd :=
        { serial := s.serial, part := s.me.part, tile := s.cur.tile, owner := s.me.record.taskid.toNat, dst := x.dst
          count := x.count, srcs := x.srcs, addVal := x.addVal, counter := named, waits := w.1, waitBlk := w.2 }
      Does s i (tagD s i) fun u =>
        { numbered u with dies := updAt u.dies die fun y => { y with reduceQ := y.reduceQ ++ [cmd] } }) ∧
    ((behind = false ∨ 64 ≤ there ∨ ∃ a ∈ s.asks, s.reduceGoes a = true) → Does s i (tagD s i) fun u =>
      { numbered u with asks := u.asks ++ [
        { serial := s.serial, part := s.me.part, tile := s.cur.tile, owner := s.me.record.taskid.toNat, va := va
          counter := named, addr := s.cur.addr, waits := w.1, waitBlk := w.2 }] })

open Sys2Proof Sys2Proof.Machine Sys2Proof.Claims in
/-- R87, R240, R352, R353: `fence` orders its after paths behind the commands of its before paths that have not completed and behind the
stores of its block; one whose before set names no access of a tile, or whose after set is empty, orders nothing. That one that
names O first writes the partition's dirty lines back is the model's choice (log 10). -/
def Obligations.FenceOrders : Prop :=
  ∀ (before after : BitVec 6) (s : State), ClearD s (.fence before after) →
    (before &&& 0x3E ≠ 0 → after ≠ 0 →
      Does s (.fence before after) (tagD s (.fence before after)) (fencing s before after)) ∧
    ((before &&& 0x3E = 0 ∨ after = 0) → Does s (.fence before after) (tagD s (.fence before after)) id)

open Sys2Proof Sys2Proof.Machine Sys2Proof.Claims in
/-- R112, R121, R409, R410: `spawn`, outside a merge round, of a valid record completes it with the next task id and the depth below
its own, and places it in a general slot, else in the reserved slot of its depth, else holds. The stamp it enters with is the model's
choice (log 11). -/
def Sys2Proof.Claims.SpawnPlaces : Prop :=
  ∀ (a : BitVec 6) (l : Leaf) (s : State),
    let i := Instr.spawn a
    ClearD s i → Unordered s →
    let va := (s.me.regs.sreg a).toNat
    let bs := (List.range 64).map fun i => (s.me.privByte (va + i)).getD (s.cohByte (l.pa + i))
    let d : BitVec 4 := if s.me.record.depth = 15 then 15 else s.me.record.depth + 1
    let r := { recordOf bs with depth := d, errand := false, raf := false, taskid := (s.parts.getD s.me.part {}).nextId }
    va % 64 = 0 → s.access s.myUnit s.me.part va .read = .ok l → s.cohPoisoned (lineOf l.pa) = false →
    s.recordOk s.me.part bs = true → s.inRound s.me = false →
    let place (slot : SlotKind) (u : State) : State :=
      let v := (withPart s.me.part (fun x => { x with nextId := x.nextId + 1 }) u).groupsUpdate s.me.part r.groups true
      v.enterCommons s.me.part r slot v.clockMax
    (s.generalFree s.me.part = true → Does s i (tagD s i) (place .general)) ∧
    (s.generalFree s.me.part = false → s.reservedFree s.me.part d = true → Does s i (tagD s i) (place (.reserved d))) ∧
    (s.generalFree s.me.part = false → s.reservedFree s.me.part d = false → Waits s i .spawn)

open Sys2Proof Sys2Proof.Machine Sys2Proof.Claims in
/-- R125, R358-R360: outside a merge round `join` enters a group in the task's first free place and counts it, `leave` clears its place
and counts it out; joining twice, or leaving a group that the task is not in, does nothing; an invalid number, and a join
with no free place, is skipped with GROUP_INVALID. -/
def Sys2Proof.Claims.GroupMembership : Prop :=
  ∀ (g : BitVec 16) (s : State), Unordered s → s.inRound s.me = false →
    let gs := s.me.record.groups
    let put (up : Bool) (n : Nat) (x : BitVec 16) (u : State) : State :=
      (withMe (fun k => { k with record := { k.record with groups := gs.set n x } }) u).groupFrom s.me.part s.cur.tile g.toNat up
    (ClearD s (.join g) →
      (∀ n, g ≠ 0 → g.toNat < 4096 → g ∉ gs → gs.findIdx? (· == 0) = some n →
        Does s (.join g) (tagD s (.join g)) (put true n g)) ∧
      (g ≠ 0 → g.toNat < 4096 → g ∈ gs → Does s (.join g) (tagD s (.join g)) id) ∧
      ((g = 0 ∨ 4096 ≤ g.toNat ∨ (g ∉ gs ∧ (0 : BitVec 16) ∉ gs)) → Skips s (.join g) .groupInvalid 0)) ∧
    (ClearD s (.leave g) →
      (∀ n, g ≠ 0 → g.toNat < 4096 → gs.findIdx? (· == g) = some n →
        Does s (.leave g) (tagD s (.leave g)) (put false n 0)) ∧
      (g ≠ 0 → g.toNat < 4096 → g ∉ gs → Does s (.leave g) (tagD s (.leave g)) id) ∧
      ((g = 0 ∨ 4096 ≤ g.toNat) → Skips s (.leave g) .groupInvalid 0))

open Sys2Proof Sys2Proof.Machine Sys2Proof.Claims in
/-- R255, R258, R259, R418, R419: `tdef` of a valid descriptor in memory enters it in the partition's table and clears the tensor's
running scale offset; `tdrop` takes the entry out. -/
def Sys2Proof.Claims.TensorTable : Prop :=
  ∀ (t : BitVec 10) (d : BitVec 6) (pas : List (Nat × Leaf)) (s : State), Unordered s →
    (ClearD s (.tdef t d) →
      let va := (s.me.regs.sreg d).toNat
      va % 8 = 0 → s.accessRange s.myUnit s.me.part va 96 .read = .ok pas →
      (∀ x ∈ pas, s.cohPoisoned (lineOf x.1) = false) →
      let bs := pas.zipIdx.map fun (x, i) => (s.me.privByte (va + i)).getD (s.cohByte x.1)
      descCheck bs = none →
      Does s (.tdef t d) (tagD s (.tdef t d)) fun u => withPart s.me.part
        (fun p => { p with tensors := assocSet p.tensors t.toNat (descOf bs) })
        (withRegs (fun r => r.setScale t.toNat 0) u)) ∧
    (ClearD s (.tdrop t) → Does s (.tdrop t) (tagD s (.tdrop t))
      (withPart s.me.part fun p => { p with tensors := p.tensors.filter fun x => x.1 != t.toNat }))

open Sys2Proof Sys2Proof.Machine Sys2Proof.Claims in
/-- R194, R296, R389, R390: `nsend` and `nsendq`, outside a merge round, that pass the checks of R296 leave a send on the tile; the
first keeps its address for its port to read, the second pops its drain queue and takes its bytes along; each waits for the fences
that name path N. -/
def Sys2Proof.Claims.SendLeaves : Prop :=
  ∀ (port ch : BitVec 5) (a l : BitVec 6) (dq : BitVec 2) (s : State), s.inRound s.me = false →
    (s.here.sends.filter fun m => m.data.isNone).length < 16 →
    (ClearD s (.nsend port ch a l) →
      let va := (s.me.regs.sreg a).toNat
      let n := ((s.me.regs.sreg l).extractLsb' 0 32).toNat
      let w := s.me.fenceFor pathN
      ∀ pas, s.netCheck port.toNat ch.toNat va n false false = none →
      s.accessRange s.myUnit s.me.part va n .read = .ok pas → (∀ p ∈ pas, p.2.c = false) →
      Does s (.nsend port ch a l) (tagD s (.nsend port ch a l)) fun u => sending s
        { serial := s.serial, task := s.me.record.taskid, tile := s.cur.tile, port := port.toNat, ch := ch.toNat, va := va
          len := n, data := none, part := s.me.part, addr := s.cur.addr, waits := w.1, waitBlk := w.2 } (numbered u)) ∧
    (ClearD s (.nsendq port ch dq) →
      let q := s.me.regs.drain dq
      let w := s.me.fenceFor pathN
      s.netCheck port.toNat ch.toNat 0 512 false true = none → 0 < q.reserved → 0 < q.filled →
      Does s (.nsendq port ch dq) (tagD s (.nsendq port ch dq)) fun u => sending s
        { serial := s.serial, task := s.me.record.taskid, tile := s.cur.tile, port := port.toNat, ch := ch.toNat, va := 0
          len := 512, data := some (vecBytes (q.entries.getD q.head {}).data), part := s.me.part, addr := s.cur.addr
          waits := w.1, waitBlk := w.2 }
        (numbered (withRegs (fun r => r.setDrain dq (poppedQueue (r.drain dq))) u)))

open Sys2Proof Sys2Proof.Machine Sys2Proof.Claims in
/-- R391, R392: `nrecv`, outside a merge round, that passes the checks takes its channel, and the block's `nrecv` operations on it have the
next bytes of its stream in program order, to be written at the block's order point; with too few bytes there it holds, and a channel that another task holds traps with NET_PORT; a ring's
window takes none. -/
def Sys2Proof.Claims.ReceiveTakes : Prop :=
  ∀ (port ch : BitVec 5) (a l : BitVec 6) (pas : List Nat) (s : State),
    let i := Instr.nrecv port ch a l
    ClearD s i → Unordered s → s.inRound s.me = false →
    let va := (s.me.regs.sreg a).toNat
    let n := ((s.me.regs.sreg l).extractLsb' 0 32).toNat
    let c := s.chan port.toNat ch.toNat
    let me := s.me.record.taskid.toNat
    let key := port.toNat * 32 + ch.toNat
    let rp := s.me.regs.taken key
    s.netCheck port.toNat ch.toNat va n true false = none →
    ((c.holder = none ∨ c.holder = some me) →
      (s.storeRow va n = .ok (false, pas) → rp + n ≤ c.skew.length → Does s i (tagD s i) fun u =>
        withBlk (fun b => { b with held := streamed port.toNat ch.toNat c.skew (rp - s.me.blk.takes port.toNat ch.toNat) b.held })
          (holding (.take s.cur.addr port.toNat ch.toNat n va (pas.map fun a => (a, 0)))
            (withRegs (fun r => r.setTaken key (r.taken key + n))
              (u.modChan port.toNat ch.toNat fun q => { q with holder := some me })))) ∧
      (s.storeRow va n = .ok (false, pas) → c.skew.length < rp + n → Waits s i (.recv port.toNat ch.toNat)) ∧
      (s.storeRow va n = .ok (true, pas) → Traps s i .xlateNotpresent .s va)) ∧
    (∀ h, c.holder = some h → h ≠ me → Traps s i .netPort .s 0)

namespace Sys2Proof.Claims

open Machine

/-! ### Events -/

/-- An event that comes about and leaves a state of which P holds, the Fixed registers of R294 as they were. -/
def Comes (s : State) (i : Instr) (P : State → Prop) : Prop := ∃ t, exec i s = .next t ∧ t.fixed = s.fixed ∧ P t

/-- An event that leaves exactly one state. -/
def Leaves (s : State) (i : Instr) (t : State) : Prop := exec i s = .next { t with fixed := s.fixed }

/-- A partition. -/
def part (s : State) (p : Nat) : Part := s.parts.getD p {}

/-- The task on a tile. -/
def On (s : State) (t : Nat) (k : Task) : Prop := (s.tile t).task = some k

/-- No task is in a locked run (R236), so that nothing holds back a write from beside the tiles. -/
def Unlocked (s : State) : Prop := ∀ u k, On s u k → k.blk.run < 3

/-- No task of another tile is in a locked run, so that nothing holds back what a tile does (R236). -/
def OthersUnlocked (s : State) (t : Nat) : Prop := ∀ u k, u ≠ t → On s u k → k.blk.run < 3

/-- The operation at the head of a tile's M queue, which nothing stops or orders (R182, R207, R240, R289). -/
structure AtHead (s : State) (t : Nat) (k : Task) (m : MOp) (rest : List MOp) : Prop where
  on : On s t k
  queue : k.mq = m :: rest
  open_ : s.fenced k.part = false
  going : k.mFault = none
  cleared : s.cleared m.waits m.waitBlk k = true

/-- The registers after an operation, in the task and, for one of an earlier block, in its checkpoint too (R175). -/
def Applied (k j : Task) (m : MOp) (f : Regs → Regs) : Prop :=
  j.regs = f k.regs ∧ j.ckpt = (if m.blk = k.blk.seq then k.ckpt else k.ckpt.map f)

/-- A queue whose first operation may begin on a cycle. -/
def readyAt (n : Nat) : List MOp → List MOp
  | [] => []
  | x :: rest => { x with ready := n } :: rest

/-- An operation of the M engine that completes: it leaves the queue, the one behind it may begin on a cycle, and the registers are
as f says. -/
def Completes (s : State) (i : Instr) (t : Nat) (k : Task) (m : MOp) (rest : List MOp) (next : Nat) (f : Regs → Regs) : Prop :=
  Comes s i fun u => ∃ j, On u t j ∧ j.mq = readyAt next rest ∧ Applied k j m f ∧ u.mem = s.mem

/-- The head operation goes on without completing: it is x now, and the registers stay. -/
def HeadBecomes (s : State) (i : Instr) (t : Nat) (k : Task) (rest : List MOp) (x : MOp) : Prop :=
  Comes s i fun u => ∃ j, On u t j ∧ j.mq = x :: rest ∧ j.regs = k.regs ∧ j.ckpt = k.ckpt ∧ u.mem = s.mem

/-- The accumulator that an `mma` adds to: the one it reads, with the flags that its destination holds (R37, R180). -/
def mmaFrom (a src : BitVec 3) (r : Regs) : Acc := { r.acc src with flags := (r.acc a).flags }

/-- What one `mma` leaves of that accumulator: a poisoned one stays as it is; else its elements are the sums x.1, and the
flags x.2 wait under its number (R37, R188-R190). -/
def mmaInto (m : MOp) (x : List (BitVec 36) × FpFlags) (old : Acc) : Acc :=
  if old.poison.isSome then old
  else { old with elems := x.1, flags := if x.2 = 0 then old.flags else old.flags ++ [(m.idx, x.2)] }

/-- The tile's cycle: its beats and the cycles its hold line was raised (R3). -/
def cycle (x : Tile) : Nat := x.beat + x.held

/-- The accumulator of an `mma` whose fetch has failed (R190). -/
def mmaPoisoned (m : MOp) (c : Cause) (va : Nat) (old : Acc) : Acc :=
  if old.poison.isSome then old else { old with poison := some (fetchCause c), poisonAt := m.idx, poisonVa := va }

/-- The next entry of a drain, with its counts of underflows and overflows (R41, R42, R192). -/
def nextEntry (k : Task) (m : MOp) (a : BitVec 3) (d : Desc) (mode : BitVec 3) : DrainEntry × Nat × Nat :=
  let n := 4096 / d.width
  let xs := (((k.regs.acc a).elems.drop (n * m.filled)).take n).map (packElem d ((roundOf mode).getD .rne) m.off)
  ({ data := BitVec.ofNat 4096 (packElems d.width (xs.map (·.1))), fmt := d.fmt, off := m.off },
    (xs.filter fun x => x.2.1).length, (xs.filter fun x => x.2.2).length)

/-- A drain queue with its next entry filled. -/
def filledQueue (q : DrainQueue) (at_ : Nat) (e : DrainEntry) : DrainQueue :=
  { q with filled := q.filled + 1, entries := q.entries.set (at_ % 32) e }

end Sys2Proof.Claims

open Sys2Proof Sys2Proof.Machine Sys2Proof.Claims in
/-- R212, R213: a requested line that no stash owns arrives: the line's memory is in the stash under a lease and in what the held
access has received; a recall of a dirty line writes its 128 bytes to memory, which is otherwise as it was, and leaves its
owner a leased copy. -/
def Obligations.StashLines : Prop :=
  ∀ (s : State) (t line : Nat),
    (∀ k, On s t k → OthersUnlocked s t → s.heldLines = [] → (s.tile t).hold = some (.miss [line]) →
      (s.tile t).asked = [line] → k.blk.phase = .open → k.blk.run < 3 → (s.dirLine line).owner = none →
      isCtrl (line * 128) = false → (s.tile t).ways (line % 512) ≠ [] →
      Comes s (.stashFill t) fun u => (u.tile t).asked = [] ∧ ∃ y, (u.tile t).lineAt line = some y ∧
        y ∈ (u.tile t).fills ∧ (∀ z ∈ (s.tile t).fills, z ∈ (u.tile t).fills) ∧ y.data = s.memLine line ∧ y.wts = (s.dirLine line).wts ∧
        y.st = if s.poisoned line then .poisoned else .shared) ∧
    (∀ y, Memory.wf s.mem = true → (s.dirLine line).owner = some t → (s.tile t).lineAt line = some y → y.st = .dirty →
      s.breaksLock (s.recall line) = false →
      Comes s (.lineRecall line) fun u => (u.dirLine line).owner = none ∧
        (u.tile t).lineAt line = some { y with st := .shared, lease := (s.tile t).clock + 4096 } ∧
        (∀ n, n < 128 → Memory.read u.mem (line * 128 + n) = lineByte y.data n) ∧
        ∀ a, (a < line * 128 ∨ line * 128 + 128 ≤ a) → Memory.read u.mem a = Memory.read s.mem a)

open Sys2Proof Sys2Proof.Machine Sys2Proof.Claims in
/-- R53: a value that returns is written to the register that its lock names, unless that is `s0`, and the lock is released;
memory and every other tile's task without that lock stay. -/
def Sys2Proof.Claims.ValueDelivered : Prop :=
  ∀ (s : State) (n t : Nat) (r : Reply) (k : Task) (l : Lock), Unlocked s → (s.replies.find? fun x => x.n == n) = some r → On s t k →
    (k.locks.find? fun x => x.serial == r.serial) = some l → (∀ e ∈ s.saved, ∀ x ∈ e.task.locks, x.serial ≠ r.serial) →
    Comes s (.valueDelivery n) fun u => u.mem = s.mem ∧ u.replies = (s.replies.filter fun x => x.n != r.n) ∧
      (∃ j, On u t j ∧ j.locks = (k.locks.filter fun x => x.serial != l.serial) ∧
        (l.reg ≠ 0 → l.reg.toNat < k.regs.s.length → j.regs.sreg l.reg = r.value) ∧
        (∀ m, m ≠ l.reg → j.regs.sreg m = k.regs.sreg m)) ∧
      (∀ v j, On s v j → (j.locks.find? fun x => x.serial == r.serial) = none → On u v j)

open Sys2Proof Sys2Proof.Machine Sys2Proof.Claims in
/-- R117, R118, R245: a `cwait` whose target has not been reached leaves a provisional waiter at its slice, where it finds an entry; the
tile, once it has saved its yield set, confirms it and is free; a `cwait` that found no entry is sent again after its 1,024
cycles. -/
def Sys2Proof.Claims.CounterWaiters : Prop :=
  ∀ (s : State) (t : Nat) (k : Task) (c : CwaitArgs), On s t k → Unlocked s →
    (s.fenced k.part = false → k.blk.phase = .commit → k.blk.eState = .cwaitSent c →
      s.cohPoisoned (lineOf c.pa) = false →
      leNat (s.lowBytes c.pa 8) < c.target.toNat → (s.quads.getD k.part {}).tt = false → s.inRound k = false →
      s.waiterCount (homeSlice c.pa) < 8192 →
      Comes s (.cwaitReply t) fun u =>
        u.waiters = s.waiters ++ [{ n := s.serial, pa := c.pa, part := k.part, target := c.target, confirmed := false, reached := false, tile := t, record := k.record }] ∧
        On u t { k with blk := { k.blk with eState := .cwaitWaiter c s.serial } } ∧ u.mem = s.mem) ∧
    (s.fenced k.part = false → k.blk.phase = .commit → k.blk.eState = .cwaitSent c → s.cohPoisoned (lineOf c.pa) = true →
      Leaves s (.cwaitReply t) ((s.putTask t { k with
        blk := { k.blk with eOp := none, eState := .waiting }
        stop := some (k.stop.getD (.fault .eccUncorrectable .k k.blk.eAddr c.va 0)) }).endBlock t k.blk.compareAt)) ∧
    (∀ due, k.blk.eState = .cwaitRetry c due →
      Comes s (.cwaitRetry t) fun u => On u t { k with blk := { k.blk with eState := .cwaitSent c } } ∧
        cycle (u.tile t) = max due (cycle (s.tile t)) ∧ u.mem = s.mem) ∧
    (∀ n w y v, k.blk.eState = .cwaitWaiter c n → (s.waiters.find? fun x => x.n == n) = some w → w.tile = t →
      w.confirmed = false → s.fenced k.part = false →
      s.leaveTile t k.blk.compareAt (SaveSet.of c.mask0 c.mask1) c.resume true = (some y, v) →
      (∀ x ∈ v.waiters, x.n = n → x.reached = false) → k.injHits = [] →
      Comes s (.waiterConfirm n) fun u => (u.tile t).task = none ∧
        u.waiters = (v.waiters.filter fun x => x.n != n) ++ [{ w with confirmed := true, reached := false, record := y.record }])

open Sys2Proof Sys2Proof.Machine Sys2Proof.Claims in
/-- R145, R276, R283, R288: the bundle that waits on `rel` issues once the logical tick is reached and it is its turn; a request older
than the bound that finds the task between bundles preempts it; a task that has committed nothing for 2^lwd cycles is aborted
with HANG, class S, or, past its transfer, has that stop due for the bundle after its E bundle. -/
def Sys2Proof.Claims.TileTimers : Prop :=
  ∀ (s : State) (t : Nat) (k : Task), On s t k → s.fenced k.part = false → OthersUnlocked s t →
    (∀ b n, k.blk.relAt = some b → s.relTarget t k = some n → n ≤ (s.frameOf k.part).2 → s.relTurn t = true →
      s.dueOf t .issue = some k.nextIssue →
      Leaves s (.relRelease t) (((s.approach t k.nextIssue).issue t k.nextIssue).modTile t fun x =>
        { x with watch := x.watch - (k.nextIssue - b) })) ∧
    (∀ r, (s.tile t).req = some r → r + k.regs.pbound.toNat ≤ cycle (s.tile t) → k.blk.phase = .open →
      k.blk.hasXfer = false → k.stop = none → (s.dueOf t .issue).isSome = true →
      Leaves s (.preemptForced t) ((s.modTile t fun x => x.toBeat k.nextIssue).takePreempt t k.nextIssue true)) ∧
    (2 ^ (s.quads.getD k.part {}).lwd.toNat ≤ (s.tile t).watch → k.stop = none → k.blk.relAt = none →
      (k.blk.phase = .open → k.blk.hasXfer = false →
        Leaves s (.watchdogExpiry t) ((s.modTile t fun x => x.toBeat x.beat).abort t
          { cause := .hang, cls := .s, beat := (s.tile t).beat, bundle := k.pc })) ∧
      (k.blk.hasXfer = true → (s.tile t).hold = none → k.blk.phase ≠ .commit →
        Comes s (.watchdogExpiry t) fun u => u.mem = s.mem ∧
          On u t { k with stop := some (.fault .hang .s k.pc 0 0), stopFrom := none, stopBlk := none, stopStep := 0 }))

open Sys2Proof Sys2Proof.Machine Sys2Proof.Claims in
/-- R14, R151, R154, R179: a retiring tile without a task leaves service, and the spare of its quadrant takes its place in the mesh
map and in its pairing, and enters service, at full speed in a pinned partition. -/
def Sys2Proof.Claims.TileRetires : Prop :=
  ∀ (s : State) (t v : Nat), OthersUnlocked s t → t < s.tiles.length → v < s.tiles.length → t ≠ v → (s.tile t).life = .retiring →
    (s.tile t).task = none → (s.tile t).peerIn = [] → s.fenced (s.partOf (quadOf t)) = false →
    (s.quads.getD (s.partOf (quadOf t)) {}).llen = 0 → quadOf t < s.quads.length →
    s.freeSpare (quadOf t) = some v →
    Comes s (.tileRetirement t) fun u => (u.tile t).life = .retired ∧ (u.tile v).life = .service ∧ u.mem = s.mem ∧
      (u.tile v).pairPend = (s.tile t).pairPend ∧
      (s.pinned (s.partOf (quadOf t)) = true → (u.tile v).point = .p1750) ∧
      (u.quads.getD (quadOf t) {}).mesh
        = (s.quads.getD (quadOf t) {}).mesh.set ((s.localOf t).getD 0) (some ((meshOf v).setWidth 6))

open Sys2Proof Sys2Proof.Machine Sys2Proof.Claims in
/-- R107, R108, R186-R190, R372, R382: the M engine runs the `mma`, `mzero` or `mload` at the head of its queue: an `mma` begins with
its operands in its buffer and completes 32 cycles later where they were all in the stash, and no sooner where they were not;
an `mzero` takes four cycles; the accumulator takes the sum of products, zero, or the image in memory; a fetch that fails
poisons it instead; and the operation leaves the queue. When the buffer fills (log 82), and the poison and flags that an `mload` keeps
(log 59), are the model's choices. -/
def Obligations.MatrixExecutes : Prop :=
  ∀ (s : State) (t : Nat) (k : Task) (m : MOp) (rest : List MOp), AtHead s t k m rest →
    let begins := some (max (cycle (s.tile t)) m.ready)
    (∀ a, m.work = .mzero a →
      (m.began = none → HeadBecomes s (.mzeroExecute t) t k rest { m with began := begins }) ∧
      (∀ c b, m.began = some c → s.dueOf t .run = some b → s.expired t b = none →
        Completes s (.mzeroExecute t) t k m rest (c + 4) fun r => r.setA a {})) ∧
    (∀ a src dA dB pa pb cl, m.work = .mma a src dA dB pa pb → mmaClass dA.fmt = some cl →
      (m.began = none → m.buf = none → HeadBecomes s (.mmaExecute t) t k rest
        { m with began := begins, buf := some (s.fetchMma t k.part dA dB pa pb cl.n).1 }) ∧
      (∀ c x, m.began = some c → m.buf = some x →
        let done (next : Nat) : Prop := Completes s (.mmaExecute t) t k m rest next fun r => r.setA a (match x.fail with
          | none => mmaInto m (mmaSum (cl == .f16 || cl == .p8) (k.regs.acc src).elems (dA.operandVals x.a) (dB.operandVals x.b))
              (mmaFrom a src r)
          | some e => mmaPoisoned m e.1 e.2 (mmaFrom a src r))
        (∀ b, x.resident = true → s.dueOf t .run = some b → s.expired t b = none → done (c + 32)) ∧
        (x.resident = false → s.dueOf t .run = none → c + 31 ≤ cycle (s.tile t) → done (cycle (s.tile t) + 1)))) ∧
    (∀ a va es, m.work = .mload a va → (s.others (quadOf t)).accImage t k.part va = .ok es →
      Completes s (.mloadExecute t) t k m rest 0 fun r =>
        r.setA a { r.acc a with elems := es, poison := none, poisonAt := 0 }) ∧
    (∀ a va c at_, m.work = .mload a va → (s.others (quadOf t)).accImage t k.part va = .error (c, at_) →
      Completes s (.mloadExecute t) t k m rest 0 fun r => r.setA a (if (r.acc a).poison.isSome = true ∧ (r.acc a).poisonAt ≠ 0 then r.acc a
        else { r.acc a with poison := some c, poisonAt := m.idx, poisonVa := at_ }))

open Sys2Proof Sys2Proof.Machine Sys2Proof.Claims in
/-- R42, R43, R192, R367: a drain whose accumulator is not poisoned begins on its cycle with the tensor's running offset; its next entry
fills on its beat; the last one completes it, and leaves its counts in `cr.uflow` and `cr.oflow` and the new offset, which steps from
the offset that the drain began with, also where a `tdef` has come between: the model's choice (log 73). -/
def Sys2Proof.Claims.DrainFills : Prop :=
  ∀ (s : State) (t : Nat) (k : Task) (m : MOp) (rest : List MOp) (a : BitVec 3) (d : Desc) (tid : Nat) (dq : BitVec 2)
    (first count : Nat) (mode : BitVec 3), m.work = .drain a d tid dq first count mode →
    (AtHead s t k m rest → m.began = none → m.filled = 0 →
      ((k.drainSurfaces m a).regs.acc a).poison = none →
      Comes s (.mdrainExecute t) fun u => ∃ j, On u t j ∧ j.mq = { m with
        began := some (max (cycle (s.tile t)) m.ready), off := (k.drainSurfaces m a).regs.scaleOf tid } :: rest ∧ u.mem = s.mem) ∧
    (∀ b, s.dueOf t .fill = some b → s.expired t b = none →
      let v := s.modTile t fun x => x.toBeat b
      let e := nextEntry k m a d mode
      AtHead v t k m rest →
      let fill (r : Regs) : Regs := r.setDrain dq (filledQueue (r.drain dq) (first + m.filled) e.1)
      (m.filled + 1 < count →
        Comes s (.drainEntryFill t) fun u => ∃ j, On u t j ∧ Applied k j m fill ∧ u.mem = s.mem ∧
          j.mq = { m with filled := m.filled + 1, unders := m.unders + e.2.1, overs := m.overs + e.2.2 } :: rest) ∧
      (count ≤ m.filled + 1 →
        Completes s (.drainEntryFill t) t k m rest (cycle (v.tile t) + 1) fun r =>
          let r := { fill r with uflow := BitVec.ofNat 13 (m.unders + e.2.1), oflow := BitVec.ofNat 13 (m.overs + e.2.2) }
          if d.autoscale then r.setScale tid (if 0 < m.overs + e.2.2 then min (m.off + 1) 31
            else if d.thresh * 64 < m.unders + e.2.1 then max (m.off - 1) (-31) else m.off) else r))

open Sys2Proof Sys2Proof.Machine Sys2Proof.Claims in
/-- R185, R196, R197, R368: `mdrain.red` sends its accumulator to the peer; the peer's accumulator takes the addition between two of its
own operations; the acknowledgement completes the operation, and raises io where an element clamped. -/
def Sys2Proof.Claims.PeerReduction : Prop :=
  ∀ (s : State) (t : Nat) (k : Task) (m : MOp) (rest : List MOp) (a aM : BitVec 3) (float : Bool) (peer : Nat),
    (AtHead s t k m rest → m.work = .red a float peer aM false →
      let j := k.drainSurfaces m a
      (j.regs.acc a).poison = none →
      ∀ p, s.physOf peer = some p → p ≠ t → p < s.tiles.length →
      Comes s (.mdrainExecute t) fun u => u.mem = s.mem ∧
        (u.tile p).peerIn = (s.tile p).peerIn ++ [⟨t, m.serial, aM, float, (j.regs.acc a).elems⟩] ∧
        ∃ i, On u t i ∧ i.mq = { m with work := .red a float peer aM true } :: rest) ∧
    (∀ x more, On s t k → k.mq = [] → (s.tile t).peerIn = x :: more →
      let acc := ((k.regs.acc x.aM).addPeer x).1
      Comes s (.peerAdditionApply t) fun u => (u.tile t).peerIn = more ∧ u.mem = s.mem ∧
        ∃ i, On u t i ∧ i.regs = k.regs.setA x.aM acc) ∧
    (∀ io, AtHead s t k m rest → m.work = .red a float peer aM true → (k.acks.find? fun x => x.1 == m.serial) = some (m.serial, io) →
      Comes s (.peerAck t) fun u => u.mem = s.mem ∧ ∃ i, On u t i ∧ i.mq = readyAt 0 rest ∧
        i.regs.fpflags = k.regs.fpflags ||| (if io then 0b100000 else 0))

open Sys2Proof Sys2Proof.Machine Sys2Proof.Claims in
/-- R205-R208, R333: the chain engine runs the next step of its operation, whose outcome the boundary and the registers take; the last
step completes the operation, and a step that fails stops the engine before it. -/
def Obligations.ChainStepRuns : Prop :=
  ∀ (s : State) (t : Nat) (k : Task) (m : MOp) (rest : List MOp) (va next n : Nat) (single pick : Bool) (idx : Word64)
    (bds : List (BitVec 16)) (bs : List Byte), AtHead s t k m rest → OthersUnlocked s t →
    m.work = .chain va single pick idx bds next (some n) →
    let v := s.others (quadOf t)
    v.engBytes (tileUnit t) k.part (some t) (if single then va else va + 16 + 16 * next) 16 = .ok bs →
    (∀ x b g, v.chainStep t k.part bs single pick idx bds k.regs.bound = .ok (x, b, g) →
      let f (r : Regs) : Regs := r.afterStep m.idx x b g
      (next + 1 < n → Comes s (.chainStep t) fun u => ∃ j, On u t j ∧ Applied k j m f ∧ u.mem = s.mem ∧
        j.mq = { m with work := .chain va single pick idx bds (next + 1) (some n) } :: rest) ∧
      (n ≤ next + 1 → Completes s (.chainStep t) t k m rest 0 f)) ∧
    (∀ c at_, v.chainStep t k.part bs single pick idx bds k.regs.bound = .error (c, at_) →
      Comes s (.chainStep t) fun u => ∃ j, On u t j ∧ j.regs = k.regs ∧ u.mem = s.mem ∧
        j.mFault = some { cause := c, idx := m.idx, addr := m.addr, va := at_, step := next })

namespace Sys2Proof.Claims

open Machine

/-! ### Bundles and blocks -/

/-- The state in which a fetched bundle is checked. -/
def checking (s : State) (t b : Nat) (bd : Bundle) : State :=
  let u := s.approach t b
  { u with cur := { u.cur with eob := bd.hd.eob } }

/-- A bundle that comes to issue on beat b: the tile's next event, which neither the watchdog, a forced pre-emption, a value that a
restored task waits for nor a `rel` of a lower tile holds back, fetched. -/
structure Reaches (s : State) (t b : Nat) (k : Task) (bd : Bundle) : Prop where
  on : On s t k
  due : s.nextDue t = some (b, .issue)
  may : s.mayIssue t k = true
  others : OthersUnlocked s t
  on_time : s.overtaken t b false = none ∧ s.overdue t b = s
  present : k.awaits = false
  turn : s.relTurn t = true
  serves : ((s.approach t b).tile t).life ≠ .retiring
  fetched : (s.approach t b).bundleAt t (s.approach t b).me = .ok bd
  place : (s.approach t b).me.blk.idx < 256
  calm : (s.approach t b).here.req = none

/-- One that decodes into its operations. -/
structure Issues (s : State) (t b : Nat) (k : Task) (bd : Bundle) (os : List SlotOp) : Prop extends Reaches s t b k bd where
  checked : (checking s t b bd).checkBundle (s.approach t b).me bd = .ok os

/-- The state in which the slots of that bundle start. -/
def issuing (s : State) (t b : Nat) (bd : Bundle) : State := (checking s t b bd).enterBlock

/-- The state in which a delayed operation of the block in progress starts, on beat b (R50, R274). -/
def lateStart (s : State) (t b : Nat) (k : Task) (d : Delayed) : State :=
  let v := s.modTile t fun x => x.toBeat b
  State.setMe { v with cur := { tile := t, slot := d.slot, idx := d.idx, addr := d.addr, ord := d.ord, rot := 0, beat := b
                                round := d.round, eob := k.blk.phase != .open && d.addr == k.blk.eAddr, late := true } }
    { k with delayed := k.delayed.erase d }

/-- The registers once one result of the block in progress has landed: its value, unless it traps, the tag of its
destinations, and its flags (R36, R52, R275). -/
def landed (r : Regs) (l : Landing) (value : Bool) : Regs :=
  let r := (if value then r.apply l.wr else r).setTags l.dests l.tag
  { r with fpflags := r.fpflags ||| l.flags }

/-- The trap enables that a result meets: an `ssetc` that lands with it comes first (log 71). -/
def enablesAfter (k : Task) (l : Landing) : FpFlags :=
  match l.wr with
  | .creg 3 v => v.extractLsb' 0 6 &&& 0b111101
  | _ => k.regs.fptrap

/-- A block that no pairing, gang, fence or pending failure holds at its comparison or order point. -/
structure AtEnd (s : State) (t : Nat) (k : Task) : Prop where
  on : On s t k
  others : OthersUnlocked s t
  open_ : s.fenced k.part = false
  present : k.awaits = false
  alone : (s.tile t).gangLead = none
  single : s.paired k.part = false
  unpaired : (s.tile t).pairPend = []
  matched : k.blk.foldMiss = false ∧ k.blk.succMiss = false ∧ k.blk.stale = false

/-- The task at the entry of its next block: the successor of R68, on the beat of R70, with nothing of the last block
left. -/
def Ended (k j : Task) : Prop :=
  j.pc = k.successor.2 ∧ j.nextIssue = k.blk.nextAt ∧ j.blk = { seq := k.blk.seq + 1 } ∧ j.ckpt = none ∧
  j.regs.s = k.regs.s ∧ j.regs.v = k.regs.v ∧ j.regs.q = k.regs.q ∧ j.regs.a = k.regs.a

/-- A block that comes to its order point, with no fence of O, no spent `inj` and no operation waiting at a slice. -/
structure AtOrder (s : State) (t c : Nat) (k : Task) : Prop where
  end_ : AtEnd s t k
  due : s.dueOf t .order = some c
  phase : k.blk.phase = .order
  on_time : s.overtaken t c false = none ∧ s.overdue t c = s
  quiet : k.blk.hasFenceO = false ∧ k.injHits = [] ∧ s.heldLines = []

/-- The state in which a block that holds nothing back commits: its task goes on to the successor, whatever step 2 finds. -/
def atCommit (s : State) (t c : Nat) (k : Task) : State :=
  State.atSeal (State.clearFills (((s.atSeal t c).orderAt t []).putTask t ({ k with blk := k.blk.committing } : Task).proceed) t) t c

/-- A ring whose producer publishes the oldest slot it holds, whose consumer releases the oldest it holds, and one that is enabled
(R215-R217). -/
def published (r : Ring) : Ring :=
  { r with pub := (r.pub + 1) % 2 ^ r.lcount.toNat, heldP := r.heldP - 1, filled := r.filled + 1
           fillTags := r.fillTags ++ [publishTag r.published], published := r.published + 1 }
def released (r : Ring) : Ring :=
  { r with rel := (r.rel + 1) % 2 ^ r.lcount.toNat, heldC := r.heldC - 1, free := r.free + 1
           freeTags := r.freeTags ++ [freeTag r.freed], freed := r.freed + 1 }
def enabled (x : Word64) : Ring :=
  let n := 2 ^ (x.extractLsb' 37 3).toNat
  { lslot := x.extractLsb' 40 5, lcount := x.extractLsb' 37 3, en := true, base := x.extractLsb' 7 13, free := n, freed := n
    freeTags := (List.range n).map freeTag }

/-- The stamp of the last write of what a load has read: its line, or the counter's word (R235). -/
def lastWrite (s : State) (e : ReadEntry) : Nat :=
  match e.word with
  | some w => (assoc (s.dirLine e.line).words w).getD 0
  | none => (s.dirLine e.line).wts

/-- The task at the entry of its block again: 16 beats after the comparison, the live-in scalar registers as they were
there, every other as it is, the registers of R175 as the checkpoint holds them, and nothing of the block in flight. -/
def Restarted (k j : Task) : Prop :=
  j.pc = k.blk.start ∧ j.nextIssue = k.blk.compareAt + 16 ∧ j.blk.seq = k.blk.seq ∧ j.blk.entered = false ∧
  j.blk.held = [] ∧ (∀ l ∈ j.landings, l.blk ≠ k.blk.seq) ∧ (∀ m ∈ j.mq, m.blk ≠ k.blk.seq) ∧
  ∀ c, k.ckpt = some c →
    j.regs.fpflags = c.fpflags ∧ j.regs.loop = c.loop ∧ j.regs.rings = c.rings ∧ j.regs.dqs = c.dqs ∧
    (k.regs.s.length = 64 → c.s.length = 64 → ∀ n : BitVec 6,
      j.regs.sreg n = if (sealOf k.blk.sealWord).liveS.getLsbD n.toNat then c.sreg n else k.regs.sreg n)

end Sys2Proof.Claims

open Sys2Proof Sys2Proof.Machine Sys2Proof.Claims in
/-- R47, R49, R65, R70: a bundle that comes to issue starts its operations in slot order, each as it runs alone; its task goes on
after 1 + stall beats at the next bundle, and an E bundle's comparison is due on the beat of its last delayed start. An
operation without a start delay that the E bundle does not keep for its commit starts as `startOp` says, and `exec` of an
operation is that start. -/
def Obligations.BundleIssues : Prop :=
  (∀ (s : State) (t b : Nat) (k : Task) (bd : Bundle) (os : List SlotOp) (w : State), Issues s t b k bd os →
    (issuing s t b bd).startSlots bd os = .ok w → w.here.task.isSome = true →
    Comes s (.bundleIssue t) fun u => u.mem = w.mem ∧ ∃ j, On u t j ∧ j.pc = bd.addr + 32 ∧ j.ord = w.me.ord + 1 ∧
      j.nextIssue = b + 1 + bd.hd.stall.toNat ∧ j.blk.idx = w.me.blk.idx + 1 ∧ j.landings = w.me.landings ∧
      (w.me.regs.loop = none → j.regs = w.me.regs) ∧
      (bd.sealWord = none → j.blk.phase = w.me.blk.phase) ∧
      (∀ x, bd.sealWord = some x → j.blk.phase = .compare ∧ j.blk.compareAt = b + bd.hd.maxDelay ∧ j.blk.sealWord = x)) ∧
  (∀ (s : State) (bd : Bundle) (o : SlotOp), o.delay = 0 → (bd.hd.eob && commitOp o.op) = false →
    s.startSlot bd o = (startOp o.op { s with cur := { s.cur with slot := o.slot, rot := o.rot } }).map State.spendInj) ∧
  (∀ (s u : State) (i : Instr), (encode i).isSome = true → s.here.task.isSome = true → startOp i s = .ok u →
    exec i s = .next { u with fixed := s.fixed })

open Sys2Proof Sys2Proof.Machine Sys2Proof.Claims in
/-- R50, R274: an operation with a start delay starts on its beat just as it would run alone then, where nothing else that starts on
the beat stops the task. -/
def Sys2Proof.Claims.DelayedStarts : Prop :=
  ∀ (s u : State) (t b : Nat) (k : Task) (d : Delayed) (rest : List Delayed), On s t k → OthersUnlocked s t → s.fenced k.part = false →
    s.dueOf t .delayed = some b → s.overtaken t b true = none → k.awaits = false →
    inOrder (k.delayed.filter fun d => d.due == b && !d.caught) = d :: rest → d.blk = k.blk.seq → (encode d.op).isSome = true →
    startOp d.op (lateStart s t b k d) = .ok u → u.spendInj.restOfBeat t b (rest.map .start ++ [.bundle]) = none →
    exec (.delayedStart t) s = .next { u.spendInj with fixed := s.fixed } ∧
    exec d.op (lateStart s t b k d) = .next { u with fixed := s.fixed }

open Sys2Proof Sys2Proof.Machine Sys2Proof.Claims in
/-- The operations that look at their registers before anything else can stop them: the transfers and the branch preparation from a
register, the locks, the loads and stores of one row, the stash's maintenance, the counter adds and reads, the reductions and the
sends; and the scalar operations. -/
def Sys2Proof.Claims.beginsFirst (i : Instr) (s : State) : Bool :=
  match i with
  | .bprepi _ _ | .xfer _ _ | .xferF _ _ | .xferMz _ _ | .xferMnz _ _ | .call _ | .ilock _ _ | .iunlock _ _ | .ld _ _ _ _ _
  | .st _ _ _ _ | .sflush _ _ | .sinv _ _ | .cadd _ _ | .caddImm _ _ | .cread _ _ | .mred _ _ | .nsend _ _ _ _ => true
  | i => match i.hcw with
    | some h => (scalarRule (argsAt i h s) i).isSome
    | none => false

open Sys2Proof Sys2Proof.Machine Sys2Proof.Claims in
/-- R53, R55, R59: an operation that names a locked scalar register, to read or to write it, raises the hold line, and says of which
register; with none locked, in pending-bit mode, one that reads a register whose newest write has not landed traps, unless its
predicate fails. -/
def Sys2Proof.Claims.LocksAndEarlyReads : Prop :=
  ∀ (i : Instr) (s : State), s.here.task.isSome = true → beginsFirst i s = true →
    let l := lineageAt i s
    (∀ n, (l.named ++ l.dests).find? (fun r => s.lockedReg r) = some (.s n) → Waits s i (.lock n)) ∧
    ((∀ r ∈ l.named ++ l.dests, s.lockedReg r = false) → s.me.regs.debug = true →
      (∀ h, i.hcw = some h → h.predOk s.me.regs = true) → (∃ r ∈ l.named, s.earlyRead r = true) →
      Traps s i .readEarly .s 0)

open Sys2Proof Sys2Proof.Machine Sys2Proof.Claims in
/-- R35, R36, R52, R275: the one result that is due lands: its value, its tag and its flags; where its flags trap, the
destination keeps its value, and the task stops on the next beat with the cause of the lowest enabled flag; where a stop is due
already, the trapping result is kept for the task's return (log 71). -/
def Sys2Proof.Claims.ResultArrives : Prop :=
  ∀ (s : State) (t b : Nat) (k : Task) (l : Landing), On s t k → OthersUnlocked s t → s.dueOf t .land = some b →
    s.expired t b = none → l.blk = k.blk.seq →
    k.landings.filter (fun x => decide (x.due ≤ b) && !x.caught) = [l] →
    let rest := k.landings.filter fun x => !decide (x.due ≤ b) || x.caught
    let trap := fpTrapCause l.flags (enablesAfter k l)
    Comes s (.resultLands t) fun u => u.mem = s.mem ∧ (u.tile t).beat = max (s.tile t).beat b ∧ ∃ j, On u t j ∧ j.ckpt = k.ckpt ∧
      (trap = none → j.landings = rest ∧ j.regs = landed k.regs l true ∧ j.stop = k.stop) ∧
      (∀ c, trap = some c → k.stop = none → j.landings = rest ∧
        j.regs = landed k.regs l false ∧ j.stop = some (.fault c .a l.addr 0 0) ∧ j.stopFrom = some (b + 1)) ∧
      (trap.isSome = true → k.stop.isSome = true → k.blk.hasXfer = false → k.blk.phase = .open →
        j.landings = rest ++ [{ l with caught := true }] ∧ j.regs = k.regs ∧ j.stop = k.stop)

open Sys2Proof Sys2Proof.Machine Sys2Proof.Claims in
/-- R172-R177, R235: the comparison passes a block whose live-in reads are named, whose fold is the seal's and whose successor passes,
and marks one that differs; a mismatched block replays once 16 beats later, and a block whose read set failed runs again. -/
def Obligations.BlockCompares : Prop :=
  ∀ (s : State) (t : Nat) (k : Task),
    (∀ c b i h, AtEnd s t k → s.dueOf t .compare = some c → s.overdue t c = s → (s.atSeal t c).closeFold = .ok (b, i, h) →
      let x := sealOf b.sealWord
      let j : Task := { k with blk := b }
      (∀ n ∈ b.reads, sealNames x n = true) →
      (foldBefore b.folds 1000 = x.fold → j.successorOk x = true → (b.replay && b.blame) = false →
        Comes s (.sealComparison t) fun u => u.mem = s.mem ∧
          On u t { k with stopHeld := false, inj := k.inj.map (fun x => { x with seen := x.seen || i.isNone }), injHits := h
                          blk := { b with phase := .order, blame := false } }) ∧
      (b.pendingRead = false → (foldBefore b.folds 1000 ≠ x.fold ∨ j.successorOk x = false) →
        Comes s (.sealComparison t) fun u => u.mem = s.mem ∧ ∃ f g, (f || g) = true ∧
          On u t { k with inj := i, injHits := h, blk := { b with foldMiss := f, succMiss := g, missAt := c } })) ∧
    (On s t k → OthersUnlocked s t → s.fenced k.part = false → (s.tile t).gangLead = none → k.blk.phase ≠ .open →
      k.blk.entered = true →
      ((k.blk.foldMiss || k.blk.succMiss) = true → k.blk.replay = false →
        Comes s (.blockReplay t) fun u => u.mem = s.mem ∧ ∃ j, On u t j ∧ Restarted k j ∧ j.blk.replay = true) ∧
      (k.blk.stale = true →
        Comes s (.blockRerun t) fun u => u.mem = s.mem ∧ ∃ j, On u t j ∧ Restarted k j ∧ j.blk.run = k.blk.run + 1))

open Sys2Proof Sys2Proof.Machine Sys2Proof.Claims in
/-- R70, R174, R213, R235: at the order point of a block that neither ends its task nor holds an operation for its commit, and whose
read set is empty, the block ends; its buffered store to a line of its own stash appears there, byte by byte, and no other
byte changes. -/
def Sys2Proof.Claims.OrderPointGoesOn : Prop :=
  ∀ (s : State) (t c : Nat) (k : Task), AtOrder s t c k → k.blk.readSet = [] → k.blk.eOp = none → k.blk.ending = .go →
    let v := s.atSeal t c
    (k.blk.held = [] →
      Comes s (.orderPoint t) fun u => (∀ a, u.cohByte a = s.cohByte a) ∧ u.mem = s.mem ∧ ∃ j, On u t j ∧ Ended k j) ∧
    (∀ n va pa bs y, k.blk.held = [.store n va (cellsAt pa bs)] → bs ≠ [] → pa % 128 + bs.length ≤ 128 →
      v.inRound k = false → (∀ x ∈ cellsAt pa bs, v.sideCell t k.part (cellVa va x.1) x.1 = false) → (s.dirLine (lineOf pa)).owner = some t →
      (s.tile t).lineAt (lineOf pa) = some y → y.st ≠ .poisoned →
      Comes s (.orderPoint t) fun u => u.mem = s.mem ∧ (∃ j, On u t j ∧ Ended k j) ∧
        ∀ a, u.cohByte a = if pa ≤ a ∧ a < pa + bs.length then bs.getD (a - pa) 0 else s.cohByte a)

open Sys2Proof Sys2Proof.Machine Sys2Proof.Claims in
/-- R70, R115, R116, R311, R349, R423, R451: a block that holds nothing back ends as its end instruction says: `done` ends the task
there; `trap` leaves a stop of class K for the successor's first bundle, once no value that the block waits for is missing; `yield`
returns the record, with the successor's address and a context, to a general slot; and an operation of R69 that the E bundle has kept
starts then, after which the block ends, or the tile holds, or the task is stopped with that operation skipped. -/
def Sys2Proof.Claims.OrderPointCommits : Prop :=
  ∀ (s : State) (t c : Nat) (k : Task), AtOrder s t c k → k.blk.readSet = [] → k.blk.held = [] →
    (k.blk.eOp = none → k.blk.ending = .done → k.stop = none → (s.tile t).peerIn = [] → (∀ g ∈ k.record.groups, g = 0) →
      (part s k.part).round = none →
      Comes s (.orderPoint t) fun u => (u.tile t).task = none ∧ u.mem = s.mem ∧ (part u k.part).commons = (part s k.part).commons) ∧
    (∀ code, k.blk.eOp = none → k.blk.ending = .trap code → k.stop = none → (∀ l ∈ k.locks, l.blk ≠ k.blk.seq) →
      Comes s (.orderPoint t) fun u => u.mem = s.mem ∧ ∃ j, On u t j ∧ Ended k j ∧
        j.stop = some (.fault .trap .k k.blk.eAddr 0 (code.setWidth 64))) ∧
    (∀ y x, k.blk.eOp = none → k.blk.ending = .yield → (s.quads.getD k.part {}).tt = false → k.blk.yielded = false →
      s.inRound k = false → (atCommit s t c k).leaveTile t c {} k.successor.2 false = (some y, x) → x.generalFree k.part = true →
      k.part < x.parts.length →
      Comes s (.orderPoint t) fun u => (u.tile t).task = none ∧ u.mem = x.mem ∧
        (part u k.part).commons = (part x k.part).commons
          ++ [{ record := { k.record with hasctx := true, resume := k.successor.2 }, slot := .general, stamp := x.clockMax }]) ∧
    (∀ i, k.blk.eOp = some i → k.blk.ending = .go →
      let w := atCommit s t c k
      (∀ z y, startOp i w = .ok z → z.cur.tile = t → On z t y → y.blk.eState = .waiting → y.blk.ending = .go → y.injHits = [] →
        z.heldLines = [] → (z.tile t).gangLead = none →
        Comes s (.orderPoint t) fun u => u.mem = z.mem ∧
          On u t { y with ckpt := none, injHits := [], nextIssue := y.blk.nextAt, blk := { seq := y.blk.seq + 1 } }) ∧
      (∀ h, startOp i w = .error (.hold h) → Leaves s (.orderPoint t) (w.raiseHold t h)) ∧
      (∀ x d, startOp i w = .error (.after x d) → Leaves s (.orderPoint t) (w.skipAt x d)))

open Sys2Proof Sys2Proof.Machine Sys2Proof.Claims in
/-- R195, R214-R217, R235, R404, R416, R417: what each effect that a block holds back does at its order point: a publication and a
release move their ring; a store through the window fills the ring memory; `sflush` writes a dirty line back and keeps it, `sinv` writes
it back and drops it; a write of a ring register enables its ring with every slot free, or disables it; and a drain entry of a tensor
without metadata stores its elements in the line that the tile owns and leaves its queue. -/
def Sys2Proof.Claims.HeldEffectsApply : Prop :=
  ∀ (s : State) (t c : Nat) (k : Task), AtOrder s t c k → k.blk.readSet = [] → k.blk.eOp = none → k.blk.ending = .go →
    let v := s.atSeal t c
    let ends (P : State → Task → Prop) : Prop := Comes s (.orderPoint t) fun u => ∃ j, On u t j ∧ Ended k j ∧ P u j
    (∀ g, k.blk.held = [.publish g] → k.regs.rings.length = 8 → ends fun u j => u.mem = s.mem ∧
      j.regs.ring g = published (k.regs.ring g) ∧ ∀ h, h ≠ g → j.regs.ring h = k.regs.ring h) ∧
    (∀ g, k.blk.held = [.release g] → k.regs.rings.length = 8 → ends fun u j => u.mem = s.mem ∧
      j.regs.ring g = released (k.regs.ring g) ∧ ∀ h, h ≠ g → j.regs.ring h = k.regs.ring h) ∧
    (∀ n va cs, k.blk.held = [.window n va cs] → (s.tile t).ringPoison = [] → ends fun u _ => u.mem = s.mem ∧
      (u.tile t).ringMem = Memory.writes (s.tile t).ringMem cs) ∧
    (∀ va l y, k.blk.held = [.flush va 1] ∨ k.blk.held = [.inval va 1] → va < 2 ^ 64 → inWindow va = false →
      v.xlate (tileUnit t) k.part va = .ok l → (s.tile t).lineAt (lineOf l.pa) = some y → y.st = .dirty →
      (s.dirLine (lineOf l.pa)).owner = some t → Memory.wf s.mem = true → ends fun u _ =>
        (u.tile t).lineAt (lineOf l.pa) = (if k.blk.held = [.flush va 1] then some { y with st := .owned } else none) ∧
        (∀ n, n < 128 → Memory.read u.mem (lineOf l.pa * 128 + n) = lineByte y.data n) ∧
        ∀ a, (a < lineOf l.pa * 128 ∨ lineOf l.pa * 128 + 128 ≤ a) → Memory.read u.mem a = Memory.read s.mem a) ∧
    (∀ (g : BitVec 3) x, k.blk.held = [.ringCfg g.toNat x] → k.regs.rings.length = 8 → ends fun _ j =>
      (x.getLsbD 32 = true → (k.regs.ring g).en = false → j.regs.ring g = enabled x) ∧
      (x.getLsbD 32 = false → (j.regs.ring g).en = false ∧ (j.regs.ring g).free = 0 ∧ (j.regs.ring g).filled = 0)) ∧
    (∀ n q d e row col wcw cs line y,
      let h : Held := .entry n q d e row col wcw cs
      let xs := (v.heldBytes h).map (·.2)
      k.blk.held = [h] → d.withMeta = false → s.inRound k = false → k.regs.dqs.length = 4 →
      (∀ x ∈ v.heldBytes h, v.sideCell t k.part x.1 x.2.1 = false ∧ lineOf x.2.1 = line) → (xs.map (·.1)).Nodup →
      (s.dirLine line).owner = some t → (s.tile t).lineAt line = some y → y.st ≠ .poisoned → ends fun u j =>
        u.mem = s.mem ∧ (∀ x ∈ xs, u.cohByte x.1 = x.2) ∧ (∀ a, (∀ x ∈ xs, x.1 ≠ a) → u.cohByte a = s.cohByte a) ∧
        j.regs.drain q = { k.regs.drain q with leaving := (k.regs.drain q).leaving - 1 })

open Sys2Proof Sys2Proof.Machine Sys2Proof.Claims in
/-- R235: a block whose read set still holds what its loads have read, at a memory-side page or in lines that its tile owns, ends; one
of whose memory-side entries has been written since only marks its block, which then runs again. -/
def Sys2Proof.Claims.ReadSetValidates : Prop :=
  ∀ (s : State) (t c : Nat) (k : Task), AtOrder s t c k → k.blk.held = [] → k.blk.eOp = none → k.blk.ending = .go →
    ((∀ e ∈ k.blk.readSet, lastWrite s e = e.wts ∧ (e.side = true ∨ (s.dirLine e.line).owner = some t)) →
      Comes s (.orderPoint t) fun u => u.mem = s.mem ∧ ∃ j, On u t j ∧ Ended k j) ∧
    ((∃ e ∈ k.blk.readSet, e.side = true ∧ lastWrite s e ≠ e.wts) →
      Comes s (.orderPoint t) fun u => u.mem = s.mem ∧ On u t { k with blk := { k.blk with stale := true } })

open Sys2Proof Sys2Proof.Machine Sys2Proof.Claims in
/-- R63, R64, R156: an instance that fails on a tile without a task is marked absent, its syllable goes to the survivor, and the split
bit is set; where both syllables of the pair named it, no instance is left, and a bundle that issues a syllable of that pair meets
ENGINE_ABSENT in the order of R76: nothing of it starts, the tile retires, and the task is to go on at that bundle. On a tile with a task
the mark waits for the block boundary. A paired block without its partner's message after 50 µs fences the partition. -/
def Obligations.InstancesAndPairs : Prop :=
  ∀ (s : State) (t : Nat), t < s.tiles.length →
    (∀ vector unit k, On s t k → Leaves s (.engineInstanceFailure t vector unit)
      (s.modTile t fun x => { x with failing := x.failing ++ [(vector, unit.toNat)] })) ∧
    (∀ unit, (s.tile t).task = none → (s.tile t).failing = [] → (s.quads.getD (s.partOf (quadOf t)) {}).tt = false →
      Comes s (.engineInstanceFailure t false unit) fun u => u.mem = s.mem ∧
        (u.tile t).scalars = (s.tile t).scalars.set unit.toNat false ∧
        ((s.tile t).sa = unit ∧ (s.tile t).sb ≠ unit → (u.tile t).sa = (s.tile t).sb ∧ (u.tile t).splits = true) ∧
        ((s.tile t).sb = unit ∧ (s.tile t).sa ≠ unit → (u.tile t).sb = (s.tile t).sa ∧ (u.tile t).splits = true) ∧
        ((s.tile t).sa = unit ∧ (s.tile t).sb = unit →
          (u.tile t).sa = 3 ∧ (u.tile t).sb = 3 ∧ (u.tile t).splits = (s.tile t).splits) ∧
        ((s.tile t).sa ≠ unit ∧ (s.tile t).sb ≠ unit → (u.tile t).sa = (s.tile t).sa ∧ (u.tile t).sb = (s.tile t).sb)) ∧
    (∀ unit, (s.tile t).task = none → (s.tile t).failing = [] → (s.quads.getD (s.partOf (quadOf t)) {}).tt = false →
      Comes s (.engineInstanceFailure t true unit) fun u => u.mem = s.mem ∧
        (u.tile t).vectors = (s.tile t).vectors.set unit.toNat false ∧
        ((s.tile t).va = unit ∧ (s.tile t).vb ≠ unit → (u.tile t).va = (s.tile t).vb ∧ (u.tile t).splitv = true) ∧
        ((s.tile t).vb = unit ∧ (s.tile t).va ≠ unit → (u.tile t).vb = (s.tile t).va ∧ (u.tile t).splitv = true) ∧
        ((s.tile t).va = unit ∧ (s.tile t).vb = unit →
          (u.tile t).va = 3 ∧ (u.tile t).vb = 3 ∧ (u.tile t).splitv = (s.tile t).splitv) ∧
        ((s.tile t).va ≠ unit ∧ (s.tile t).vb ≠ unit → (u.tile t).va = (s.tile t).va ∧ (u.tile t).vb = (s.tile t).vb)) ∧
    (∀ (v : State) k bd cop dop next (o : SlotOp),
      (o.slot = .sa ∧ v.here.sa = 3) ∨ (o.slot = .sb ∧ v.here.sb = 3) ∨ (o.slot = .va ∧ v.here.va = 3) ∨ (o.slot = .vb ∧ v.here.vb = 3) →
      v.probe o ≠ some .opcodeUndefined → v.probe o ≠ some .opcodeRemoved → (experimental o.op = true → v.stepped k = true) →
      v.slotCause k bd cop dop next o = some .engineAbsent) ∧
    (∀ b k bd, Reaches s t b k bd → bd.hd.eob = false → (checking s t b bd).checkBundle (s.approach t b).me bd = .error .engineAbsent →
      ((s.approach t b).tile t).life = .service →
      Comes s (.bundleIssue t) fun u => u.mem = s.mem ∧ (u.tile t).life = .retiring ∧ ∃ j, On u t j ∧ j.pc = k.pc ∧
        j.regs = (s.approach t b).me.regs ∧ j.landings = (s.approach t b).me.landings ∧
        j.stop = some (.fault .engineAbsent .d k.pc 0 0)) ∧
    (∀ p rest, OthersUnlocked s t → (s.tile t).gangLead = none → (s.tile t).pairPend = p :: rest → p.applied = false →
      p.since + 10938 ≤ s.refTick →
      (∀ m ∈ (s.tile t).pairIn, m.seq ≠ p.seq) → s.partOf (quadOf t) < s.parts.length →
      Comes s (.pairTimeout t) fun u => u.fenced (s.partOf (quadOf t)) = true)

namespace Sys2Proof.Claims

open Machine

/-! ### The commons, exceptions and the return from them -/

/-- The pick rule of R122 gives a record: the oldest of its level; that level is the highest offered one, where it has had
fewer than 1,024 picks in a row or no lower one is offered, or else the next lower one. -/
structure Picked (s : State) (p : Nat) (q : Queued) : Prop where
  oldest : (s.offered p).find? (fun x => x.record.prio == q.record.prio) = some q
  level : (∀ x ∈ s.offered p, x.record.prio ≤ q.record.prio) ∧ (part s p).run.getD q.record.prio.toNat 0 < 1024 ∨
    (part s p).run.getD q.record.prio.toNat 0 < 1024 ∧ ∃ top ∈ s.offered p, q.record.prio < top.record.prio ∧
      1024 ≤ (part s p).run.getD top.record.prio.toNat 0 ∧
      ∀ x ∈ s.offered p, x.record.prio = top.record.prio ∨ x.record.prio ≤ q.record.prio

/-- An idle tile that may take a record of its partition. -/
structure MayPick (s : State) (t p : Nat) : Prop where
  tile : t < s.tiles.length
  mine : s.partOf (quadOf t) = p
  idle : s.idle t = true
  runs : s.engineStill p = false
  free : s.inTable p t = false
  none_waits : (part s p).entering = []

/-- The state from which the task is placed: its slot is free, the counters of R122 have moved, and the tile's idle beats have
passed. -/
def picked (s : State) (t idle p : Nat) (q : Queued) : State :=
  let l := q.record.prio.toNat
  let s : State := { s with parts := updAt s.parts p fun x => { x with
    commons := x.commons.erase q
    run := (List.range 4).map fun h => if h == l then x.run.getD l 0 + 1 else if l < h then 0 else x.run.getD h 0 } }
  s.modTile t fun x => { x with
    beat := x.beat + idle, clock := max (x.clock + idle) q.stamp, req := none, gangLead := none }

/-- A task as its stop leaves it: the cause and where it stopped, no ring and no mill, and its record as the context holds it
(R270, R278, R285). -/
def stopped (k : Task) (i : StopInfo) : Task :=
  { k with cause := some i.cause, stopAddr := i.bundle, stopInfo := i.info, stopBeat := i.beat, inj := none, injHits := []
           stop := none, stopFrom := none, stopBlk := none, stopStep := 0, stopHeld := false
           mills := [], regs := { k.regs with rings := ({} : Regs).rings }
           ckpt := k.ckpt.map fun c => { c with rings := ({} : Regs).rings }
           record := { k.record with hasctx := true, resume := k.pc } }

/-- A task as pre-emption or a halt leaves it; a fault that is due stays due (R281, R285). -/
def resting (k : Task) (f : Nat) : Task :=
  let kept := match k.stop with
    | some (.fault c cls a d n) => if c = .engineAbsent then none else some (StopDue.fault c cls a d n)
    | _ => none
  { k with stopBeat := f, cause := none, inj := none, stop := kept, stopFrom := none
           stopBlk := if kept.isSome then k.stopBlk else none, stopHeld := false
           record := { k.record with hasctx := true, resume := k.pc } }

/-- What the context area of a task keeps beside its bytes: the task, with the poison of its rings, under the number of the save. -/
def savedAs (s : State) (t : Nat) (k : Task) : SavedCtx :=
  { part := k.part, va := k.record.ctx.toNat, task := { k with ringPoison := (s.tile t).ringPoison }, mark := s.serial }

end Sys2Proof.Claims

open Sys2Proof Sys2Proof.Machine Sys2Proof.Claims in
/-- R113, R120-R122: a record of a launch queue enters a general slot; an idle tile takes the record of the pick rule, and its slot is
free; a record without a context starts at its address with every register zero but `s1` and `s2`; and one with a context
goes on with what the context holds, every beat moved by the time it was away. -/
def Obligations.CommonsServe : Prop :=
  ∀ (s : State),
    (∀ slice p e, (s.launchQ.find? fun e => e.slice == slice && e.part == p) = some e → s.generalFree p = true →
      s.fenced p = false → s.heldLines = [] → p < s.parts.length → Unlocked s →
      (∀ w ∈ s.waiters, ¬(w.confirmed = true ∧ w.reached = true ∧ homeSlice w.pa = slice)) →
      Comes s (.launchQueueDrain slice p) fun u => u.launchQ = s.launchQ.erase e ∧ u.mem = s.mem ∧
        (part u p).commons = (part s p).commons ++ [{ record := e.record, slot := .general, stamp := e.stamp }]) ∧
    (∀ t idle p q, MayPick s t p → OthersUnlocked s t → Picked s p q →
      let y := (s.tile t).beat + idle + 1
      (q.record.hasctx = false →
        Comes s (.taskPick t idle) fun u => u.mem = s.mem ∧ (part u p).commons = (part s p).commons.erase q ∧
          (∀ h, h < 4 → (part u p).run.getD h 0 = if h = q.record.prio.toNat then (part s p).run.getD h 0 + 1
            else if q.record.prio.toNat < h then 0 else (part s p).run.getD h 0) ∧
          ∃ j, On u t j ∧ j.record = q.record ∧ j.part = p ∧ j.pc = q.record.resume ∧ j.nextIssue = y ∧
            j.regs = { ({} : Regs) with s := ((List.replicate 64 0).set 1 q.record.argA).set 2 q.record.argB }) ∧
      (∀ k, q.record.hasctx = true → (picked s t idle p q).loadCtx t p q.record = .ok (some k) →
        Comes s (.taskPick t idle) fun u => ((s.tile t).stash = [] → u.mem = s.mem) ∧ ∃ j, On u t j ∧
          j.record = { q.record with groups := k.record.groups } ∧ j.part = p ∧ j.pc = q.record.resume ∧ j.cause = none ∧ j.nextIssue = k.nextIssue + y - k.stopBeat ∧
          j.landings = k.landings.map (fun l => { l with due := l.due + y - k.stopBeat, caught := false }) ∧
          (k.locks = [] → j.regs = k.regs ∧ j.ckpt = k.ckpt)))

namespace Sys2Proof.Claims

open Machine

/-- The context area of a task lies in memory in one piece, from pa on, in lines that no stash owns, and every section that is saved
fits its place (R285, R286). -/
structure AreaAt (s : State) (t : Nat) (k : Task) (pa : Nat) : Prop where
  mapped : ∀ n < 1216512, ∃ l, s.access (tileUnit t) k.part (k.record.ctx.toNat + n) .write = .ok l ∧ l.pa = pa + n
  plain : pa + 1216512 ≤ ctrlBase
  free : (∀ l, (s.dirLine l).owner = none) ∧ s.waiters = [] ∧ Memory.wf s.mem = true
  fits : ∀ n < 13, ∀ x ∈ (s.ctxSection t k [] s.serial n).getD [], x.1 + x.2.length ≤ ctxLen n
  files : k.regs.s.length = 64 ∧ k.regs.v.length = 32 ∧ ∀ full mark, (k.headerRest full mark).length = 3776

end Sys2Proof.Claims

open Sys2Proof Sys2Proof.Machine Sys2Proof.Claims in
/-- R285, R286: the bytes of a context area after a save: the header's record, cause, class, section mask, stepping, bundle address,
stop beat, trap code and control registers, and in the sections that the mask marks each register of `s` and of `v`. -/
def Sys2Proof.Claims.ContextBytes : Prop :=
  ∀ (s w : State) (t pa : Nat) (k : Task) (cls : FaultClass) (full : Bool), AreaAt s t k pa → s.saveCtx t k cls full = .ok w →
    let at_ (o n : Nat) : List Byte := Memory.range w.mem (pa + o) n
    at_ 0 64 = k.record.bytes ∧
    at_ 64 1 = leBytes 1 (match k.cause with | some c => c.code.toNat | none => 0) ∧
    at_ 65 1 = leBytes 1 (if k.cause.isSome then cls.code else 0) ∧
    at_ 66 2 = leBytes 2 (s.ctxMask t k) ∧
    at_ 68 4 = leBytes 4 s.fixed.stepping.toNat ∧
    at_ 72 8 = leBytes 8 k.stopAddr ∧ at_ 80 8 = leBytes 8 k.stopBeat ∧ at_ 88 8 = leBytes 8 k.stopInfo.toNat ∧
    (∀ n < 28, at_ (96 + 8 * n) 8 = leBytes 8 (s.creg t k k.blk.idx n).toNat) ∧
    ((s.ctxMask t k).testBit 1 = true → ∀ n < 64, at_ (0x1000 + 8 * n) 8 = leBytes 8 (k.regs.s.getD n 0).toNat) ∧
    ((s.ctxMask t k).testBit 3 = true → ∀ n < 32, at_ (0x4000 + 512 * n) 512 = leBytes 512 (k.regs.v.getD n 0).toNat) ∧
    ∀ a, (a < pa ∨ pa + 1216512 ≤ a) → Memory.read w.mem a = Memory.read s.mem a

open Sys2Proof Sys2Proof.Machine Sys2Proof.Claims in
/-- R270, R275, R278, R281, R285, R286: taking an exception. A stopped task leaves its tile, and memory is as the save of its context
left it: the task without its rings, with the cause, the stop beat and the bundle it resumes at. Where the area cannot be written, the
task ends and cannot be revived. A pre-empted task leaves its tile with its context saved and its record in the tile's return
slot, as the oldest of all. What the model keeps of a save beside its bytes, and the mark of an area that could not be written, are its
own (log 16). -/
def Sys2Proof.Claims.StopLeavesTile : Prop :=
  ∀ (s : State) (t : Nat) (k : Task), On s t k → (s.tile t).peerIn = [] → k.part < s.parts.length → k.unread = [] →
    (∀ i w, k.injHits = [] → k.record.tt = false → s.saveCtx t (stopped k i) i.cls true = .ok w →
      ((s.abort t i).tile t).task = none ∧ (s.abort t i).saved.head? = some (savedAs s t (stopped k i)) ∧
      ((w.quads.getD k.part {}).llen = 0 → (part s k.part).round = none → (∀ g ∈ k.record.groups, g = 0) →
        (s.abort t i).mem = w.mem)) ∧
    (∀ i c va, k.injHits = [] → k.record.tt = false → s.saveCtx t (stopped k i) i.cls true = .error (c, va) →
      ((s.abort t i).tile t).task = none ∧
      (s.abort t i).saved.head? = some { part := k.part, va := k.record.ctx.toNat, task := {}, spoiled := true }) ∧
    (∀ f w, s.saveCtx t (resting k f) .v true = .ok w →
      let u := s.giveUp t f false none
      (u.tile t).task = none ∧
      (part u k.part).commons = { record := (resting k f).record, slot := .ret t, stamp := 0 } :: (part s k.part).commons ∧
      u.saved.head? = some (savedAs s t (resting k f)) ∧ u.mem = w.mem)

open Sys2Proof Sys2Proof.Machine Sys2Proof.Claims in
/-- R278, R283, R287, R289, R290: the host halts a partition whose tiles and copy engines stand still, and one whose one task is between
its bundles, which it preempts there; and it resumes a partition; a write of the fence fences one and halts its queues; and the host
revives an aborted task, whose record enters a general slot marked raf. That in a fenced partition only the field changes (log 44) and
the stamp with which a revived record enters (log 11) are the model's choices. -/
def Sys2Proof.Claims.PartitionControl : Prop :=
  ∀ (s : State) (p : Nat), Unlocked s →
    let field (b : Bool) : State := { s with quads := updAt s.quads p fun q => { q with halt := b } }
    ((s.quads.getD p {}).halt = false →
      (s.fenced p = true ∨ ((∀ t ∈ s.tilesOf p, (s.tile t).task = none ∧ (s.tile t).copyQ = []) ∧
        ∀ q ∈ s.quadsOf p, (s.quads.getD q {}).copyQ = [])) →
      Leaves s (.partitionHalt p) (field true)) ∧
    (∀ t k, (s.quads.getD p {}).halt = false → s.fenced p = false → t ∈ s.tilesOf p → On s t k →
      (∀ u ∈ s.tilesOf p, (u ≠ t → (s.tile u).task = none) ∧ (s.tile u).copyQ = []) →
      (∀ q ∈ s.quadsOf p, (s.quads.getD q {}).copyQ = []) → k.mills = [] → k.open_ = true → k.forcible = true →
      let f := (s.tile t).heldBeat k
      (∀ d ∈ (s.tile t).dues, f ≤ d.1 ∨ d.2.2 = .fill ∨ d.2.2 = .run) →
      Leaves s (.partitionHalt p) (((field true).modTile t fun x => x.toBeat f).takePreempt t f true)) ∧
    ((s.quads.getD p {}).halt = true → s.fenced p = true → Leaves s (.partitionResume p) (field false)) ∧
    (s.fenced p = false → (s.quads.getD p {}).halt = true → (∀ q n, (s.queue q n).awake = false) →
      (∀ x ∈ (part s p).commons, x.record.tt = false) → p < s.quads.length →
      Comes s (.partitionResume p) fun u => (u.quads.getD p {}).halt = false ∧ u.mem = s.mem ∧ u.tiles = s.tiles ∧
        u.parts = s.parts) ∧
    (s.fenced p = false → p < s.parts.length →
      Comes s (.partitionFence p) fun u => (part u p).fenced = some .partitionFence ∧
        ∀ q ∈ s.quadsOf p, ∀ n < 64, q < s.quads.length → n < (s.quads.getD q {}).queues.length →
          (u.queue q n).halted = true ∧ (u.queue q n).awake = false) ∧
    (∀ ctx r, s.revivable p (alignDown ctx 64) = some r → s.generalFree p = true → (∀ g ∈ r.groups, g = 0) →
      s.fenced p = false → p < s.parts.length →
      Comes s (.revive p ctx) fun u => u.mem = s.mem ∧ (part u p).commons = (part s p).commons ++
        [{ record := { r with raf := true }, slot := .general, stamp := s.clockMax }])

open Sys2Proof Sys2Proof.Machine Sys2Proof.Claims in
/-- R231, R265: a token's copy goes back to its engine, or is dropped; an invalidation raises busy, and once it is done no unit of the
partition caches a translation of its range. -/
def Sys2Proof.Claims.TokensAndTranslations : Prop :=
  ∀ (s : State) (q : Nat), q < s.quads.length →
    (∀ tok t n c, ((s.quads.getD q {}).halted.find? fun h => h.1 == tok) = some (tok, .tileCopy t n) → t < s.tiles.length →
      ((s.tile t).copyHalted.find? fun c => c.serial == n) = some c → (s.tile t).copyQ = [] →
      Comes s (.resumeHalted q tok) (fun u => u.mem = s.mem ∧ (u.tile t).copyQ = [c] ∧
        (u.tile t).copyHalted = ((s.tile t).copyHalted.filter fun c => c.serial != n) ∧
        (u.quads.getD q {}).halted = ((s.quads.getD q {}).halted.filter fun h => h.1 != tok)) ∧
      Comes s (.abandonHalted q tok) (fun u => u.mem = s.mem ∧ (u.tile t).copyQ = [] ∧
        (u.tile t).copyHalted = ((s.tile t).copyHalted.filter fun c => c.serial != n) ∧
        (u.quads.getD q {}).halted = ((s.quads.getD q {}).halted.filter fun h => h.1 != tok))) ∧
    (s.partOf q = q →
      Comes s (.tlbInvalidate q) fun u => u.mem = s.mem ∧ (u.quads.getD q {}).busy = true ∧
        (u.quads.getD q {}).invalidating = (s.quads.getD q {}).invalidating
          ++ [((s.quads.getD q {}).iva.toNat, (s.quads.getD q {}).icount.toNat)]) ∧
    ((s.quads.getD q {}).invalidating ≠ [] →
      Comes s (.tlbInvalidateDone q) fun u => u.mem = s.mem ∧ (u.quads.getD q {}).busy = false ∧
        (u.quads.getD q {}).invalidating = [] ∧
        (∀ x ∈ s.quadsOf q, ∀ e ∈ (u.quads.getD x {}).tlb, ∀ r ∈ (s.quads.getD q {}).invalidating, e.inRange q r.1 r.2 = false) ∧
        ∀ x ∈ u.tiles, ∀ e ∈ x.micro, ∀ r ∈ (s.quads.getD q {}).invalidating, e.inRange q r.1 r.2 = false)

namespace Sys2Proof.Claims

open Machine

/-! ### Engines and memory errors -/

/-- A base die. -/
def die (s : State) (d : Nat) : Die := s.dies.getD d {}

/-- A counter that an engine's add reaches at once (R243): outside a merge round, on a line that nothing holds and no stash owns. -/
structure Countable (s : State) (p pa : Nat) : Prop where
  wf : Memory.wf s.mem = true
  place : pa % 8 = 0 ∧ pa + 8 ≤ ctrlBase
  round : (s.parts.getD p {}).round = none
  free : s.lineHeld none (lineOf pa) = false
  shared : (s.dirLine (lineOf pa)).owner = none

/-- The saturating sum in a counter's eight bytes, and every other byte of memory as it was (R243). -/
def Counted (s t : State) (pa n : Nat) : Prop :=
  leNat (Memory.range t.mem pa 8) = min (leNat (Memory.range s.mem pa 8) + n) (2 ^ 64 - 1) ∧
  ∀ a, (a < pa ∨ pa + 8 ≤ a) → Memory.read t.mem a = Memory.read s.mem a

/-- A mill after its block: it goes on with the next one, or, after its last, it is gone and the side of its ring is free (R269). -/
def MillGoesOn (m : Mill) (g : BitVec 3) (push : Bool) (j : Task) : Prop :=
  (1 < m.left → ∃ y ∈ j.mills, y.serial = m.serial ∧ y.next = m.next + 1 ∧ y.left = m.left - 1 ∧ y.chunk = 0) ∧
  (m.left ≤ 1 → (∀ y ∈ j.mills, y.serial ≠ m.serial) ∧ (if push then (j.regs.ring g).millP else (j.regs.ring g).millC) = false)

/-- What a pushing mill reads for its next block: an element code for each place of the slot, 0 beyond the last element
(R269). -/
def millReads (s : State) (k : Task) (m : Mill) (slot : Nat) : Except (Cause × Nat) (List Nat) :=
  allOk (fun (x : Option Nat) => match x with
    | none => .ok 0
    | some p => match s.elemAt (s.dieQuad m.die k.part) k.part none m.desc p true with
      | .error e => .error e
      | .ok (c, _) => .ok c) (m.elements slot)

/-- What a pulling mill writes: the elements of its slot that lie within the extents (R269). -/
def millWrites (s : State) (t : Nat) (k : Task) (m : Mill) (g : BitVec 3) : List (Nat × Nat) :=
  let r := k.regs.ring g
  let slot := 2 ^ r.lslot.toNat
  let bs := Memory.range (s.tile t).ringMem (r.base.toNat * 128 + r.get * slot) slot
  let w := m.desc.width
  (m.elements slot).zipIdx.filterMap fun (x, i) => x.map fun p => (p, leNat bs / 2 ^ (w * i) % 2 ^ w)

end Sys2Proof.Claims

open Sys2Proof Sys2Proof.Machine Sys2Proof.Claims in
/-- R261-R264: a copy engine writes one chunk of its first command and goes on with the next; after the last one one is
added to its counter, where it names one, and the command is done; a chunk that fails leaves memory as it was, and the command halts. -/
def Sys2Proof.Claims.CopyMoves : Prop :=
  ∀ (s : State) (t b : Nat) (c : CopyCmd) (rest : List CopyCmd), Unlocked s → t < s.tiles.length →
    (s.tile t).copyQ = c :: rest → s.copyReady (.tile t) c = true → c.addOnly = false → c.chunks[c.chunk]? = some b →
    (∀ w, (s.others (quadOf t)).copyBlock (quadOf t) c b = .ok w → t < w.tiles.length →
      (c.chunk + 1 < c.chunks.length →
        Comes s (.copyChunk (.tile t)) fun u => u.mem = w.mem ∧
          (u.tile t).copyQ = { c with chunk := c.chunk + 1, token := none } :: rest) ∧
      (c.chunks.length ≤ c.chunk + 1 → c.counter = none →
        Comes s (.copyChunk (.tile t)) fun u => u.mem = w.mem ∧ (u.tile t).copyQ = rest) ∧
      (∀ va pa, c.chunks.length ≤ c.chunk + 1 → c.counter = some va → w.counterPa (quadOf t) c.part va .write = .ok pa →
        Countable w c.part pa →
        Comes s (.copyChunk (.tile t)) fun u => Counted w u pa 1 ∧ (u.tile t).copyQ = rest)) ∧
    (∀ x va, (s.others (quadOf t)).copyBlock (quadOf t) c b = .error (x, va) → (s.quads.getD c.part {}).llen = 0 →
      Comes s (.copyChunk (.tile t)) fun u => u.mem = s.mem ∧
        (u.tile t).copyQ = ((c :: rest).filter fun x => x.serial != c.serial))

open Sys2Proof Sys2Proof.Machine Sys2Proof.Claims in
/-- R217, R263, R269: a pushing mill fills the slot at acq with its next block and its tag; a pulling mill writes the slot at get to
its tensor, chunk by chunk, from the chunk where it halted, and frees it; the chunks before one that fails stay written; and after
its last block a mill is detached. A mill's scale offset 0 is the model's choice (log 88). -/
def Sys2Proof.Claims.MillsMove : Prop :=
  ∀ (s : State) (t : Nat) (g : BitVec 3) (k : Task) (m : Mill),
    let r := k.regs.ring g
    let slot := 2 ^ r.lslot.toNat
    Unlocked s → k.regs.rings.length = 8 →
    (∀ cs, s.millReady t g true = some (k, m) → millReads (s.others (s.dieQuad m.die k.part)) k m slot = .ok cs →
      Comes s (.millBlockPush t g) fun u => u.mem = s.mem ∧
        (u.tile t).ringMem = Memory.writes (s.tile t).ringMem
          (cellsAt (r.base.toNat * 128 + r.acq * slot) (leBytes slot (packElems m.desc.width cs))) ∧
        ∃ j, On u t j ∧ (j.regs.ring g).filled = r.filled + 1 ∧ (j.regs.ring g).free = r.free - 1 ∧
          (j.regs.ring g).acq = (r.acq + 1) % 2 ^ r.lcount.toNat ∧ (j.regs.ring g).fillTags = r.fillTags ++ [m.tag] ∧ MillGoesOn m g true j) ∧
    (s.millReady t g false = some (k, m) → (∀ l ∈ (s.tile t).ringPoison, 128 * (l + 1) ≤ r.base.toNat * 128 + r.get * slot
        ∨ r.base.toNat * 128 + r.get * slot + slot ≤ 128 * l) →
      let out := (s.others (s.dieQuad m.die k.part)).writeChunks (s.dieQuad m.die k.part) k.part m.desc (millWrites s t k m g) 0 m.wcw m.chunk
      (∀ w, out = (w, none) → On w t k →
        Comes s (.millBlockPull t g) fun u => u.mem = w.mem ∧
          ∃ j, On u t j ∧ (j.regs.ring g).filled = r.filled - 1 ∧ (j.regs.ring g).free = r.free + 1 ∧
            (j.regs.ring g).get = (r.get + 1) % 2 ^ r.lcount.toNat ∧ (j.regs.ring g).freeTags = r.freeTags ++ [freeTag r.freed] ∧
            MillGoesOn m g false j) ∧
      (∀ w n c va, out = (w, some (n, c, va)) → (w.quads.getD m.part {}).llen = 0 →
        Comes s (.millBlockPull t g) fun u => u.mem = w.mem))

open Sys2Proof Sys2Proof.Machine Sys2Proof.Claims in
/-- R200, R243, R251: a reduction engine writes one chunk of its first command, and after the last adds its value to the command's
counter, where it names one; a partial write of a compressed frame opens a frame of its
base die's buffer; a frame closes once its wait has passed, and not before. -/
def Obligations.BaseDieEngines : Prop :=
  ∀ (s : State) (d : Nat), Unlocked s → d < s.dies.length →
    (∀ c rest w, s.asks = [] → (die s d).reduceQ = c :: rest → s.engineStill c.part = false →
      s.clearedOf c.part c.owner c.waits c.waitBlk = true → c.addOnly = false → c.chunk < c.chunks →
      (s.others (s.dieQuad d c.part)).reduceBlock (s.dieQuad d c.part) c = .ok w → d < w.dies.length →
      (c.chunk + 1 < c.chunks →
        Comes s (.reductionChunk d) fun u => u.mem = w.mem ∧
          (die u d).reduceQ = { c with chunk := c.chunk + 1, token := none } :: rest) ∧
      (c.chunks ≤ c.chunk + 1 → c.counter = none →
        Comes s (.reductionChunk d) fun u => u.mem = w.mem ∧ (die u d).reduceQ = rest) ∧
      (∀ va pa, c.chunks ≤ c.chunk + 1 → c.counter = some va → w.counterPa (s.dieQuad d c.part) c.part va .write = .ok pa →
        Countable w c.part pa →
        Comes s (.reductionChunk d) fun u => Counted w u pa c.addVal.toNat ∧ (die u d).reduceQ = rest)) ∧
    (∀ p t frame (off : BitVec 6) bytes desc, s.tensor p t.toNat = some desc → desc.compressed = true →
      desc.writable = true → frame < desc.frames → bytes ≠ [] → (s.others p).frameDie p p desc frame = d →
      (∀ w ∈ (die s d).wc, ¬ (w.part = p ∧ w.desc.base + 512 * w.frame = desc.base + 512 * frame)) →
      (die s d).wc.length < 512 → s.wcWait p desc ≠ 0 → bytes.length < 512 →
      Comes s (.wcPartialWrite p t frame off bytes) fun u => u.mem = s.mem ∧ ∃ w, (die u d).wc = (die s d).wc ++ [w] ∧
        w.part = p ∧ w.desc = desc ∧ w.frame = frame ∧ w.off = max (-31) off.toInt ∧
        w.deadline = s.refTick + waitTicks (s.wcWait p desc)) ∧
    (∀ n w, (die s d).wc[n]? = some w → s.engineStill w.part = false →
      (w.deadline ≤ s.refTick → Leaves s (.wcTimeout d n) ((s.others (s.dieQuad d w.part)).closeFrame d w)) ∧
      (s.refTick < w.deadline → Leaves s (.wcTimeout d n) s))

open Sys2Proof Sys2Proof.Machine Sys2Proof.Claims in
/-- R224, R225, R289: a corrected error that a patrol finds changes no value and is counted at the slice that serves its line; an
uncorrectable one poisons the line where it is held: in the stash that owns it, in a ring area, or below the stashes; an internal
error stops a reduction engine and halts its commands. Which slice counts a line that a stash owns, and the numbers that name the
lines of ring areas, are the model's choice (log 40). -/
def Obligations.MemoryErrors : Prop :=
  ∀ (s : State),
    (∀ d found, Comes s (.patrolScrub d found) fun u =>
      u.mem = s.mem ∧ u.tiles = s.tiles ∧ u.poison = s.poison ∧ u.dir = s.dir) ∧
    (∀ d l, homeDie (l * 128) = d → s.populated (l * 128) 128 = true → isCtrl (l * 128) = false →
      let x := s.sliceFor (match (s.dirLine l).owner with
        | some t => quadOf t
        | none => d) l
      x.1 < s.quads.length → x.2 < (s.quads.getD x.1 {}).perf.length →
      Comes s (.patrolScrub d [l]) fun u =>
        let p := (s.quads.getD x.1 {}).perf.getD x.2 {}
        (u.quads.getD x.1 {}).perf.getD x.2 {} = { p with cerr := bump p.cerr 1 }) ∧
    (∀ l, l < 2 ^ 45 → s.populated (l * 128) 128 = true → isCtrl (l * 128) = false →
      ((s.dirLine l).owner = none → Comes s (.eccUncorrectable l) fun u => u.poisoned l = true ∧ u.mem = s.mem ∧
        ∀ m, m ≠ l → u.poisoned m = s.poisoned m) ∧
      (∀ t y, (s.dirLine l).owner = some t → (s.tile t).lineAt l = some y →
        Comes s (.eccUncorrectable l) fun u => u.mem = s.mem ∧ u.poison = s.poison ∧
          (u.tile t).lineAt l = some { y with st := .poisoned })) ∧
    (∀ t l, t < 288 → t < s.tiles.length → l < 8192 → (s.tile t).inRing (128 * l) = true →
      Comes s (.eccUncorrectable (2 ^ 45 + 8192 * t + l)) fun u => u.mem = s.mem ∧ u.poison = s.poison ∧
        l ∈ (u.tile t).ringPoison) ∧
    (∀ d, Unlocked s → d < s.dies.length →
      Comes s (.engineInternalError d .reduction) fun u => BaseUnit.reduction ∈ (die u d).stopped ∧ (die u d).reduceQ = [])

namespace Sys2Proof.Claims

open Machine

/-! ### Command processors and timetables -/

/-- The state with a queue's write index taken and its command processor awake, unless it has halted; the setup window of R12
closes. -/
def notified (s : State) (q n : Nat) (x : BitVec 32) : State :=
  (s.quadsOf (s.partOf q)).foldl (fun (s : State) q => { s with quads := updAt s.quads q fun y => { y with setup := false } })
    (s.modQueue q n fun y => { y with wridx := x, awake := y.awake || !y.halted })

/-- No kernel node of a graph of a queue waits for slots. -/
def NoNodes (s : State) (q n : Nat) : Prop :=
  ∀ l ∈ (part s (s.partOf q)).launches, ¬ (l.node = true ∧ l.quad = q ∧ l.queue = n ∧ l.made < l.spec.count)

end Sys2Proof.Claims

open Sys2Proof Sys2Proof.Machine Sys2Proof.Claims in
/-- R128, R129, R134, R135, R305: a notify write wakes its queue; a halted queue goes on once its descriptor is rewritten; COUNTER_ADD, COPY
and FENCE take effect and are consumed; COUNTER_WAIT is consumed once its counter has reached its target, and its queue
waits until then. That a FENCE which names O writes the partition's dirty lines back, and that a FENCE which names a path shows what came
before it to the tasks that run, is the model's choice (log 10). -/
def Obligations.QueuesRun : Prop :=
  ∀ (s : State) (q n : Nat), Unlocked s →
    (∀ x, s.fenced (s.partOf q) = false → Leaves s (.notifyWrite q n x) ((notified s q n x).lookOn q n)) ∧
    (s.fenced (s.partOf q) = false → (s.queue q n).halted = true → (s.queue q n).rewritten = true →
      s.queueEnabled q n = true →
      Leaves s (.queueResume q n)
        ((s.modQueue q n fun x => { x with halted := false, rewritten := false, awake := true }).lookOn q n)) ∧
    (∀ k w, s.takePacket q n 0x03 = some k → s.hAdd q (byteField k.bytes 8 8) (byteField k.bytes 16 8) = .ok w →
      Leaves s (.counterAdd q n) (w.consume q n k [])) ∧
    (∀ k b, s.takePacket q n 0x04 = some k → s.hReached q (byteField k.bytes 8 8) (byteField k.bytes 16 8) = .ok b →
      Leaves s (.counterWait q n) (if b then s.consume q n k []
        else s.modQueue q n fun x => { x with stall := some (.wait k) })) ∧
    (∀ k b, (s.queue q n).stall = some (.wait k) → s.engineStill (s.partOf q) = false →
      s.hReached q (byteField k.bytes 8 8) (byteField k.bytes 16 8) = .ok b →
      Leaves s (.counterWaitRelease q n) (if b then s.consume q n k [] else s)) ∧
    (∀ k m w, s.takePacket q n 0x05 = some k → s.startCopy q (k.bytes.drop 8) = .ok (m, w) →
      Leaves s (.copy q n) (w.consume q n k [.copy m])) ∧
    (∀ k, s.takePacket q n 0x06 = some k →
      let before := byteField k.bytes 8 1
      let p := s.partOf q
      let v := if before.testBit 5 then s.writeBackAll p else s
      Leaves s (.fencePacket q n) (State.consume (if before % 64 = 0 then v
        else (v.tilesOf p).foldl (fun u t => u.modTile t fun x => { x with clock := max x.clock v.clockMax }) v) q n k []))

open Sys2Proof Sys2Proof.Machine Sys2Proof.Claims in
/-- R131-R133, R139: a LAUNCH of one task, without counters or groups, creates its record with the next task id; one that waits for its
start counter goes on when it is reached; one that stalls on a full commons, of the queue or of a node, goes on; and once
every task has ended, a launch is over, and its counter takes its value. -/
def Sys2Proof.Claims.LaunchesRun : Prop :=
  ∀ (s : State) (q n : Nat), Unlocked s → s.engineStill (s.partOf q) = false →
    (∀ k, s.takePacket q n 0x01 = some k → NoNodes s q n → s.partOf q < s.parts.length →
      s.launchOk (s.partOf q) k.launch = true → k.launch.counter = 0 → k.launch.start = 0 → k.launch.count = 1 →
      (∀ g ∈ k.launch.groups, g = 0) → s.generalFree (s.partOf q) = true →
      (∀ l ∈ (part s (s.partOf q)).launches, l.n ≠ (part s (s.partOf q)).nextLaunch) →
      Comes s (.launch q n) fun u =>
        (part u (s.partOf q)).nextId = (part s (s.partOf q)).nextId + 1 ∧
        ∃ x, (part u (s.partOf q)).commons = (part s (s.partOf q)).commons ++ [x] ∧ x.slot = .general ∧
          x.record.taskid = (part s (s.partOf q)).nextId ∧ x.record.resume = k.launch.entry ∧
          x.record.ctx = BitVec.ofNat 64 k.launch.ctx ∧ x.record.argA = BitVec.ofNat 64 k.launch.argA ∧
          x.record.argB = k.launch.argB ∧ x.record.prio = k.launch.prio ∧ x.record.kernel = k.launch.kernel ∧
          x.record.depth = 0 ∧ x.record.hasctx = false) ∧
    (∀ k b, (s.queue q n).stall = some (.start k) → s.hReached q k.launch.start k.launch.target = .ok b →
      Leaves s (.launchStartRelease q n) (if b then (s.modQueue q n fun x => { x with stall := none }).launchGo q n k else s)) ∧
    (∀ k m, (s.queue q n).stall = some (.create k m) →
      Leaves s (.launch q n) ((s.createAll (s.partOf q) m).launchOn q n k m)) ∧
    (∀ l, (s.queue q n).stall = none → s.stalledNode q n = some l →
      Leaves s (.launch q n) (s.createAll (s.partOf q) l.n)) ∧
    (∀ l, s.launchOf (s.partOf q) n = some l → l.spec.count ≤ l.made → l.spec.count ≤ l.ended.length →
      let v := if l.spec.rel || l.node then s.writeBackAll (s.partOf q) else s
      let v : State := { v with parts := updAt v.parts (s.partOf q) fun x =>
        { x with launches := x.launches.filter fun y => y.n != n } }
      (l.spec.counter = 0 → Leaves s (.launchComplete (s.partOf q) n) v) ∧
      (∀ w, l.spec.counter ≠ 0 → v.hAdd l.quad l.spec.counter l.spec.value = .ok w →
        Leaves s (.launchComplete (s.partOf q) n) w))

open Sys2Proof Sys2Proof.Machine Sys2Proof.Claims in
/-- R135-R138: a GRAPH whose descriptor and ready nodes are sound starts and is consumed; one that is not halts its queue at the packet.
A node whose work is not done stays. One whose work is done completes: a successor that others hold back still has one less to wait for;
a conditional or a while node that it leaves with none reads its word, writes its trace entry, and is to name `s0` and `s1`, or `s0`, where
the word is not zero, and else `s2` and `s3`, or `s2`; and with nothing left the GRAPH is over, and its counter takes its value. That a
node with no predecessor becomes ready whenever it is named is the model's choice (log 79). -/
def Sys2Proof.Claims.GraphsRun : Prop :=
  ∀ (s : State) (q n : Nat), Unlocked s →
    (∀ k, s.takePacket q n 0x02 = some k →
      (∀ m w, s.startGraph q n k = .ok (m, w) → Leaves s (.graph q n) (w.consume q n k [.graph m])) ∧
      (∀ st c, s.startGraph q n k = .error (st, c) → Leaves s (.graph q n) (s.haltAt q n k st c))) ∧
    (∀ i g x, s.graphOf q n = some g → g.nodes[i]? = some x → x.running = true → s.engineStill (s.partOf q) = false →
      (s.nodeDone q x = .ok false → Leaves s (.graphNodeComplete q n i) s) ∧
      (∀ w, s.nodeDone q x = .ok true → (s.others q).completeNode q n i x = .ok w →
        Leaves s (.graphNodeComplete q n i) w) ∧
      (s.nodeDone q x = .ok true → x.again = 0 →
        (∀ j y m z, x.names = [j] → j ≠ i → g.nodes[j]? = some y → 1 < y.left → m ≠ i → g.nodes[m]? = some z → z.running = true →
          Comes s (.graphNodeComplete q n i) fun u => u.mem = s.mem ∧ ∃ h, u.graphOf q n = some h ∧
            h.nodes[i]? = some { x with running := false } ∧ h.nodes[j]? = some { y with left := y.left - 1 } ∧
            ∀ l, l ≠ i → l ≠ j → h.nodes[l]? = g.nodes[l]?) ∧
        (x.names = [] → (∀ j y, j ≠ i → g.nodes[j]? = some y → y.running = false) →
          let va := byteField g.packet.bytes 16 8
          (va = 0 → Comes s (.graphNodeComplete q n i) fun u => u.mem = s.mem ∧ u.graphOf q n = none) ∧
          (∀ pa, va ≠ 0 → (s.others q).hCounter q va = .ok pa → Countable s (s.partOf q) pa →
            Comes s (.graphNodeComplete q n i) fun u => Counted s u pa (byteField g.packet.bytes 24 8) ∧ u.graphOf q n = none)) ∧
        (∀ j y bs w z, x.names = [j] → j ≠ i → g.nodes[j]? = some y → y.left ≤ 1 → y.running = false →
          let v := ((s.others q).modNode q n i fun y => { y with running := false }).modNode q n j fun y => { y with left := y.left - 1 }
          let ty := byteField bs 0 1
          let va := byteField bs 16 8
          let sc (l : Nat) : Nat := byteField bs (4 + 2 * l) 2
          v.hRead q (g.nodesVa + 64 * j) 64 = .ok bs → (ty = 5 ∨ ty = 6) → (∀ l < 4, sc l = 0xFFFF ∨ sc l < g.nodes.length) →
          onlyNamed bs 2 [(4, 12), (16, 24)] = true → va % 8 = 0 → v.hRead q va 8 = .ok w →
          v.engWrite q (s.partOf q) (cellsAt (g.traceVa + 16 * (g.tracePos % g.traceLen))
            (leBytes 2 j ++ leBytes 1 ty ++ leBytes 1 0 ++ leBytes 4 (framePosition s (s.partOf q)) ++ leBytes 8 (leNat w))) = .ok z →
          z.quads = v.quads →
          Comes s (.graphNodeComplete q n i) fun u => u.mem = z.mem ∧ ∃ h e, u.graphOf q n = some h ∧ h.tracePos = g.tracePos + 1 ∧
            h.nodes[j]? = some e ∧ e.running = true ∧ e.left = byteField bs 1 1 ∧
            e.names = (if ty = 5 then (if leNat w ≠ 0 then [sc 0, sc 1] else [sc 2, sc 3])
              else [if leNat w ≠ 0 then sc 0 else sc 2]).filter fun l => l != 0xFFFF)))

open Sys2Proof Sys2Proof.Machine Sys2Proof.Claims in
/-- R142-R147, R152: TT_LOAD and TT_SWAP take a sound table; TT_START anchors frame 0 at a tick at least 2^16 ahead, and halts the queue
otherwise; TT_STOP makes the frame in progress the last; TT_READ writes out and clears the busy/idle table; and frame 0 starts at its
anchor, with the task of its table's entry, argB the frame. What TT_STOP with no frame in progress and TT_LOAD while a timetable runs
leave is the model's choice (log 75). -/
def Obligations.TimetablesRun : Prop :=
  ∀ (s : State) (q n : Nat), Unlocked s →
    let p := s.partOf q
    (∀ k tb, s.takePacket q n 0x10 = some k → s.readTable q k.bytes = .ok tb →
      Leaves s (.ttLoad q n) (State.consume { s with parts := updAt s.parts p fun x => { x with table := some tb } } q n k [])) ∧
    (∀ k tb, s.takePacket q n 0x13 = some k → s.readTable q k.bytes = .ok tb →
      Leaves s (.ttSwap q n)
        (State.consume { s with parts := updAt s.parts p fun x => { x with nextTable := some tb } } q n k [.ttSwap])) ∧
    (∀ k, s.takePacket q n 0x11 = some k → (s.quads.getD p {}).tt = true → (part s p).table.isSome = true →
      (part s p).frames = none → (part s p).pendingStart = none →
      let a := byteField k.bytes 8 8
      (s.refTick + 65536 ≤ a → Leaves s (.ttStart q n) ((State.fullSpeed { s with
        parts := updAt s.parts p fun x => { x with pendingStart := some a } } p).consume q n k [.ttStart])) ∧
      (a < s.refTick + 65536 → Leaves s (.ttStart q n) (s.haltAt q n k 5 none))) ∧
    (∀ k, s.takePacket q n 0x12 = some k →
      Leaves s (.ttStop q n) (State.consume { s with parts := updAt s.parts p fun x => { x with
        frames := x.frames.map fun f => { f with stopping := true } } } q n k [.ttStop])) ∧
    (∀ k w, s.takePacket q n 0x14 = some k → byteField k.bytes 8 8 % 64 = 0 → byteField k.bytes 16 8 = 0 →
      s.engWrite q p (cellsAt (byteField k.bytes 8 8) (s.busyBytes p)) = .ok w →
      Leaves s (.ttRead q n) (State.consume { w with parts := updAt w.parts p fun x => { x with busy := [] } } q n k [])) ∧
    (∀ a tb e t, s.engineStill p = false → p < s.parts.length → (part s p).frames = none →
      (part s p).pendingStart = some a → (part s p).nextTable = none → (part s p).table = some tb → a ≤ s.refTick →
      s.tableIdle tb = true → tb.entries = [e] → e.size = 1 → s.physOf e.lead = some t → t < s.tiles.length →
      t ∈ s.tilesOf p →
      Comes s (.frameStart p) fun u => u.mem = s.mem ∧ (part u p).pendingStart = none ∧
        (part u p).frames = some { table := tb, anchor := a, frame := 0, start := a, slip := 0, stopping := false } ∧
        ∃ j, On u t j ∧ j.pc = e.entry ∧ j.record.tt = true ∧ j.record.kernel = e.kernel ∧
          j.record.taskid = (part s p).nextId ∧ j.regs.sreg 1 = e.argA ∧ j.regs.sreg 2 = 0)

namespace Sys2Proof.Claims

open Machine

/-- A round whose tasks have all reached their sync points, beside which nothing waits for its close. -/
structure QuietRound (s : State) (p : Nat) (r : MergeRound) : Prop where
  round : (part s p).round = some r
  ended : r.running = []
  records : (part s p).deferred = [] ∧ (part s p).entering = []
  waits : s.waiters = [] ∧ s.launchQ = [] ∧ s.heldLines = []
  wf : Memory.wf s.mem = true

end Sys2Proof.Claims

open Sys2Proof Sys2Proof.Machine Sys2Proof.Claims in
/-- R252, R254: a round opens over the records of the commons; it closes once its tasks have reached their sync points, and two tasks
that have written one byte fence the partition instead. At a close the log's bytes reach memory; a held atomic comes before a held add,
whatever their tasks; and the held records enter the commons in ascending task id. That conflicts are found by physical address, and what
a close does where the spec is silent, is the model's choice (log 47). -/
def Obligations.MergeRounds : Prop :=
  ∀ (s : State) (p : Nat), Unlocked s → p < s.parts.length → s.engineStill p = false →
    ((s.quads.getD p {}).mg = true → (part s p).round = none → (∃ q ∈ (part s p).commons, q.record.tt = false) →
      Comes s (.mergeRoundOpen p) fun u => u.mem = s.mem ∧ ∃ r, (part u p).round = some r ∧ r.log = [] ∧ r.ops = [] ∧
        r.running = r.members ∧ ∀ i, i ∈ r.members ↔ ∃ q ∈ (part s p).commons, q.record.tt = false ∧ q.record.taskid = i) ∧
    (∀ r, (part s p).round = some r → r.running = [] →
      (mergeClash (s.mergeBytes p r) = none → Leaves s (.mergeRoundClose p) (s.mergeApply p r)) ∧
      (∀ x, mergeClash (s.mergeBytes p r) = some x →
        Comes s (.mergeRoundClose p) fun u => (part u p).fenced = some .mergeConflict)) ∧
    (∀ r, (part s p).round = some r → r.running ≠ [] → Leaves s (.mergeRoundClose p) s) ∧
    (∀ r, QuietRound s p r →
      (∀ a l x, r.log = [(a, l)] → r.ops = [] → s.access p p l.va .write = .ok x →
        (∀ i < 128, isCtrl (x.pa + i) = false ∧ (s.dirLine (lineOf (x.pa + i))).owner = none) →
        Comes s (.mergeRoundClose p) fun u => (part u p).round = none ∧
          (∀ i < 128, Memory.read u.mem (x.pa + i)
            = if l.mask.getLsbD i then lineByte l.data i else Memory.read s.mem (x.pa + i)) ∧
          ∀ b, (b < x.pa ∨ x.pa + 128 ≤ b) → Memory.read u.mem b = Memory.read s.mem b) ∧
      (∀ a b ctx va n x e f l, r.log = [] → r.ops = [(a, .add va n e), (b, .amo ctx 0 .swap true va x 0 f)] → va % 8 = 0 →
        s.cached p p va = some l → s.access p p va .both = .ok l → s.access p p va .write = .ok l → l.ms = true → l.pa % 8 = 0 →
        l.pa + 8 ≤ ctrlBase → (s.dirLine (lineOf l.pa)).owner = none → s.poisoned (lineOf l.pa) = false →
        Comes s (.mergeRoundClose p) fun u => (part u p).round = none ∧
          leNat (Memory.range u.mem l.pa 8) = min (x.toNat + n.toNat) (2 ^ 64 - 1) ∧
          ∀ c, (c < l.pa ∨ l.pa + 8 ≤ c) → Memory.read u.mem c = Memory.read s.mem c) ∧
      (∀ a b x y, r.log = [] → r.ops = [(a, .enqueue x false), (b, .enqueue y false)] →
        ((part s p).commons.filter fun q => q.slot == .general).length + 2 ≤ 2 ^ (s.quads.getD p {}).lk.toNat →
        let at_ (z : Record) : Queued := { record := z, slot := .general, stamp := s.clockMax }
        Comes s (.mergeRoundClose p) fun u => u.mem = s.mem ∧ (part u p).round = none ∧ (part u p).commons = (part s p).commons
          ++ if a.toNat ≤ b.toNat then [at_ x, at_ y] else [at_ y, at_ x]))


namespace Sys2Proof.Claims

open Machine

/-! ### Peer ports -/

/-- What a port sends while its link is up. -/
def sent (s : State) (p : Nat) (fs : List LinkFrame) : List Output :=
  s.outputs ++ if (s.port p).up then fs.map fun f => .frame p ((s.port p).learned.getD 0xFF) f else []

/-- The ACK that names the last frame taken in order (R298). -/
def ackOf (s : State) (p : Nat) : LinkFrame := .ack ((s.port p).recvSeq - 1)

end Sys2Proof.Claims

open Sys2Proof Sys2Proof.Machine Sys2Proof.Claims in
/-- R297, R298: a queue message of one fragment leaves for its channel and takes its credits; an ACK frees the frames that it names, or
has those after it sent again; a CREDIT sets or raises a channel's credits; 1 µs with a frame taken, or a frame that is not taken,
brings an ACK, and 20 µs without an ACK the frames held again. -/
def Sys2Proof.Claims.LinksSend : Prop :=
  ∀ (s : State) (p : Nat), Unlocked s → p < s.ports.length → (s.port p).up = true → (s.port p).pairOut = [] →
    (∀ c m bs, s.nextSend p c = some m → m.data = some bs → bs.length = m.len → 0 < m.len → m.len ≤ 8192 →
      creditsOf m.len ≤ (s.chan p c).credits → (s.port p).pending.length < 256 → c < (s.port p).chans.length →
      Comes s (.messageSend p c) fun u => u.mem = s.mem ∧
        (u.chan p c).credits = (s.chan p c).credits - creditsOf m.len ∧
        (u.port p).sendSeq = (s.port p).sendSeq + 1 ∧
        u.outputs = sent s p [.data { ch := BitVec.ofNat 5 c, first := true, last := true, queue := true, seq := (s.port p).sendSeq, arg := 0, payload := leBytes 4 bs.length ++ leBytes 4 (crc32c bs).toNat ++ bs }]) ∧
    (∀ src seq,
      let n := (seq + 1 - ((s.port p).sendSeq - BitVec.ofNat 32 (s.port p).unacked.length)).toNat
      n < 2 ^ 31 →
      ((s.port p).acked < n → n ≤ (s.port p).unacked.length →
        Comes s (.ack p src seq) fun u => u.mem = s.mem ∧ u.outputs = s.outputs ∧
          (u.port p).pending = (s.port p).unacked.drop n ∧ (u.port p).ackAt = s.refTick) ∧
      (n ≤ (s.port p).acked → (s.port p).acked ≤ (s.port p).unacked.length →
        Comes s (.ack p src seq) fun u => u.mem = s.mem ∧
          u.outputs = sent (s.learn p src) p ((s.port p).unacked.drop n)) ∧
      ((s.port p).unacked.length < n →
        Comes s (.ack p src seq) fun u => u.outputs = s.outputs ∧ (u.port p).unacked = (s.port p).unacked)) ∧
    (∀ src (c : BitVec 5) reset (n : BitVec 32), c.toNat < (s.port p).chans.length →
      Comes s (.credit p src c reset n) fun u => u.mem = s.mem ∧
        (u.chan p c.toNat).credits = if reset then n.toNat else (s.chan p c.toNat).credits + n.toNat) ∧
    (0 < (s.port p).sinceAck → (s.port p).takenAt + 219 ≤ s.refTick →
      Comes s (.ackTimer p) fun u => (u.port p).sinceAck = 0 ∧ u.outputs = sent s p [ackOf s p]) ∧
    ((s.port p).pending ≠ [] → (s.port p).ackAt + 4375 ≤ s.refTick →
      Comes s (.resendTimeout p) fun u => u.outputs = sent s p (s.port p).pending ∧
        (u.port p).unacked = (s.port p).unacked ∧ (u.port p).ackAt = s.refTick) ∧
    (∀ src, Comes s (.frameNotTaken p src .badFcs) fun u => u.outputs = sent s p [ackOf s p] ∧ u.mem = s.mem) ∧
    (∀ src, Comes s (.frameNotTaken p src .unexpectedSeq) fun u => u.outputs = sent (s.learn p src) p [ackOf s p] ∧
      u.mem = s.mem) ∧
    (∀ src, Comes s (.frameNotTaken p src .unknownType) fun u => u.outputs = s.outputs ∧ u.mem = s.mem)

open Sys2Proof Sys2Proof.Machine Sys2Proof.Claims in
/-- R295-R298: a DATA or PAIR frame out of order is dropped and answered with an ACK; one in order is taken, and the eighth since the
last ACK brings one; a whole message in order reaches its stream channel's buffer; a channel that is enabled grants its buffer, and
one that is disabled is emptied and withdraws it. -/
def Sys2Proof.Claims.LinksTake : Prop :=
  ∀ (s : State) (p : Nat), Unlocked s → p < s.ports.length → (s.port p).up = true → (s.port p).learned.isSome = true →
    (∀ src (f : DataFrame), f.seq ≠ (s.port p).recvSeq →
      Comes s (.data p src f) fun u => u.mem = s.mem ∧ u.outputs = sent s p [ackOf s p] ∧
        (u.port p).recvSeq = (s.port p).recvSeq) ∧
    (∀ src (f : DataFrame), f.seq = (s.port p).recvSeq → (s.port p).sinceAck < 7 → f.first = true → f.last = false →
      Comes s (.data p src f) fun u => u.mem = s.mem ∧ u.outputs = s.outputs ∧
        (u.port p).recvSeq = (s.port p).recvSeq + 1 ∧ (u.port p).part = f.payload.drop 8) ∧
    (∀ src (f : DataFrame) bs, f.seq = (s.port p).recvSeq → (s.port p).sinceAck < 7 → f.first = true → f.last = true →
      f.payload = leBytes 4 bs.length ++ leBytes 4 (crc32c bs).toNat ++ bs → bs.length < 2 ^ 32 →
      f.ch.toNat < (s.port p).chans.length → (s.chan p f.ch.toNat).en = true → (s.chan p f.ch.toNat).dep = false →
      Comes s (.data p src f) fun u => u.mem = s.mem ∧ (u.port p).recvSeq = (s.port p).recvSeq + 1 ∧
        (u.chan p f.ch.toNat).skew = (s.chan p f.ch.toNat).skew ++ bs) ∧
    (∀ src seq ms, seq ≠ (s.port p).recvSeq →
      Comes s (.pair p src seq ms) fun u => u.mem = s.mem ∧ u.outputs = sent s p [ackOf s p]) ∧
    (∀ src seq, seq = (s.port p).recvSeq → (s.port p).sinceAck < 7 →
      Comes s (.pair p src seq []) fun u => u.outputs = s.outputs ∧ (u.port p).recvSeq = (s.port p).recvSeq + 1) ∧
    (∀ src seq, seq = (s.port p).recvSeq → (s.port p).sinceAck = 7 →
      Comes s (.pair p src seq []) fun u => u.outputs = sent s p [.ack seq] ∧ (u.port p).sinceAck = 0 ∧
        (u.port p).recvSeq = (s.port p).recvSeq + 1) ∧
    (∀ c, c < (s.port p).chans.length → (s.chan p c).en = false →
      Comes s (.channelEnable p c) fun u => u.mem = s.mem ∧ (u.chan p c).en = true ∧
        u.outputs = sent s p [.credit (BitVec.ofNat 5 c) true 128]) ∧
    (∀ c, c < (s.port p).chans.length → (s.chan p c).en = true → (∀ t, (s.tile t).hold ≠ some (.recv p c)) →
      Comes s (.channelDisable p c) fun u => u.mem = s.mem ∧ (u.chan p c).en = false ∧ (u.chan p c).skew = [] ∧
        (u.chan p c).holder = none ∧ u.outputs = sent s p [.credit (BitVec.ofNat 5 c) true 0])

open Sys2Proof Sys2Proof.Machine Sys2Proof.Claims in
/-- R140, R292, R298, R299: a link that trains sends again the frames held and grants the buffers of its enabled channels; one that is
lost keeps its frames; a PTP message of the selected port sets the reference tick, one of the other does not; lock is lost; and the
host port takes the rate that has been selected. -/
def Sys2Proof.Claims.LinksAndClock : Prop :=
  ∀ (s : State),
    (∀ p, p < s.ports.length → Comes s (.linkTraining p) fun u => u.mem = s.mem ∧ (u.port p).up = true ∧
      (u.port p).learned = none ∧ (∀ f ∈ (s.port p).pending, Output.frame p 0xFF f ∈ u.outputs) ∧
      ∀ c < 32, (s.chan p c).en = true → Output.frame p 0xFF (.credit (BitVec.ofNat 5 c) true 128) ∈ u.outputs) ∧
    (∀ p, (p < 14 ∨ (s.port (29 - p)).up = false) → p < s.ports.length →
      Comes s (.linkDown p) fun u => u.mem = s.mem ∧ u.outputs = s.outputs ∧
        (u.port p).up = false ∧ (u.port p).unacked = (s.port p).unacked) ∧
    (∀ port tick, (port = 1 ↔ s.dev.ptp = true) →
      Leaves s (.ptpMessage port tick) { s with refTick := tick.toNat, ptpLock := true }) ∧
    (∀ port tick, ¬ (port = 1 ↔ s.dev.ptp = true) → Leaves s (.ptpMessage port tick) s) ∧
    (Unlocked s → Comes s .ptpLockLoss fun u => u.ptpLock = false) ∧
    (Leaves s .hostPortLinkTraining { s with dev := { s.dev with rate := s.dev.mode } })

namespace Sys2Proof.Claims

open Machine

/-! ### The host port, the loader and resets -/

/-- An answer of the queue transport: address, length and opcode word of the request, the status, the data (R292). -/
def answerTo (addr : BitVec 64) (len op : Nat) (seq : BitVec 16) (ok : Bool) (data : List Byte) : List Byte :=
  leBytes 8 addr.toNat ++ leBytes 4 len ++ leBytes 4 (seq.toNat * 65536 + op + 0x80) ++ leBytes 4 (if ok then 0 else 0xFF) ++ data

/-- The source of the queue transport with its next number expected and an answer recorded. -/
def answered (q : QtSource) (seq : BitVec 16) (ans : List Byte) : QtSource :=
  { q with expect := q.expect + 1, answers := ((seq, ans) :: q.answers).take 256 }

end Sys2Proof.Claims

open Sys2Proof Sys2Proof.Machine Sys2Proof.Claims in
/-- R4, R292, R293: a host read answers the bytes it names, or a remote-access NAK; a host write is performed, or changes nothing; the
queue transport performs a request once, in the order of its numbers, and repeats the recorded answer; and a register
takes a privileged write alone. -/
def Obligations.HostAccesses : Prop :=
  ∀ (s : State), Unlocked s →
    (∀ conn a n bs, s.hostRead a.toNat n = some bs →
      Comes s (.rdmaRead conn a n) fun u => u.mem = s.mem ∧ u.outputs = s.outputs ++ [.rdmaData conn bs]) ∧
    (∀ conn a n, s.hostRead a.toNat n = none →
      Leaves s (.rdmaRead conn a n) { s with outputs := s.outputs ++ [.rdmaNak conn] }) ∧
    (∀ conn a bs w, s.hostWrite a.toNat bs = some w →
      Comes s (.rdmaWrite conn a bs) fun u => u.mem = w.mem ∧ u.outputs = w.outputs ++ [.rdmaDone conn]) ∧
    (∀ conn a bs, s.hostWrite a.toNat bs = none →
      Leaves s (.rdmaWrite conn a bs) { s with outputs := s.outputs ++ [.rdmaNak conn] }) ∧
    (∀ src seq a n q bs, (s.qt.find? fun q => q.src == src) = some q → n ≤ 8192 → a.toNat < 2 ^ 56 →
      (seq = q.expect → s.hostRead a.toNat n = some bs →
        Comes s (.queueTransportRead src seq a n) fun u => u.mem = s.mem ∧
          u.outputs = s.outputs ++ [.answer src (answerTo a n 1 seq true bs)] ∧
          u.qt = answered q seq (answerTo a n 1 seq true bs) :: s.qt.filter fun x => x.src != src) ∧
      (∀ ans, 0 < (q.expect - seq).toNat → (q.expect - seq).toNat ≤ 256 → (q.answers.find? fun x => x.1 == seq) = some (seq, ans) →
        Leaves s (.queueTransportRead src seq a n) { s with outputs := s.outputs ++ [.answer src ans] }) ∧
      (256 < (q.expect - seq).toNat → Leaves s (.queueTransportRead src seq a n) s)) ∧
    (∀ src seq a bs q w, (s.qt.find? fun q => q.src == src) = some q → bs.length ≤ 8192 → a.toNat < 2 ^ 56 →
      (seq = q.expect → s.hostWrite a.toNat bs = some w →
        Comes s (.queueTransportWrite src seq a bs) fun u => u.mem = w.mem ∧
          u.outputs = w.outputs ++ [.answer src (answerTo a bs.length 2 seq true [])])) ∧
    (∀ v : Word64, Leaves s (.registerWrite 0x20018 v 0xFF true) { s with dev := { s.dev with cap := v.extractLsb' 0 16 } }) ∧
    (∀ off v be, 0x20000 ≤ off → off < 0x21000 → Leaves s (.registerWrite off v be false) s) ∧
    (∀ q n (v : Word64), q < 8 → n < 64 → s.fenced (s.partOf q) = false →
      exec (.registerWrite (0x10000 + 0x1000 * q + 8 * n) v 0x0F true) s = exec (.notifyWrite q n (v.setWidth 32)) s)

open Sys2Proof Sys2Proof.Machine Sys2Proof.Claims in
/-- R301: a request that fails a check gives its status and loads nothing; one of op 0 that passes seals its entry, loads the image's
kernels and gives 0; an entry whose tag is not that of the image is rejected. The tag is a free function (log 14), and how an image is
laid out and checked where the spec is silent is the model's choice (log 52). -/
def Obligations.LoaderAnswers : Prop :=
  ∀ (s : State), Unlocked s → s.dev.status = 0xFF →
    let p := s.dev.lpart.toNat
    let img := s.dev.img.toNat
    let ent := s.dev.ent.toNat
    let done (st : Nat) : State := { s with dev := { s.dev with status := BitVec.ofNat 8 st } }
    (s.dev.op = false →
      (∀ st, s.checkImage p img = (st, none) → Leaves s .loaderCheckSeal (done st)) ∧
      (img % 4096 ≠ 0 → Leaves s .loaderCheckSeal (done 1)) ∧
      (∀ st h es bytes w, s.checkImage p img = (st, some (h, es)) → s.imageBytes p img h.length = some bytes → ent % 64 = 0 →
        let nonce := Config.loaderNonce s.free
        let parts := entryParts h.length nonce s.fixed.stepping.toNat h.gen
        let tag := Config.loaderTag nonce (parts.1 ++ parts.2 ++ bytes)
        s.engWrite p p (cellsAt ent (parts.1 ++ leBytes 16 tag.toNat ++ parts.2)) = .ok w → w.parts = s.parts → p < s.parts.length →
        Comes s .loaderCheckSeal fun u => u.mem = w.mem ∧ u.dev.status = 0 ∧
          ∀ e ∈ es, ∃ x ∈ (part u p).kernels, x.id = BitVec.ofNat 16 e.id ∧ x.img = img ∧ x.text = e.text ∧ x.gen = h.gen)) ∧
    (s.dev.op = true →
      (img % 4096 ≠ 0 → Leaves s .loaderLoadEntry (done 1)) ∧
      (img % 4096 = 0 → ent % 64 ≠ 0 → Leaves s .loaderLoadEntry (done 5)) ∧
      (∀ e bytes h, img % 4096 = 0 → ent % 64 = 0 → s.imageBytes p ent 64 = some e → img + byteField e 0 8 ≤ 2 ^ 52 →
        s.imageBytes p img (byteField e 0 8) = some bytes → (s.imageBytes p img 64).bind imageHeader = some h →
        let tag := Config.loaderTag (BitVec.ofNat 96 (byteField e 8 12)) (e.take 20 ++ e.drop 36 ++ bytes)
        (leBytes 16 tag.toNat ≠ (e.drop 20).take 16 → Leaves s .loaderLoadEntry (done 5)) ∧
        (∀ es, leBytes 16 tag.toNat = (e.drop 20).take 16 → s.kernelEntries p img h = some es →
          Comes s .loaderLoadEntry fun u => u.mem = s.mem ∧ u.dev.status = 0)))

open Sys2Proof Sys2Proof.Machine Sys2Proof.Claims in
/-- R10, R62, R294, R302, R303: a device reset gives every register its reset value and keeps the Fixed registers; the self-test binds
the syllables of working units and raises ready; a layout takes one of its two shapes while no task runs; a partition
reset clears its commons and restarts its task ids; and power management raises an island of a tile, and lowers one that is not
pinned where no partition that runs fewer tasks still has one to lower; where it has to lower a pinned one, the partition is fenced.
What a device reset leaves undefined is free (log 15); which islands there are (log 20), what a partition reset keeps (log 49) and when
a layout is taken (log 50) are the model's choices. -/
def Obligations.ResetsAndPower : Prop :=
  ∀ (s : State),
    (∀ i, i = .deviceReset ∨ i = .powerOnReset → Comes s i fun u => u.dev = State.reset.dev ∧ u.parts = State.reset.parts ∧
      u.quads = State.reset.quads ∧ u.ports = State.reset.ports ∧ u.dies = State.reset.dies ∧ u.refTick = 0 ∧
      u.poison = [] ∧ u.saved = [] ∧ ∀ t, (u.tile t).task = none ∧ (u.tile t).stash = [] ∧ (u.tile t).beat = 0) ∧
    (s.dev.ready = false →
      Comes s (.selfTest []) fun u => u.dev.ready = true ∧ u.mem = s.mem ∧ u.quads = s.quads ∧
        ∀ t < s.tiles.length, (u.tile t).sa = 0 ∧ (u.tile t).sb = 1 ∧ (u.tile t).va = 0 ∧ (u.tile t).vb = 1 ∧
          (u.tile t).splits = false ∧ (u.tile t).splitv = false ∧ (u.tile t).life = (s.tile t).life) ∧
    (∀ v, Comes s (.partitionLayout v) fun u => u.mem = s.mem ∧ u.tiles = s.tiles ∧
      ((v = 0 ∨ v = 0xFF) → (∀ x ∈ s.tiles, x.task = none) → u.dev.layout = v) ∧
      (v ≠ 0 ∧ v ≠ 0xFF → u.dev.layout = s.dev.layout)) ∧
    (∀ p, p ∈ s.partitions → p < s.parts.length →
      Comes s (.partitionReset p) fun u => (part u p).commons = [] ∧ (part u p).nextId = 1 ∧ (part u p).tensors = [] ∧
        (part u p).kernels = (part s p).kernels ∧ (part u p).fenced = none ∧ (∀ t ∈ s.tilesOf p, (u.tile t).task = none)) ∧
    (∀ t v, Unlocked s → (v ≠ .off ∨ (s.tile t).life = .spare) →
      (pointRank (s.tile t).point ≤ pointRank v ∨
        s.islandPinned (.tile t) = false ∧ s.othersFirst (s.partOf (quadOf t)) = false) →
      Leaves s (.powerCapAdjust (.tile t) v) (s.modTile t fun x => { x with point := v })) ∧
    (∀ i v, Unlocked s → pointRank v < pointRank (s.pointOf i) → s.islandPinned i = true → s.islandPart i < s.parts.length →
      (∀ q ∈ s.partitions, ∀ x ∈ s.islandsOf q, s.lowerable x = false) →
      Comes s (.powerCapAdjust i v) fun u => (part u (s.islandPart i)).fenced.isSome = true)

namespace Sys2Proof.Claims

open Machine

/-! ### Registers, tags and memory -/

/-- What a result that lands leaves in a register file: R52 for the registers, R78 for `s0` and `q0`, R159 for the bits
of a vector register that the mask leaves. -/
def Lands (r : Regs) (w : Wr) : Prop :=
  let t := r.apply w
  (∀ n v, w = .s n v → n.toNat < r.s.length →
    t.sreg n = (if n = 0 then 0 else v) ∧ (∀ m, m ≠ n → t.sreg m = r.sreg m)
    ∧ t.v = r.v ∧ t.q = r.q ∧ t.a = r.a ∧ t.b = r.b ∧ t.bd = r.bd ∧ t.tags = r.tags)
  ∧ (∀ n v, w = .q n v → n.toNat < r.q.length →
    t.qreg n = (decide (n = 0) || v) ∧ (∀ m, m ≠ n → t.qreg m = r.qreg m)
    ∧ t.s = r.s ∧ t.v = r.v ∧ t.a = r.a ∧ t.b = r.b ∧ t.bd = r.bd ∧ t.tags = r.tags)
  ∧ (∀ n v m, w = .v n v m → n.toNat < r.v.length →
    (∀ i, i < 4096 → (t.vreg n).getLsbD i = if m.getLsbD i then v.getLsbD i else (r.vreg n).getLsbD i)
    ∧ (∀ k, k ≠ n → t.vreg k = r.vreg k)
    ∧ t.s = r.s ∧ t.q = r.q ∧ t.a = r.a ∧ t.b = r.b ∧ t.bd = r.bd ∧ t.tags = r.tags)

/-- What a tag write leaves: the tag of its register, none of `s0` and `q0` (R165). -/
def Tagged (r : Regs) (x : Reg) (g : Word32) : Prop :=
  let t := r.setTag x g
  (x.code < r.tags.length → t.tag x = if x = .s 0 ∨ x = .q 0 then 0 else g)
  ∧ (∀ y : Reg, y.code ≠ x.code → t.tag y = r.tag y)
  ∧ t.s = r.s ∧ t.v = r.v ∧ t.q = r.q ∧ t.a = r.a ∧ t.b = r.b ∧ t.bd = r.bd

/-- The lineage functions of R71, on natural numbers. -/
def mixSteps (x : Nat) : Nat :=
  let x := x ^^^ (x / 2 ^ 16)
  let x := x * 0x7FEB352D % 2 ^ 32
  let x := x ^^^ (x / 2 ^ 15)
  let x := x * 0x846CA68B % 2 ^ 32
  x ^^^ (x / 2 ^ 16)
def rotated (w x n : Nat) : Nat := (x * 2 ^ n ||| x / 2 ^ (w - n)) % 2 ^ w

/-- The bank and the number of a register (R165). -/
def bankOf : Reg → Nat × Nat
  | .s n => (0, n.toNat)
  | .v n => (1, n.toNat)
  | .a n => (2, n.toNat)
  | .q n => (3, n.toNat)
  | .b n => (3, 8 + n.toNat)
  | .mask .va => (3, 16)
  | .mask .vb => (3, 17)
  | .bd n => (3, 32 + n.toNat)
  | .g n => (3, 48 + n.toNat)
  | .dq n => (3, 56 + n.toNat)

/-- The operation codes of R96 in a slot. -/
def unassigned : Slot → BitVec 6 → Bool
  | .c, c => decide (0x10#6 ≤ c)
  | .m, c => decide (c = 0x00#6 ∨ c = 0x06#6 ∨ c = 0x07#6 ∨ 0x0B#6 ≤ c)
  | .l, c => decide (c = 0x00#6 ∨ 0x0C#6 ≤ c)
  | .d, c => decide (c = 0x00#6 ∨ 0x13#6 ≤ c)
  | .t, c => decide (c = 0x00#6 ∨ 0x06#6 ≤ c)
  | _, _ => true

/-- The unassigned codes of R96 in a control word of class 1 and of class 2. -/
def unassignedScalar (c : BitVec 8) : Bool :=
  decide (c = 0x00#8 ∨ c = 0x06#8 ∨ c = 0x07#8 ∨ c = 0x0F#8 ∨ c = 0x17#8 ∨ (0x1C#8 ≤ c ∧ c ≤ 0x1F#8)
    ∨ (0x22#8 ≤ c ∧ c ≤ 0x27#8) ∨ 0x2B#8 ≤ c)
def unassignedVector (c : BitVec 8) : Bool :=
  decide (c = 0x00#8 ∨ (0x0D#8 ≤ c ∧ c ≤ 0x0F#8) ∨ c = 0x16#8 ∨ c = 0x17#8 ∨ (0x1D#8 ≤ c ∧ c ≤ 0x1F#8) ∨ c = 0x23#8
    ∨ 0x2C#8 ≤ c)

/-- The control word whose top word is given, with an immediate A. -/
def hcwOf (top imm : Word64) : Word256 := top ++ 0#128 ++ imm

/-- A control word of the spec's examples: operation, immediate bit, destination and source 1, with a format and an
immediate A. -/
def plainHcw (imm : Bool) (dst src1 : BitVec 6) (fmt : BitVec 8) (a : Word64) : Hcw :=
  { imm := imm, round := 0, sat := false, uns := false, dst := dst, src1 := src1, src2 := 0, src3 := 0, reloc := 0
    fmt := fmt, shape := 0, pen := false, pq := 0, psense := false, immA := a }

/-- Record r of R291, at the next place of the log of R290. -/
def slotOf (q : Quad) : Nat := q.lbase.toNat * 64 + 64 * (q.lwr.toNat % 2 ^ q.llen.toNat)

end Sys2Proof.Claims

open Sys2Proof Sys2Proof.Machine Sys2Proof.Claims in
/-- R71: the three lineage functions. -/
def Obligations.LineageFunctions : Prop :=
  (∀ x : Word32, (mix32 x).toNat = mixSteps x.toNat)
  ∧ (∀ (x : Word32) (n : Nat), 0 < n → n < 32 → (rotl32 x n).toNat = rotated 32 x.toNat n)
  ∧ ∀ (x : Word64) (n : Nat), 0 < n → n < 64 → (rotl64 x n).toNat = rotated 64 x.toNat n

open Sys2Proof Sys2Proof.Machine Sys2Proof.Claims in
/-- R165: the bank and the number of every tagged register, in the destcode of R72 and in the entry tag; destcode 0xFF where
no register is written; `s0` and `q0` always carry tag 0, and a tag written to either is discarded. -/
def Obligations.RegisterTags : Prop :=
  (∀ x : Reg, (bankOf x).2 < 64 ∧ x.code = (bankOf x).1 * 64 + (bankOf x).2
    ∧ destcodeOf (some x) = (bankOf x).1 <<< 6 ||| (bankOf x).2
    ∧ canonTag x.code = mix32 (BitVec.ofNat 32 (0x5EA10000 ||| (bankOf x).1 <<< 8 ||| (bankOf x).2)))
  ∧ (∀ x y : Reg, x.code = y.code → x = y)
  ∧ destcodeOf none = 0xFF
  ∧ (∀ r : Regs, r.tag (.s 0) = 0 ∧ r.tag (.q 0) = 0)
  ∧ ∀ (r : Regs) (g : Word32), r.setTag (.s 0) g = r ∧ r.setTag (.q 0) g = r

open Sys2Proof Sys2Proof.Machine Sys2Proof.Claims in
/-- R52, R78, R159, R165: a result that lands writes its register and no other: what is written to `s0` or `q0` is
discarded, a vector register takes the bits that the mask selects, and a tag goes to its register alone, `s0` and `q0`
keeping tag 0. -/
def Obligations.Destinations : Prop :=
  ∀ (r : Regs) (w : Wr) (x : Reg) (g : Word32), Lands r w ∧ Tagged r x g

open Sys2Proof Sys2Proof.Machine Sys2Proof.Claims in
/-- R290, R291: a record of an event of a partition whose log is on, whose counter field is 0 and whose log page may be
written is stored as 64 bytes at lbase + 64 × (lwr mod 2^llen), in the fields of R291, and lwr increments; every other byte
of memory is as it was. Memory is in its canonical form, and no stash holds a line of the record. The mesh field of an event of no tile
is the model's choice (log 25). -/
def Obligations.FaultLog : Prop :=
  ∀ (s : State) (p : Nat) (r : LogRec) (l : Leaf), p < s.quads.length →
    (s.quads.getD p {}).llen ≠ 0 → (s.quads.getD p {}).lctr = 0 → Memory.wf s.mem = true →
    s.access p p (slotOf (s.quads.getD p {})) .write = .ok l →
    (∀ k < 64, isCtrl (l.pa + k) = false ∧ (s.dirLine (lineOf (l.pa + k))).owner = none) →
    ((s.log p r).quads.getD p {}).lwr = (s.quads.getD p {}).lwr + 1
    ∧ (∀ k < 64, Memory.read (s.log p r).mem (l.pa + k) = (s.logBytes r).getD k 0)
    ∧ (∀ a, (a < l.pa ∨ l.pa + 64 ≤ a) → Memory.read (s.log p r).mem a = Memory.read s.mem a)
    ∧ (s.logBytes r).length = 64
    ∧ (s.logBytes r).take 16 = leBytes 8 s.refTick ++ leBytes 1 r.cause.code.toNat ++ leBytes 1 r.cls.code
        ++ leBytes 2 (bitNat r.clamp + 2 * bitNat r.transient)
        ++ leBytes 2 (match r.tile with | some t => (s.logicalOf t).getD 0xFFFF | none => 0xFFFF)
        ++ leBytes 2 (match r.tile with | some t => (meshOf t).toNat | none => 0xFFFF)
    ∧ (s.logBytes r).drop 16 = leBytes 8 r.task.toNat ++ leBytes 8 r.bundle ++ leBytes 8 r.data ++ leBytes 8 r.a
        ++ leBytes 8 r.b ++ leBytes 8 r.c

namespace Sys2Proof.Claims

open Machine

/-- The register files at their sizes (R78, R193, R215). -/
def FilesOk (r : Regs) : Prop :=
  r.s.length = 64 ∧ r.v.length = 32 ∧ r.q.length = 8 ∧ r.a.length = 8 ∧ r.b.length = 8 ∧ r.bd.length = 16 ∧ r.rings.length = 8 ∧
    r.dqs.length = 4 ∧ r.tags.length = 256

/-- The files of a task: those it works on, and those of its checkpoint. -/
def TaskFiles (k : Task) : Prop := FilesOk k.regs ∧ ∀ c, k.ckpt = some c → FilesOk c

/-- The files of every task that the machine holds: on the tiles, in the blocks whose comparison is pending, and among those set
aside. -/
def RegisterFiles (s : State) : Prop :=
  (∀ x ∈ s.tiles, (∀ k, x.task = some k → TaskFiles k) ∧ ∀ p ∈ x.pairPend, TaskFiles p.before ∧ TaskFiles p.after) ∧
    ∀ e ∈ s.saved, TaskFiles e.task

end Sys2Proof.Claims

open Sys2Proof Sys2Proof.Machine Sys2Proof.Claims in
/-- R12, R14, R62, R112, R113, R290, R294, R303: the reset values that the spec gives: the device page, the control pages,
the registers that a task starts with, and no task anywhere; memory is in its canonical form, and every register file has its registers.
The contents of memory after reset are the model's choice
(log 3), as is the stepping (log 4). -/
def Obligations.ResetState : Prop :=
  State.reset.dev = { mode := 0, rate := 0, ptp := false, ready := false, layout := 0, resv := 0, resvOpen := true
                      cap := 2400, img := 0, ent := 0, status := 0, op := false, lpart := 0 }
  ∧ State.reset.tiles.length = 288
  ∧ (∀ t, (State.reset.tile t).task = none)
  ∧ (∀ q, let x := State.reset.quads.getD q {}
      x.root = 0 ∧ x.en = false ∧ x.lwd = 24 ∧ x.llen = 0 ∧ x.lwr = 0 ∧ x.lctr = 0 ∧ x.halt = false ∧ x.evt = false
      ∧ x.ten = false ∧ x.wcwait = 2048 ∧ x.pair = false ∧ x.mg = false ∧ x.tt = false ∧ x.lk = 10 ∧ x.gbase = 0
      ∧ x.qbase = 0 ∧ x.mbase = 0 ∧ x.mlen = 0 ∧ x.token = 0)
  ∧ (∀ p, (State.reset.parts.getD p {}).nextId = 1 ∧ (State.reset.parts.getD p {}).commons = []
      ∧ (State.reset.parts.getD p {}).tensors = [])
  ∧ State.reset.logicalOf 0 = some 0 ∧ State.reset.logicalOf 32 = none
  ∧ Memory.wf State.reset.mem = true
  ∧ (∀ n, ({} : Regs).sreg n = 0) ∧ (∀ n, ({} : Regs).vreg n = 0) ∧ (∀ n, ({} : Regs).qreg n = decide (n = 0))
  ∧ ({} : Regs).vshape = 0x0143 ∧ ({} : Regs).round = 1 ∧ ({} : Regs).pbound = 4096 ∧ ({} : Regs).fpflags = 0
  ∧ ({} : Regs).fptrap = 0 ∧ FilesOk {} ∧ RegisterFiles State.reset

open Sys2Proof Sys2Proof.Machine Sys2Proof.Claims in
/-- A step runs the event at the head of the agenda, after its reference ticks; an event that names a unit that does not
exist stops it. An instruction placed for the next step is issued by it: the step is the issue of the bundle on tile 0, from
the bytes that were stored. That the agenda orders the events is the model's (log 1, log 5). -/
def Obligations.StepRuns : Prop :=
  (∀ (s : State) (e : Sched) (rest : List Sched), s.agenda = e :: rest → e.ev.wf = true →
    step s = exec e.ev (State.pass { s with agenda := rest } e.ticks))
  ∧ (∀ (s : State) (e : Sched) (rest : List Sched), s.agenda = e :: rest → e.ev.wf = false → step s = .fault .illFormed)
  ∧ (∀ s : State, s.agenda = [] → ∀ i, s.next = some i → step s = exec i (s.pass 1))
  ∧ (∀ s : State, s.agenda = [] → s.next = none → step s = .next (s.pass 1))
  ∧ (∀ (s : State) (n : Nat), 0 < n → (s.pass n).refTick = s.refTick + n ∧ (s.pass n).mem = s.mem
      ∧ (s.pass n).agenda = s.agenda)
  ∧ (∀ s : State, s.pass 0 = s)
  ∧ (∀ (s : State) (nbits w : Nat), ∃ rest,
      (s.withFetchWord nbits w).agenda = { ticks := 0, ev := .bundleIssue 0 } :: rest
      ∧ step (s.withFetchWord nbits w) = exec (.bundleIssue 0) { s.withFetchWord nbits w with agenda := rest })

open Sys2Proof Sys2Proof.Machine Sys2Proof.Claims in
/-- Every step answers: from every state the machine goes on to a next state, unless the agenda names a unit that does not
exist. No instruction is refused. That an event which is not enabled goes on with nothing done is the model's choice (logs 1, 2). -/
def Obligations.StepAnswers : Prop :=
  (∀ (i : Instr) (s : State), ∃ t, exec i s = .next t)
  ∧ ∀ s : State, (∃ t, step s = .next t)
      ∨ (step s = .fault .illFormed ∧ ∃ e rest, s.agenda = e :: rest ∧ e.ev.wf = false)

open Sys2Proof Sys2Proof.Machine Sys2Proof.Claims in
/-- R294: no step changes a register whose access is Fixed, whatever the instruction and the state. -/
def Obligations.FixedKept : Prop :=
  ∀ s t : State, step s = .next t → t.fixed = s.fixed

open Sys2Proof Sys2Proof.Machine Sys2Proof.Claims in
/-- Every step keeps memory in its canonical form: its addresses strictly rising, and none listed with what an unlisted one reads as.
That form is the model's (log 3); with it a byte read is the byte last written. -/
def Obligations.MemoryKept : Prop :=
  ∀ s t : State, Memory.wf s.mem = true → step s = .next t → Memory.wf t.mem = true

open Sys2Proof Sys2Proof.Machine Sys2Proof.Claims in
/-- R78, R193, R215: every step keeps the register files of every task at their sizes: 64 scalars, 32 vectors, 8
conditions, 8 accumulators, 8 branch registers, 16 bonds, 8 rings, 4 drain queues and the tags of 256 codes; in the registers, in the
checkpoint, in the blocks whose comparison is pending and in the tasks set aside. -/
def Obligations.RegisterFilesKept : Prop :=
  ∀ s t : State, RegisterFiles s → step s = .next t → RegisterFiles t

open Sys2Proof in
/-- R47, R58, R79-R96: the decoder reads the encoding of every well-formed instruction back, with every operand at every
value that the encoding admits. -/
def Obligations.DecodeEncode : Prop :=
  ∀ (i : Instr) (c : Code), i.wf = true → encode i = some c → decode c = .ok i

open Sys2Proof in
/-- R58, R77-R96: a word that the decoder reads is the encoding of the instruction it reads, and that instruction is well
formed: no bit of an accepted word is dropped, and no word stands for a neighbour's. -/
def Obligations.DecodeComplete : Prop :=
  ∀ (i : Instr) (c : Code), decode c = .ok i → i.wf = true ∧ encode i = some c

open Sys2Proof Sys2Proof.Machine Sys2Proof.Claims in
/-- R58, R96: a slot word or a control word with an opcode or a class of the table of R96 is refused with OPCODE_UNDEFINED,
and one of class 0 with HCW_EMPTY. -/
def Sys2Proof.Claims.UnassignedRefused : Prop :=
  (∀ (sl : Slot) (w : Word32), unassigned sl (w.extractLsb' 26 6) = true → decode (.slot sl w) = .error .opcodeUndefined)
  ∧ (∀ w : Word256, w.extractLsb' 252 4 = 0 → decode (.hcw w) = .error .hcwEmpty)
  ∧ (∀ w : Word256, 3 ≤ (w.extractLsb' 252 4).toNat → decode (.hcw w) = .error .opcodeUndefined)
  ∧ (∀ w : Word256, w.extractLsb' 252 4 = 1 → unassignedScalar (w.extractLsb' 244 8) = true →
      decode (.hcw w) = .error .opcodeUndefined)
  ∧ (∀ w : Word256, w.extractLsb' 252 4 = 2 → unassignedVector (w.extractLsb' 244 8) = true →
      decode (.hcw w) = .error .opcodeUndefined)

open Sys2Proof Sys2Proof.Machine Sys2Proof.Claims in
/-- The words that the spec writes out for instructions of every slot decode to those instructions. -/
def Sys2Proof.Claims.DecodeSpecWords : Prop :=
  decode (.hcw (hcwOf 0x119000C000000000 0x0C40)) = .ok (.sli (plainHcw false 3 0 0 0x0C40))
  ∧ decode (.hcw (hcwOf 0x1018010100000000 64)) = .ok (.sadd (plainHcw true 4 1 0 64))
  ∧ decode (.hcw (hcwOf 0x1290000300000000 0)) = .ok (.ssetc (plainHcw false 0 3 0 0))
  ∧ decode (.hcw (hcwOf 0x2038004000000C00 3)) = .ok (.vmul (plainHcw true 1 0 0x0C 3))
  ∧ decode (.hcw (hcwOf 0x2018008100000C00 1)) = .ok (.vadd (plainHcw true 2 1 0x0C 1))
  ∧ decode (.slot .c 0x2C000000) = .ok .done
  ∧ decode (.slot .c 0x30000000) = .ok .yield
  ∧ decode (.slot .c 0x04FFFFFD) = .ok (.bprep 1 (-3))
  ∧ decode (.slot .l 0x04709003) = .ok (.ld 7 2 .w false 3)
  ∧ decode (.slot .l 0x0C008000) = .ok (.vld 0 1 0)
  ∧ decode (.slot .l 0x10420000) = .ok (.vst 2 4 0)
  ∧ decode (.slot .d 0x1C518804) = .ok (.amo .add true 5 6 8)
  ∧ decode (.slot .d 0x14A2CC40) = .ok (.cwait 10 11 12 2)
  ∧ decode (.slot .d 0x0900A480) = .ok (.msub 2 5 9)
  ∧ decode (.slot .t 0x0530C000) = .ok (.tmovPortV 0x13 3)
  ∧ (headerOf 0x10908000).stall = 1 ∧ (headerOf 0x10908000).presS = true ∧ (headerOf 0x10908000).presL = true
  ∧ (headerOf 0x10908000).dlyL = 2 ∧ (headerOf 0x10908000).eob = false

open Sys2Proof Sys2Proof.Machine Sys2Proof.Claims in
/-- R93, R402, R403 and the maps of the control registers: `sgetc` gives the control register that its immediate names, with the value that the spec gives each. -/
def Obligations.ControlRegisterReads : Prop :=
  ReadControlRegister ∧ ControlRegisterValue

open Sys2Proof Sys2Proof.Machine Sys2Proof.Claims in
/-- R4, R93, R402-R404 and the maps of the control registers: what `ssetc` writes, where it is accepted and where it is refused. -/
def Obligations.ControlRegisterWrites : Prop :=
  WriteControlRegister ∧ ControlRegisterTakesWrite ∧ PrivilegedControlRegister

namespace Sys2Proof.Claims

open Machine

/-- The rational number that a finite value is, (−1)^neg · m · 2^e. -/
def exact : Val → ℚ
  | .fin neg m e => (if neg then -1 else 1) * m * (2 : ℚ) ^ e
  | _ => 0

/-- A value that is a number. -/
def isNumber : Val → Bool
  | .fin _ _ _ => true
  | _ => false

/-- The numbers of a floating format. -/
def numbers (f : FloatFmt) : Set ℚ := {r | ∃ d < 2 ^ f.width, isNumber (f.decode d) = true ∧ exact (f.decode d) = r}

/-- What a mode asks of the number y that it gives for x, with code c: the greatest number of the format that is no greater than x, the
least that is no less, or a nearest one, of two the one with the even code or the one away from zero (R27). -/
def roundedTo (f : FloatFmt) (mode : Round) (x y : ℚ) (c : Nat) : Prop :=
  let below := y ≤ x ∧ ∀ r ∈ numbers f, r ≤ x → r ≤ y
  let above := x ≤ y ∧ ∀ r ∈ numbers f, x ≤ r → y ≤ r
  let nearest := ∀ r ∈ numbers f, |x - y| ≤ |x - r|
  let tie := ∃ r ∈ numbers f, r ≠ y ∧ |x - r| = |x - y|
  match mode with
  | .rdn => below
  | .rup => above
  | .rtz => if 0 ≤ x then below else above
  | .rne => nearest ∧ (tie → c % 2 = 0)
  | .rna => nearest ∧ (tie → |x| ≤ |y|)

/-- R27, R29: the sum, the product and the sum with a product of finite elements of FP32, BF16, FP16 and A36 round once, from the
exact result; a result that is not zero and within the format's range rounds to the number that the mode asks for, of its sign, and
raises inexact just where that changed it, and no overflow; one of twice the greatest power of two or more gives an infinity or the
greatest number, as the mode says, with overflow. -/
def RoundsExactly : Prop :=
  ∀ f ∈ [fp32, bf16, fp16, a36], ∀ (mode : Round) (sat : Bool),
    (∀ a b c : Val, isNumber a = true → isNumber b = true → isNumber c = true →
      (∃ v, isNumber v = true ∧ exact v = exact a + exact b ∧ (floatAdd f mode sat a b) = roundTo f mode sat v) ∧
      (∃ v, isNumber v = true ∧ exact v = exact a * exact b ∧ (floatMul f mode sat a b) = roundTo f mode sat v) ∧
      (∃ v, isNumber v = true ∧ exact v = exact a * exact b + exact c ∧ (floatFma f mode sat a b c) = roundTo f mode sat v)) ∧
    ∀ (neg : Bool) (m : Nat) (e : Int), m ≠ 0 →
      let x := exact (.fin neg m e)
      let out := roundTo f mode sat (.fin neg m e)
      (|x| ≤ exact (f.decode f.maxCode) →
        isNumber (f.decode out.1) = true ∧ out.1 < 2 ^ f.width ∧ out.1.testBit (f.width - 1) = neg ∧
        roundedTo f mode x (exact (f.decode out.1)) out.1 ∧ (out.2 &&& .nx ≠ 0 ↔ exact (f.decode out.1) ≠ x) ∧ out.2.getLsbD 2 = false) ∧
      ((2 : ℚ) ^ (f.bias + 1) ≤ |x| →
        out = ((if sat = true ∨ mode = .rtz ∨ (mode = .rdn ∧ neg = false) ∨ (mode = .rup ∧ neg = true) then f.maxCode
          else f.maxCode + 1) + (if neg then 2 ^ (f.width - 1) else 0), .ofx))

end Sys2Proof.Claims

open Sys2Proof Sys2Proof.Machine Sys2Proof.Claims in
/-- R22, R27, R29, R39, R435, R440, R441, R444: `vcvt`, the reductions and `vmacw` give their results and tags; and the rounding that every floating
result goes through. -/
def Obligations.VectorOtherResults : Prop :=
  VectorConvert ∧ VectorReduction ∧ WideningMultiplyAccumulate ∧ RoundsExactly

open Sys2Proof Sys2Proof.Machine Sys2Proof.Claims in
/-- R159, R193, R417, R443: the mask operations on their stacks, and the oldest entry of a drain queue leaves it by `vpopq` and by `stq`. -/
def Obligations.StacksAndDrainQueues : Prop :=
  MaskStack ∧ PopDrainQueue ∧ StoreDrainEntry

open Sys2Proof Sys2Proof.Machine Sys2Proof.Claims in
/-- R89-R91, R271-R273: moves from and to the palette, and its triggers. -/
def Obligations.PaletteRuns : Prop :=
  PaletteTrigger ∧ PaletteMove

open Sys2Proof Sys2Proof.Machine Sys2Proof.Claims in
/-- `nop`, `wait` and `rel`: what goes on, and when; `rel` in timetable mode between frames is the model's choice (log 75). -/
def Obligations.WaitsGoOn : Prop :=
  NopDoesNothing ∧ WaitGoesOn ∧ ReleaseAtTick

open Sys2Proof Sys2Proof.Machine Sys2Proof.Claims in
/-- R157-R163: targets, transfers, loops and instruction cache locks. -/
def Obligations.TransfersAndLoops : Prop :=
  PrepareTarget ∧ TransferDecides ∧ MarkLoop ∧ InstructionCacheLocks

open Sys2Proof Sys2Proof.Machine Sys2Proof.Claims in
/-- The block ends, `brk` and `inj`. -/
def Obligations.BlockEndsAndTests : Prop :=
  BlockEndsHeld ∧ BreakpointStops ∧ InjectArms

open Sys2Proof Sys2Proof.Machine Sys2Proof.Claims in
/-- The M-slot operations enter their queue with captured operands, and `chset` sets its bond register. -/
def Obligations.MatrixEnters : Prop :=
  MatrixOperationEnters ∧ SetBond

open Sys2Proof Sys2Proof.Machine Sys2Proof.Claims in
/-- The scalar and vector loads, and where each of their bytes comes from. -/
def Obligations.Loads : Prop :=
  LoadScalar ∧ LoadVector ∧ LoadSees

open Sys2Proof Sys2Proof.Machine Sys2Proof.Claims in
/-- The scalar and vector stores are held until the block commits, and a scalar access of an address that it cannot have traps. -/
def Obligations.Stores : Prop :=
  StoreScalar ∧ StoreVector ∧ UnalignedAccessTraps

open Sys2Proof Sys2Proof.Machine Sys2Proof.Claims in
/-- The ring operations and the stash maintenance operations. -/
def Obligations.RingsAndStash : Prop :=
  RingOperations ∧ StashMaintenanceHeld

open Sys2Proof Sys2Proof.Machine Sys2Proof.Claims in
/-- `cadd`, `cread` and `cwait` as they start. -/
def Obligations.Counters : Prop :=
  CounterAdd ∧ CounterRead ∧ CounterWait

open Sys2Proof Sys2Proof.Machine Sys2Proof.Claims in
/-- What an add and an atomic leave in memory. That the add comes after the write-back of every dirty line of its partition, not of
its task's alone, is the model's choice (log 10). -/
def Obligations.CountersInMemory : Prop :=
  CounterAddInMemory ∧ AtomicInMemory

open Sys2Proof Sys2Proof.Machine Sys2Proof.Claims in
/-- `amo` and `amoc`. That `amoc` reads its template as it arrives at its slice is the model's choice (log 83). -/
def Obligations.Atomics : Prop :=
  Atomic ∧ AtomicConditional

open Sys2Proof Sys2Proof.Machine Sys2Proof.Claims in
/-- `cpy`, `msub`, `mret` and `mred` hand their commands to the engines. -/
def Obligations.EngineCommands : Prop :=
  CopyJoins ∧ MillAttaches ∧ ReductionJoins

open Sys2Proof Sys2Proof.Machine Sys2Proof.Claims in
/-- `spawn`, `join`, `leave`, `tdef` and `tdrop`. The stamp with which a spawned record enters the commons is the model's choice
(log 11). -/
def Obligations.TasksAndTables : Prop :=
  SpawnPlaces ∧ GroupMembership ∧ TensorTable

open Sys2Proof Sys2Proof.Machine Sys2Proof.Claims in
/-- `nsend`, `nsendq` and `nrecv`. -/
def Obligations.Ports : Prop :=
  SendLeaves ∧ ReceiveTakes

open Sys2Proof Sys2Proof.Machine Sys2Proof.Claims in
/-- Values that return to a tile, and the waiters of a counter. -/
def Obligations.RepliesArrive : Prop :=
  ValueDelivered ∧ CounterWaiters

open Sys2Proof Sys2Proof.Machine Sys2Proof.Claims in
/-- The timers of a tile, and a tile that retires. How pending paired blocks and commands go with the task (logs 35 and 65), and that a
stop due past a transfer waits for the end of the block (log 56), are the model's choices. -/
def Obligations.TileTimersAndLife : Prop :=
  TileTimers ∧ TileRetires

open Sys2Proof Sys2Proof.Machine Sys2Proof.Claims in
/-- A drain fills its queue, and a peer reduction adds on the peer tile. -/
def Obligations.DrainsAndPeers : Prop :=
  DrainFills ∧ PeerReduction

open Sys2Proof Sys2Proof.Machine Sys2Proof.Claims in
/-- What the order point of a block does: the stores and the other effects that it holds, its read set, and its end. -/
def Obligations.OrderPointEndsBlock : Prop :=
  OrderPointGoesOn ∧ OrderPointCommits ∧ HeldEffectsApply ∧ ReadSetValidates

open Sys2Proof Sys2Proof.Machine Sys2Proof.Claims in
/-- A delayed operation starts, a result lands, and what an operation meets before either: a locked register and an early read. -/
def Obligations.OperationsAndResults : Prop :=
  DelayedStarts ∧ ResultArrives ∧ LocksAndEarlyReads

open Sys2Proof Sys2Proof.Machine Sys2Proof.Claims in
/-- Taking an exception, and the bytes of the context area that it leaves; that beside them the model keeps the task, and the mark of
an area that could not be written, is its own (log 16). -/
def Obligations.StopSavesContext : Prop :=
  StopLeavesTile ∧ ContextBytes

open Sys2Proof Sys2Proof.Machine Sys2Proof.Claims in
/-- The control pages that the host writes; what a fenced partition takes (log 44) and a revived record's stamp (log 11) are the
model's choices. -/
def Obligations.HostControl : Prop :=
  PartitionControl ∧ TokensAndTranslations

open Sys2Proof Sys2Proof.Machine Sys2Proof.Claims in
/-- The copy engines and the mills move their data. -/
def Obligations.CopiesAndMills : Prop :=
  CopyMoves ∧ MillsMove

open Sys2Proof Sys2Proof.Machine Sys2Proof.Claims in
/-- Launches and graphs run to their completion. -/
def Obligations.LaunchesAndGraphs : Prop :=
  LaunchesRun ∧ GraphsRun

open Sys2Proof Sys2Proof.Machine Sys2Proof.Claims in
/-- Links train and are lost, frames leave and arrive, and the reference clock is set. What a clock message carries (log 22), and from
when the timers of a link run (log 48), are the model's choices. -/
def Obligations.LinksRun : Prop :=
  LinksSend ∧ LinksTake ∧ LinksAndClock

open Sys2Proof Sys2Proof.Machine Sys2Proof.Claims in
/-- The words of the spec decode as it says, and those it leaves unassigned are refused. -/
def Obligations.DecodeWords : Prop :=
  DecodeSpecWords ∧ UnassignedRefused
end

