-- ==== Sys2Proof/Laws/State.lean ====
section
/-! SUPPORT. What the small operations on State, Tile, Task and Regs change, one lemma for each field and each operation,
so that no proof unfolds a record update. -/

namespace Sys2Proof.Laws

open Machine

/-! ### Tiles -/

/-- Setting tile t leaves every other field of State. -/
@[simp] theorem setTile_fixed (s : State) (t : Nat) (x : Tile) : (s.setTile t x).fixed = s.fixed := rfl
@[simp] theorem setTile_dev (s : State) (t : Nat) (x : Tile) : (s.setTile t x).dev = s.dev := rfl
@[simp] theorem setTile_mem (s : State) (t : Nat) (x : Tile) : (s.setTile t x).mem = s.mem := rfl
@[simp] theorem setTile_poison (s : State) (t : Nat) (x : Tile) : (s.setTile t x).poison = s.poison := rfl
@[simp] theorem setTile_dir (s : State) (t : Nat) (x : Tile) : (s.setTile t x).dir = s.dir := rfl
@[simp] theorem setTile_quads (s : State) (t : Nat) (x : Tile) : (s.setTile t x).quads = s.quads := rfl
@[simp] theorem setTile_parts (s : State) (t : Nat) (x : Tile) : (s.setTile t x).parts = s.parts := rfl
@[simp] theorem setTile_dies (s : State) (t : Nat) (x : Tile) : (s.setTile t x).dies = s.dies := rfl
@[simp] theorem setTile_ports (s : State) (t : Nat) (x : Tile) : (s.setTile t x).ports = s.ports := rfl
@[simp] theorem setTile_waiters (s : State) (t : Nat) (x : Tile) : (s.setTile t x).waiters = s.waiters := rfl
@[simp] theorem setTile_launchQ (s : State) (t : Nat) (x : Tile) : (s.setTile t x).launchQ = s.launchQ := rfl
@[simp] theorem setTile_heldLines (s : State) (t : Nat) (x : Tile) : (s.setTile t x).heldLines = s.heldLines := rfl
@[simp] theorem setTile_replies (s : State) (t : Nat) (x : Tile) : (s.setTile t x).replies = s.replies := rfl
@[simp] theorem setTile_saved (s : State) (t : Nat) (x : Tile) : (s.setTile t x).saved = s.saved := rfl
@[simp] theorem setTile_outputs (s : State) (t : Nat) (x : Tile) : (s.setTile t x).outputs = s.outputs := rfl
@[simp] theorem setTile_refTick (s : State) (t : Nat) (x : Tile) : (s.setTile t x).refTick = s.refTick := rfl
@[simp] theorem setTile_clockMax (s : State) (t : Nat) (x : Tile) : (s.setTile t x).clockMax = s.clockMax := rfl
@[simp] theorem setTile_serial (s : State) (t : Nat) (x : Tile) : (s.setTile t x).serial = s.serial := rfl
@[simp] theorem setTile_free (s : State) (t : Nat) (x : Tile) : (s.setTile t x).free = s.free := rfl
@[simp] theorem setTile_agenda (s : State) (t : Nat) (x : Tile) : (s.setTile t x).agenda = s.agenda := rfl
@[simp] theorem setTile_cur (s : State) (t : Nat) (x : Tile) : (s.setTile t x).cur = s.cur := rfl
@[simp] theorem setTile_asks (s : State) (t : Nat) (x : Tile) : (s.setTile t x).asks = s.asks := rfl
@[simp] theorem setTile_stores (s : State) (t : Nat) (x : Tile) : (s.setTile t x).stores = s.stores := rfl
@[simp] theorem setTile_qt (s : State) (t : Nat) (x : Tile) : (s.setTile t x).qt = s.qt := rfl
@[simp] theorem setTile_ptpLock (s : State) (t : Nat) (x : Tile) : (s.setTile t x).ptpLock = s.ptpLock := rfl

/-- The tile that was set reads back. -/
theorem setTile_tile (s : State) (t : Nat) (x : Tile) (h : t < s.tiles.length) : (s.setTile t x).tile t = x := by
  simp [State.setTile, State.tile, h]

/-- Every other tile is as it was. -/
theorem setTile_other (s : State) (t u : Nat) (x : Tile) (h : t ≠ u) : (s.setTile t x).tile u = s.tile u := by
  simp [State.setTile, State.tile, List.getD_eq_getElem?_getD, List.getElem?_set_ne h]

/-- Setting a tile twice sets it once. -/
@[simp] theorem setTile_setTile (s : State) (t : Nat) (x y : Tile) : (s.setTile t x).setTile t y = s.setTile t y := by
  simp [State.setTile]

/-- Setting a tile to itself changes nothing. -/
@[simp] theorem setTile_same (s : State) (t : Nat) : s.setTile t (s.tile t) = s := by
  have : s.tiles.set t (s.tile t) = s.tiles := by
    apply List.ext_getElem? ; intro i
    simp only [State.tile, List.getElem?_set, List.getD_eq_getElem?_getD]
    split
    · subst_vars; split
      · simp [*]
      · simp_all
    · rfl
  simp only [State.setTile, this]

/-- A change of a tile is a set of it. -/
theorem modTile_eq (s : State) (t : Nat) (f : Tile → Tile) : s.modTile t f = s.setTile t (f (s.tile t)) := rfl

/-- A tile that runs a task exists. -/
theorem tile_exists {s : State} {t : Nat} (h : (s.tile t).task.isSome = true) : t < s.tiles.length := by
  by_contra n
  rw [State.tile, List.getD_eq_default _ _ (by omega)] at h
  exact absurd h (by decide)

/-! ### The task that an operation belongs to -/

theorem setMe_eq (s : State) (k : Task) : s.setMe k = s.setTile s.cur.tile { s.here with task := some k } := rfl

@[simp] theorem setMe_fixed (s : State) (k : Task) : (s.setMe k).fixed = s.fixed := rfl
@[simp] theorem setMe_mem (s : State) (k : Task) : (s.setMe k).mem = s.mem := rfl
@[simp] theorem setMe_dir (s : State) (k : Task) : (s.setMe k).dir = s.dir := rfl
@[simp] theorem setMe_quads (s : State) (k : Task) : (s.setMe k).quads = s.quads := rfl
@[simp] theorem setMe_parts (s : State) (k : Task) : (s.setMe k).parts = s.parts := rfl
@[simp] theorem setMe_heldLines (s : State) (k : Task) : (s.setMe k).heldLines = s.heldLines := rfl
@[simp] theorem setMe_cur (s : State) (k : Task) : (s.setMe k).cur = s.cur := rfl
@[simp] theorem setMe_serial (s : State) (k : Task) : (s.setMe k).serial = s.serial := rfl
@[simp] theorem setMe_dies (s : State) (k : Task) : (s.setMe k).dies = s.dies := rfl
@[simp] theorem setMe_ports (s : State) (k : Task) : (s.setMe k).ports = s.ports := rfl
@[simp] theorem setMe_dev (s : State) (k : Task) : (s.setMe k).dev = s.dev := rfl
@[simp] theorem setMe_poison (s : State) (k : Task) : (s.setMe k).poison = s.poison := rfl
@[simp] theorem setMe_waiters (s : State) (k : Task) : (s.setMe k).waiters = s.waiters := rfl
@[simp] theorem setMe_saved (s : State) (k : Task) : (s.setMe k).saved = s.saved := rfl
@[simp] theorem setMe_clockMax (s : State) (k : Task) : (s.setMe k).clockMax = s.clockMax := rfl
@[simp] theorem setMe_free (s : State) (k : Task) : (s.setMe k).free = s.free := rfl
@[simp] theorem setMe_refTick (s : State) (k : Task) : (s.setMe k).refTick = s.refTick := rfl
@[simp] theorem setMe_replies (s : State) (k : Task) : (s.setMe k).replies = s.replies := rfl
@[simp] theorem setMe_launchQ (s : State) (k : Task) : (s.setMe k).launchQ = s.launchQ := rfl
@[simp] theorem setMe_asks (s : State) (k : Task) : (s.setMe k).asks = s.asks := rfl
@[simp] theorem setMe_stores (s : State) (k : Task) : (s.setMe k).stores = s.stores := rfl
@[simp] theorem setMe_qt (s : State) (k : Task) : (s.setMe k).qt = s.qt := rfl
@[simp] theorem setMe_outputs (s : State) (k : Task) : (s.setMe k).outputs = s.outputs := rfl
@[simp] theorem setMe_ptpLock (s : State) (k : Task) : (s.setMe k).ptpLock = s.ptpLock := rfl
@[simp] theorem setMe_agenda (s : State) (k : Task) : (s.setMe k).agenda = s.agenda := rfl

/-- The task that was put on the tile reads back. -/
theorem setMe_here {s : State} (h : s.here.task.isSome = true) (k : Task) :
    (s.setMe k).here = { s.here with task := some k } := setTile_tile _ _ _ (tile_exists h)

theorem setMe_me {s : State} (h : s.here.task.isSome = true) (k : Task) : (s.setMe k).me = k := by
  rw [State.me, setMe_here h]; rfl

@[simp] theorem setMe_setMe (s : State) (k j : Task) : (s.setMe k).setMe j = s.setMe j := by
  by_cases h : s.cur.tile < s.tiles.length
  · have e : (s.setMe k).here = { s.here with task := some k } := setTile_tile _ _ _ h
    rw [setMe_eq, e, setMe_eq s k]; simp [setMe_eq]
  · simp [setMe_eq, State.setTile, List.set_eq_of_length_le (Nat.le_of_not_lt h)]

/-- A task put on a tile that has one stays a task of the tile. -/
theorem setMe_isSome {s : State} (h : s.here.task.isSome = true) (k : Task) : (s.setMe k).here.task.isSome = true := by
  rw [setMe_here h]; rfl

theorem me_of_task {s : State} {k : Task} (h : s.here.task = some k) : s.me = k := by rw [State.me, h]; rfl

/-- The task as it is, put on its tile, changes nothing. -/
theorem setMe_same {s : State} (h : s.here.task.isSome = true) : s.setMe s.me = s := by
  obtain ⟨k, hk⟩ := Option.isSome_iff_exists.mp h
  rw [me_of_task hk, setMe_eq]
  have : { s.here with task := some k } = s.here := by rw [← hk]
  rw [this]; exact setTile_same _ _

/-! ### Registers -/

@[simp] theorem setS_s0 (r : Regs) (v : Word64) : r.setS 0 v = r := by simp [Regs.setS]
@[simp] theorem setQ_q0 (r : Regs) (v : Bool) : r.setQ 0 v = r := by simp [Regs.setQ]
@[simp] theorem sreg_s0 (r : Regs) : r.sreg 0 = 0 := by simp [Regs.sreg]
@[simp] theorem qreg_q0 (r : Regs) : r.qreg 0 = true := by simp [Regs.qreg]

/-- A scalar register reads back what was written, where it is not `s0`. -/
theorem setS_sreg (r : Regs) (n : BitVec 6) (v : Word64) (h : n ≠ 0) (w : n.toNat < r.s.length) :
    (r.setS n v).sreg n = v := by
  have e : r.setS n v = { r with s := r.s.set n.toNat v } := if_neg (by simpa using h)
  rw [Regs.sreg, if_neg (by simpa using h), e]; simp [w]

/-- Every other scalar register is as it was. -/
theorem setS_other (r : Regs) (n m : BitVec 6) (v : Word64) (h : n ≠ m) : (r.setS n v).sreg m = r.sreg m := by
  have this : n.toNat ≠ m.toNat := fun e => h (BitVec.eq_of_toNat_eq e)
  by_cases z : n = 0
  · subst z; rw [setS_s0]
  · have e : r.setS n v = { r with s := r.s.set n.toNat v } := if_neg (by simpa using z)
    rw [e]; simp [Regs.sreg, List.getElem?_set_ne this]

/-- Every other condition is as it was. -/
theorem setQ_other (r : Regs) (n m : BitVec 3) (v : Bool) (h : n ≠ m) : (r.setQ n v).qreg m = r.qreg m := by
  have this : n.toNat ≠ m.toNat := fun e => h (BitVec.eq_of_toNat_eq e)
  by_cases z : n = 0
  · subst z; rw [setQ_q0]
  · have e : r.setQ n v = { r with q := r.q.set n.toNat v } := if_neg (by simpa using z)
    rw [e]; simp [Regs.qreg, List.getElem?_set_ne this]

/-! ### Outcomes -/

/-- An operation that starts on a tile with a task answers a next state: its own where it starts. -/
theorem settle_ok {s t : State} (h : s.here.task.isSome = true) : settle s (.ok t) = .next { t with fixed := s.fixed } := by
  simp only [Option.isSome_iff_ne_none] at h
  simp [settle, State.settled, h]

/-- The Fixed registers keep their values over an operation. -/
theorem settle_fixed {s t : State} {r : Except Stop State} (h : settle s r = .next t) : t.fixed = s.fixed := by
  simp only [settle] at h
  split at h <;> (injection h with h; subst h; rfl)

/-- The Fixed registers keep their values over an event. -/
theorem happens_fixed {s u t : State} (h : happens s u = .next t) : t.fixed = s.fixed := by
  injection h with h; subst h; rfl

theorem heldBack_fixed {s u t : State} (h : heldBack s u = .next t) : t.fixed = s.fixed := happens_fixed h

end Sys2Proof.Laws
end

