-- ==== Sys2Proof/Laws/Memory.lean ====
section
/-! SUPPORT. The laws of memory: what is read after a write, and that every operation on the memory below the stashes keeps
its canonical form. -/

namespace Sys2Proof.Laws

open Machine
open Host (Cell)

/-! ### One byte -/

/-- Every address of a list lies above a bound. -/
def Above (a : Nat) (m : List Cell) : Prop := ∀ c ∈ m, a < c.1

theorem wf_cons (k : Nat) (b : Byte) (r : List Cell) :
    Memory.wf ((k, b) :: r) = true ↔ b ≠ Memory.unlisted ∧ Above k r ∧ Memory.wf r = true := by
  induction r generalizing k b with
  | nil => simp [Memory.wf, Above]
  | cons c r ih =>
    obtain ⟨j, d⟩ := c
    constructor
    · intro h
      have h' := h
      rw [Memory.wf] at h'
      simp only [Bool.and_eq_true, decide_eq_true_eq, bne_iff_ne, ne_eq] at h'
      obtain ⟨⟨h1, h2⟩, h3⟩ := h'
      refine ⟨h1, ?_, h3⟩
      intro c hc
      rcases List.mem_cons.1 hc with rfl | hc
      · exact h2
      · exact lt_trans h2 (((ih j d).1 h3).2.1 c hc)
    · rintro ⟨h1, h2, h3⟩
      rw [Memory.wf]
      simp only [Bool.and_eq_true, decide_eq_true_eq, bne_iff_ne, ne_eq]
      exact ⟨⟨h1, h2 (j, d) (by simp)⟩, h3⟩

theorem write_above {m : List Cell} {k a : Nat} (b : Byte) (h : Above k m) (ha : k < a) : Above k (Memory.write m a b) := by
  induction m with
  | nil => intro c hc; simp only [Memory.write] at hc; split at hc <;> simp_all
  | cons c r ih =>
    obtain ⟨j, d⟩ := c
    have hr : Above k r := fun c hc => h c (List.mem_cons_of_mem _ hc)
    intro c hc
    simp only [Memory.write] at hc
    split at hc
    · split at hc
      · exact h c hc
      · rcases List.mem_cons.1 hc with rfl | hc
        · exact ha
        · exact h c hc
    · split at hc
      · split at hc
        · exact hr c hc
        · rcases List.mem_cons.1 hc with rfl | hc
          · exact ha
          · exact hr c hc
      · rcases List.mem_cons.1 hc with rfl | hc
        · exact h _ (by simp)
        · exact ih hr c hc

/-- A write keeps the canonical form. -/
theorem write_wf {m : List Cell} (h : Memory.wf m = true) (a : Nat) (b : Byte) : Memory.wf (Memory.write m a b) = true := by
  induction m with
  | nil =>
    simp only [Memory.write]
    split
    · rfl
    · rename_i hb; simp_all [Memory.wf]
  | cons c r ih =>
    obtain ⟨k, d⟩ := c
    have hk := (wf_cons k d r).1 h
    simp only [Memory.write]
    split
    · rename_i hlt
      split
      · exact h
      · rename_i hb
        refine (wf_cons _ _ _).2 ⟨by simpa using hb, ?_, h⟩
        intro c hc
        rcases List.mem_cons.1 hc with rfl | hc
        · exact hlt
        · exact lt_trans hlt (hk.2.1 c hc)
    · rename_i hge
      split
      · rename_i heq
        have heq : a = k := by simpa using heq
        split
        · exact hk.2.2
        · rename_i hb
          exact (wf_cons _ _ _).2 ⟨by simpa using hb, by rw [heq]; exact hk.2.1, hk.2.2⟩
      · rename_i hne
        have hne : a ≠ k := by simpa using hne
        exact (wf_cons _ _ _).2 ⟨hk.1, write_above b hk.2.1 (by omega), ih hk.2.2⟩

/-- Several writes keep the canonical form. -/
theorem writes_wf {m : List Cell} (h : Memory.wf m = true) (cs : List Cell) : Memory.wf (Memory.writes m cs) = true := by
  induction cs generalizing m with
  | nil => exact h
  | cons c cs ih => exact ih (write_wf h c.1 c.2)

/-- What lies above a bound reads as unlisted at the bound and below it. -/
theorem read_above {m : List Cell} {k a : Nat} (h : Above k m) (ha : a ≤ k) : Memory.read m a = Memory.unlisted := by
  cases m with
  | nil => rfl
  | cons c r =>
    obtain ⟨j, d⟩ := c
    have hj : k < j := h (j, d) (by simp)
    simp only [Memory.read]
    rw [if_neg (by simp; omega), if_pos (by omega)]

/-- The byte that was written is read back. -/
theorem read_write_same {m : List Cell} (h : Memory.wf m = true) (a : Nat) (b : Byte) :
    Memory.read (Memory.write m a b) a = b := by
  induction m with
  | nil =>
    simp only [Memory.write]
    split
    · rename_i hb; have : b = Memory.unlisted := by simpa using hb
      simp [Memory.read, this]
    · simp [Memory.read]
  | cons c r ih =>
    obtain ⟨k, d⟩ := c
    have hk := (wf_cons k d r).1 h
    simp only [Memory.write]
    split
    · rename_i hlt
      split
      · rename_i hb; have : b = Memory.unlisted := by simpa using hb
        simp only [Memory.read]
        rw [if_neg (by simp; omega), if_pos hlt, this]
      · simp [Memory.read]
    · split
      · rename_i heq
        have heq : a = k := by simpa using heq
        split
        · rename_i hb; have : b = Memory.unlisted := by simpa using hb
          rw [this, heq]; exact read_above hk.2.1 (le_refl _)
        · simp [Memory.read]
      · rename_i hne
        simp only [Memory.read]
        rw [if_neg hne, if_neg (by assumption)]
        exact ih hk.2.2

/-- Every other byte is as it was. -/
theorem read_write_other {m : List Cell} (h : Memory.wf m = true) {a e : Nat} (b : Byte) (he : e ≠ a) :
    Memory.read (Memory.write m a b) e = Memory.read m e := by
  induction m with
  | nil =>
    simp only [Memory.write]
    split
    · rfl
    · simp only [Memory.read]; rw [if_neg (by simpa using he)]; split <;> rfl
  | cons c r ih =>
    obtain ⟨k, d⟩ := c
    have hk := (wf_cons k d r).1 h
    simp only [Memory.write]
    split
    · rename_i hlt
      split
      · rfl
      · rw [Memory.read, if_neg (by simpa using he)]
        split
        · rename_i hea
          rw [Memory.read, if_neg (by simp; omega), if_pos (by omega)]
        · rfl
    · split
      · rename_i heq
        have heq : a = k := by simpa using heq
        subst heq
        split
        · rw [Memory.read, if_neg (by simpa using he)]
          split
          · exact read_above hk.2.1 (by omega)
          · rfl
        · simp only [Memory.read, beq_iff_eq, he, if_false]
      · rw [Memory.read, Memory.read]
        split
        · rfl
        · split
          · rfl
          · exact ih hk.2.2

/-- A byte that several writes do not name is as it was. -/
theorem read_writes_other {m : List Cell} (h : Memory.wf m = true) {cs : List Cell} {e : Nat} (he : ∀ c ∈ cs, e ≠ c.1) :
    Memory.read (Memory.writes m cs) e = Memory.read m e := by
  induction cs generalizing m with
  | nil => rfl
  | cons c cs ih =>
    rw [Memory.writes, List.foldl_cons]
    exact (ih (write_wf h c.1 c.2) fun d hd => he d (List.mem_cons_of_mem _ hd)).trans
      (read_write_other h c.2 (he c (by simp)))

/-- Of several writes to different addresses, each is read back. -/
theorem read_writes_mem {m : List Cell} (h : Memory.wf m = true) {cs : List Cell} (hd : (cs.map (·.1)).Nodup)
    {c : Cell} (hc : c ∈ cs) : Memory.read (Memory.writes m cs) c.1 = c.2 := by
  induction cs generalizing m with
  | nil => cases hc
  | cons x cs ih =>
    simp only [List.map_cons, List.nodup_cons] at hd
    rw [Memory.writes, List.foldl_cons]
    rcases List.mem_cons.1 hc with rfl | hc
    · refine (read_writes_other (write_wf h c.1 c.2) fun d hd' => ?_).trans (read_write_same h _ _)
      intro e; exact hd.1 (e ▸ List.mem_map_of_mem hd')
    · exact ih (write_wf h x.1 x.2) hd.2 hc

/-- The cells of bytes at an address stand at consecutive addresses. -/
theorem cellsAt_addresses (a : Nat) (bs : List Byte) :
    (cellsAt a bs).map (·.1) = (List.range bs.length).map (a + ·) := by
  simp only [cellsAt, List.map_map]
  apply List.ext_getElem <;> simp

theorem cellsAt_nodup (a : Nat) (bs : List Byte) : ((cellsAt a bs).map (·.1)).Nodup := by
  rw [cellsAt_addresses]
  exact List.nodup_range.map fun x y h => by simpa using h

/-- Bytes written at an address are read back from it. -/
theorem read_writes_cellsAt {m : List Cell} (h : Memory.wf m = true) (a : Nat) (bs : List Byte) {k : Nat}
    (hk : k < bs.length) : Memory.read (Memory.writes m (cellsAt a bs)) (a + k) = bs[k] := by
  have hc : (a + k, bs[k]) ∈ cellsAt a bs := by
    refine List.mem_map.2 ⟨(bs[k], k), ?_, rfl⟩
    exact List.mem_iff_getElem.2 ⟨k, by simpa using hk, by simp⟩
  exact read_writes_mem h (cellsAt_nodup a bs) hc

/-- Outside those bytes nothing changes. -/
theorem read_writes_cellsAt_other {m : List Cell} (h : Memory.wf m = true) (a : Nat) (bs : List Byte) {e : Nat}
    (he : e < a ∨ a + bs.length ≤ e) : Memory.read (Memory.writes m (cellsAt a bs)) e = Memory.read m e := by
  apply read_writes_other h
  intro c hc hec
  have : c.1 ∈ (cellsAt a bs).map (·.1) := List.mem_map_of_mem hc
  rw [cellsAt_addresses] at this
  simp only [List.mem_map, List.mem_range] at this
  obtain ⟨i, hi, hi'⟩ := this
  omega

/-! ### The operations on the memory of a state -/

/-- The memory of a state is in its canonical form. -/
def MemoryWf (s : State) : Prop := Memory.wf s.mem = true

theorem MemoryWf.of_eq {s t : State} (h : MemoryWf s) (e : t.mem = s.mem) : MemoryWf t := by
  rw [MemoryWf, e]; exact h

theorem MemoryWf.of_writes {s t : State} {cs : List Cell} (h : MemoryWf s) (e : t.mem = Memory.writes s.mem cs) :
    MemoryWf t := by
  rw [MemoryWf, e]; exact writes_wf h cs

/-- A property of the machine that each of a family of operations keeps, whichever it is. -/
def Kept {ι : Type} (inv : State → Prop) (op : State → ι → State) : Prop := ∀ i m, inv m → inv (op m i)

/-- Then a run of them keeps it too. -/
theorem Kept.run {ι : Type} {inv : State → Prop} {op : State → ι → State} (k : Kept inv op) {m : State} (start : inv m)
    (is : List ι) : inv (is.foldl op m) :=
  List.foldlRecOn is op start fun _ held i _ => k i _ held

/-- Operations that leave memory leave it over a run. -/
theorem run_mem {ι : Type} {op : State → ι → State} (k : ∀ i m, (op m i).mem = m.mem) (m : State) (is : List ι) :
    (is.foldl op m).mem = m.mem :=
  Kept.run (inv := fun u => u.mem = m.mem) (fun i u e => (k i u).trans e) rfl is

theorem ctrlClear_mem (s : State) (pa : Nat) (b : Byte) : (s.ctrlClear pa b).mem = s.mem := by
  unfold State.ctrlClear
  exact (apply_ite State.mem _ _ _).trans (ite_self _)

theorem wake_mem (s : State) (w : Waiter) (stamp : Nat) : (s.wake w stamp).mem = s.mem := by
  rw [State.wake, apply_ite State.mem]; exact ite_self _

theorem testWaiters_mem (s : State) (pa stamp : Nat) : (s.testWaiters pa stamp).mem = s.mem := by
  refine run_mem (fun w u => ?_) s _
  rw [apply_ite State.mem, apply_ite State.mem, apply_ite State.mem, wake_mem]
  simp only [ite_self]

theorem reset_wf : MemoryWf State.reset := by rw [MemoryWf]; decide

theorem writeBack_dirty {s : State} {l : StashLine} (h : l.st = .dirty) : (s.writeBack l).mem
    = Memory.writes s.mem (cellsAt (l.line * 128) ((List.range 128).map (lineByte l.data))) := by
  rw [State.writeBack, h]

theorem writeBack_clean {s : State} {l : StashLine} (h : l.st ≠ .dirty) : (s.writeBack l).mem = s.mem := by
  rw [State.writeBack]
  split <;> first | contradiction | rfl

theorem writeBack_wf {s : State} (h : MemoryWf s) (l : StashLine) : MemoryWf (s.writeBack l) := by
  by_cases d : l.st = .dirty
  · exact h.of_writes (writeBack_dirty d)
  · exact h.of_eq (writeBack_clean d)

theorem evict_wf {s : State} (h : MemoryWf s) (t : Nat) (l : StashLine) : MemoryWf (s.evict t l) := by
  unfold State.evict
  dsimp only
  split
  · exact (writeBack_wf h l).of_eq rfl
  · exact h.of_eq rfl

theorem place_wf {s : State} (h : MemoryWf s) (t : Nat) (l : StashLine) : MemoryWf (s.place t l) := by
  unfold State.place
  dsimp only
  split
  · exact h.of_eq rfl
  · exact h.of_eq rfl
  · exact (evict_wf h t _).of_eq rfl
  · exact h

theorem recall_wf {s : State} (h : MemoryWf s) (line : Nat) : MemoryWf (s.recall line) := by
  unfold State.recall
  dsimp only
  cases (s.dirLine line).owner with
  | none => exact h
  | some t =>
    dsimp only
    cases (s.tile t).lineAt line with
    | none => exact h.of_eq rfl
    | some l => exact (writeBack_wf h l).of_eq rfl

theorem fillShared_wf {s : State} (h : MemoryWf s) (t line : Nat) : MemoryWf (s.fillShared t line) := by
  unfold State.fillShared
  dsimp only
  have hr : MemoryWf (if (s.dirLine line).owner == some t then s else s.recall line) := by
    split
    · exact h
    · exact recall_wf h line
  generalize (if (s.dirLine line).owner == some t then s else s.recall line) = u at hr
  split
  · exact hr
  · refine place_wf ?_ t _
    exact hr.of_eq rfl

theorem fillOwned_wf {s : State} (h : MemoryWf s) (t line : Nat) : MemoryWf (s.fillOwned t line) := by
  unfold State.fillOwned
  dsimp only
  split
  · exact h
  · refine place_wf ?_ t _
    exact (recall_wf h line).of_eq rfl

theorem writeBackAll_wf {s : State} (h : MemoryWf s) (part : Nat) : MemoryWf (s.writeBackAll part) := by
  unfold State.writeBackAll
  refine Kept.run (inv := MemoryWf) (fun _ u hu => Kept.run (inv := MemoryWf) (fun l v hv => ?_) hu _) h _
  split
  · exact (writeBack_wf hv l).of_eq rfl
  · exact hv

/-! ### Writes below the stashes -/

theorem markWritten_mem (s : State) (l : Nat) (cs : List Cell) : (s.markWritten l cs).mem = s.mem := rfl

theorem noteWrites_mem (s : State) (lines : List Nat) (cs : List Cell) : (s.noteWrites lines cs).mem = s.mem := by
  have stamps : ∀ ls : List Nat,
      (ls.foldl (fun s l => s.markWritten l (cs.filter fun c => lineOf c.1 == l)) s).mem = s.mem :=
    run_mem (op := fun s (l : Nat) => s.markWritten l (cs.filter fun c => lineOf c.1 == l)) (fun l u => markWritten_mem u l _) s
  have tests : ∀ (u : State) (ws : List Nat), (ws.foldl (fun s pa => s.testWaiters pa (s.dirLine (lineOf pa)).wts) u).mem = u.mem :=
    run_mem (op := fun s (pa : Nat) => s.testWaiters pa (s.dirLine (lineOf pa)).wts) fun pa u => testWaiters_mem u pa _
  unfold State.noteWrites
  dsimp only
  rw [apply_ite State.mem, tests, ite_self, stamps]

theorem clears_mem (s : State) (ds : List Cell) : (ds.foldl (fun s c => s.ctrlClear c.1 c.2) s).mem = s.mem := by
  induction ds generalizing s with
  | nil => rfl
  | cons d _ ih => rw [List.foldl_cons, ih, ctrlClear_mem]

/-- Memory after a write: the owners' lines come back, and the bytes outside the control range are written. What follows leaves
memory. -/
theorem lowWrite_mem (s : State) (cs : List Cell) : (s.lowWrite cs).mem
    = Memory.writes ((((cs.filter fun c => !isCtrl c.1).map fun c => lineOf c.1).dedup).foldl (fun s l => s.recall l) s).mem
        (cs.filter fun c => !isCtrl c.1) := by
  rw [State.lowWrite]
  rw [clears_mem, noteWrites_mem]

/-- The bytes that an engine, a slice or the host writes leave memory in its canonical form. -/
theorem lowWrite_wf {s : State} (h : MemoryWf s) (cs : List Cell) : MemoryWf (s.lowWrite cs) :=
  (Kept.run (inv := MemoryWf) (op := fun s l => s.recall l) (fun l _ hu => recall_wf hu l) h _).of_writes (lowWrite_mem s cs)

/-- What a reset leaves undefined is in the canonical form too. -/
theorem deviceReset_wf (s : State) : MemoryWf s.deviceReset := by
  rw [MemoryWf]; exact writes_wf (m := []) (by decide) _

/-- An instruction placed for the next step leaves memory in its canonical form. -/
theorem placed_wf {s : State} (h : MemoryWf s) (w hcw : Word256) : MemoryWf (s.placed w hcw) := by
  rw [State.placed]
  refine (lowWrite_wf (lowWrite_wf (lowWrite_wf ?_ _) _) _).of_eq rfl
  exact h.of_eq rfl

end Sys2Proof.Laws
end

