-- ==== Sys2Proof/Laws/Step.lean ====
section
/-! SUPPORT. What the outcomes of the meanings keep, what time that passes leaves, and what a step can do. -/

namespace Sys2Proof.Laws

open Machine
open Host (Cell)

/-! ### Outcomes -/

/-- An operation always answers a next state, with the Fixed registers as they were. -/
theorem settle_next (s : State) (r : Except Stop State) : ∃ t, settle s r = .next t ∧ t.fixed = s.fixed := by
  rw [settle]
  split
  · exact ⟨s, rfl, rfl⟩
  · exact ⟨_, rfl, rfl⟩

theorem happens_next (s s' : State) : ∃ t, happens s s' = .next t ∧ t.fixed = s.fixed := ⟨_, rfl, rfl⟩

theorem heldBack_next (s s' : State) : ∃ t, heldBack s s' = .next t ∧ t.fixed = s.fixed := ⟨_, rfl, rfl⟩

/-! ### Time -/

@[simp] theorem pass_zero (s : State) : s.pass 0 = s := rfl
@[simp] theorem pass_fixed (s : State) (n : Nat) : (s.pass n).fixed = s.fixed := by
  rw [State.pass, apply_ite State.fixed]; exact ite_self _
@[simp] theorem pass_mem (s : State) (n : Nat) : (s.pass n).mem = s.mem := by
  rw [State.pass, apply_ite State.mem]; exact ite_self _
@[simp] theorem pass_agenda (s : State) (n : Nat) : (s.pass n).agenda = s.agenda := by
  rw [State.pass, apply_ite State.agenda]; exact ite_self _
theorem pass_refTick (s : State) (n : Nat) : (s.pass n).refTick = s.refTick + n := by
  rw [State.pass]
  split
  · rename_i h; have : n = 0 := by simpa using h
    subst this; rfl
  · rfl

/-! ### Writes that no stash holds back -/

/-- A line that no stash owns needs no recall. -/
theorem recall_none {s : State} {line : Nat} (h : (s.dirLine line).owner = none) : s.recall line = s := by
  rw [State.recall, h]

theorem recalls_none {s : State} (lines : List Nat) (h : ∀ l ∈ lines, (s.dirLine l).owner = none) :
    lines.foldl (fun s l => s.recall l) s = s := by
  induction lines with
  | nil => rfl
  | cons l ls ih =>
    rw [List.foldl_cons, recall_none (h l (by simp))]
    exact ih fun m hm => h m (List.mem_cons_of_mem _ hm)

/-- A write outside the control range to lines that no stash owns is a write of memory. -/
theorem lowWrite_plain {s : State} {cs : List Cell} (hc : ∀ c ∈ cs, isCtrl c.1 = false)
    (ho : ∀ c ∈ cs, (s.dirLine (lineOf c.1)).owner = none) : (s.lowWrite cs).mem = Memory.writes s.mem cs := by
  have hf : (cs.filter fun c => !isCtrl c.1) = cs := List.filter_eq_self.2 fun c h => by rw [hc c h]; rfl
  rw [lowWrite_mem, hf, recalls_none]
  intro l hl
  obtain ⟨c, hcs, rfl⟩ := List.mem_map.1 (List.mem_dedup.1 hl)
  exact ho c hcs

end Sys2Proof.Laws
end

