-- ==== Sys2Proof/Laws/Context.lean ====
section
/-! SUPPORT. What a save of a context leaves and when a suspending task leaves its tile; a range of one unit of translation, and
when an accumulator's image can be read. -/

namespace Sys2Proof.Laws

open Machine
open Host (Cell)

/-! ### Waiters that no write reaches -/

/-- Operations that leave the waiters leave them over a run. -/
theorem run_waiters {ι : Type} {op : State → ι → State} (k : ∀ i m, (op m i).waiters = m.waiters) (m : State) (is : List ι) :
    (is.foldl op m).waiters = m.waiters :=
  Kept.run (inv := fun u => u.waiters = m.waiters) (fun i u e => (k i u).trans e) rfl is

theorem recall_waiters (s : State) (line : Nat) : (s.recall line).waiters = s.waiters := by
  have back (l : StashLine) : (s.writeBack l).waiters = s.waiters := by rw [State.writeBack]; split <;> rfl
  unfold State.recall
  dsimp only
  cases (s.dirLine line).owner with
  | none => rfl
  | some t =>
    dsimp only
    cases (s.tile t).lineAt line with
    | none => rfl
    | some l => exact back l

theorem fold_same {ι : Type} {op : State → ι → State} {m : State} (is : List ι) (k : ∀ i ∈ is, op m i = m) : is.foldl op m = m :=
  List.foldlRecOn (motive := fun u => u = m) is op rfl fun _ e i hi => e ▸ k i hi

/-- A write of another word wakes nobody. -/
theorem testWaiters_far {s : State} {pa : Nat} (far : ∀ w ∈ s.waiters, w.pa ≠ pa) (stamp : Nat) : s.testWaiters pa stamp = s := by
  unfold State.testWaiters
  extract_lets v
  refine fold_same s.waiters fun w hw => ?_
  have miss : (w.pa == pa) = false := beq_false_of_ne (far w hw)
  generalize v = v
  rw [miss, Bool.false_and]
  exact if_neg Bool.false_ne_true

theorem ctrlClear_waiters (s : State) (pa : Nat) (b : Byte) : (s.ctrlClear pa b).waiters = s.waiters := by
  unfold State.ctrlClear
  exact (apply_ite State.waiters _ _ _).trans (ite_self _)

theorem clears_waiters (s : State) (ds : List Cell) : (ds.foldl (fun s c => s.ctrlClear c.1 c.2) s).waiters = s.waiters := by
  induction ds generalizing s with
  | nil => rfl
  | cons d _ ih => rw [List.foldl_cons, ih, ctrlClear_waiters]

theorem markWritten_waiters (s : State) (l : Nat) (cs : List Cell) : (s.markWritten l cs).waiters = s.waiters := rfl

theorem noteWrites_waiters {s : State} (lines : List Nat) {cs : List Cell} (far : ∀ c ∈ cs, ∀ w ∈ s.waiters, w.pa ≠ alignDown c.1 8) :
    (s.noteWrites lines cs).waiters = s.waiters := by
  have marked := run_waiters (op := fun s (l : Nat) => s.markWritten l (cs.filter fun c => lineOf c.1 == l))
    (fun _ _ => markWritten_waiters _ _ _) s lines
  unfold State.noteWrites
  extract_lets u
  replace marked : u.waiters = s.waiters := marked
  generalize u = u at marked
  split
  · exact marked
  · refine List.foldlRecOn (motive := fun v : State => v.waiters = s.waiters) _ _ marked fun v held pa hpa => ?_
    obtain ⟨d, hd, rfl⟩ := List.mem_map.1 (List.mem_dedup.1 hpa)
    rw [testWaiters_far fun w hw => far d hd w (held ▸ hw)]
    exact held

theorem mem_waiters (s : State) (m : List Cell) : ({ s with mem := m } : State).waiters = s.waiters := rfl

/-- A write of bytes in no word that somebody waits for leaves the waiters. -/
theorem lowWrite_waiters {s : State} {cs : List Cell} (far : ∀ c ∈ cs, ∀ w ∈ s.waiters, w.pa ≠ alignDown c.1 8) :
    (s.lowWrite cs).waiters = s.waiters := by
  unfold State.lowWrite
  extract_lets plain lines u v
  have back : u.waiters = s.waiters := run_waiters (op := fun s l => State.recall s l) (fun l u => recall_waiters u l) s lines
  have written : v.waiters = s.waiters := by
    refine (noteWrites_waiters lines fun c hc w hw => ?_).trans ((mem_waiters u _).trans back)
    rw [mem_waiters, back] at hw
    exact far c (List.mem_filter.1 hc).1 w hw
  rw [clears_waiters]
  exact written

/-! ### The partitions and the quadrants, which no write of plain bytes reaches -/

/-- What a write of plain bytes leaves. -/
def Still (s u : State) : Prop := u.parts = s.parts ∧ u.quads = s.quads

theorem Still.refl (s : State) : Still s s := ⟨rfl, rfl⟩

theorem Still.trans {s u v : State} (a : Still s u) (b : Still u v) : Still s v := ⟨b.1.trans a.1, b.2.trans a.2⟩

theorem Still.run {ι : Type} {op : State → ι → State} (k : ∀ i m, Still m (op m i)) (m : State) (is : List ι) : Still m (is.foldl op m) :=
  Kept.run (inv := Still m) (fun i u e => e.trans (k i u)) (Still.refl m) is

theorem recall_still (s : State) (line : Nat) : Still s (s.recall line) := by
  have back (l : StashLine) : Still s (s.writeBack l) := by rw [State.writeBack]; split <;> exact ⟨rfl, rfl⟩
  unfold State.recall
  dsimp only
  cases (s.dirLine line).owner with
  | none => exact ⟨rfl, rfl⟩
  | some t =>
    dsimp only
    cases (s.tile t).lineAt line with
    | none => exact ⟨rfl, rfl⟩
    | some l => exact back l

theorem wake_still (s : State) (w : Waiter) (stamp : Nat) : Still s (s.wake w stamp) := by
  unfold State.wake
  split <;> exact ⟨rfl, rfl⟩

theorem testWaiters_still (s : State) (pa stamp : Nat) : Still s (s.testWaiters pa stamp) := by
  refine Still.run (fun w u => ?_) s _
  split
  · split
    · split
      · exact Still.refl u
      · exact wake_still u w stamp
    · exact ⟨rfl, rfl⟩
  · exact Still.refl u

theorem noteWrites_still (s : State) (lines : List Nat) (cs : List Cell) : Still s (s.noteWrites lines cs) := by
  have marked : Still s (lines.foldl (fun s l => s.markWritten l (cs.filter fun c => lineOf c.1 == l)) s) :=
    Still.run (op := fun s l => s.markWritten l (cs.filter fun c => lineOf c.1 == l)) (fun _ _ => ⟨rfl, rfl⟩) s lines
  unfold State.noteWrites
  extract_lets u
  replace marked : Still s u := marked
  generalize u = u at marked
  split
  · exact marked
  · exact marked.trans (Still.run (fun d v => testWaiters_still v d _) u _)

/-- The write of the plain bytes leaves the tables. -/
theorem plainWrite_still (s : State) (cs : List Cell) (lines : List Nat) :
    let u := lines.foldl (fun s l => s.recall l) s
    Still s (State.noteWrites { u with mem := Memory.writes u.mem cs } lines cs) :=
  ((Still.run (op := fun s l => State.recall s l) (fun l u => recall_still u l) s lines).trans ⟨rfl, rfl⟩).trans (noteWrites_still _ lines cs)

theorem ctrlClear_parts (s : State) (pa : Nat) (b : Byte) : (s.ctrlClear pa b).parts = s.parts := by
  unfold State.ctrlClear
  exact (apply_ite State.parts _ _ _).trans (ite_self _)

theorem clears_parts (s : State) (ds : List Cell) : (ds.foldl (fun s c => s.ctrlClear c.1 c.2) s).parts = s.parts := by
  induction ds generalizing s with
  | nil => rfl
  | cons d _ ih => rw [List.foldl_cons, ih, ctrlClear_parts]

/-- A write of bytes leaves the partitions. -/
theorem lowWrite_parts (s : State) (cs : List Cell) : (s.lowWrite cs).parts = s.parts := by
  unfold State.lowWrite
  extract_lets plain lines u v
  have written : Still s v := plainWrite_still s plain lines
  rw [clears_parts]
  exact written.1

/-- A write of bytes outside the control pages leaves the quadrants. -/
theorem lowWrite_quads (s : State) {cs : List Cell} (all : ∀ c ∈ cs, isCtrl c.1 = false) : (s.lowWrite cs).quads = s.quads := by
  have none_ : (cs.filter fun c => isCtrl c.1) = [] := List.filter_eq_nil_iff.2 fun c hc => by rw [all c hc]; exact Bool.false_ne_true
  unfold State.lowWrite
  extract_lets plain lines u v
  have written : Still s v := plainWrite_still s plain lines
  rw [none_]
  exact written.2

/-! ### A context that is saved -/

/-- What a save of a task writes, as saveCtx takes it. -/
def savedCells (s : State) (t : Nat) (k : Task) (cls : FaultClass) (full : Bool) : Except (Cause × Nat) (List (List Cell)) :=
  let k := { k with ringPoison := (s.tile t).ringPoison }
  s.ctxCells t k (s.header t k cls ++ k.headerRest full s.serial) s.serial

/-- A save of a context that holds no word which somebody waits for leaves the waiters. -/
theorem saveCtx_waiters {s u : State} {t : Nat} {k : Task} {cls : FaultClass} {full : Bool} (saved : s.saveCtx t k cls full = .ok u)
    (far : ∀ cells, savedCells s t k cls full = .ok cells → ∀ cs ∈ cells, ∀ c ∈ cs, ∀ w ∈ s.waiters, w.pa ≠ alignDown c.1 8) :
    u.waiters = s.waiters := by
  unfold State.saveCtx at saved
  dsimp only at saved
  split at saved
  · cases saved
  · split at saved
    · cases saved
    · rename_i cells h
      cases saved
      exact List.foldlRecOn (motive := fun v : State => v.waiters = s.waiters) cells _ rfl fun v held cs hcs =>
        (lowWrite_waiters fun c hc w hw => far cells h cs hcs c hc w (held ▸ hw)).trans held

/-- A save of a context leaves the partitions. -/
theorem saveCtx_parts {s u : State} {t : Nat} {k : Task} {cls : FaultClass} {full : Bool} (saved : s.saveCtx t k cls full = .ok u) :
    u.parts = s.parts := by
  unfold State.saveCtx at saved
  dsimp only at saved
  split at saved
  · cases saved
  · split at saved
    · cases saved
    · rename_i cells h
      cases saved
      exact Kept.run (inv := fun u => u.parts = s.parts) (fun cs v e => (lowWrite_parts v cs).trans e) rfl cells

/-- What is kept of a task that leaves its tile, with the fault that it carries along. -/
def leaver (k : Task) (m : SaveSet) (resume : Nat) (carry : Bool) : Task :=
  { k.kept m resume with stop := if carry then k.faultDue else none }

/-- A task without a trap to land, an addition to take or a stop to log leaves its tile as its context is saved. -/
theorem leaveTile_saves {s u : State} {t : Nat} {k : Task} {m : SaveSet} {resume : Nat} {carry : Bool} (c : Nat)
    (on : (s.tile t).task = some k) (lands : k.landAll.2 = none) (peers : (s.tile t).peerIn = [])
    (stops : k.landAll.1.stop = none) (saved : s.saveCtx t (leaver k.landAll.1 m resume carry) .v false = .ok u) :
    s.leaveTile t c m resume carry =
      (some (leaver k.landAll.1 m resume carry), u.markLeft k.landAll.1.part k.landAll.1.record.taskid) := by
  have flush : s.flushPeer t = s := by rw [State.flushPeer, peers]; rfl
  have logs (v : State) : v.logPending t k.landAll.1 = v := by rw [State.logPending, stops]
  unfold leaver at saved
  unfold State.leaveTile
  rw [on]
  dsimp only
  rw [lands]
  dsimp only
  rw [flush, saved]
  dsimp only
  rw [logs, ite_self]
  rfl

/-! ### A range of one unit -/

/-- A range inside one unit of 64 KiB is where its first byte is. -/
theorem accessRange_unit {s : State} {quad part va n : Nat} {need : Need} {l : Leaf} (some_ : 0 < n)
    (one : va % 65536 + n ≤ 65536) (h : s.access quad part va need = .ok l) :
    s.accessRange quad part va n need = .ok ((List.range n).map fun i => (l.pa + i, { l with pa := l.pa + i })) := by
  have units : (va + n - 1) / 65536 + 1 - va / 65536 = 1 := by omega
  have lo : max va (va / 65536 * 65536) = va := by omega
  have hi : min (va + n) ((va / 65536 + 1) * 65536) - va = n := by omega
  unfold State.accessRange
  rw [units]
  simp only [List.range_one, List.map_cons, List.map_nil, Nat.add_zero, List.foldr_cons, List.foldr_nil, lo, h, hi, List.append_nil]

/-- An engine reads the bytes of a range inside one unit where nothing is poisoned. -/
theorem engBytes_ok {s : State} {quad part t va n : Nat} {l : Leaf} (some_ : 0 < n) (one : va % 65536 + n ≤ 65536)
    (h : s.access quad part va .read = .ok l) (memory : s.poison = []) (stash : ∀ x ∈ (s.tile t).stash, x.st ≠ .poisoned) :
    ∃ bs, s.engBytes quad part (some t) va n = .ok bs := by
  unfold State.engBytes
  rw [accessRange_unit some_ one h]
  dsimp only
  rw [List.find?_eq_none.2]
  · exact ⟨_, rfl⟩
  · rintro ⟨⟨a, m⟩, i⟩ -
    dsimp only
    cases e : ((s.tile t).lineAt (lineOf a)).filter fun l => l.hits (s.tile t).clock with
    | none => simp [State.poisoned, memory]
    | some x => simp [stash x (List.mem_of_find?_eq_some (Option.filter_eq_some_iff.1 e).1)]

/-- The image of an accumulator can be read where its bytes lie in one unit and nothing is poisoned. -/
theorem accImage_ok {s : State} {t part va : Nat} {l : Leaf} (one : va % 65536 + 32768 ≤ 65536)
    (h : s.access (tileUnit t) part va .read = .ok l) (plain : l.c = false) (memory : s.poison = [])
    (stash : ∀ x ∈ (s.tile t).stash, x.st ≠ .poisoned) : ∃ es, s.accImage t part va = .ok es := by
  have pas := accessRange_unit (by decide) one h
  obtain ⟨bs, hbs⟩ := engBytes_ok (t := t) (by decide) one h memory stash
  unfold State.accImage
  rw [pas, hbs]
  generalize List.range 32768 = is
  dsimp only
  rw [if_neg]
  · exact ⟨_, rfl⟩
  · rw [List.any_map, List.any_eq_true]
    rintro ⟨i, -, c⟩
    exact Bool.false_ne_true (plain.symm.trans c)

end Sys2Proof.Laws
end

