-- ==== Sys2Proof/Laws/PerInstr.lean ====
section
/-! SUPPORT. The round trip of every instruction through the encoder and the decoder, one lemma for each constructor. -/

set_option Elab.async false
set_option linter.unusedSimpArgs false

namespace Sys2Proof.Laws.Roundtrip

/-- The decoder reads the encoding of a well-formed instruction back. -/
def Statement (i : Instr) : Prop := i.wf = true → ∀ c, encode i = some c → decode c = .ok i

/-! ### Fields of concatenated words -/

/-- A field of the high part of a concatenation. -/
theorem field_hi {a b : Nat} (x : BitVec a) (y : BitVec b) (lo len : Nat) (h : b ≤ lo) :
    @BitVec.extractLsb' (no_index (a + b)) lo len
      (@HAppend.hAppend (BitVec a) (BitVec b) (no_index (BitVec (a + b))) _ x y) = x.extractLsb' (lo - b) len := by
  ext i hi
  simp only [BitVec.getElem_extractLsb', BitVec.getLsbD_append]
  rw [if_neg (by omega)]
  congr 1; omega

/-- A field of the low part of a concatenation. -/
theorem field_lo {a b : Nat} (x : BitVec a) (y : BitVec b) (lo len : Nat) (h : lo + len ≤ b) :
    @BitVec.extractLsb' (no_index (a + b)) lo len
      (@HAppend.hAppend (BitVec a) (BitVec b) (no_index (BitVec (a + b))) _ x y) = y.extractLsb' lo len := by
  ext i hi
  simp only [BitVec.getElem_extractLsb', BitVec.getLsbD_append]
  rw [if_pos (by omega)]

/-- A field that is the whole word. -/
theorem field_all {a : Nat} (x : BitVec a) : x.extractLsb' 0 a = x := by ext i hi; simp

/-- A field of a word of zeros. -/
theorem field_zero (a lo len : Nat) : (0#a).extractLsb' lo len = 0#len := by ext i hi; simp

/-- A bit of one flag. -/
theorem bit_one (b : Bool) : (bit b == 1#1) = b := by cases b <;> rfl

/-- The operand limits of a well-formed instruction. -/
theorem wf_fields {i : Instr} (h : i.wf = true) : i.fieldsOk = true := by
  simp only [Instr.wf, Bool.and_eq_true] at h; exact h.1.1.2

/-- The fields of a well-formed control word. -/
theorem wf_hcw {i : Instr} {r : HcwRow} {c : Hcw} (hc : i.hcw = some c) (hr : i.row = some r) (h : i.wf = true) :
    c.ok r = true := by
  simp only [Instr.wf, hc, hr, Bool.and_eq_true] at h; exact h.1.1.1

/-- The port directions of a well-formed instruction. -/
theorem wf_ports {i : Instr} (h : i.wf = true) : i.portsOk = true := by
  simp only [Instr.wf, Bool.and_eq_true] at h; exact h.1.2

/-! ### Control words -/

theorem hcwFields_encode (r : HcwRow) (h : Hcw) : hcwFields (encodeHcw r h) = h := by
  simp only [hcwFields, encodeHcw, field_hi, field_lo, field_all, bit_one, Nat.reduceLeDiff, Nat.reduceAdd, Nat.reduceSub]

theorem encodeHcw_class (r : HcwRow) (h : Hcw) : (encodeHcw r h).extractLsb' 252 4 = r.cls := by
  simp only [encodeHcw, field_hi, field_lo, field_all, Nat.reduceLeDiff, Nat.reduceAdd, Nat.reduceSub]

theorem encodeHcw_opcode (r : HcwRow) (h : Hcw) : (encodeHcw r h).extractLsb' 244 8 = r.op := by
  simp only [encodeHcw, field_hi, field_lo, field_all, Nat.reduceLeDiff, Nat.reduceAdd, Nat.reduceSub]

theorem encodeHcw_reserved (r : HcwRow) (h : Hcw) :
    (encodeHcw r h).extractLsb' 236 2 = 0#2 ∧ (encodeHcw r h).extractLsb' 128 59 = 0#59
      ∧ (encodeHcw r h).extractLsb' 64 64 = 0#64 := by
  simp only [encodeHcw, field_hi, field_lo, field_all, Nat.reduceLeDiff, Nat.reduceAdd, Nat.reduceSub, and_self]

/-- The round trip of an operation of the S or V slot, from its row. -/
theorem hcw_roundtrip (i : Instr) (r : HcwRow) (h : Hcw) (hr : i.row = some r) (ok : h.ok r = true)
    (found : r.cls = 1#4 ∧ scalarOp r.op h = some i ∨ r.cls = 2#4 ∧ vectorOp r.op h = some i) :
    decodeHcw (encodeHcw r h) = .ok i := by
  obtain ⟨h1, h2, h3⟩ := encodeHcw_reserved r h
  obtain ⟨hc, ho⟩ | ⟨hc, ho⟩ := found <;>
    simp [decodeHcw, hcwFields_encode, encodeHcw_class, encodeHcw_opcode, hc, ho, hr, h1, h2, h3, ok]

theorem bundleIssue (t : Nat) : Statement (.bundleIssue t) := fun _ _ h => nomatch h

theorem delayedStart (t : Nat) : Statement (.delayedStart t) := fun _ _ h => nomatch h

theorem sealComparison (t : Nat) : Statement (.sealComparison t) := fun _ _ h => nomatch h

theorem orderPoint (t : Nat) : Statement (.orderPoint t) := fun _ _ h => nomatch h

theorem blockReplay (t : Nat) : Statement (.blockReplay t) := fun _ _ h => nomatch h

theorem blockRerun (t : Nat) : Statement (.blockRerun t) := fun _ _ h => nomatch h

theorem tileRetirement (t : Nat) : Statement (.tileRetirement t) := fun _ _ h => nomatch h

theorem engineInstanceFailure (t : Nat) (vector : Bool) (unit : BitVec 2) : Statement (.engineInstanceFailure t vector unit) := fun _ _ h => nomatch h

theorem stashFill (t : Nat) : Statement (.stashFill t) := fun _ _ h => nomatch h

theorem lineRecall (line : Nat) : Statement (.lineRecall line) := fun _ _ h => nomatch h

theorem valueDelivery (n : Nat) : Statement (.valueDelivery n) := fun _ _ h => nomatch h

theorem cwaitReply (t : Nat) : Statement (.cwaitReply t) := fun _ _ h => nomatch h

theorem waiterConfirm (n : Nat) : Statement (.waiterConfirm n) := fun _ _ h => nomatch h

theorem cwaitRetry (t : Nat) : Statement (.cwaitRetry t) := fun _ _ h => nomatch h

theorem launchQueueDrain (slice : Nat) (part : Nat) : Statement (.launchQueueDrain slice part) := fun _ _ h => nomatch h

theorem taskPick (t : Nat) (idle : Nat) : Statement (.taskPick t idle) := fun _ _ h => nomatch h

theorem preemptForced (t : Nat) : Statement (.preemptForced t) := fun _ _ h => nomatch h

theorem watchdogExpiry (t : Nat) : Statement (.watchdogExpiry t) := fun _ _ h => nomatch h

theorem frameStart (p : Nat) : Statement (.frameStart p) := fun _ _ h => nomatch h

theorem relRelease (t : Nat) : Statement (.relRelease t) := fun _ _ h => nomatch h

theorem mmaExecute (t : Nat) : Statement (.mmaExecute t) := fun _ _ h => nomatch h

theorem mzeroExecute (t : Nat) : Statement (.mzeroExecute t) := fun _ _ h => nomatch h

theorem mloadExecute (t : Nat) : Statement (.mloadExecute t) := fun _ _ h => nomatch h

theorem mdrainExecute (t : Nat) : Statement (.mdrainExecute t) := fun _ _ h => nomatch h

theorem drainEntryFill (t : Nat) : Statement (.drainEntryFill t) := fun _ _ h => nomatch h

theorem peerAdditionApply (t : Nat) : Statement (.peerAdditionApply t) := fun _ _ h => nomatch h

theorem peerAck (t : Nat) : Statement (.peerAck t) := fun _ _ h => nomatch h

theorem chainStep (t : Nat) : Statement (.chainStep t) := fun _ _ h => nomatch h

theorem copyChunk (e : CopyEngine) : Statement (.copyChunk e) := fun _ _ h => nomatch h

theorem millBlockPush (t : Nat) (g : BitVec 3) : Statement (.millBlockPush t g) := fun _ _ h => nomatch h

theorem millBlockPull (t : Nat) (g : BitVec 3) : Statement (.millBlockPull t g) := fun _ _ h => nomatch h

theorem reductionChunk (die : Nat) : Statement (.reductionChunk die) := fun _ _ h => nomatch h

theorem wcPartialWrite (p : Nat) (t : BitVec 10) (frame : Nat) (off : BitVec 6) (bytes : List (BitVec 9 × BitVec 8)) : Statement (.wcPartialWrite p t frame off bytes) := fun _ _ h => nomatch h

theorem wcTimeout (die : Nat) (n : Nat) : Statement (.wcTimeout die n) := fun _ _ h => nomatch h

theorem patrolScrub (die : Nat) (found : List Nat) : Statement (.patrolScrub die found) := fun _ _ h => nomatch h

theorem eccUncorrectable (line : Nat) : Statement (.eccUncorrectable line) := fun _ _ h => nomatch h

theorem engineInternalError (die : Nat) (unit : BaseUnit) : Statement (.engineInternalError die unit) := fun _ _ h => nomatch h

theorem launch (quad queue : Nat) : Statement (.launch quad queue) := fun _ _ h => nomatch h

theorem launchStartRelease (quad queue : Nat) : Statement (.launchStartRelease quad queue) := fun _ _ h => nomatch h

theorem launchComplete (p n : Nat) : Statement (.launchComplete p n) := fun _ _ h => nomatch h

theorem graph (quad queue : Nat) : Statement (.graph quad queue) := fun _ _ h => nomatch h

theorem graphNodeComplete (quad n node : Nat) : Statement (.graphNodeComplete quad n node) := fun _ _ h => nomatch h

theorem counterAdd (quad queue : Nat) : Statement (.counterAdd quad queue) := fun _ _ h => nomatch h

theorem counterWait (quad queue : Nat) : Statement (.counterWait quad queue) := fun _ _ h => nomatch h

theorem counterWaitRelease (quad queue : Nat) : Statement (.counterWaitRelease quad queue) := fun _ _ h => nomatch h

theorem copy (quad queue : Nat) : Statement (.copy quad queue) := fun _ _ h => nomatch h

theorem fencePacket (quad queue : Nat) : Statement (.fencePacket quad queue) := fun _ _ h => nomatch h

theorem ttLoad (quad queue : Nat) : Statement (.ttLoad quad queue) := fun _ _ h => nomatch h

theorem ttStart (quad queue : Nat) : Statement (.ttStart quad queue) := fun _ _ h => nomatch h

theorem ttStop (quad queue : Nat) : Statement (.ttStop quad queue) := fun _ _ h => nomatch h

theorem ttSwap (quad queue : Nat) : Statement (.ttSwap quad queue) := fun _ _ h => nomatch h

theorem ttRead (quad queue : Nat) : Statement (.ttRead quad queue) := fun _ _ h => nomatch h

theorem notifyWrite (quad queue : Nat) (wridx : BitVec 32) : Statement (.notifyWrite quad queue wridx) := fun _ _ h => nomatch h

theorem queueResume (quad queue : Nat) : Statement (.queueResume quad queue) := fun _ _ h => nomatch h

theorem mergeRoundOpen (p : Nat) : Statement (.mergeRoundOpen p) := fun _ _ h => nomatch h

theorem mergeRoundClose (p : Nat) : Statement (.mergeRoundClose p) := fun _ _ h => nomatch h

theorem tlbInvalidate (quad : Nat) : Statement (.tlbInvalidate quad) := fun _ _ h => nomatch h

theorem tlbInvalidateDone (quad : Nat) : Statement (.tlbInvalidateDone quad) := fun _ _ h => nomatch h

theorem resumeHalted (quad : Nat) (token : BitVec 16) : Statement (.resumeHalted quad token) := fun _ _ h => nomatch h

theorem abandonHalted (quad : Nat) (token : BitVec 16) : Statement (.abandonHalted quad token) := fun _ _ h => nomatch h

theorem partitionHalt (p : Nat) : Statement (.partitionHalt p) := fun _ _ h => nomatch h

theorem partitionResume (p : Nat) : Statement (.partitionResume p) := fun _ _ h => nomatch h

theorem partitionFence (p : Nat) : Statement (.partitionFence p) := fun _ _ h => nomatch h

theorem revive (p : Nat) (ctx : Nat) : Statement (.revive p ctx) := fun _ _ h => nomatch h

theorem deviceReset : Statement (.deviceReset) := fun _ _ h => nomatch h

theorem powerOnReset : Statement (.powerOnReset) := fun _ _ h => nomatch h

theorem selfTest (bad : List BadUnit) : Statement (.selfTest bad) := fun _ _ h => nomatch h

theorem partitionLayout (v : BitVec 8) : Statement (.partitionLayout v) := fun _ _ h => nomatch h

theorem partitionReset (p : Nat) : Statement (.partitionReset p) := fun _ _ h => nomatch h

theorem loaderCheckSeal : Statement (.loaderCheckSeal) := fun _ _ h => nomatch h

theorem loaderLoadEntry : Statement (.loaderLoadEntry) := fun _ _ h => nomatch h

theorem powerCapAdjust (i : Island) (p : OpPoint) : Statement (.powerCapAdjust i p) := fun _ _ h => nomatch h

theorem registerWrite (off : Nat) (v : BitVec 64) (be : BitVec 8) (priv : Bool) : Statement (.registerWrite off v be priv) := fun _ _ h => nomatch h

theorem channelEnable (port ch : Nat) : Statement (.channelEnable port ch) := fun _ _ h => nomatch h

theorem channelDisable (port ch : Nat) : Statement (.channelDisable port ch) := fun _ _ h => nomatch h

theorem rdmaRead (conn : Nat) (addr : BitVec 56) (len : Nat) : Statement (.rdmaRead conn addr len) := fun _ _ h => nomatch h

theorem rdmaWrite (conn : Nat) (addr : BitVec 56) (data : List Byte) : Statement (.rdmaWrite conn addr data) := fun _ _ h => nomatch h

theorem queueTransportRead (src : Nat) (seq : BitVec 16) (addr : BitVec 64) (len : Nat) : Statement (.queueTransportRead src seq addr len) := fun _ _ h => nomatch h

theorem queueTransportWrite (src : Nat) (seq : BitVec 16) (addr : BitVec 64) (data : List Byte) : Statement (.queueTransportWrite src seq addr data) := fun _ _ h => nomatch h

theorem data (port : Nat) (src : BitVec 8) (f : DataFrame) : Statement (.data port src f) := fun _ _ h => nomatch h

theorem ack (port : Nat) (src : BitVec 8) (seq : BitVec 32) : Statement (.ack port src seq) := fun _ _ h => nomatch h

theorem credit (port : Nat) (src : BitVec 8) (ch : BitVec 5) (reset : Bool) (n : BitVec 32) : Statement (.credit port src ch reset n) := fun _ _ h => nomatch h

theorem pair (port : Nat) (src : BitVec 8) (seq : BitVec 32) (msgs : List PairMsg) : Statement (.pair port src seq msgs) := fun _ _ h => nomatch h

theorem messageSend (port ch : Nat) : Statement (.messageSend port ch) := fun _ _ h => nomatch h

theorem ackTimer (port : Nat) : Statement (.ackTimer port) := fun _ _ h => nomatch h

theorem resendTimeout (port : Nat) : Statement (.resendTimeout port) := fun _ _ h => nomatch h

theorem pairTimeout (t : Nat) : Statement (.pairTimeout t) := fun _ _ h => nomatch h

theorem linkTraining (port : Nat) : Statement (.linkTraining port) := fun _ _ h => nomatch h

theorem linkDown (port : Nat) : Statement (.linkDown port) := fun _ _ h => nomatch h

theorem ptpMessage (port : Nat) (tick : BitVec 64) : Statement (.ptpMessage port tick) := fun _ _ h => nomatch h

theorem ptpLockLoss : Statement (.ptpLockLoss) := fun _ _ h => nomatch h

theorem nop : Statement (.nop) := by
  intro w c e
  injection e with e
  subst e
  rfl

theorem bprep (b : BitVec 3) (off : BitVec 23) : Statement (.bprep b off) := by
  intro w c e
  injection e with e
  subst e
  show decodeC _ = _
  ( simp [decodeC, fld, zeroBits, needs, MaskUnit.bit, field_hi, field_lo, field_all, field_zero])

theorem bprepi (b : BitVec 3) (n : BitVec 6) : Statement (.bprepi b n) := by
  intro w c e
  injection e with e
  subst e
  show decodeC _ = _
  ( simp [decodeC, fld, zeroBits, needs, MaskUnit.bit, field_hi, field_lo, field_all, field_zero])

theorem xfer (b : BitVec 3) (q : BitVec 3) : Statement (.xfer b q) := by
  intro w c e
  injection e with e
  subst e
  show decodeC _ = _
  ( simp [decodeC, fld, zeroBits, needs, MaskUnit.bit, field_hi, field_lo, field_all, field_zero])

theorem xferF (b : BitVec 3) (q : BitVec 3) : Statement (.xferF b q) := by
  intro w c e
  injection e with e
  subst e
  show decodeC _ = _
  ( simp [decodeC, fld, zeroBits, needs, MaskUnit.bit, field_hi, field_lo, field_all, field_zero])

theorem xferMz (b : BitVec 3) (u : MaskUnit) : Statement (.xferMz b u) := by
  intro w c e
  injection e with e
  subst e
  show decodeC _ = _
  cases u <;>
    ( simp [decodeC, fld, zeroBits, needs, MaskUnit.bit, field_hi, field_lo, field_all, field_zero])

theorem xferMnz (b : BitVec 3) (u : MaskUnit) : Statement (.xferMnz b u) := by
  intro w c e
  injection e with e
  subst e
  show decodeC _ = _
  cases u <;>
    ( simp [decodeC, fld, zeroBits, needs, MaskUnit.bit, field_hi, field_lo, field_all, field_zero])

theorem call (b : BitVec 3) : Statement (.call b) := by
  intro w c e
  injection e with e
  subst e
  show decodeC _ = _
  ( simp [decodeC, fld, zeroBits, needs, MaskUnit.bit, field_hi, field_lo, field_all, field_zero])

theorem lmark (n : BitVec 6) (len : BitVec 8) : Statement (.lmark n len) := by
  intro w c e
  injection e with e
  subst e
  have hf := wf_fields w
  show decodeC _ = _
  (have hf2 := hf; simp [Instr.fieldsOk] at hf2 <;> simp [decodeC, fld, zeroBits, needs, MaskUnit.bit, field_hi, field_lo, field_all, field_zero, hf, hf2])

theorem lmarkImm (count : BitVec 12) (len : BitVec 8) : Statement (.lmarkImm count len) := by
  intro w c e
  injection e with e
  subst e
  have hf := wf_fields w
  show decodeC _ = _
  (have hf2 := hf; simp [Instr.fieldsOk] at hf2 <;> simp [decodeC, fld, zeroBits, needs, MaskUnit.bit, field_hi, field_lo, field_all, field_zero, hf, hf2])

theorem ilock (n : BitVec 6) (lines : BitVec 16) : Statement (.ilock n lines) := by
  intro w c e
  injection e with e
  subst e
  show decodeC _ = _
  ( simp [decodeC, fld, zeroBits, needs, MaskUnit.bit, field_hi, field_lo, field_all, field_zero])

theorem iunlock (n : BitVec 6) (lines : BitVec 16) : Statement (.iunlock n lines) := by
  intro w c e
  injection e with e
  subst e
  show decodeC _ = _
  ( simp [decodeC, fld, zeroBits, needs, MaskUnit.bit, field_hi, field_lo, field_all, field_zero])

theorem wait (ld st cp mx : BitVec 5) : Statement (.wait ld st cp mx) := by
  intro w c e
  injection e with e
  subst e
  show decodeC _ = _
  ( simp [decodeC, fld, zeroBits, needs, MaskUnit.bit, field_hi, field_lo, field_all, field_zero])

theorem rel (n : BitVec 20) : Statement (.rel n) := by
  intro w c e
  injection e with e
  subst e
  show decodeC _ = _
  ( simp [decodeC, fld, zeroBits, needs, MaskUnit.bit, field_hi, field_lo, field_all, field_zero])

theorem done : Statement (.done) := by
  intro w c e
  injection e with e
  subst e
  rfl

theorem yield : Statement (.yield) := by
  intro w c e
  injection e with e
  subst e
  rfl

theorem trap (code : BitVec 8) : Statement (.trap code) := by
  intro w c e
  injection e with e
  subst e
  show decodeC _ = _
  ( simp [decodeC, fld, zeroBits, needs, MaskUnit.bit, field_hi, field_lo, field_all, field_zero])

theorem brk (tag : BitVec 16) : Statement (.brk tag) := by
  intro w c e
  injection e with e
  subst e
  show decodeC _ = _
  ( simp [decodeC, fld, zeroBits, needs, MaskUnit.bit, field_hi, field_lo, field_all, field_zero])

theorem inj (slot : BitVec 6) (k : BitVec 2) (d : BitVec 8) (step : BitVec 6) : Statement (.inj slot k d step) := by
  intro w c e
  injection e with e
  subst e
  have hf := wf_fields w
  show decodeC _ = _
  (have hf2 := hf; simp [Instr.fieldsOk] at hf2 <;> simp [decodeC, fld, zeroBits, needs, MaskUnit.bit, field_hi, field_lo, field_all, field_zero, hf, hf2])

theorem mma (a : BitVec 3) (tA tB : BitVec 10) (c : BitVec 3) : Statement (.mma a tA tB c) := by
  intro w c e
  injection e with e
  subst e
  show decodeM _ = _
  ( simp [decodeM, fld, zeroBits, needs, field_hi, field_lo, field_all, field_zero])

theorem mzero (a : BitVec 3) : Statement (.mzero a) := by
  intro w c e
  injection e with e
  subst e
  show decodeM _ = _
  ( simp [decodeM, fld, zeroBits, needs, field_hi, field_lo, field_all, field_zero])

theorem mdrain (a : BitVec 3) (t : BitVec 10) (dq : BitVec 2) : Statement (.mdrain a t dq) := by
  intro w c e
  injection e with e
  subst e
  show decodeM _ = _
  ( simp [decodeM, fld, zeroBits, needs, field_hi, field_lo, field_all, field_zero])

theorem mdrainRed (a : BitVec 3) (t : BitVec 10) (tile : BitVec 10) (aM : BitVec 3) : Statement (.mdrainRed a t tile aM) := by
  intro w c e
  injection e with e
  subst e
  show decodeM _ = _
  ( simp [decodeM, fld, zeroBits, needs, field_hi, field_lo, field_all, field_zero])

theorem mload (a : BitVec 3) (n : BitVec 6) : Statement (.mload a n) := by
  intro w c e
  injection e with e
  subst e
  show decodeM _ = _
  ( simp [decodeM, fld, zeroBits, needs, field_hi, field_lo, field_all, field_zero])

theorem chset (bd : BitVec 4) (n : BitVec 6) : Statement (.chset bd n) := by
  intro w c e
  injection e with e
  subst e
  have hf := wf_fields w
  show decodeM _ = _
  (have hf2 := hf; simp [Instr.fieldsOk] at hf2 <;> simp [decodeM, fld, zeroBits, needs, field_hi, field_lo, field_all, field_zero, hf, hf2])

theorem chsetImm (bd : BitVec 4) (v : BitVec 16) : Statement (.chsetImm bd v) := by
  intro w c e
  injection e with e
  subst e
  show decodeM _ = _
  ( simp [decodeM, fld, zeroBits, needs, field_hi, field_lo, field_all, field_zero])

theorem chrun (n m : BitVec 6) : Statement (.chrun n m) := by
  intro w c e
  injection e with e
  subst e
  show decodeM _ = _
  ( simp [decodeM, fld, zeroBits, needs, field_hi, field_lo, field_all, field_zero])

theorem chstep (n : BitVec 6) : Statement (.chstep n) := by
  intro w c e
  injection e with e
  subst e
  show decodeM _ = _
  ( simp [decodeM, fld, zeroBits, needs, field_hi, field_lo, field_all, field_zero])

theorem chstepPick (n m : BitVec 6) : Statement (.chstepPick n m) := by
  intro w c e
  injection e with e
  subst e
  show decodeM _ = _
  ( simp [decodeM, fld, zeroBits, needs, field_hi, field_lo, field_all, field_zero])

theorem ld (d base : BitVec 6) (sz : MemSize) (signed : Bool) (off : BitVec 10) : Statement (.ld d base sz signed off) := by
  intro w c e
  injection e with e
  subst e
  have hf := wf_fields w
  show decodeL _ = _
  cases sz <;>
    (have hf2 := hf; simp [Instr.fieldsOk] at hf2 <;> simp [decodeL, fld, zeroBits, needs, decodeSize, MemSize.code, bit_one, field_hi, field_lo, field_all, field_zero, hf, hf2, Instr.fieldsOk])

theorem st (n base : BitVec 6) (sz : MemSize) (off : BitVec 10) : Statement (.st n base sz off) := by
  intro w c e
  injection e with e
  subst e
  show decodeL _ = _
  cases sz <;>
    ( simp [decodeL, fld, zeroBits, needs, decodeSize, MemSize.code, bit_one, field_hi, field_lo, field_all, field_zero])

theorem vld (v : BitVec 5) (base stride : BitVec 6) : Statement (.vld v base stride) := by
  intro w c e
  injection e with e
  subst e
  show decodeL _ = _
  ( simp [decodeL, fld, zeroBits, needs, decodeSize, MemSize.code, bit_one, field_hi, field_lo, field_all, field_zero])

theorem vst (v : BitVec 5) (base stride : BitVec 6) : Statement (.vst v base stride) := by
  intro w c e
  injection e with e
  subst e
  show decodeL _ = _
  ( simp [decodeL, fld, zeroBits, needs, decodeSize, MemSize.code, bit_one, field_hi, field_lo, field_all, field_zero])

theorem stq (dq : BitVec 2) (t : BitVec 10) (c : BitVec 6) : Statement (.stq dq t c) := by
  intro w c e
  injection e with e
  subst e
  show decodeL _ = _
  ( simp [decodeL, fld, zeroBits, needs, decodeSize, MemSize.code, bit_one, field_hi, field_lo, field_all, field_zero])

theorem racq (d : BitVec 6) (g : BitVec 3) : Statement (.racq d g) := by
  intro w c e
  injection e with e
  subst e
  show decodeL _ = _
  ( simp [decodeL, fld, zeroBits, needs, decodeSize, MemSize.code, bit_one, field_hi, field_lo, field_all, field_zero])

theorem rpub (g : BitVec 3) : Statement (.rpub g) := by
  intro w c e
  injection e with e
  subst e
  show decodeL _ = _
  ( simp [decodeL, fld, zeroBits, needs, decodeSize, MemSize.code, bit_one, field_hi, field_lo, field_all, field_zero])

theorem rget (d : BitVec 6) (g : BitVec 3) : Statement (.rget d g) := by
  intro w c e
  injection e with e
  subst e
  show decodeL _ = _
  ( simp [decodeL, fld, zeroBits, needs, decodeSize, MemSize.code, bit_one, field_hi, field_lo, field_all, field_zero])

theorem rrel (g : BitVec 3) : Statement (.rrel g) := by
  intro w c e
  injection e with e
  subst e
  show decodeL _ = _
  ( simp [decodeL, fld, zeroBits, needs, decodeSize, MemSize.code, bit_one, field_hi, field_lo, field_all, field_zero])

theorem sflush (base : BitVec 6) (lines : BitVec 14) : Statement (.sflush base lines) := by
  intro w c e
  injection e with e
  subst e
  show decodeL _ = _
  ( simp [decodeL, fld, zeroBits, needs, decodeSize, MemSize.code, bit_one, field_hi, field_lo, field_all, field_zero])

theorem sinv (base : BitVec 6) (lines : BitVec 14) : Statement (.sinv base lines) := by
  intro w c e
  injection e with e
  subst e
  show decodeL _ = _
  ( simp [decodeL, fld, zeroBits, needs, decodeSize, MemSize.code, bit_one, field_hi, field_lo, field_all, field_zero])

theorem cpy (tD tS : BitVec 10) (c : BitVec 6) : Statement (.cpy tD tS c) := by
  intro w c e
  injection e with e
  subst e
  show decodeD _ = _
  ( simp [decodeD, fld, zeroBits, needs, decodeAmoOp, AmoOp.code, decodeCond, Cond.code, bit_one, field_hi, field_lo, field_all, field_zero])

theorem msub (g : BitVec 3) (t : BitVec 10) (n : BitVec 6) : Statement (.msub g t n) := by
  intro w c e
  injection e with e
  subst e
  show decodeD _ = _
  ( simp [decodeD, fld, zeroBits, needs, decodeAmoOp, AmoOp.code, decodeCond, Cond.code, bit_one, field_hi, field_lo, field_all, field_zero])

theorem mret (g : BitVec 3) (t : BitVec 10) (n : BitVec 6) : Statement (.mret g t n) := by
  intro w c e
  injection e with e
  subst e
  show decodeD _ = _
  ( simp [decodeD, fld, zeroBits, needs, decodeAmoOp, AmoOp.code, decodeCond, Cond.code, bit_one, field_hi, field_lo, field_all, field_zero])

theorem cadd (a n : BitVec 6) : Statement (.cadd a n) := by
  intro w c e
  injection e with e
  subst e
  show decodeD _ = _
  ( simp [decodeD, fld, zeroBits, needs, decodeAmoOp, AmoOp.code, decodeCond, Cond.code, bit_one, field_hi, field_lo, field_all, field_zero])

theorem caddImm (a : BitVec 6) (v : BitVec 13) : Statement (.caddImm a v) := by
  intro w c e
  injection e with e
  subst e
  show decodeD _ = _
  ( simp [decodeD, fld, zeroBits, needs, decodeAmoOp, AmoOp.code, decodeCond, Cond.code, bit_one, field_hi, field_lo, field_all, field_zero])

theorem cwait (a t m : BitVec 6) (b : BitVec 3) : Statement (.cwait a t m b) := by
  intro w c e
  injection e with e
  subst e
  have hf := wf_fields w
  show decodeD _ = _
  (have hf2 := hf; simp [Instr.fieldsOk] at hf2 <;> simp [decodeD, fld, zeroBits, needs, decodeAmoOp, AmoOp.code, decodeCond, Cond.code, bit_one, field_hi, field_lo, field_all, field_zero, hf, hf2])

theorem cread (d a : BitVec 6) : Statement (.cread d a) := by
  intro w c e
  injection e with e
  subst e
  show decodeD _ = _
  ( simp [decodeD, fld, zeroBits, needs, decodeAmoOp, AmoOp.code, decodeCond, Cond.code, bit_one, field_hi, field_lo, field_all, field_zero])

theorem amo (op : AmoOp) (wide : Bool) (d a n : BitVec 6) : Statement (.amo op wide d a n) := by
  intro w c e
  injection e with e
  subst e
  have hf := wf_fields w
  show decodeD _ = _
  cases op <;>
    (have hf2 := hf; simp [Instr.fieldsOk] at hf2 <;> simp [decodeD, fld, zeroBits, needs, decodeAmoOp, AmoOp.code, decodeCond, Cond.code, bit_one, field_hi, field_lo, field_all, field_zero, hf, hf2])

theorem amoc (op : AmoOp) (cc : Cond) (d a n : BitVec 6) : Statement (.amoc op cc d a n) := by
  intro w c e
  injection e with e
  subst e
  have hf := wf_fields w
  show decodeD _ = _
  cases op <;> cases cc <;>
    (have hf2 := hf; simp [Instr.fieldsOk] at hf2 <;> simp [decodeD, fld, zeroBits, needs, decodeAmoOp, AmoOp.code, decodeCond, Cond.code, bit_one, field_hi, field_lo, field_all, field_zero, hf, hf2])

theorem mred (p c : BitVec 6) : Statement (.mred p c) := by
  intro w c e
  injection e with e
  subst e
  show decodeD _ = _
  ( simp [decodeD, fld, zeroBits, needs, decodeAmoOp, AmoOp.code, decodeCond, Cond.code, bit_one, field_hi, field_lo, field_all, field_zero])

theorem fence (before after : BitVec 6) : Statement (.fence before after) := by
  intro w c e
  injection e with e
  subst e
  show decodeD _ = _
  ( simp [decodeD, fld, zeroBits, needs, decodeAmoOp, AmoOp.code, decodeCond, Cond.code, bit_one, field_hi, field_lo, field_all, field_zero])

theorem spawn (a : BitVec 6) : Statement (.spawn a) := by
  intro w c e
  injection e with e
  subst e
  show decodeD _ = _
  ( simp [decodeD, fld, zeroBits, needs, decodeAmoOp, AmoOp.code, decodeCond, Cond.code, bit_one, field_hi, field_lo, field_all, field_zero])

theorem join (g : BitVec 16) : Statement (.join g) := by
  intro w c e
  injection e with e
  subst e
  show decodeD _ = _
  ( simp [decodeD, fld, zeroBits, needs, decodeAmoOp, AmoOp.code, decodeCond, Cond.code, bit_one, field_hi, field_lo, field_all, field_zero])

theorem leave (g : BitVec 16) : Statement (.leave g) := by
  intro w c e
  injection e with e
  subst e
  show decodeD _ = _
  ( simp [decodeD, fld, zeroBits, needs, decodeAmoOp, AmoOp.code, decodeCond, Cond.code, bit_one, field_hi, field_lo, field_all, field_zero])

theorem tdef (t : BitVec 10) (d : BitVec 6) : Statement (.tdef t d) := by
  intro w c e
  injection e with e
  subst e
  show decodeD _ = _
  ( simp [decodeD, fld, zeroBits, needs, decodeAmoOp, AmoOp.code, decodeCond, Cond.code, bit_one, field_hi, field_lo, field_all, field_zero])

theorem tdrop (t : BitVec 10) : Statement (.tdrop t) := by
  intro w c e
  injection e with e
  subst e
  show decodeD _ = _
  ( simp [decodeD, fld, zeroBits, needs, decodeAmoOp, AmoOp.code, decodeCond, Cond.code, bit_one, field_hi, field_lo, field_all, field_zero])

theorem nsend (port ch : BitVec 5) (a l : BitVec 6) : Statement (.nsend port ch a l) := by
  intro w c e
  injection e with e
  subst e
  show decodeD _ = _
  ( simp [decodeD, fld, zeroBits, needs, decodeAmoOp, AmoOp.code, decodeCond, Cond.code, bit_one, field_hi, field_lo, field_all, field_zero])

theorem nrecv (port ch : BitVec 5) (a l : BitVec 6) : Statement (.nrecv port ch a l) := by
  intro w c e
  injection e with e
  subst e
  show decodeD _ = _
  ( simp [decodeD, fld, zeroBits, needs, decodeAmoOp, AmoOp.code, decodeCond, Cond.code, bit_one, field_hi, field_lo, field_all, field_zero])

theorem nsendq (port ch : BitVec 5) (dq : BitVec 2) : Statement (.nsendq port ch dq) := by
  intro w c e
  injection e with e
  subst e
  show decodeD _ = _
  ( simp [decodeD, fld, zeroBits, needs, decodeAmoOp, AmoOp.code, decodeCond, Cond.code, bit_one, field_hi, field_lo, field_all, field_zero])

theorem tmovPortV (p : BitVec 6) (v : BitVec 5) : Statement (.tmovPortV p v) := by
  intro w c e
  injection e with e
  subst e
  have hp := wf_ports w
  show decodeT _ = _
  (have hp2 := hp; simp only [Instr.portsOk, Bool.and_eq_true] at hp2; simp [decodeT, fld, zeroBits, needsPorts, vField, hp, field_hi, field_lo, field_all, field_zero])

theorem tmovVPort (v : BitVec 5) (p : BitVec 6) : Statement (.tmovVPort v p) := by
  intro w c e
  injection e with e
  subst e
  have hp := wf_ports w
  show decodeT _ = _
  (have hp2 := hp; simp only [Instr.portsOk, Bool.and_eq_true] at hp2; simp [decodeT, fld, zeroBits, needsPorts, vField, hp, field_hi, field_lo, field_all, field_zero])

theorem tmovPortPort (d p : BitVec 6) : Statement (.tmovPortPort d p) := by
  intro w c e
  injection e with e
  subst e
  have hp := wf_ports w
  show decodeT _ = _
  (have hp2 := hp; simp only [Instr.portsOk, Bool.and_eq_true] at hp2; simp [decodeT, fld, zeroBits, needsPorts, vField, hp, field_hi, field_lo, field_all, field_zero])

theorem tmovPortS (p : BitVec 6) (n : BitVec 6) : Statement (.tmovPortS p n) := by
  intro w c e
  injection e with e
  subst e
  have hp := wf_ports w
  show decodeT _ = _
  (have hp2 := hp; simp only [Instr.portsOk, Bool.and_eq_true] at hp2; simp [decodeT, fld, zeroBits, needsPorts, vField, hp, field_hi, field_lo, field_all, field_zero])

theorem tmovSPort (n : BitVec 6) (p : BitVec 6) : Statement (.tmovSPort n p) := by
  intro w c e
  injection e with e
  subst e
  have hp := wf_ports w
  show decodeT _ = _
  (have hp2 := hp; simp only [Instr.portsOk, Bool.and_eq_true] at hp2; simp [decodeT, fld, zeroBits, needsPorts, vField, hp, field_hi, field_lo, field_all, field_zero])

theorem qntQ : Statement (.qntQ) := fun _ _ h => nomatch h

theorem qntQs : Statement (.qntQs) := fun _ _ h => nomatch h

theorem qntDq : Statement (.qntDq) := fun _ _ h => nomatch h

theorem qntAmax : Statement (.qntAmax) := fun _ _ h => nomatch h

theorem trnE8 : Statement (.trnE8) := fun _ _ h => nomatch h

theorem trnE16 : Statement (.trnE16) := fun _ _ h => nomatch h

theorem trnE32 : Statement (.trnE32) := fun _ _ h => nomatch h

theorem trnE4 : Statement (.trnE4) := fun _ _ h => nomatch h

theorem crcInit : Statement (.crcInit) := fun _ _ h => nomatch h

theorem crcV : Statement (.crcV) := fun _ _ h => nomatch h

theorem crcS : Statement (.crcS) := fun _ _ h => nomatch h

theorem crcFin : Statement (.crcFin) := fun _ _ h => nomatch h

theorem hshKey : Statement (.hshKey) := fun _ _ h => nomatch h

theorem hshNb : Statement (.hshNb) := fun _ _ h => nomatch h

theorem hshId : Statement (.hshId) := fun _ _ h => nomatch h

theorem hshBkt : Statement (.hshBkt) := fun _ _ h => nomatch h

theorem topK : Statement (.topK) := fun _ _ h => nomatch h

theorem topGo : Statement (.topGo) := fun _ _ h => nomatch h

theorem topIdx : Statement (.topIdx) := fun _ _ h => nomatch h

theorem topClr : Statement (.topClr) := fun _ _ h => nomatch h

theorem sadd (h : Hcw) : Statement (.sadd h) := by
  intro w c e
  injection e with e
  subst e
  exact hcw_roundtrip _ _ _ rfl (wf_hcw rfl rfl w) (.inl ⟨rfl, rfl⟩)

theorem ssub (h : Hcw) : Statement (.ssub h) := by
  intro w c e
  injection e with e
  subst e
  exact hcw_roundtrip _ _ _ rfl (wf_hcw rfl rfl w) (.inl ⟨rfl, rfl⟩)

theorem smul (h : Hcw) : Statement (.smul h) := by
  intro w c e
  injection e with e
  subst e
  exact hcw_roundtrip _ _ _ rfl (wf_hcw rfl rfl w) (.inl ⟨rfl, rfl⟩)

theorem smulh (h : Hcw) : Statement (.smulh h) := by
  intro w c e
  injection e with e
  subst e
  exact hcw_roundtrip _ _ _ rfl (wf_hcw rfl rfl w) (.inl ⟨rfl, rfl⟩)

theorem smulhu (h : Hcw) : Statement (.smulhu h) := by
  intro w c e
  injection e with e
  subst e
  exact hcw_roundtrip _ _ _ rfl (wf_hcw rfl rfl w) (.inl ⟨rfl, rfl⟩)

theorem sand (h : Hcw) : Statement (.sand h) := by
  intro w c e
  injection e with e
  subst e
  exact hcw_roundtrip _ _ _ rfl (wf_hcw rfl rfl w) (.inl ⟨rfl, rfl⟩)

theorem sor (h : Hcw) : Statement (.sor h) := by
  intro w c e
  injection e with e
  subst e
  exact hcw_roundtrip _ _ _ rfl (wf_hcw rfl rfl w) (.inl ⟨rfl, rfl⟩)

theorem sxor (h : Hcw) : Statement (.sxor h) := by
  intro w c e
  injection e with e
  subst e
  exact hcw_roundtrip _ _ _ rfl (wf_hcw rfl rfl w) (.inl ⟨rfl, rfl⟩)

theorem sandn (h : Hcw) : Statement (.sandn h) := by
  intro w c e
  injection e with e
  subst e
  exact hcw_roundtrip _ _ _ rfl (wf_hcw rfl rfl w) (.inl ⟨rfl, rfl⟩)

theorem sshl (h : Hcw) : Statement (.sshl h) := by
  intro w c e
  injection e with e
  subst e
  exact hcw_roundtrip _ _ _ rfl (wf_hcw rfl rfl w) (.inl ⟨rfl, rfl⟩)

theorem sshr (h : Hcw) : Statement (.sshr h) := by
  intro w c e
  injection e with e
  subst e
  exact hcw_roundtrip _ _ _ rfl (wf_hcw rfl rfl w) (.inl ⟨rfl, rfl⟩)

theorem ssar (h : Hcw) : Statement (.ssar h) := by
  intro w c e
  injection e with e
  subst e
  exact hcw_roundtrip _ _ _ rfl (wf_hcw rfl rfl w) (.inl ⟨rfl, rfl⟩)

theorem smin (h : Hcw) : Statement (.smin h) := by
  intro w c e
  injection e with e
  subst e
  exact hcw_roundtrip _ _ _ rfl (wf_hcw rfl rfl w) (.inl ⟨rfl, rfl⟩)

theorem smax (h : Hcw) : Statement (.smax h) := by
  intro w c e
  injection e with e
  subst e
  exact hcw_roundtrip _ _ _ rfl (wf_hcw rfl rfl w) (.inl ⟨rfl, rfl⟩)

theorem sminu (h : Hcw) : Statement (.sminu h) := by
  intro w c e
  injection e with e
  subst e
  exact hcw_roundtrip _ _ _ rfl (wf_hcw rfl rfl w) (.inl ⟨rfl, rfl⟩)

theorem smaxu (h : Hcw) : Statement (.smaxu h) := by
  intro w c e
  injection e with e
  subst e
  exact hcw_roundtrip _ _ _ rfl (wf_hcw rfl rfl w) (.inl ⟨rfl, rfl⟩)

theorem sclz (h : Hcw) : Statement (.sclz h) := by
  intro w c e
  injection e with e
  subst e
  exact hcw_roundtrip _ _ _ rfl (wf_hcw rfl rfl w) (.inl ⟨rfl, rfl⟩)

theorem sctz (h : Hcw) : Statement (.sctz h) := by
  intro w c e
  injection e with e
  subst e
  exact hcw_roundtrip _ _ _ rfl (wf_hcw rfl rfl w) (.inl ⟨rfl, rfl⟩)

theorem spopc (h : Hcw) : Statement (.spopc h) := by
  intro w c e
  injection e with e
  subst e
  exact hcw_roundtrip _ _ _ rfl (wf_hcw rfl rfl w) (.inl ⟨rfl, rfl⟩)

theorem ssel (h : Hcw) : Statement (.ssel h) := by
  intro w c e
  injection e with e
  subst e
  exact hcw_roundtrip _ _ _ rfl (wf_hcw rfl rfl w) (.inl ⟨rfl, rfl⟩)

theorem sli (h : Hcw) : Statement (.sli h) := by
  intro w c e
  injection e with e
  subst e
  exact hcw_roundtrip _ _ _ rfl (wf_hcw rfl rfl w) (.inl ⟨rfl, rfl⟩)

theorem smov (h : Hcw) : Statement (.smov h) := by
  intro w c e
  injection e with e
  subst e
  exact hcw_roundtrip _ _ _ rfl (wf_hcw rfl rfl w) (.inl ⟨rfl, rfl⟩)

theorem sext (h : Hcw) : Statement (.sext h) := by
  intro w c e
  injection e with e
  subst e
  exact hcw_roundtrip _ _ _ rfl (wf_hcw rfl rfl w) (.inl ⟨rfl, rfl⟩)

theorem scmp (h : Hcw) : Statement (.scmp h) := by
  intro w c e
  injection e with e
  subst e
  exact hcw_roundtrip _ _ _ rfl (wf_hcw rfl rfl w) (.inl ⟨rfl, rfl⟩)

theorem sqop (h : Hcw) : Statement (.sqop h) := by
  intro w c e
  injection e with e
  subst e
  exact hcw_roundtrip _ _ _ rfl (wf_hcw rfl rfl w) (.inl ⟨rfl, rfl⟩)

theorem sgetc (h : Hcw) : Statement (.sgetc h) := by
  intro w c e
  injection e with e
  subst e
  exact hcw_roundtrip _ _ _ rfl (wf_hcw rfl rfl w) (.inl ⟨rfl, rfl⟩)

theorem ssetc (h : Hcw) : Statement (.ssetc h) := by
  intro w c e
  injection e with e
  subst e
  exact hcw_roundtrip _ _ _ rfl (wf_hcw rfl rfl w) (.inl ⟨rfl, rfl⟩)

theorem slget (h : Hcw) : Statement (.slget h) := by
  intro w c e
  injection e with e
  subst e
  exact hcw_roundtrip _ _ _ rfl (wf_hcw rfl rfl w) (.inl ⟨rfl, rfl⟩)

theorem vadd (h : Hcw) : Statement (.vadd h) := by
  intro w c e
  injection e with e
  subst e
  exact hcw_roundtrip _ _ _ rfl (wf_hcw rfl rfl w) (.inr ⟨rfl, rfl⟩)

theorem vsub (h : Hcw) : Statement (.vsub h) := by
  intro w c e
  injection e with e
  subst e
  exact hcw_roundtrip _ _ _ rfl (wf_hcw rfl rfl w) (.inr ⟨rfl, rfl⟩)

theorem vmul (h : Hcw) : Statement (.vmul h) := by
  intro w c e
  injection e with e
  subst e
  exact hcw_roundtrip _ _ _ rfl (wf_hcw rfl rfl w) (.inr ⟨rfl, rfl⟩)

theorem vfma (h : Hcw) : Statement (.vfma h) := by
  intro w c e
  injection e with e
  subst e
  exact hcw_roundtrip _ _ _ rfl (wf_hcw rfl rfl w) (.inr ⟨rfl, rfl⟩)

theorem vfms (h : Hcw) : Statement (.vfms h) := by
  intro w c e
  injection e with e
  subst e
  exact hcw_roundtrip _ _ _ rfl (wf_hcw rfl rfl w) (.inr ⟨rfl, rfl⟩)

theorem vmin (h : Hcw) : Statement (.vmin h) := by
  intro w c e
  injection e with e
  subst e
  exact hcw_roundtrip _ _ _ rfl (wf_hcw rfl rfl w) (.inr ⟨rfl, rfl⟩)

theorem vmax (h : Hcw) : Statement (.vmax h) := by
  intro w c e
  injection e with e
  subst e
  exact hcw_roundtrip _ _ _ rfl (wf_hcw rfl rfl w) (.inr ⟨rfl, rfl⟩)

theorem vminn (h : Hcw) : Statement (.vminn h) := by
  intro w c e
  injection e with e
  subst e
  exact hcw_roundtrip _ _ _ rfl (wf_hcw rfl rfl w) (.inr ⟨rfl, rfl⟩)

theorem vmaxn (h : Hcw) : Statement (.vmaxn h) := by
  intro w c e
  injection e with e
  subst e
  exact hcw_roundtrip _ _ _ rfl (wf_hcw rfl rfl w) (.inr ⟨rfl, rfl⟩)

theorem vabs (h : Hcw) : Statement (.vabs h) := by
  intro w c e
  injection e with e
  subst e
  exact hcw_roundtrip _ _ _ rfl (wf_hcw rfl rfl w) (.inr ⟨rfl, rfl⟩)

theorem vneg (h : Hcw) : Statement (.vneg h) := by
  intro w c e
  injection e with e
  subst e
  exact hcw_roundtrip _ _ _ rfl (wf_hcw rfl rfl w) (.inr ⟨rfl, rfl⟩)

theorem vcvt (h : Hcw) : Statement (.vcvt h) := by
  intro w c e
  injection e with e
  subst e
  exact hcw_roundtrip _ _ _ rfl (wf_hcw rfl rfl w) (.inr ⟨rfl, rfl⟩)

theorem vand (h : Hcw) : Statement (.vand h) := by
  intro w c e
  injection e with e
  subst e
  exact hcw_roundtrip _ _ _ rfl (wf_hcw rfl rfl w) (.inr ⟨rfl, rfl⟩)

theorem vor (h : Hcw) : Statement (.vor h) := by
  intro w c e
  injection e with e
  subst e
  exact hcw_roundtrip _ _ _ rfl (wf_hcw rfl rfl w) (.inr ⟨rfl, rfl⟩)

theorem vxor (h : Hcw) : Statement (.vxor h) := by
  intro w c e
  injection e with e
  subst e
  exact hcw_roundtrip _ _ _ rfl (wf_hcw rfl rfl w) (.inr ⟨rfl, rfl⟩)

theorem vshl (h : Hcw) : Statement (.vshl h) := by
  intro w c e
  injection e with e
  subst e
  exact hcw_roundtrip _ _ _ rfl (wf_hcw rfl rfl w) (.inr ⟨rfl, rfl⟩)

theorem vshr (h : Hcw) : Statement (.vshr h) := by
  intro w c e
  injection e with e
  subst e
  exact hcw_roundtrip _ _ _ rfl (wf_hcw rfl rfl w) (.inr ⟨rfl, rfl⟩)

theorem vsar (h : Hcw) : Statement (.vsar h) := by
  intro w c e
  injection e with e
  subst e
  exact hcw_roundtrip _ _ _ rfl (wf_hcw rfl rfl w) (.inr ⟨rfl, rfl⟩)

theorem vcmp (h : Hcw) : Statement (.vcmp h) := by
  intro w c e
  injection e with e
  subst e
  exact hcw_roundtrip _ _ _ rfl (wf_hcw rfl rfl w) (.inr ⟨rfl, rfl⟩)

theorem vsel (h : Hcw) : Statement (.vsel h) := by
  intro w c e
  injection e with e
  subst e
  exact hcw_roundtrip _ _ _ rfl (wf_hcw rfl rfl w) (.inr ⟨rfl, rfl⟩)

theorem mpush (h : Hcw) : Statement (.mpush h) := by
  intro w c e
  injection e with e
  subst e
  exact hcw_roundtrip _ _ _ rfl (wf_hcw rfl rfl w) (.inr ⟨rfl, rfl⟩)

theorem minv (h : Hcw) : Statement (.minv h) := by
  intro w c e
  injection e with e
  subst e
  exact hcw_roundtrip _ _ _ rfl (wf_hcw rfl rfl w) (.inr ⟨rfl, rfl⟩)

theorem mpop (h : Hcw) : Statement (.mpop h) := by
  intro w c e
  injection e with e
  subst e
  exact hcw_roundtrip _ _ _ rfl (wf_hcw rfl rfl w) (.inr ⟨rfl, rfl⟩)

theorem vredsum (h : Hcw) : Statement (.vredsum h) := by
  intro w c e
  injection e with e
  subst e
  exact hcw_roundtrip _ _ _ rfl (wf_hcw rfl rfl w) (.inr ⟨rfl, rfl⟩)

theorem vredmax (h : Hcw) : Statement (.vredmax h) := by
  intro w c e
  injection e with e
  subst e
  exact hcw_roundtrip _ _ _ rfl (wf_hcw rfl rfl w) (.inr ⟨rfl, rfl⟩)

theorem vredmin (h : Hcw) : Statement (.vredmin h) := by
  intro w c e
  injection e with e
  subst e
  exact hcw_roundtrip _ _ _ rfl (wf_hcw rfl rfl w) (.inr ⟨rfl, rfl⟩)

theorem vbcast (h : Hcw) : Statement (.vbcast h) := by
  intro w c e
  injection e with e
  subst e
  exact hcw_roundtrip _ _ _ rfl (wf_hcw rfl rfl w) (.inr ⟨rfl, rfl⟩)

theorem vmov (h : Hcw) : Statement (.vmov h) := by
  intro w c e
  injection e with e
  subst e
  exact hcw_roundtrip _ _ _ rfl (wf_hcw rfl rfl w) (.inr ⟨rfl, rfl⟩)

theorem vtrn (h : Hcw) : Statement (.vtrn h) := by
  intro w c e
  injection e with e
  subst e
  exact hcw_roundtrip _ _ _ rfl (wf_hcw rfl rfl w) (.inr ⟨rfl, rfl⟩)

theorem vrot (h : Hcw) : Statement (.vrot h) := by
  intro w c e
  injection e with e
  subst e
  exact hcw_roundtrip _ _ _ rfl (wf_hcw rfl rfl w) (.inr ⟨rfl, rfl⟩)

theorem vfrexp (h : Hcw) : Statement (.vfrexp h) := by
  intro w c e
  injection e with e
  subst e
  exact hcw_roundtrip _ _ _ rfl (wf_hcw rfl rfl w) (.inr ⟨rfl, rfl⟩)

theorem vldexp (h : Hcw) : Statement (.vldexp h) := by
  intro w c e
  injection e with e
  subst e
  exact hcw_roundtrip _ _ _ rfl (wf_hcw rfl rfl w) (.inr ⟨rfl, rfl⟩)

theorem vmacw (h : Hcw) : Statement (.vmacw h) := by
  intro w c e
  injection e with e
  subst e
  exact hcw_roundtrip _ _ _ rfl (wf_hcw rfl rfl w) (.inr ⟨rfl, rfl⟩)

theorem vpopq (h : Hcw) : Statement (.vpopq h) := by
  intro w c e
  injection e with e
  subst e
  exact hcw_roundtrip _ _ _ rfl (wf_hcw rfl rfl w) (.inr ⟨rfl, rfl⟩)

theorem resultLands (t : Nat) : Statement (.resultLands t) := fun _ _ h => nomatch h

theorem hostPortLinkTraining : Statement (.hostPortLinkTraining) := fun _ _ h => nomatch h

theorem frameNotTaken (port : Nat) (src : BitVec 8) (why : FrameFate) : Statement (.frameNotTaken port src why) := fun _ _ h => nomatch h

end Sys2Proof.Laws.Roundtrip
end

