-- ==== Sys2Proof/Laws/Start.lean ====
section
/-! SUPPORT. What the start of an operation leaves, once: an operation that nothing holds back starts, with its reads, its
writes and its tag recorded in its block; and a control word's operation leaves one result in flight beside that. -/

namespace Sys2Proof.Laws

open Machine

/-! ### The record of reads and writes -/

/-- A part of the task that no read and no write touches stays. -/
theorem recorded_keeps {α : Type} (f : Task → α) (hr : ∀ k beat r, f (Task.noteRead k beat r) = f k)
    (hw : ∀ k beat ord slot r, f (Task.noteWrite k beat ord slot r) = f k) (s : State) (named dests : List Reg) :
    f (recorded s named dests) = f s.me := by
  have keep : ∀ (g : Task → Reg → Task), (∀ k r, f (g k r) = f k) → ∀ (xs : List Reg) (k : Task), f (xs.foldl g k) = f k := by
    intro g h xs
    induction xs with
    | nil => intro k; rfl
    | cons x xs ih => intro k; exact (ih _).trans (h k x)
  exact (keep _ (fun k r => hw k _ _ _ r) dests _).trans (keep _ (fun k r => hr k _ r) named _)

@[simp] theorem recorded_regs (s : State) (named dests : List Reg) : (recorded s named dests).regs = s.me.regs :=
  recorded_keeps (·.regs) (fun k b r => by unfold Task.noteRead; split <;> rfl) (fun _ _ _ _ _ => rfl) s named dests

@[simp] theorem recorded_landings (s : State) (named dests : List Reg) : (recorded s named dests).landings = s.me.landings :=
  recorded_keeps (·.landings) (fun k b r => by unfold Task.noteRead; split <;> rfl) (fun _ _ _ _ _ => rfl) s named dests

@[simp] theorem recorded_folds (s : State) (named dests : List Reg) : (recorded s named dests).blk.folds = s.me.blk.folds :=
  recorded_keeps (·.blk.folds) (fun k b r => by unfold Task.noteRead; split <;> rfl) (fun _ _ _ _ _ => rfl) s named dests

@[simp] theorem recorded_seq (s : State) (named dests : List Reg) : (recorded s named dests).blk.seq = s.me.blk.seq :=
  recorded_keeps (·.blk.seq) (fun k b r => by unfold Task.noteRead; split <;> rfl) (fun _ _ _ _ _ => rfl) s named dests

/-- A read of an ordinary register that the block has neither written earlier nor read is live-in (R169). -/
theorem noteRead_live {k : Task} {beat : Nat} {r : Reg} (f : r.fixed = false)
    (w : (k.blk.writes.any fun w => w.1 == r.code && decide (w.2.1 < beat)) = false) (n : k.blk.reads.contains r.code = false) :
    (k.noteRead beat r).blk.reads = k.blk.reads ++ [r.code] := by
  simp only [Task.noteRead, f, w, n, Bool.or_self, Bool.false_eq_true, if_false]

/-- A read of a register with its pending tag sets the pending-read flag (R176). -/
theorem noteRead_pending {k : Task} {beat : Nat} {r : Reg} (f : r.fixed = false) (h : k.regs.tag r = pendingTag r.code) :
    (k.noteRead beat r).blk.pendingRead = true := by
  simp only [Task.noteRead, f, h, beq_self_eq_true, Bool.or_true, Bool.false_eq_true, if_false]

/-! ### The start -/

/-- An operation that nothing holds back starts, and records itself; that its predicate fails makes no difference. -/
theorem begin_ok {s : State} {opc dc : Nat} {dests : List Reg} {srcs : List (Option Reg)} {pq : Option Reg} {more : List Reg}
    (h : Clear s ((srcs ++ [pq]).filterMap id ++ more) dests) (live : Bool) :
    s.begin opc dc dests srcs pq live more
      = .ok { st := begun s (s.tagOf opc dc srcs pq) ((srcs ++ [pq]).filterMap id ++ more) dests, srcs := srcs
              tag := s.tagOf opc dc srcs pq } := by
  have hf : (((srcs ++ [pq]).filterMap id ++ more) ++ dests).find? (fun r => s.lockedReg r) = none := by
    rw [List.find?_eq_none]; intro r hr; rw [h.unlocked r hr]; decide
  have hs : s.substitute srcs = srcs := by rw [State.substitute, h.quiet]
  simp only [State.begin, hf, h.landed, hs, h.quiet, Bool.false_and, Bool.false_eq_true, if_false]
  rfl

/-- What a register lock does to an operation that names a locked register: the tile holds (R53). -/
theorem begin_locked {s : State} {opc dc : Nat} {dests : List Reg} {srcs : List (Option Reg)} {pq : Option Reg} {live : Bool}
    {more : List Reg} {n : BitVec 6}
    (h : (((srcs ++ [pq]).filterMap id ++ more) ++ dests).find? (fun r => s.lockedReg r) = some (.s n)) :
    s.begin opc dc dests srcs pq live more = .error (.hold (.lock n)) := by
  simp only [State.begin, h]

/-- Pending-bit mode traps an operation whose predicate holds and that reads a register before its newest value has landed
(R55, R59). -/
theorem begin_early {s : State} {opc dc : Nat} {dests : List Reg} {srcs : List (Option Reg)} {pq : Option Reg} {more : List Reg}
    (u : ∀ r ∈ ((srcs ++ [pq]).filterMap id ++ more) ++ dests, s.lockedReg r = false) (d : s.me.regs.debug = true)
    (e : (((srcs ++ [pq]).filterMap id ++ more).any fun r => s.earlyRead r) = true) :
    s.begin opc dc dests srcs pq true more = .error (.fault .readEarly 0) := by
  have hf : (((srcs ++ [pq]).filterMap id ++ more) ++ dests).find? (fun r => s.lockedReg r) = none := by
    rw [List.find?_eq_none]; intro r hr; rw [u r hr]; decide
  simp only [State.begin, hf, d, e, Bool.and_self, if_true]

/-! ### A started operation -/

@[simp] theorem begun_cur (s : State) (g : Word32) (n d) : (begun s g n d).cur = s.cur := rfl
@[simp] theorem begun_fixed (s : State) (g : Word32) (n d) : (begun s g n d).fixed = s.fixed := rfl
@[simp] theorem begun_mem (s : State) (g : Word32) (n d) : (begun s g n d).mem = s.mem := rfl
@[simp] theorem begun_heldLines (s : State) (g : Word32) (n d) : (begun s g n d).heldLines = s.heldLines := rfl
@[simp] theorem begun_parts (s : State) (g : Word32) (n d) : (begun s g n d).parts = s.parts := rfl
@[simp] theorem begun_quads (s : State) (g : Word32) (n d) : (begun s g n d).quads = s.quads := rfl

theorem begun_me {s : State} (h : s.here.task.isSome = true) (g : Word32) (n d : List Reg) :
    (begun s g n d).me = { recorded s n d with blk := { (recorded s n d).blk with
      folds := (recorded s n d).blk.folds ++ [(s.cur.idx, s.cur.slot.code, g)] } } :=
  setMe_me h _

theorem begun_isSome {s : State} (h : s.here.task.isSome = true) (g : Word32) (n d) :
    (begun s g n d).here.task.isSome = true := setMe_isSome h _

/-- The registers are as they were. -/
theorem begun_regs {s : State} (h : s.here.task.isSome = true) (g : Word32) (n d) :
    (begun s g n d).me.regs = s.me.regs := by rw [begun_me h]; exact recorded_regs s n d

/-- The tag is the last that the block has folded (R73). -/
theorem begun_folds {s : State} (h : s.here.task.isSome = true) (g : Word32) (n d) :
    (begun s g n d).me.blk.folds = s.me.blk.folds ++ [(s.cur.idx, s.cur.slot.code, g)] := by
  rw [begun_me h]; simp only [recorded_folds]

/-- A result that starts on its way is one more in flight. -/
theorem land_begun {s : State} (h : s.here.task.isSome = true) (g : Word32) (n d) (lat : Nat) (wr : Wr)
    (ds : List Reg) (t : Word32) (f : FpFlags) :
    (begun s g n d).land lat wr ds t f = (begun s g n d).fly (inFlight s lat wr ds t f) := by
  simp only [State.land, State.modMe, State.fly, inFlight, begun_me h, begun_cur, recorded_seq]

/-- A control word's operation that nothing holds back and whose predicate holds leaves what its body gives. -/
theorem hcwStart_ok {s : State} {r : HcwRow} {c : Hcw} {lat : Nat} {dst : Option Reg} {srcs : List (Option Reg)}
    {body : Body} (h : Clear s ((srcs ++ [c.predReg]).filterMap id) dst.toList) (p : c.predOk s.me.regs = true) :
    let tag := s.tagOf r.opc (destcodeOf dst) srcs c.predReg
    s.hcwStart r c lat dst srcs body
      = match body { st := begun s tag ((srcs ++ [c.predReg]).filterMap id) dst.toList, srcs := srcs, tag := tag } c with
        | .error e => .error e
        | .ok (t, w, g) => .ok (t.land lat w dst.toList tag g) := by
  rw [← List.append_nil ((srcs ++ [c.predReg]).filterMap id)] at h
  have e := begin_ok (opc := r.opc) (dc := destcodeOf dst) h true
  simp only [List.append_nil] at e
  simp only [State.hcwStart, p, e, begun_regs h.task, if_true] <;> rfl

/-- A control word's operation whose predicate fails writes its tag alone, at the end of its start beat (R59). -/
theorem hcwStart_failed {s : State} {r : HcwRow} {c : Hcw} {lat : Nat} {dst : Option Reg} {srcs : List (Option Reg)}
    {body : Body} (h : Clear s ((srcs ++ [c.predReg]).filterMap id) dst.toList) (p : c.predOk s.me.regs = false) :
    let tag := s.tagOf r.opc (destcodeOf dst) srcs c.predReg
    s.hcwStart r c lat dst srcs body
      = .ok ((begun s tag ((srcs ++ [c.predReg]).filterMap id) dst.toList).fly (inFlight s 1 .none dst.toList tag 0)) := by
  rw [← List.append_nil ((srcs ++ [c.predReg]).filterMap id)] at h
  have e := begin_ok (opc := r.opc) (dc := destcodeOf dst) h false
  simp only [List.append_nil] at e
  simp only [State.hcwStart, p, e, begun_regs h.task, Bool.false_eq_true, if_false]
  rw [land_begun h.task]

end Sys2Proof.Laws
end

