-- ==== Sys2Proof/Tests/Slice0.lean ====
section
/-! SUPPORT. Small tests: ill-formed terms are refused, words of the spec decode, and for every statement a witness that
meets its hypotheses. Expected values are worked out from the rules named. -/

set_option Elab.async false

namespace Sys2Proof.Tests

open Machine Claims

/-! ### States -/

/-- The machine after reset with a task on tile 0, and an operation of it that starts. -/
def onTile (k : Task) (c : OpCtx) : State := ({ State.reset with cur := c } : State).modTile 0 fun x => { x with task := some k }

/-- Scalar registers 1 to 4, conditions 1 and 2, and vector registers 1 to 3 of a small task. -/
def regs0 : Regs :=
  { s := [0, 5, 7, 0xFFFFFFFFFFFFFFFF, 64] ++ List.replicate 59 0
    q := [false, true, false, true] ++ List.replicate 4 false
    v := [0, 0x0000000300000002#4096, 0x0000000100000005#4096, 0x0000000000000001#4096] ++ List.replicate 28 0
    vshape := 0x0C11 }

/-- A small task at the start of its block. -/
def task0 : Task := { pc := 0x1000, nextIssue := 1, regs := regs0, record := { taskid := 9, resume := 0x1000 } }

/-- An operation of slot sl at beat 0, and its state. -/
def at0 (sl : Slot) : State := onTile task0 { slot := sl, addr := 0x1000 }

/-! ### Hypotheses as tests -/

/-- `Clear` as a test. -/
def clearB (s : State) (named dests : List Reg) : Bool :=
  s.here.task.isSome && ((named ++ dests).all fun r => !s.lockedReg r)
    && !(s.me.regs.debug && named.any fun r => s.earlyRead r) && s.injFires.isNone

theorem clear_of {s : State} {named dests : List Reg} (h : clearB s named dests = true) : Clear s named dests := by
  simp only [clearB, Bool.and_eq_true, List.all_eq_true, Bool.not_eq_true', Option.isNone_iff_eq_none] at h
  exact ⟨h.1.1.1, h.1.1.2, h.1.2, h.2⟩

/-- What nothing holds back, and what a predicate lets pass. -/
def ready (i : Instr) (h : Hcw) (s : State) : Bool :=
  i.wf && i.hcw == some h && clearB s (reads i h s) (dests i h s) && h.predOk s.me.regs

theorem ready_of {i : Instr} {h : Hcw} {s : State} (r : ready i h s = true) :
    i.wf = true ∧ i.hcw = some h ∧ Clear s (reads i h s) (dests i h s) ∧ h.predOk s.me.regs = true := by
  simp only [ready, Bool.and_eq_true, beq_iff_eq] at r
  exact ⟨r.1.1.1, r.1.1.2, clear_of r.1.2, r.2⟩

/-! The first conditions of a conjunction are decided together, and the rest is shown after them. -/

theorem front4 {a b c d r : Prop} (u : a ∧ b ∧ c ∧ d) (w : r) : a ∧ b ∧ c ∧ d ∧ r := by
  simpa only [and_assoc] using And.intro u w

theorem front5 {a b c d e r : Prop} (u : a ∧ b ∧ c ∧ d ∧ e) (w : r) : a ∧ b ∧ c ∧ d ∧ e ∧ r := by
  simpa only [and_assoc] using And.intro u w

theorem front6 {a b c d e f r : Prop} (u : a ∧ b ∧ c ∧ d ∧ e ∧ f) (w : r) : a ∧ b ∧ c ∧ d ∧ e ∧ f ∧ r := by
  simpa only [and_assoc] using And.intro u w

theorem front7 {a b c d e f g r : Prop} (u : a ∧ b ∧ c ∧ d ∧ e ∧ f ∧ g) (w : r) : a ∧ b ∧ c ∧ d ∧ e ∧ f ∧ g ∧ r := by
  simpa only [and_assoc] using And.intro u w

theorem front8 {a b c d e f g h r : Prop} (u : a ∧ b ∧ c ∧ d ∧ e ∧ f ∧ g ∧ h) (w : r) : a ∧ b ∧ c ∧ d ∧ e ∧ f ∧ g ∧ h ∧ r := by
  simpa only [and_assoc] using And.intro u w

theorem front10 {a b c d e f g h i j r : Prop} (u : a ∧ b ∧ c ∧ d ∧ e ∧ f ∧ g ∧ h ∧ i ∧ j) (w : r) : a ∧ b ∧ c ∧ d ∧ e ∧ f ∧ g ∧ h ∧ i ∧ j ∧ r := by
  simpa only [and_assoc] using And.intro u w

theorem front12 {a b c d e f g h i j k l r : Prop} (u : a ∧ b ∧ c ∧ d ∧ e ∧ f ∧ g ∧ h ∧ i ∧ j ∧ k ∧ l) (w : r) : a ∧ b ∧ c ∧ d ∧ e ∧ f ∧ g ∧ h ∧ i ∧ j ∧ k ∧ l ∧ r := by
  simpa only [and_assoc] using And.intro u w

theorem front15 {a b c d e f g h i j k l m n o r : Prop} (u : a ∧ b ∧ c ∧ d ∧ e ∧ f ∧ g ∧ h ∧ i ∧ j ∧ k ∧ l ∧ m ∧ n ∧ o) (w : r) : a ∧ b ∧ c ∧ d ∧ e ∧ f ∧ g ∧ h ∧ i ∧ j ∧ k ∧ l ∧ m ∧ n ∧ o ∧ r := by
  simpa only [and_assoc] using And.intro u w

/-! ### Scalar operations -/

/-- A control word: destination, three sources, and an immediate. -/
def hw (dst a b c : BitVec 6) : Hcw :=
  { imm := false, round := 0, sat := false, uns := false, dst := dst, src1 := a, src2 := b, src3 := c, reloc := 0
    fmt := 0, shape := 0, pen := false, pq := 0, psense := false, immA := 0 }

/-- One instruction of each scalar operation. -/
def scalars : List (Instr × Hcw) :=
  let b := hw 5 1 2 0
  let u := hw 5 1 0 0
  [(.sadd b, b), (.ssub b, b), (.smul b, b), (.smulh b, b), (.smulhu b, b), (.sand b, b), (.sor b, b), (.sxor b, b),
   (.sandn b, b), (.sshl b, b), (.sshr b, b), (.ssar b, b), (.smin b, b), (.smax b, b), (.sminu b, b), (.smaxu b, b),
   (.sclz u, u), (.sctz u, u), (.spopc u, u), (.ssel (hw 5 1 2 1), hw 5 1 2 1),
   (.sli { hw 5 0 0 0 with immA := 0x0C40 }, { hw 5 0 0 0 with immA := 0x0C40 }), (.smov u, u), (.sext b, b),
   (.scmp (hw 3 1 2 2), hw 3 1 2 2), (.sqop (hw 3 1 2 8), hw 3 1 2 8), (.slget (hw 5 0 0 0), hw 5 0 0 0)]

theorem witness_ScalarResult : ∀ x ∈ scalars, ∃ lat v g, x.1.wf = true ∧ x.1.hcw = some x.2
    ∧ scalarRule (argsAt x.1 x.2 (at0 .sa)) x.1 = some (x.2, lat, v, g)
    ∧ Clear (at0 .sa) (reads x.1 x.2 (at0 .sa)) (dests x.1 x.2 (at0 .sa)) ∧ x.2.predOk (at0 .sa).me.regs = true := by
  have h : (scalars.all fun x => ready x.1 x.2 (at0 .sa)
      && match scalarRule (argsAt x.1 x.2 (at0 .sa)) x.1 with | some y => y.1 == x.2 | none => false) = true := by
    decide +kernel
  intro x hx
  have hx := List.all_eq_true.1 h x hx
  simp only [Bool.and_eq_true] at hx
  obtain ⟨a, b, c, d⟩ := ready_of hx.1
  cases e : scalarRule (argsAt x.1 x.2 (at0 .sa)) x.1 with
  | none => rw [e] at hx; exact absurd hx.2 Bool.false_ne_true
  | some y => rw [e] at hx; exact ⟨y.2.1, y.2.2.1, y.2.2.2, a, b, by rw [← (beq_iff_eq.1 hx.2)], c, d⟩

/-! ### Control registers -/

def sget : Hcw := { hw 5 0 0 0 with immA := 2 }
def sset (n v : Word64) : Hcw × State :=
  ({ hw 0 5 0 0 with immA := n }, onTile { task0 with regs := { regs0 with s := regs0.s.set 5 v } } { slot := .sa, addr := 0x1000 })

theorem witness_ReadControlRegister : (Instr.sgetc sget).wf = true
    ∧ Clear (at0 .sa) (reads (.sgetc sget) sget (at0 .sa)) (dests (.sgetc sget) sget (at0 .sa))
    ∧ sget.predOk (at0 .sa).me.regs = true :=
  have h := ready_of (i := .sgetc sget) (h := sget) (s := at0 .sa) (by decide +kernel)
  ⟨h.1, h.2.2.1, h.2.2.2⟩

theorem witness_ControlRegisterValue : ∀ n ∈ List.range 0x0F ++ List.range' 0x10 8 ++ [0x18, 0x19, 0x1A, 0x1B], (cregRule (at0 .sa) n).isSome = true := by decide +kernel

/-- A plain register, ring 0 enabled with two slots of 128 bytes at stash offset 0x40000, a ring that stays as it is, and one enabled
with slots of one byte. -/
def ssets : List (Hcw × State) :=
  [sset 0x00 0x0C40, sset 0x10 ((7 <<< 40) ||| (1 <<< 37) ||| (1 <<< 32) ||| 0x40000), sset 0x17 0,
   sset 0x11 (1 <<< 32)]

theorem witness_WriteControlRegister : ∀ x ∈ ssets, (Instr.ssetc x.1).wf = true ∧ cregNo x.1 ≠ 0x19 ∧ cregNo x.1 ≠ 0x1B
    ∧ Clear x.2 (reads (.ssetc x.1) x.1 x.2) [] ∧ x.1.predOk x.2.me.regs = true
    ∧ ((cregNo x.1 < 0x10 ∨ 0x17 < cregNo x.1)
      ∨ (0x10 ≤ cregNo x.1 ∧ cregNo x.1 ≤ 0x17
        ∧ ringWriteOk x.2.me.ringsAhead (cregNo x.1 - 0x10) (srcS (.ssetc x.1) x.1 x.2 0) = (cregNo x.1 != 0x11))) := by
  have h : (ssets.all fun x => (Instr.ssetc x.1).wf && cregNo x.1 != 0x19 && cregNo x.1 != 0x1B
      && clearB x.2 (reads (.ssetc x.1) x.1 x.2) [] && x.1.predOk x.2.me.regs
      && decide ((cregNo x.1 < 0x10 ∨ 0x17 < cregNo x.1)
      ∨ (0x10 ≤ cregNo x.1 ∧ cregNo x.1 ≤ 0x17
        ∧ ringWriteOk x.2.me.ringsAhead (cregNo x.1 - 0x10) (srcS (.ssetc x.1) x.1 x.2 0) = (cregNo x.1 != 0x11)))) = true := by
    decide +kernel
  intro x hx
  have hx := List.all_eq_true.1 h x hx
  simp only [Bool.and_eq_true, bne_iff_ne, decide_eq_true_eq] at hx
  exact ⟨hx.1.1.1.1.1, hx.1.1.1.1.2, hx.1.1.1.2, clear_of hx.1.1.2, hx.1.2, hx.2⟩

theorem witness_PrivilegedControlRegister : ((sset 0x19 1).2.here.task.isSome = true ∧ cregNo (sset 0x19 1).1 = 0x19
    ∧ (sset 0x19 1).2.cur.slot ≠ .l ∧ (sset 0x19 1).2.cur.slot ≠ .d) ∧ cregNo (sset 0x1B 1).1 = 0x1B := by decide +kernel

/-! ### Vector operations -/

/-- A vector control word in INT32, and one in FP32. -/
def vi (dst a b c : BitVec 6) : Hcw := { hw dst a b c with fmt := 0x0C }
def vf (dst a b c : BitVec 6) : Hcw := { hw dst a b c with fmt := 0x01 }

/-- One instruction of each vector operation. -/
def vectors : List (Instr × Hcw) :=
  let b := vi 4 1 2 0
  let u := vi 4 1 0 0
  let f := vf 4 1 0 0
  let g := vf 4 1 2 0
  [(.vadd b, b), (.vsub b, b), (.vmul b, b), (.vfma (vi 4 1 2 3), vi 4 1 2 3), (.vfms (vf 4 1 2 3), vf 4 1 2 3), (.vmin b, b),
   (.vmax b, b), (.vminn b, b), (.vmaxn b, b), (.vabs u, u), (.vneg u, u), (.vand b, b), (.vor b, b), (.vxor b, b),
   (.vshl b, b), (.vshr b, b), (.vsar b, b), (.vcmp (vi 4 1 2 2), vi 4 1 2 2), (.vsel (vi 4 1 2 3), vi 4 1 2 3),
   (.vbcast u, u), (.vmov u, u), (.vtrn u, u), (.vrot b, b), (.vfrexp f, f), (.vldexp g, g)]

def viewOf (h : Hcw) : Format := (formatOf h.fmt).getD (.int 32 true)

theorem witness_VectorResult : ∀ x ∈ vectors, ∃ lat xs, x.1.wf = true ∧ x.1.hcw = some x.2
    ∧ (at0 .va).vview x.2 0 = some (viewOf x.2, 2, 2) ∧ takes x.1 x.2 (viewOf x.2) = true
    ∧ (x.2.imm = true → (Instr.hcwRow x.1).src2 = .v → x.2.immA.toNat < 2 ^ (viewOf x.2).width)
    ∧ vectorRule (vargsAt x.1 x.2 (at0 .va) (viewOf x.2) 2 2) x.1 = some (x.2, lat, xs)
    ∧ Clear (at0 .va) (reads x.1 x.2 (at0 .va)) (dests x.1 x.2 (at0 .va)) ∧ x.2.predOk (at0 .va).me.regs = true := by
  have h : (vectors.all fun x => ready x.1 x.2 (at0 .va) && decide ((at0 .va).vview x.2 0 = some (viewOf x.2, 2, 2))
      && takes x.1 x.2 (viewOf x.2) && !x.2.imm
      && match vectorRule (vargsAt x.1 x.2 (at0 .va) (viewOf x.2) 2 2) x.1 with | some y => y.1 == x.2 | none => false) = true := by
    decide +kernel
  intro x hx
  have hx := List.all_eq_true.1 h x hx
  simp only [Bool.and_eq_true, decide_eq_true_eq, Bool.not_eq_true'] at hx
  obtain ⟨⟨⟨⟨r, v⟩, t⟩, n⟩, y⟩ := hx
  obtain ⟨a, b, c, d⟩ := ready_of r
  cases e : vectorRule (vargsAt x.1 x.2 (at0 .va) (viewOf x.2) 2 2) x.1 with
  | none => rw [e] at y; exact absurd y Bool.false_ne_true
  | some z =>
    rw [e] at y
    exact ⟨z.2.1, z.2.2, a, b, v, t, fun i => absurd (n.symm.trans i) (by decide), by rw [← beq_iff_eq.1 y], c, d⟩

/-- A conversion from INT8 into FP32, and the three reductions. -/
def vcv : Hcw := { vf 4 1 0 0 with immA := 0x08 }

theorem witness_VectorConvert : (Instr.vcvt vcv).wf = true ∧ formatOf (vcv.immA.extractLsb' 0 8) = some (.int 8 true)
    ∧ (at0 .va).vview vcv 8 = some (viewOf vcv, 2, 2)
    ∧ Clear (at0 .va) (reads (.vcvt vcv) vcv (at0 .va)) (dests (.vcvt vcv) vcv (at0 .va)) ∧ vcv.predOk (at0 .va).me.regs = true :=
  have h := ready_of (i := .vcvt vcv) (h := vcv) (s := at0 .va) (by decide +kernel)
  ⟨h.1, by decide +kernel, by decide +kernel, h.2.2.1, h.2.2.2⟩

theorem witness_VectorReduction : ∀ i ∈ [Instr.vredsum (vi 4 1 0 0), .vredmax (vi 4 1 0 0), .vredmin (vi 4 1 0 0)],
    i.wf = true ∧ i.hcw = some (vi 4 1 0 0) ∧ (at0 .va).vview (vi 4 1 0 0) 0 = some (.int 32 true, 2, 2)
    ∧ Clear (at0 .va) (reads i (vi 4 1 0 0) (at0 .va)) (dests i (vi 4 1 0 0) (at0 .va))
    ∧ (vi 4 1 0 0).predOk (at0 .va).me.regs = true := by
  have h : ([Instr.vredsum (vi 4 1 0 0), .vredmax (vi 4 1 0 0), .vredmin (vi 4 1 0 0)].all fun i =>
    ready i (vi 4 1 0 0) (at0 .va)) = true := by decide +kernel
  have v : (at0 .va).vview (vi 4 1 0 0) 0 = some (.int 32 true, 2, 2) := by decide +kernel
  intro i hi
  obtain ⟨a, b, c, d⟩ := ready_of (List.all_eq_true.1 h i hi)
  exact ⟨a, b, v, c, d⟩

/-! ### Predicates, masks, drain queues -/

/-- An operation whose predicate q2 is false. -/
def failing : Hcw := { hw 5 1 2 0 with pen := true, pq := 2 }
def failingV : Hcw := { vi 4 1 2 0 with pen := true, pq := 2 }

theorem witness_FailedPredicateWritesTag :
    ((Instr.sadd failing).wf = true ∧ (Instr.sadd failing).hcw = some failing ∧ failing.predOk (at0 .sa).me.regs = false
      ∧ Clear (at0 .sa) (reads (.sadd failing) failing (at0 .sa)) (dests (.sadd failing) failing (at0 .sa))
      ∧ (Instr.hcwRow (.sadd failing)).cls = 1)
    ∧ (Instr.vadd failingV).wf = true ∧ (Instr.vadd failingV).hcw = some failingV
      ∧ failingV.predOk (at0 .va).me.regs = false
      ∧ Clear (at0 .va) (reads (.vadd failingV) failingV (at0 .va)) (dests (.vadd failingV) failingV (at0 .va))
      ∧ (at0 .va).vview failingV 0 = some (.int 32 true, 2, 2) ∧ takes (.vadd failingV) failingV (.int 32 true) = true
      ∧ failingV.imm = false
      ∧ (vectorRule (vargsAt (.vadd failingV) failingV (at0 .va) (.int 32 true) 2 2) (.vadd failingV)).isSome = true :=
  ⟨⟨by decide +kernel, rfl, by decide +kernel, clear_of (by decide +kernel), by decide +kernel⟩, by decide +kernel, rfl,
    by decide +kernel, clear_of (by decide +kernel), by decide +kernel, by decide +kernel, rfl, by decide +kernel⟩

/-- A widening multiply-accumulate of eight INT8 elements. -/
def vmw : Hcw := { hw 4 1 2 0 with fmt := 0x08, shape := 0x30 }

theorem witness_WideningMultiplyAccumulate : (Instr.vmacw vmw).wf = true
    ∧ (at0 .va).vview vmw 0 = some (.int 8 true, 1, 8) ∧ 1 * 8 % (32 / 8) = 0
    ∧ vmw.dstReg (Instr.hcwRow (.vmacw vmw)) (at0 .va).cur.rot = some (.v 4)
    ∧ vmw.srcRegs (Instr.hcwRow (.vmacw vmw)) (at0 .va).cur.rot = [some (.v 1), some (.v 2), none]
    ∧ Clear (at0 .va) (([some (.v 1), some (.v 2), some (.v 4), vmw.predReg] : List (Option Reg)).filterMap id) [.v 4]
    ∧ vmw.predOk (at0 .va).me.regs = true :=
  ⟨by decide +kernel, by decide +kernel, rfl, by decide +kernel, by decide +kernel, clear_of (by decide +kernel),
    by decide +kernel⟩

/-- Drain queue 1 with reserved and filled entries. -/
def drainAt (reserved filled : Nat) (sl : Slot) : State :=
  onTile { task0 with regs := regs0.setDrain 1 { reserved := reserved, filled := filled, head := 31
                                                 entries := List.replicate 32 { data := 0x77, fmt := 0x0C } } }
    { slot := sl, addr := 0x1000 }
def vpq : Hcw := { hw 4 0 0 0 with immA := 1 }

theorem witness_PopDrainQueue : (Instr.vpopq vpq).wf = true ∧ vpq.dstReg (Instr.hcwRow (.vpopq vpq)) 0 = some (.v 4)
    ∧ (∀ x ∈ [((2, 1) : Nat × Nat), (1, 0), (0, 0)],
      Clear (drainAt x.1 x.2 .va) (([some (.dq 1), vpq.predReg] : List (Option Reg)).filterMap id) [.v 4]
      ∧ vpq.predOk (drainAt x.1 x.2 .va).me.regs = true ∧ ((drainAt x.1 x.2 .va).me.regs.drain 1).reserved = x.1
      ∧ ((drainAt x.1 x.2 .va).me.regs.drain 1).filled = x.2) := by
  refine ⟨by decide +kernel, by decide +kernel, fun x hx => ?_⟩
  have h : ([((2, 1) : Nat × Nat), (1, 0), (0, 0)].all fun x =>
      clearB (drainAt x.1 x.2 .va) (([some (.dq 1), vpq.predReg] : List (Option Reg)).filterMap id) [.v 4]
      && decide (vpq.predOk (drainAt x.1 x.2 .va).me.regs = true ∧ ((drainAt x.1 x.2 .va).me.regs.drain 1).reserved = x.1
      ∧ ((drainAt x.1 x.2 .va).me.regs.drain 1).filled = x.2)) = true := by decide +kernel
  have h := List.all_eq_true.1 h x hx
  rw [Bool.and_eq_true, decide_eq_true_eq] at h
  exact ⟨clear_of h.1, h.2⟩

/-- A mask stack with one entry, of the VB position; a full one, and an empty one. -/
def maskedBy (es : List MaskEntry) : State := onTile { task0 with regs := { regs0 with maskB := es } } { slot := .vb, addr := 0x1000 }
def masked : State := maskedBy [0xF0]
def mp : Hcw := vi 0 1 0 0

theorem witness_MaskStack : mp.predOk masked.me.regs = true ∧ (hw 0 0 0 0).predOk masked.me.regs = true
    ∧ (Instr.mpush mp).wf = true ∧ masked.vview mp 0 = some (.int 32 true, 2, 2) ∧ (masked.me.regs.stack .vb).length < 16
    ∧ hcwReg .v mp.src1 (mp.reloc.getLsbD 2) masked.cur.rot = some (.v 1)
    ∧ Clear masked [.v 1, .mask .vb] [.mask .vb] ∧ Clear masked [.mask .vb] [.mask .vb]
    ∧ (Instr.minv (hw 0 0 0 0)).wf = true ∧ masked.me.regs.stack .vb = [0xF0] ∧ (Instr.mpop (hw 0 0 0 0)).wf = true
    ∧ unit masked = .vb
    ∧ Clear (maskedBy (List.replicate 16 1)) [.v 1, .mask .vb] [.mask .vb]
    ∧ 16 ≤ ((maskedBy (List.replicate 16 1)).me.regs.stack .vb).length ∧ (maskedBy (List.replicate 16 1)).vview mp 0 = some (.int 32 true, 2, 2)
    ∧ Clear (maskedBy []) [.mask .vb] [.mask .vb] ∧ (maskedBy []).me.regs.stack .vb = [] :=
  front6 (by decide +kernel) ⟨clear_of (by decide +kernel), clear_of (by decide +kernel), front4 (by decide +kernel)
    ⟨clear_of (by decide +kernel), by decide +kernel, by decide +kernel, clear_of (by decide +kernel), by decide +kernel⟩⟩

/-! ### The palette -/

def triggers : List Instr := [.qntQ, .qntQs, .qntDq, .qntAmax, .trnE8, .trnE16, .trnE32, .trnE4, .crcInit, .crcV, .crcS, .crcFin,
  .hshKey, .hshNb, .hshId, .hshBkt, .topK, .topGo, .topIdx, .topClr]

theorem witness_PaletteTrigger : (at0 .t).here.task.isSome = true ∧ ∀ i ∈ triggers,
    (triggerRule (at0 .t).me.regs.pal (at0 .t).roundMode i).isSome = true := by decide +kernel

/-- Moves to a plain port and to a trigger port, from a vector and a scalar register and from a result port, and back. -/
theorem witness_PaletteMove : (portData (at0 .t) (.tmovPortV 0x10 1)).isSome = true
    ∧ (portData (at0 .t) (.tmovPortS 0x13 2)).isSome = true
    ∧ (Instr.tmovPortV 0x10 1).wf = true ∧ (Instr.tmovPortS 0x13 2).wf = true ∧ (Instr.tmovVPort 4 0x06).wf = true
    ∧ (Instr.tmovSPort 5 0x17).wf = true ∧ (Instr.tmovPortPort 0x08 0x06).wf = true
    ∧ (Instr.tmovPortPort 0x13 0x06).wf = true ∧ triggerOf 0x10 = none ∧ triggerOf 0x13 = some .crcV ∧ triggerOf 0x08 = none
    ∧ (triggerRule (at0 .t).me.regs.pal (at0 .t).roundMode .crcV).isSome = true
    ∧ Clear (at0 .t) [.v 1] [] ∧ Clear (at0 .t) [.s 2] [] ∧ Clear (at0 .t) [] [.v 4] ∧ Clear (at0 .t) [] [.s 5]
    ∧ Clear (at0 .t) [] [] :=
  front12 (by decide +kernel) ⟨clear_of (by decide +kernel), clear_of (by decide +kernel), clear_of (by decide +kernel),
    clear_of (by decide +kernel), clear_of (by decide +kernel)⟩

/-! ### The C slot -/

/-- A filled and an empty buffer, a register that names a bundle and one that does not. -/
def cState : State :=
  onTile { task0 with testEn := true, regs := { regs0 with s := regs0.s.set 6 0x2000, b := regs0.b.set 1 (some ⟨0x3000, none⟩) } }
    { slot := .c, addr := 0x1000 }
/-- Inside a loop, and in a replay. -/
def inLoop : State := onTile { task0 with regs := { regs0 with loop := some ⟨2, 0x1000, 1, 0, true⟩ } } { slot := .c }
def replayed : State := onTile { task0 with testEn := true, blk := { replay := true } } { slot := .c }

theorem witness_PrepareTarget : Clear cState [] [.b 1] ∧ Clear cState [.s 6] [.b 1] ∧ Clear cState [.s 1] [.b 1]
    ∧ (cState.me.regs.sreg 6).toNat % 32 = 0 ∧ (cState.me.regs.sreg 1).toNat % 32 ≠ 0 :=
  ⟨clear_of (by decide +kernel), clear_of (by decide +kernel), clear_of (by decide +kernel), by decide +kernel⟩

theorem witness_TransferDecides : xferRule cState (.xfer 1 1) = some (1, 3, .q 1, true)
    ∧ xferRule cState (.xferF 1 1) = some (1, 3, .q 1, false)
    ∧ xferRule cState (.xferMz 1 .va) = some (1, 4, .mask .va, false)
    ∧ xferRule cState (.xferMnz 2 .vb) = some (2, 4, .mask .vb, true)
    ∧ Clear cState [.q 1, .b 1] [] ∧ Clear cState [.mask .va, .b 1] [] ∧ Clear cState [.mask .vb, .b 2] []
    ∧ Clear cState [.b 1] [.s 63] ∧ Clear cState [.b 2] [.s 63] ∧ cState.me.regs.breg 1 = some ⟨0x3000, none⟩
    ∧ cState.me.regs.breg 2 = none :=
  front4 (by decide +kernel) ⟨clear_of (by decide +kernel), clear_of (by decide +kernel), clear_of (by decide +kernel),
    clear_of (by decide +kernel), clear_of (by decide +kernel), by decide +kernel⟩

theorem witness_MarkLoop : (Instr.lmark 1 4).wf = true ∧ (Instr.lmarkImm 8 4).wf = true
    ∧ markRule cState (.lmark 1 4) = some (some (.s 1), 5, 4) ∧ markRule cState (.lmarkImm 8 4) = some (none, 8, 4)
    ∧ cState.me.regs.loop = none ∧ Clear cState [.s 1] [] ∧ Clear cState [] [] ∧ inLoop.me.regs.loop ≠ none
    ∧ markRule inLoop (.lmarkImm 8 4) = some (none, 8, 4) :=
  front5 (by decide +kernel) ⟨clear_of (by decide +kernel), clear_of (by decide +kernel), by decide +kernel⟩

theorem witness_InstructionCacheLocks : Clear cState [.s 6] [] := clear_of (by decide +kernel)

/-- An M operation waits in the queue of the task. -/
def busy : State := onTile { task0 with mStarted := 1, mq := [{ serial := 3, idx := 1, blk := 0, addr := 0, work := .mzero 0
                                                                waits := [], waitBlk := none }] } { slot := .c }
/-- The chain that is operation n of three has stopped. -/
def chainStopped (n : Nat) : State := onTile { task0 with mStarted := 3, mFault := some ⟨.align, n, 0x1000, 0x2008, 0⟩ } { slot := .c }

theorem witness_WaitGoesOn : Clear cState [] [] ∧ cState.me.mFault = none ∧ within 31 31 31 31 cState.waitCounts
    ∧ within 0 0 0 0 cState.waitCounts ∧ cState.me.firstLate (cState.me.mStarted - (0 : BitVec 5).toNat) = none
    ∧ Clear busy [] [] ∧ busy.me.mFault = none ∧ ¬ within 31 31 31 0 busy.waitCounts
    ∧ Clear (chainStopped 1) [] [] ∧ (chainStopped 1).me.mFault = some ⟨.align, 1, 0x1000, 0x2008, 0⟩ ∧ 1 ≤ (chainStopped 1).me.mStarted - (2 : BitVec 5).toNat
    ∧ Clear (chainStopped 3) [] [] ∧ (chainStopped 3).me.mFault = some ⟨.align, 3, 0x1000, 0x2008, 0⟩
      ∧ (chainStopped 3).me.mStarted - (2 : BitVec 5).toNat < 3 ∧ within 31 31 31 2 (chainStopped 3).waitCounts
      ∧ (chainStopped 3).me.firstLate ((chainStopped 3).me.mStarted - (2 : BitVec 5).toNat) = none :=
  ⟨clear_of (by decide +kernel), by decide +kernel, by unfold within; decide +kernel, by unfold within; decide +kernel,
    by decide +kernel, clear_of (by decide +kernel), by decide +kernel, by unfold within; decide +kernel, clear_of (by decide +kernel),
    by decide +kernel, by decide +kernel, clear_of (by decide +kernel), by decide +kernel, by decide +kernel, by unfold within; decide +kernel,
    by decide +kernel⟩

/-- A frame of 0x1000 ticks that started at tick 0x500. -/
def frames0 : Frames :=
  { table := { entries := [], len := 0x1000, limit := 64, ctxSize := 0x130000 }, anchor := 0x500, frame := 0, start := 0x500
    slip := 0, stopping := false }
def inFrame (tick : Nat) : State :=
  let s : State := cState
  { s with refTick := tick, parts := updAt s.parts 0 fun p => { p with frames := some frames0 } }

/-- A task that resumes at its `rel`. -/
def resumedAt : State := (inFrame 0x510).modMe fun k => { k with blk := { k.blk with resumed := some 0 } }

theorem witness_ReleaseAtTick : Clear cState [] [] ∧ (cState.parts.getD cState.me.part {}).frames = none
    ∧ Clear (inFrame 0x540) [] [] ∧ ((inFrame 0x540).parts.getD (inFrame 0x540).me.part {}).frames = some frames0
    ∧ (inFrame 0x540).here.gangLead.getD (inFrame 0x540).cur.tile = (inFrame 0x540).cur.tile
    ∧ (inFrame 0x540).me.blk.replay = false ∧ (inFrame 0x540).me.blk.run ≤ 1 ∧ (inFrame 0x540).me.blk.resumed = none
    ∧ (0x41 : BitVec 20).toNat < frames0.table.len
    ∧ ((inFrame 0x540).frameOf 0).2 < (0x41 : BitVec 20).toNat ∧ (0x40 : BitVec 20).toNat = ((inFrame 0x540).frameOf 0).2
    ∧ (0x3F : BitVec 20).toNat < ((inFrame 0x540).frameOf 0).2
    ∧ Clear resumedAt [] [] ∧ (resumedAt.parts.getD resumedAt.me.part {}).frames = some frames0
      ∧ resumedAt.here.gangLead.getD resumedAt.cur.tile = resumedAt.cur.tile ∧ resumedAt.me.blk.resumed = some resumedAt.cur.ord :=
  ⟨clear_of (by decide +kernel), by decide +kernel, clear_of (by decide +kernel), front4 (by decide +kernel)
    (front5 (by decide +kernel) ⟨clear_of (by decide +kernel), by decide +kernel⟩)⟩

theorem witness_BlockEndsHeld : endRule .done = some (0x0B, .done) ∧ endRule .yield = some (0x0C, .yield)
    ∧ endRule (.trap 7) = some (0x0D, .trap 7) ∧ Clear cState [] [] :=
  ⟨by decide +kernel, by decide +kernel, by decide +kernel, clear_of (by decide +kernel)⟩

theorem witness_BreakpointStops : Clear cState [] [] := clear_of (by decide +kernel)

theorem witness_InjectArms : (Instr.inj 1 1 8 32).wf = true ∧ cState.me.testEn = true ∧ cState.me.blk.replay = false
    ∧ cState.me.blk.run ≤ 1 ∧ Clear cState [] [] ∧ replayed.me.testEn = true ∧ replayed.me.blk.replay = true
    ∧ Clear replayed [] [] ∧ (at0 .c).here.task.isSome = true ∧ (at0 .c).me.testEn = false ∧ (at0 .c).cur.slot = .c :=
  front4 (by decide +kernel) ⟨clear_of (by decide +kernel), by decide +kernel, by decide +kernel, clear_of (by decide +kernel),
    by decide +kernel⟩

/-! ### Results that are there -/

/-- A result that is there, and of which P holds. -/
def okAnd {ε α : Type} (x : Except ε α) (P : α → Bool) : Bool :=
  match x with
  | .ok a => P a
  | .error _ => false
theorem ok_of {ε α : Type} {x : Except ε α} {P : α → Bool} (h : okAnd x P = true) : ∃ a, x = .ok a ∧ P a = true := by
  cases x with
  | ok a => exact ⟨a, rfl, h⟩
  | error e => exact absurd h Bool.false_ne_true
def fine {ε α : Type} (x : Except ε α) : Bool := okAnd x fun _ => true
theorem fine_of {ε α : Type} {x : Except ε α} (h : fine x = true) : ∃ a, x = .ok a := by
  cases x with
  | ok a => exact ⟨a, rfl⟩
  | error e => exact absurd h (by simp [fine, okAnd])

/-! ### Memory, and the M and L slots -/

/-- The lower gigabyte of partition 0 maps to itself, the next one is memory-side (R227, R228); quadrant 0 serves it. -/
def mapped (s : State) : State :=
  let s : State := { s with quads := updAt s.quads 0 fun q => { q with en := true, root := 0x2000 } }
  (s.lowWrite (cellsAt 0x20000000 (leBytes 8 0x20010001))).lowWrite (cellsAt 0x20010000 (leBytes 16 (0x1F + 0x4000002F * 2 ^ 64)))

/-- A tensor of 16 × 16 INT32 elements, and one of 32 × 16 INT8 elements. -/
def tens (fmt : BitVec 8) (rows cols base : Nat) : Desc :=
  { base := base, range := 0x400, metaVa := 0, fmt := fmt, rank := 2, writable := true, compressed := false, autoscale := false
    checked := false, saturate := false, scale := 0, thresh := 0, ext := [cols, rows], stride := [1, cols], seed := 0, wait := 0 }
def t5 : Desc := tens 0x0C 16 16 0x200000
def t6 : Desc := tens 0x08 32 16 0x210000

/-- Addresses in registers 6 to 9: memory-side, in the stash, not aligned, beyond the address space. -/
def regsM : Regs :=
  { regs0 with s := [0, 5, 7, 0xFFFFFFFFFFFFFFFF, 64, 0, 0x40000100, 0x200000, 0x200001, 0x10000000000000] ++ List.replicate 54 0 }
def line0 : StashLine := { line := 0x4000, st := .owned, lease := 0, wts := 1, data := 0x8877665544332211 }

def memSt (k : Task) (c : OpCtx) : State :=
  let s : State := mapped (onTile { k with pc := 0x1000 } c)
  let s : State := (s.modTile 0 fun x => { x with stash := [line0] }).setDir { line := 0x4000, wts := 1, owner := some 0 }
  { s with mem := Memory.writes s.mem (cellsAt 0x40000100 [1, 2, 3, 4, 5, 6, 7, 0x88])
           parts := updAt s.parts 0 fun p => { p with tensors := [(5, t5), (6, t6)] } }
def mem0 (sl : Slot) : State := memSt { task0 with regs := regsM.setDrain 1 { reserved := 2, filled := 1, entries := List.replicate 32 { data := 0x77, fmt := 0x0C } } } { slot := sl, addr := 0x1000 }

def mops : List Instr := [.mma 1 6 6 2, .mzero 2, .mload 3 0, .mdrain 4 6 2, .mdrainRed 1 5 1 2, .chrun 0 1, .chstep 0, .chstepPick 0 1]

theorem witness_MatrixOperationEnters : (mem0 .m).me.mFault = none ∧ (mem0 .m).me.mq.length < 16 ∧ (mem0 .m).oPending = false
    ∧ ∀ i ∈ mops, ∃ x, mRule (mem0 .m) i = some x ∧ Clear (mem0 .m) (x.srcs.filterMap id) x.dests := by
  refine ⟨by decide +kernel, by decide +kernel, by decide +kernel, fun i hi => ?_⟩
  have h : (mops.all fun i => match mRule (mem0 .m) i with
    | some x => clearB (mem0 .m) (x.srcs.filterMap id) x.dests
    | none => false) = true := by decide +kernel
  have h := List.all_eq_true.1 h i hi
  cases e : mRule (mem0 .m) i with
  | none => rw [e] at h; exact absurd h Bool.false_ne_true
  | some x => rw [e] at h; exact ⟨x, rfl, clear_of h⟩

/-- The checks of the M slot: a tensor id that names nothing, unlike formats, unlike depths, a tensor of rank 1, an address that is not
aligned, a drain queue without room, and a peer that is not there. -/
def badM : State :=
  let s := mem0 .m
  let k := { s.me with regs := { s.me.regs.setDrain 3 { reserved := 32 } with s := s.me.regs.s.set 20 (1 <<< 32) } }
  { s.setMe k with parts := updAt s.parts 0 fun p => { p with tensors := p.tensors ++ [(7, { t5 with rank := 1 })] } }
def refusedM : List (Instr × Cause × Nat) :=
  [(.mma 1 9 6 2, .tidInvalid, 0), (.mma 1 5 6 3, .formatInvalid, 0), (.mma 1 6 6 2, .mmaShape, 0), (.mma 1 7 6 3, .mmaShape, 0),
   (.mload 3 8, .align, 0x200001), (.mdrain 4 9 2, .tidInvalid, 0), (.mdrain 4 6 3, .queueOverflow, 0), (.mdrainRed 1 9 1 2, .tidInvalid, 0),
   (.mdrainRed 1 5 255 2, .peerAcc, 0), (.chrun 8 1, .align, 0x200001), (.chstep 8, .align, 0x200001), (.chstepPick 8 1, .align, 0x200001)]
def mzero0 : MOp := { serial := 3, idx := 1, blk := 0, addr := 0, work := .mzero 0, waits := [], waitBlk := none }
def fullM : State := badM.modMe fun k => { k with mq := List.replicate 16 mzero0 }

theorem witness_MatrixOperationEnters_refused : badM.cur.slot = .m ∧ badM.me.mFault = none ∧ badM.oPending = false
    ∧ (∀ x ∈ refusedM, mRefused badM x.1 = some x.2 ∧ Clear badM (lineageAt x.1 badM).named (lineageAt x.1 badM).dests)
    ∧ 16 ≤ fullM.me.mq.length ∧ fullM.me.mFault = none ∧ (mRule fullM (.mzero 2)).isSome = true ∧ Clear fullM [] [.a 2]
    ∧ (mRule (chainStopped 1) (.mzero 2)).isSome = true ∧ (chainStopped 1).here.task.isSome = true := by
  have h : (refusedM.all fun x => decide (mRefused badM x.1 = some x.2)
      && clearB badM (lineageAt x.1 badM).named (lineageAt x.1 badM).dests) = true := by decide +kernel
  refine ⟨by decide +kernel, by decide +kernel, by decide +kernel, fun x hx => ?_, by decide +kernel, by decide +kernel, by decide +kernel,
    clear_of (by decide +kernel), by decide +kernel⟩
  have h := List.all_eq_true.1 h x hx
  rw [Bool.and_eq_true, decide_eq_true_eq] at h
  exact ⟨h.1, clear_of h.2⟩

theorem witness_SetBond : Clear (mem0 .m) [.s 1] [.bd 1] ∧ Clear (mem0 .m) [] [.bd 1] :=
  ⟨clear_of (by decide +kernel), clear_of (by decide +kernel)⟩

theorem unordered_of {s : State} (h : (!s.oPending && s.me.fences.isEmpty) = true) : Unordered s := by
  simp only [Bool.and_eq_true, Bool.not_eq_true', List.isEmpty_iff] at h
  exact ⟨h.1, fun f hf => by rw [h.2] at hf; cases hf⟩

/-- A scalar load of a memory-side word and of a word in the stash. -/
theorem witness_LoadScalar : Clear (mem0 .l) [.s 6] [.s 5] ∧ Clear (mem0 .l) [.s 7] [.s 5] ∧ Unordered (mem0 .l)
    ∧ (mem0 .l).here.pairPend = [] ∧ address (mem0 .l) 6 .w 1 = 0x40000104 ∧ address (mem0 .l) 7 .h 0 = 0x200000
    ∧ (match (mem0 .l).loadRow 0x40000104 4 with | .ok x => x.bytes == [5, 6, 7, 0x88] && x.missing == [] | .error _ => false) = true
    ∧ (match (mem0 .l).loadRow 0x200000 2 with | .ok x => x.bytes == [0x11, 0x22] && x.missing == [] | .error _ => false) = true :=
  ⟨clear_of (by decide +kernel), clear_of (by decide +kernel), unordered_of (by decide +kernel), by decide +kernel⟩

theorem witness_UnalignedAccessTraps : Unordered (mem0 .l) ∧ (mem0 .l).cur.slot = .l ∧ Clear (mem0 .l) [.s 8] [.s 5]
    ∧ Clear (mem0 .l) [.s 9] [.s 5] ∧ Clear (mem0 .l) [.s 1, .s 8] [] ∧ Clear (mem0 .l) [.s 1, .s 9] []
    ∧ address (mem0 .l) 8 .w 0 % 4 ≠ 0 ∧ 2 ^ 52 ≤ address (mem0 .l) 9 .w 0 :=
  ⟨unordered_of (by decide +kernel), rfl, clear_of (by decide +kernel), clear_of (by decide +kernel), clear_of
    (by decide +kernel), clear_of (by decide +kernel), by decide +kernel⟩

/-- A vector load of two rows of two words from memory-side memory. -/
def rowsOf (s : State) : List Loaded := [0x40000100, 0x40000108].filterMap fun va => match s.loadRow va 8 with
  | .ok x => some x
  | .error _ => none

theorem witness_LoadVector : Clear (mem0 .l) [.s 6, .s 0] [.v 4] ∧ Unordered (mem0 .l) ∧ (mem0 .l).here.pairPend = []
    ∧ rowsAt (mem0 .l) 6 0 = some ⟨32, 2, 8, [0x40000100, 0x40000108]⟩
    ∧ ([0x40000100, 0x40000108].map fun va => match (mem0 .l).loadRow va 8 with | .ok x => x.missing == [] | .error _ => false) = [true, true] :=
  ⟨clear_of (by decide +kernel), unordered_of (by decide +kernel), by decide +kernel⟩

theorem witness_LoadSees : inWindow 0x40000100 = false ∧ inWindow 0x200000 = false
    ∧ (mem0 .l).access (mem0 .l).myUnit 0 0x40000100 .read = .ok ⟨0x40000100, 0b01011, 0x40000000, 30⟩
    ∧ (mem0 .l).access (mem0 .l).myUnit 0 0x200000 .read = .ok ⟨0x200000, 0b00111, 0, 30⟩
    ∧ isCtrl 0x40000100 = false ∧ (mem0 .l).me.priv = [] ∧ (mem0 .l).poisoned (lineOf 0x40000100) = false
    ∧ (mem0 .l).here.lineAt (lineOf 0x200000) = some line0 ∧ line0.st ≠ .poisoned
    ∧ line0.serves (mem0 .l).here.clock (mem0 .l).me.blk.run = true ∧ (mem0 .l).me.part = 0 :=
  by decide +kernel

/-- The store's block ends at its bundle, with room for one store; both are in the loop buffer. -/
def memEnd : State := memSt { task0 with regs := regsM, loopBuf := [(0x1000, plainEnd), (0x1020, plainSeal ||| 1 <<< 34)] } { slot := .l, addr := 0x1000 }

theorem witness_StoreScalar : Clear memEnd [.s 1, .s 7] [] ∧ Unordered memEnd ∧ address memEnd 7 .w 2 = 0x200008
    ∧ memEnd.storeRow 0x200008 4 = .ok (false, [0x200008, 0x200009, 0x20000A, 0x20000B]) ∧ memEnd.bufferRoom = true :=
  ⟨clear_of (by decide +kernel), unordered_of (by decide +kernel), by decide +kernel⟩

theorem witness_StoreVector : Clear memEnd [.v 1, .s 7, .s 0] [] ∧ Unordered memEnd
    ∧ rowsAt memEnd 7 0 = some ⟨32, 2, 8, [0x200000, 0x200008]⟩
    ∧ [0x200000, 0x200008].map (fun va => memEnd.storeRow va 8)
      = [(false, (List.range 8).map (0x200000 + ·)), (false, (List.range 8).map (0x200008 + ·))].map .ok
    ∧ memEnd.bufferRoom = true :=
  ⟨clear_of (by decide +kernel), unordered_of (by decide +kernel), by decide +kernel⟩

theorem witness_StoreDrainEntry : Clear (mem0 .l) [.dq 1, .s 0] [] ∧ Unordered (mem0 .l) ∧ (mem0 .l).tensor 0 5 = some t5
    ∧ ((mem0 .l).me.regs.drain 1).reserved = 2 ∧ ((mem0 .l).me.regs.drain 1).filled = 1
    ∧ (((mem0 .l).me.regs.drain 1).entries.getD 0 {}).fmt = t5.fmt ∧ t5.rank = 2 ∧ t5.writable = true ∧ t5.compressed = false
    ∧ ((entryBytes t5 (entryElems t5 (((mem0 .l).me.regs.drain 1).entries.getD 0 {}) 0 0)).all fun va =>
        match (mem0 .l).access (mem0 .l).myUnit 0 va .write with
          | .ok l => !(isCtrl l.pa && ctrlPrivileged l.pa)
          | .error _ => false) = true
    ∧ (mem0 .l).inRound (mem0 .l).me = false ∧ ((mem0 .l).me.regs.drain 1).head = 0 :=
  ⟨clear_of (by decide +kernel), unordered_of (by decide +kernel), front4 (by decide +kernel) ⟨rfl, rfl, rfl,
    by decide +kernel⟩⟩

/-- Ring 1 with two slots, as free and filled slots and the slots that its sides hold say. -/
def ringAt (en : Bool) (free filled heldP heldC : Nat) : State :=
  onTile { task0 with regs := regs0.setRing 1 { lslot := 7, lcount := 1, en := en, base := 0x800, free := free, filled := filled
                                                heldP := heldP, heldC := heldC, freeTags := [3], fillTags := [4] } }
    { slot := .l, addr := 0x1000 }

theorem witness_RingOperations :
    (Clear (ringAt true 1 1 1 1) [.g 1] [.s 5] ∧ ((ringAt true 1 1 1 1).me.regs.ring 1).en = true
      ∧ ((ringAt true 1 1 1 1).me.regs.ring 1).millP = false ∧ ((ringAt true 1 1 1 1).me.regs.ring 1).millC = false
      ∧ 0 < ((ringAt true 1 1 1 1).me.regs.ring 1).free ∧ 0 < ((ringAt true 1 1 1 1).me.regs.ring 1).filled)
    ∧ (Clear (ringAt true 0 0 0 0) [.g 1] [.s 5] ∧ ((ringAt true 0 0 0 0).me.regs.ring 1).en = true
      ∧ ((ringAt true 0 0 0 0).me.regs.ring 1).free = 0 ∧ ((ringAt true 0 0 0 0).me.regs.ring 1).filled = 0)
    ∧ (Clear (ringAt false 0 0 0 0) [.g 1] [.s 5] ∧ ((ringAt false 0 0 0 0).me.regs.ring 1).en = false)
    ∧ (Clear (ringAt true 1 1 1 1) [.g 1] [] ∧ (ringAt true 1 1 1 1).me.heldOn 1 true < ((ringAt true 1 1 1 1).me.regs.ring 1).heldP
      ∧ (ringAt true 1 1 1 1).me.heldOn 1 false < ((ringAt true 1 1 1 1).me.regs.ring 1).heldC)
    ∧ Clear (ringAt true 0 0 0 0) [.g 1] [] ∧ ((ringAt true 0 0 0 0).me.regs.ring 1).heldP ≤ (ringAt true 0 0 0 0).me.heldOn 1 true
      ∧ ((ringAt true 0 0 0 0).me.regs.ring 1).heldC ≤ (ringAt true 0 0 0 0).me.heldOn 1 false :=
  ⟨⟨clear_of (by decide +kernel), by decide +kernel⟩, ⟨clear_of (by decide +kernel), by decide +kernel⟩, ⟨clear_of
    (by decide +kernel), by decide +kernel⟩, ⟨clear_of (by decide +kernel), by decide +kernel⟩, clear_of (by decide +kernel),
    by decide +kernel⟩

theorem witness_StashMaintenanceHeld : Clear (mem0 .l) [.s 7] [] := clear_of (by decide +kernel)

/-! ### The D slot -/

/-- Registers 10 to 19: a counter, a misaligned one, an operand, a template, a descriptor, reduction parameters, a record, a
network buffer, its length, and one block of a mill. -/
def regsD : Regs :=
  { regs0 with
    s := [0, 5, 7, 0xFFFFFFFFFFFFFFFF, 64, 0, 0x40000100, 0x200000, 0x200001, 0x10000000000000, 0x40000200, 0x40000204, 3,
          0x40000400, 0x220000, 0x220100, 0x220200, 0x300000, 64, 0x100000000] ++ List.replicate 44 0
    b := regs0.b.set 1 (some ⟨0x3000, none⟩)
    rings := regs0.rings.set 1 { lslot := 7, lcount := 1, en := true, base := 0x800, free := 2 }
    dqs := regs0.dqs.set 1 { reserved := 2, filled := 1, entries := List.replicate 32 { data := 0x77, fmt := 0x0C } } }

/-- A record of kernel 0 that starts at 0x1000. -/
def record0 : Record := { resume := 0x1000, ctx := 0x500000, argA := 4, groups := [3, 0, 0, 0] }
/-- The descriptor of a tensor of 16 × 16 INT32 elements, and the parameters of a sum of two sources (R256, R250). -/
def descBytes : List Byte := leBytes 8 0x230000 ++ leBytes 8 0x400 ++ leBytes 8 0 ++ [0x0C, 2, 1, 0, 0, 0, 0, 0]
  ++ leBytes 4 16 ++ leBytes 4 16 ++ leBytes 12 0 ++ leBytes 4 1 ++ leBytes 4 16 ++ leBytes 12 0 ++ leBytes 24 0
def paramBytes : List Byte := leBytes 8 0x240000 ++ leBytes 4 8 ++ [2, 0, 0, 0] ++ leBytes 8 5 ++ leBytes 40 0
  ++ leBytes 8 0x250000 ++ leBytes 8 0x260000 ++ leBytes 112 0

def kernel0 : Kernel := { id := 0, img := 0, text := 0, hcw := [], gen := 1, steppings := [0x00A1] }
def chan0 (holder : Option Nat) (n : Nat) : Channel :=
  { en := true, sbase := 0x300000, slen := 0x1000, rbase := 0x300000, rlen := 0x1000, skew := List.replicate n 0x5A, holder := holder }

def dSt (groups : List (BitVec 16)) (commons : List Queued) (c : Channel) : State :=
  let s : State := memSt { task0 with regs := regsD, record := { taskid := 9, resume := 0x1000, groups := groups } } { slot := .d, addr := 0x1000, eob := true }
  let s : State := { s with
    mem := Memory.writes s.mem (cellsAt 0x40000200 (leBytes 8 41) ++ cellsAt 0x40000400 record0.bytes ++ cellsAt 0x220000 descBytes
      ++ cellsAt 0x220100 paramBytes ++ cellsAt 0x220200 record0.bytes)
    ports := updAt s.ports 1 fun p => { p with chans := p.chans.set 2 c } }
  { s with parts := updAt s.parts 0 fun p => { p with kernels := [kernel0], commons := commons } }
def d0 : State := dSt [0, 0, 0, 0] [] (chan0 none 64)
def full : List Queued := List.replicate 1024 { record := record0, slot := .general, stamp := 0 }

def clearDB (s : State) (i : Instr) : Bool := clearB s ((dSpec i).srcs.filterMap id ++ dMore i) (dSpec i).dest.toList
theorem clearD_of {s : State} {i : Instr} (h : clearDB s i = true) : ClearD s i := clear_of h
theorem counter_of {s : State} {va : Nat} {n : Need} {l : Leaf}
    (h : (va % 8 == 0 && decide (s.access s.myUnit s.me.part va n = .ok l) && l.ms && !s.cohPoisoned (lineOf l.pa)) = true) :
    Counter s va n l := by
  simp only [Bool.and_eq_true, beq_iff_eq, decide_eq_true_eq, Bool.not_eq_true'] at h
  exact ⟨h.1.1.1, h.1.1.2, h.1.2, h.2⟩

/-- The leaf of the counter. -/
def ctr : Leaf := ⟨0x40000200, 0b01011, 0x40000000, 30⟩

theorem d0_unordered : Unordered d0 := unordered_of (by decide +kernel)
theorem d0_facts : d0.inRound d0.me = false ∧ d0.oPending = false ∧ d0.here.pairPend = [] ∧ d0.myUnit = tileUnit 0 ∧ d0.me.part = 0
    ∧ (d0.me.regs.sreg 10).toNat = 0x40000200 ∧ (d0.me.regs.sreg 11).toNat = 0x40000204 := by decide +kernel

theorem witness_CounterAdd : ClearD d0 (.cadd 10 12) ∧ ClearD d0 (.caddImm 10 5) ∧ Counter d0 0x40000200 .write ctr
    ∧ (isCtrl ctr.pa && ctrlPrivilegedIn ctr.pa 8) = false ∧ ClearD d0 (.cadd 11 12) ∧ 0x40000204 % 8 ≠ 0 :=
  ⟨clearD_of (by decide +kernel), clearD_of (by decide +kernel), counter_of (by decide +kernel), by decide +kernel,
    clearD_of (by decide +kernel), by decide⟩

theorem witness_CounterAddInMemory : Memory.wf d0.mem = true ∧ 0x40000200 % 8 = 0 ∧ 0x40000200 + 8 ≤ ctrlBase
    ∧ d0.lineHeld (some 0) (lineOf 0x40000200) = false ∧ (d0.dirLine (lineOf 0x40000200)).owner = none
    ∧ d0.cohPoisoned (lineOf 0x40000200) = false := by decide +kernel

theorem witness_CounterRead : ClearD d0 (.cread 20 10) ∧ Counter d0 0x40000200 .read ctr :=
  ⟨clearD_of (by decide +kernel), counter_of (by decide +kernel)⟩

theorem witness_CounterWait : ClearD d0 (.cwait 10 12 14 1) ∧ Counter d0 0x40000200 .read ctr
    ∧ d0.me.regs.breg 1 = some ⟨0x3000, none⟩ ∧ ClearD d0 (.cwait 11 12 14 1) ∧ ClearD d0 (.cwait 10 12 14 2)
    ∧ d0.me.regs.breg 2 = none :=
  ⟨clearD_of (by decide +kernel), counter_of (by decide +kernel), by decide +kernel, clearD_of (by decide +kernel),
    clearD_of (by decide +kernel), by decide +kernel⟩

/-- An atomic on a memory-side word and one on a word that L2 caches. -/
theorem witness_Atomic : ClearD d0 (.amo .add true 20 10 12) ∧ ClearD d0 (.amo .cas false 20 17 12)
    ∧ d0.access d0.myUnit 0 0x40000200 .both = .ok ctr
    ∧ d0.access d0.myUnit 0 0x300000 .both = .ok ⟨0x300000, 0b00111, 0, 30⟩
    ∧ isCtrl 0x40000200 = false ∧ isCtrl 0x300000 = false ∧ (d0.me.regs.sreg 17).toNat = 0x300000 :=
  ⟨clearD_of (by decide +kernel), clearD_of (by decide +kernel), by decide +kernel⟩

theorem witness_AtomicInMemory : Memory.wf d0.mem = true ∧ 0x40000204 % 4 = 0 ∧ 0x40000204 + 4 ≤ ctrlBase
    ∧ 0x40000200 % 8 = 0 ∧ 0x40000200 + 8 ≤ ctrlBase ∧ (d0.dirLine (lineOf 0x40000204)).owner = none
    ∧ (d0.dirLine (lineOf 0x40000200)).owner = none := by decide +kernel

theorem witness_AtomicConditional : ClearD d0 (.amoc .add .ge 20 10 12) ∧ Counter d0 0x40000200 .both ctr ∧ ctr.c = false
    ∧ d0.template d0.myUnit 0 (d0.me.regs.sreg (12 + 1)).toNat = .ok record0 :=
  ⟨clearD_of (by decide +kernel), counter_of (by decide +kernel), rfl, by decide +kernel⟩

theorem witness_CopyJoins : ClearD d0 (.cpy 5 6 10) ∧ d0.tensor 0 5 = some t5 ∧ d0.tensor 0 6 = some t6 ∧ t5.writable = true
    ∧ t5.overlaps t6 = false ∧ d0.access d0.myUnit 0 0x40000200 .write = .ok ctr ∧ ctr.ms = true ∧ d0.cpCount < 16
    ∧ ClearD d0 (.cpy 5 7 10) ∧ d0.tensor 0 7 = none :=
  ⟨clearD_of (by decide +kernel), by decide +kernel, by decide +kernel, rfl, by decide +kernel, by decide +kernel, rfl,
    by decide +kernel, clearD_of (by decide +kernel), by decide +kernel⟩

theorem witness_MillAttaches : ClearD d0 (.msub 1 5 19) ∧ ClearD d0 (.mret 1 5 19) ∧ d0.tensor 0 5 = some t5
    ∧ (d0.me.regs.ring 1).en = true ∧ (d0.me.regs.ring 1).millP = false ∧ (d0.me.regs.ring 1).millC = false
    ∧ (d0.me.regs.ring 1).heldP = 0 ∧ (d0.me.regs.ring 1).heldC = 0 ∧ 2 ^ (d0.me.regs.ring 1).lslot.toNat * 8 % t5.width = 0
    ∧ t5.writable = true ∧ d0.cpCount < 16 ∧ 0 < (millBlocks t5 (2 ^ (d0.me.regs.ring 1).lslot.toNat) (d0.me.regs.sreg 19)).2 :=
  ⟨clearD_of (by decide +kernel), clearD_of (by decide +kernel), front7 (by decide +kernel) ⟨rfl, by decide +kernel⟩⟩

def params0 : ReduceParam := { dst := 0x240000, count := 8, srcs := [0x250000, 0x260000], addVal := 5 }

/-- A task whose fence keeps path M behind the order point of its block. -/
def fencedM : State := d0.setMe { d0.me with fences := [{ after := pathM, waits := [], waitBlk := some 0, blk := 0 }] }
/-- The reduction engine of the destination, full. -/
def fullR : State := { d0 with dies := updAt d0.dies (d0.engineDie .reduction (homeDie 0x240000)) fun y => { y with
  reduceQ := List.replicate 64 { serial := 3, part := 0, tile := 0, owner := 9, dst := 0, count := 1, srcs := [], addVal := 0
                                 counter := none, waits := [], waitBlk := none } } }
/-- Another reduction that has still to be taken. -/
def askedR : State := { d0 with asks := [{ serial := 3, part := 0, tile := 0, owner := 9, va := 0x220100, counter := none, addr := 0
                                           waits := [], waitBlk := none }] }
/-- Reductions that the engine has. -/
def thereR (s : State) : Nat :=
  let y := s.dies.getD (s.engineDie .reduction (homeDie 0x240000)) {}
  y.reduceQ.length + y.reduceHalted.length
/-- What `mred` finds in every one of these states. -/
def reduces (s : State) : Bool :=
  clearDB s (.mred 15 10) && !s.inRound s.me && decide ((s.me.regs.sreg 15).toNat = 0x220100)
    && decide (s.access s.myUnit s.me.part 0x40000200 .write = .ok ctr) && !s.cohPoisoned (lineOf ctr.pa)
    && decide (s.access s.myUnit s.me.part 0x220100 .read = .ok ⟨0x220100, 0b00111, 0, 30⟩)
    && decide (s.access s.myUnit s.me.part (leNat (s.cohBytes 0x220100 8)) .write = .ok ⟨0x240000, 0b00111, 0, 30⟩)

theorem witness_ReductionJoins : (∀ s ∈ [d0, fencedM, fullR, askedR], ClearD s (.mred 15 10) ∧ s.inRound s.me = false
      ∧ (s.me.regs.sreg 15).toNat = 0x220100 ∧ s.access s.myUnit s.me.part 0x40000200 .write = .ok ctr
      ∧ s.cohPoisoned (lineOf ctr.pa) = false ∧ s.access s.myUnit s.me.part 0x220100 .read = .ok ⟨0x220100, 0b00111, 0, 30⟩
      ∧ s.access s.myUnit s.me.part (leNat (s.cohBytes 0x220100 8)) .write = .ok ⟨0x240000, 0b00111, 0, 30⟩)
    ∧ d0.cleared (d0.me.fenceFor pathM).1 (d0.me.fenceFor pathM).2 d0.me = true ∧ thereR d0 < 64 ∧ d0.asks = []
    ∧ 0x220100 % 64 = 0
    ∧ d0.engBytes (d0.dieQuad (d0.engineDie .reduction (homeDie 0x240000)) 0) 0 none 0x220100 192 = .ok paramBytes
    ∧ reduceParamOf paramBytes = some params0 ∧ params0.clash = false
    ∧ (params0.dst :: params0.srcs).all (fun a =>
        !d0.compressedIn (d0.dieQuad (d0.engineDie .reduction (homeDie 0x240000)) 0) 0 a 32) = true
    ∧ fencedM.cleared (fencedM.me.fenceFor pathM).1 (fencedM.me.fenceFor pathM).2 fencedM.me = false
    ∧ 64 ≤ thereR fullR ∧ (askedR.asks.any fun a => askedR.reduceGoes a) = true := by
  refine ⟨fun s hs => ?_, by decide +kernel⟩
  have h : ([d0, fencedM, fullR, askedR].all reduces) = true := by decide +kernel
  have h := List.all_eq_true.1 h s hs
  simp only [reduces, Bool.and_eq_true, decide_eq_true_eq, Bool.not_eq_true'] at h
  exact ⟨clearD_of h.1.1.1.1.1.1, h.1.1.1.1.1.2, h.1.1.1.1.2, h.1.1.1.2, h.1.1.2, h.1.2, h.2⟩

theorem witness_FenceOrders : ClearD d0 (.fence 0b100000 0b001000) ∧ ClearD d0 (.fence 0b001000 0b100000)
    ∧ (0b100000 : BitVec 6) &&& 0x3E ≠ 0 ∧ ClearD d0 (.fence 0 0b001000) ∧ ClearD d0 (.fence 0b100000 0) :=
  ⟨clearD_of (by decide +kernel), clearD_of (by decide +kernel), by decide, clearD_of (by decide +kernel), clearD_of (by decide +kernel)⟩

/-- The record and the descriptor as their task reads them. -/
def seenBytes (s : State) (va n : Nat) : List Byte := (List.range n).map fun i => (s.me.privByte (va + i)).getD (s.cohByte (va + i))

/-- The commons with room, with all general slots taken, and with the reserved slot of depth 1 taken too. -/
def pools : List State := [d0, dSt [0, 0, 0, 0] full (chan0 none 64),
  dSt [0, 0, 0, 0] ({ record := record0, slot := .reserved 1, stamp := 0 } :: full) (chan0 none 64)]

theorem witness_SpawnPlaces : ∀ s ∈ pools, ClearD s (.spawn 16) ∧ Unordered s ∧ (s.me.regs.sreg 16).toNat % 64 = 0
    ∧ s.access s.myUnit s.me.part (s.me.regs.sreg 16).toNat .read = .ok ⟨0x220200, 0b00111, 0, 30⟩
    ∧ s.cohPoisoned (lineOf 0x220200) = false ∧ s.recordOk s.me.part (seenBytes s 0x220200 64) = true
    ∧ s.inRound s.me = false := by
  have h : (pools.all fun s => clearDB s (.spawn 16) && (!s.oPending && s.me.fences.isEmpty)
      && decide ((s.me.regs.sreg 16).toNat % 64 = 0
    ∧ s.access s.myUnit s.me.part (s.me.regs.sreg 16).toNat .read = .ok ⟨0x220200, 0b00111, 0, 30⟩
    ∧ s.cohPoisoned (lineOf 0x220200) = false ∧ s.recordOk s.me.part (seenBytes s 0x220200 64) = true
    ∧ s.inRound s.me = false)) = true := by decide +kernel
  intro s hs
  have h := List.all_eq_true.1 h s hs
  rw [Bool.and_eq_true, Bool.and_eq_true (clearDB s _), decide_eq_true_eq] at h
  exact ⟨clearD_of h.1.1, unordered_of h.1.2, h.2⟩

theorem witness_SpawnPlaces_slots : pools.map (fun s => (s.generalFree 0, s.reservedFree 0 1))
    = [(true, true), (false, true), (false, false)] := by decide +kernel

/-- A task in no group, in group 3, and in four groups. -/
def grouped : State := dSt [3, 0, 0, 0] [] (chan0 none 64)
def grouped4 : State := dSt [3, 4, 5, 6] [] (chan0 none 64)

theorem witness_GroupMembership : Unordered d0 ∧ ClearD d0 (.join 3) ∧ d0.me.record.groups.findIdx? (· == 0) = some 0
    ∧ (3 : BitVec 16) ∉ d0.me.record.groups ∧ ClearD d0 (.leave 3) ∧ ClearD d0 (.join 0) ∧ ClearD d0 (.leave 0)
    ∧ Unordered grouped ∧ grouped.inRound grouped.me = false ∧ ClearD grouped (.join 3) ∧ (3 : BitVec 16) ∈ grouped.me.record.groups
    ∧ ClearD grouped (.leave 3) ∧ grouped.me.record.groups.findIdx? (· == 3) = some 0
    ∧ Unordered grouped4 ∧ grouped4.inRound grouped4.me = false ∧ ClearD grouped4 (.join 7)
    ∧ (7 : BitVec 16) ∉ grouped4.me.record.groups ∧ (0 : BitVec 16) ∉ grouped4.me.record.groups :=
  ⟨d0_unordered, clearD_of (by decide +kernel), by decide +kernel, by decide +kernel, clearD_of (by decide +kernel), clearD_of
    (by decide +kernel), clearD_of (by decide +kernel), unordered_of (by decide +kernel), by decide +kernel, clearD_of
    (by decide +kernel), by decide +kernel, clearD_of (by decide +kernel), by decide +kernel, unordered_of (by decide +kernel),
    by decide +kernel, clearD_of (by decide +kernel), by decide +kernel⟩

/-- The translated bytes of the descriptor. -/
def descPas : List (Nat × Leaf) := (List.range 96).map fun i => (0x220000 + i, ⟨0x220000 + i, 0b00111, 0, 30⟩)

theorem witness_TensorTable : ClearD d0 (.tdef 8 14) ∧ (d0.me.regs.sreg 14).toNat = 0x220000
    ∧ d0.accessRange d0.myUnit 0 0x220000 96 .read = .ok descPas ∧ (descPas.all fun x => !d0.cohPoisoned (lineOf x.1)) = true
    ∧ descCheck (seenBytes d0 0x220000 96) = none ∧ ClearD d0 (.tdrop 5) :=
  ⟨clearD_of (by decide +kernel), front4 (by decide +kernel) (clearD_of (by decide +kernel))⟩

theorem witness_SendLeaves : (d0.here.sends.filter fun m => m.data.isNone).length < 16 ∧ ClearD d0 (.nsend 1 2 17 18)
    ∧ (d0.me.regs.sreg 17).toNat = 0x300000 ∧ ((d0.me.regs.sreg 18).extractLsb' 0 32).toNat = 64
    ∧ d0.netCheck 1 2 0x300000 64 false false = none
    ∧ d0.accessRange d0.myUnit 0 0x300000 64 .read = .ok ((List.range 64).map fun i => (0x300000 + i, ⟨0x300000 + i, 0b00111, 0, 30⟩))
    ∧ ClearD d0 (.nsendq 1 2 1) ∧ d0.netCheck 1 2 0 512 false true = none ∧ 0 < (d0.me.regs.drain 1).reserved
    ∧ 0 < (d0.me.regs.drain 1).filled :=
  ⟨by decide +kernel, clearD_of (by decide +kernel), front4 (by decide +kernel) ⟨clearD_of (by decide +kernel),
    by decide +kernel⟩⟩

/-- A channel with too few bytes, and one that task 5 holds. -/
def short : State := dSt [0, 0, 0, 0] [] (chan0 (some 9) 8)
def taken5 : State := dSt [0, 0, 0, 0] [] (chan0 (some 5) 64)

theorem witness_ReceiveTakes : ∀ s ∈ [d0, short, taken5], ClearD s (.nrecv 1 2 17 18) ∧ Unordered s ∧ s.inRound s.me = false
    ∧ s.netCheck 1 2 (s.me.regs.sreg 17).toNat ((s.me.regs.sreg 18).extractLsb' 0 32).toNat true false = none
    ∧ s.storeRow 0x300000 64 = .ok (false, (List.range 64).map (0x300000 + ·)) := by
  have h : ([d0, short, taken5].all fun s => clearDB s (.nrecv 1 2 17 18) && (!s.oPending && s.me.fences.isEmpty)
      && decide (s.inRound s.me = false
    ∧ s.netCheck 1 2 (s.me.regs.sreg 17).toNat ((s.me.regs.sreg 18).extractLsb' 0 32).toNat true false = none
    ∧ s.storeRow 0x300000 64 = .ok (false, (List.range 64).map (0x300000 + ·)))) = true := by decide +kernel
  intro s hs
  have h := List.all_eq_true.1 h s hs
  rw [Bool.and_eq_true, Bool.and_eq_true (clearDB s _), decide_eq_true_eq] at h
  exact ⟨clearD_of h.1.1, unordered_of h.1.2, h.2⟩

theorem witness_ReceiveTakes_channels : [d0, short, taken5].map (fun s => ((s.chan 1 2).holder, (s.chan 1 2).skew.length))
    = [(none, 64), (some 9, 8), (some 5, 64)] ∧ d0.me.record.taskid = 9 := by decide +kernel

/-- A buffer in the window of ring 1, and a channel whose receive window reaches it. -/
def windowed : State :=
  let s := dSt [0, 0, 0, 0] [] { chan0 none 64 with rbase := BitVec.ofNat 52 windowBase, rlen := 0x100000 }
  let a : Word64 := BitVec.ofNat 64 (windowBase + 0x40000)
  s.setMe { s.me with regs := { s.me.regs with s := s.me.regs.s.set 17 a } }

theorem witness_ReceiveTakes_window : ClearD windowed (.nrecv 1 2 17 18) ∧ Unordered windowed
    ∧ windowed.netCheck 1 2 (windowed.me.regs.sreg 17).toNat ((windowed.me.regs.sreg 18).extractLsb' 0 32).toNat true false = none
    ∧ ∃ x, windowed.storeRow (windowed.me.regs.sreg 17).toNat ((windowed.me.regs.sreg 18).extractLsb' 0 32).toNat = .ok x
      ∧ x.1 = true :=
  ⟨clearD_of (by decide +kernel), unordered_of (by decide +kernel), by decide +kernel, ok_of (by decide +kernel)⟩

/-! ### Events of a tile -/

/-- The M operation m at the head of the queue of a task. -/
def mop (w : MWork) : MOp := { serial := 3, idx := 1, blk := 0, addr := 0x1000, work := w, waits := [], waitBlk := none }
def queued (m : MOp) : Task := { task0 with mStarted := 1, mq := [m] }
def evSt (k : Task) : State := memSt k {}

/-- The task on a tile. -/
def taskOf (s : State) (t : Nat) : Task := ((s.tile t).task).getD {}
theorem on_of {s : State} {t : Nat} (h : (s.tile t).task.isSome = true) : On s t (taskOf s t) := by
  unfold On taskOf
  cases e : (s.tile t).task with
  | none => rw [e] at h; exact absurd h (by decide)
  | some k => rfl

theorem unlocked_of {s : State} (h : (s.tiles.all fun x => x.task.all fun k => decide (k.blk.run < 3)) = true) : Unlocked s := by
  intro u k on
  unfold On State.tile at on
  rw [List.getD_eq_getElem?_getD] at on
  cases e : s.tiles[u]? with
  | none => rw [e] at on; cases on
  | some x =>
    have g := List.all_eq_true.1 h x (List.mem_of_getElem? e)
    rw [e, Option.getD_some] at on
    rw [on] at g
    exact of_decide_eq_true g
theorem others_of {s : State} {t : Nat} (h : (s.tiles.all fun x => x.task.all fun k => decide (k.blk.run < 3)) = true) :
    OthersUnlocked s t := fun u k _ on => unlocked_of h u k on
theorem overdue_of {s : State} {t b : Nat} (h : ((s.tile t).task.isSome && ((taskOf s t).open_ || s.fenced (taskOf s t).part
      || ((s.hangAt t (taskOf s t) b).isNone && !((s.tile t).forcedBy (taskOf s t) b && (taskOf s t).stop.isNone)))) = true) :
    s.overdue t b = s := by
  rw [Bool.and_eq_true] at h
  have e : (s.tile t).task = some (taskOf s t) := on_of h.1
  unfold State.overdue
  simp only [e]
  split
  · rfl
  · rename_i n
    have g := h.2
    rw [Bool.or_eq_true] at g
    have g := g.resolve_left n
    rw [Bool.and_eq_true, Option.isNone_iff_eq_none, Bool.not_eq_true'] at g
    simp only [g.1, g.2, Bool.false_eq_true, if_false]

/-- A line that a load waits for, and a dirty line of tile 0. -/
def missing0 : State := (evSt task0).modTile 0 fun x => { x with hold := some (.miss [0x5000]), asked := [0x5000] }
def dirty0 : State := (evSt task0).modTile 0 fun x => { x with stash := [{ line0 with st := .dirty }] }

theorem witness_StashLines : On missing0 0 (taskOf missing0 0) ∧ (missing0.tile 0).hold = some (.miss [0x5000])
    ∧ OthersUnlocked missing0 0 ∧ missing0.heldLines = [] ∧ (missing0.tile 0).asked = [0x5000]
    ∧ (taskOf missing0 0).blk.phase = .open ∧ (taskOf missing0 0).blk.run < 3
    ∧ (missing0.dirLine 0x5000).owner = none ∧ isCtrl (0x5000 * 128) = false ∧ (missing0.tile 0).ways (0x5000 % 512) ≠ []
    ∧ Memory.wf dirty0.mem = true ∧ (dirty0.dirLine 0x4000).owner = some 0
    ∧ (dirty0.tile 0).lineAt 0x4000 = some { line0 with st := .dirty } ∧ dirty0.breaksLock (dirty0.recall 0x4000) = false :=
  ⟨on_of (by decide +kernel), by decide +kernel, others_of (by decide +kernel), by decide +kernel⟩

def lock5 : Lock := { reg := 5, serial := 7, blk := 0, ord := 0, beat := 0, tag := 1, value := none, line := none }
def reply1 : Reply := { n := 1, tile := 0, serial := 7, task := 0, value := 0x99 }
def waitsValue : Task := { task0 with locks := [lock5] }
def valued : State := let s : State := evSt waitsValue; { s with replies := [reply1] }

theorem witness_ValueDelivered : (valued.replies.find? fun x => x.n == 1) = some reply1 ∧ On valued 0 (taskOf valued 0)
    ∧ ((taskOf valued 0).locks.find? fun x => x.serial == 7) = some lock5 ∧ 5 < (taskOf valued 0).regs.s.length
    ∧ valued.saved = [] :=
  ⟨by decide +kernel, on_of (by decide +kernel), by decide +kernel⟩

/-- A `cwait` that has left for the counter at 0x40000200, one that waits to be sent again, and one with a waiter. -/
def cargs : CwaitArgs := { va := 0x40000200, pa := 0x40000200, target := 100, mask0 := 2, mask1 := 0, resume := 0x3000 }
def cTask (e : EState) : Task :=
  { task0 with record := { taskid := 9, ctx := 0x500000 }, blk := { phase := .commit, eState := e }, pc := 0x1000 }
def cSt (e : EState) (ws : List Waiter) : State := let s : State := evSt (cTask e); { s with waiters := ws }
def waiter1 : Waiter := { n := 1, pa := 0x40000200, part := 0, target := 100, confirmed := false, reached := false, tile := 0, record := {} }
def sent0 : State := cSt (.cwaitSent cargs) []
def confirming : State := cSt (.cwaitWaiter cargs 1) [waiter1]

def retrying : State := cSt (.cwaitRetry cargs 9) []
def poisonedC : State := let s := sent0; { s with poison := [lineOf 0x40000200] }

/-- The task that leaves its tile as its wait is confirmed: its context is saved, apart from the word it waits for. -/
def leaving : Task := Laws.leaver (taskOf confirming 0).landAll.1 (SaveSet.of cargs.mask0 cargs.mask1) cargs.resume true

set_option maxRecDepth 100000 in
theorem leaving_saves : ∃ u, confirming.saveCtx 0 leaving .v false = .ok u ∧ (fun _ => true) u = true := ok_of (by decide +kernel)

theorem leaving_waiter : (confirming.waiters.all fun w => !w.reached) = true := by decide +kernel

set_option maxRecDepth 100000 in
theorem leaving_far : (match Laws.savedCells confirming 0 leaving .v false with
    | .ok cells => cells.all fun cs => cs.all fun c => confirming.waiters.all fun w => w.pa != alignDown c.1 8
    | .error _ => true) = true := by decide +kernel

set_option maxRecDepth 20000 in
theorem witness_CounterWaiters :
    (On sent0 0 (taskOf sent0 0) ∧ Unlocked sent0 ∧ sent0.fenced (taskOf sent0 0).part = false ∧ (taskOf sent0 0).blk.phase = .commit
      ∧ (taskOf sent0 0).blk.eState = .cwaitSent cargs ∧ leNat (sent0.lowBytes cargs.pa 8) < cargs.target.toNat
      ∧ (sent0.quads.getD (taskOf sent0 0).part {}).tt = false ∧ sent0.inRound (taskOf sent0 0) = false
      ∧ sent0.cohPoisoned (lineOf cargs.pa) = false ∧ sent0.waiterCount (homeSlice cargs.pa) < 8192)
    ∧ (On poisonedC 0 (taskOf poisonedC 0) ∧ Unlocked poisonedC ∧ poisonedC.fenced (taskOf poisonedC 0).part = false
      ∧ (taskOf poisonedC 0).blk.phase = .commit ∧ (taskOf poisonedC 0).blk.eState = .cwaitSent cargs
      ∧ poisonedC.cohPoisoned (lineOf cargs.pa) = true)
    ∧ (On retrying 0 (taskOf retrying 0) ∧ Unlocked retrying ∧ (taskOf retrying 0).blk.eState = .cwaitRetry cargs 9)
    ∧ On confirming 0 (taskOf confirming 0) ∧ Unlocked confirming ∧ (taskOf confirming 0).blk.eState = .cwaitWaiter cargs 1
      ∧ (confirming.waiters.find? fun x => x.n == 1) = some waiter1 ∧ waiter1.tile = 0 ∧ waiter1.confirmed = false
      ∧ confirming.fenced (taskOf confirming 0).part = false ∧ (taskOf confirming 0).injHits = []
      ∧ ∃ y v, confirming.leaveTile 0 (taskOf confirming 0).blk.compareAt (SaveSet.of cargs.mask0 cargs.mask1) cargs.resume true
          = (some y, v) ∧ ∀ x ∈ v.waiters, x.n = 1 → x.reached = false := by
  refine ⟨⟨on_of (by decide +kernel), unlocked_of (by decide +kernel), by decide +kernel⟩, ⟨on_of (by decide +kernel),
    unlocked_of (by decide +kernel), by decide +kernel⟩, ⟨on_of (by decide +kernel),
    unlocked_of (by decide +kernel), by decide +kernel⟩, on_of (by decide +kernel), unlocked_of (by decide +kernel), front6
    (by decide +kernel) ?_⟩
  obtain ⟨u, hu, -⟩ := leaving_saves
  refine ⟨_, _, Laws.leaveTile_saves _ (on_of (by decide +kernel)) (by decide +kernel) (by decide +kernel) (by decide +kernel) hu,
    fun x (hx : x ∈ u.waiters) _ => ?_⟩
  rw [Laws.saveCtx_waiters hu] at hx
  · exact Bool.not_eq_true' _ ▸ List.all_eq_true.1 leaving_waiter x hx
  · intro cells e cs hcs c hc w hw
    have h := leaving_far
    rw [e] at h
    exact bne_iff_ne.1 (List.all_eq_true.1 (List.all_eq_true.1 (List.all_eq_true.1 h cs hcs) c hc) w hw)

/-- A bundle with `rel 0x40` that waits since beat 0; a request that is too old; a task that has committed nothing. -/
def relBundle : Word256 := 0x01000000#32 ++ 0x28000040#32 ++ 0#192
def released : State :=
  let s : State := evSt { task0 with blk := { relAt := some 0 } }
  { s with refTick := 0x560, mem := Memory.writes s.mem (cellsAt 0x1000 (leBytes 32 relBundle.toNat))
           parts := updAt s.parts 0 fun p => { p with frames := some frames0 } }
def pressed : State := (evSt task0).modTile 0 fun x => { x with req := some 0, held := 5000 }
def hanging (b : Block) : State := (evSt { task0 with blk := b }).modTile 0 fun x => { x with watch := 2 ^ 24 }
def timersOk (s : State) : Prop := On s 0 (taskOf s 0) ∧ s.fenced (taskOf s 0).part = false ∧ OthersUnlocked s 0
theorem timersOk_of {s : State} (h : ((s.tile 0).task.isSome && !s.fenced (taskOf s 0).part
    && s.tiles.all fun x => x.task.all fun k => decide (k.blk.run < 3)) = true) : timersOk s := by
  rw [Bool.and_eq_true, Bool.and_eq_true, Bool.not_eq_true'] at h
  exact ⟨on_of h.1.1, h.1.2, others_of h.2⟩

theorem witness_TileTimers :
    (timersOk released ∧ (taskOf released 0).blk.relAt = some 0 ∧ released.relTarget 0 (taskOf released 0) = some 0x40
      ∧ 0x40 ≤ (released.frameOf (taskOf released 0).part).2 ∧ released.relTurn 0 = true
      ∧ released.dueOf 0 .issue = some (taskOf released 0).nextIssue)
    ∧ (timersOk pressed ∧ (pressed.tile 0).req = some 0
      ∧ 0 + (taskOf pressed 0).regs.pbound.toNat ≤ cycle (pressed.tile 0) ∧ (taskOf pressed 0).blk.phase = .open
      ∧ (taskOf pressed 0).blk.hasXfer = false ∧ (taskOf pressed 0).stop = none ∧ (pressed.dueOf 0 .issue).isSome = true)
    ∧ (timersOk (hanging {}) ∧ 2 ^ ((hanging {}).quads.getD (taskOf (hanging {}) 0).part {}).lwd.toNat ≤ ((hanging {}).tile 0).watch
      ∧ (taskOf (hanging {}) 0).stop = none ∧ (taskOf (hanging {}) 0).blk.relAt = none ∧ (taskOf (hanging {}) 0).blk.phase = .open ∧ (taskOf (hanging {}) 0).blk.hasXfer = false)
    ∧ let s := hanging { hasXfer := true }
      timersOk s ∧ 2 ^ (s.quads.getD (taskOf s 0).part {}).lwd.toNat ≤ (s.tile 0).watch ∧ (taskOf s 0).stop = none
      ∧ (taskOf s 0).blk.hasXfer = true ∧ (s.tile 0).hold = none ∧ (taskOf s 0).blk.phase ≠ .commit :=
  ⟨⟨timersOk_of (by decide +kernel), by decide +kernel⟩, ⟨timersOk_of (by decide +kernel), by decide +kernel⟩, ⟨timersOk_of
    (by decide +kernel), by decide +kernel⟩, timersOk_of (by decide +kernel), by decide +kernel⟩

/-- Tile 3 retires, and tile 32 is a spare of its quadrant. -/
def retiring3 : State := (evSt task0).modTile 3 fun x => { x with life := .retiring }

theorem witness_TileRetires : OthersUnlocked retiring3 3 ∧ 3 < retiring3.tiles.length ∧ 32 < retiring3.tiles.length ∧ (retiring3.tile 3).life = .retiring
    ∧ (retiring3.tile 3).task = none ∧ (retiring3.tile 3).peerIn = [] ∧ retiring3.fenced (retiring3.partOf (quadOf 3)) = false
    ∧ (retiring3.quads.getD (retiring3.partOf (quadOf 3)) {}).llen = 0 ∧ quadOf 3 < retiring3.quads.length
    ∧ retiring3.freeSpare (quadOf 3) = some 32 := ⟨others_of (by decide +kernel), by decide +kernel⟩

theorem head_of {s : State} {t : Nat} {m : MOp} {rest : List MOp}
    (h : ((s.tile t).task.isSome && decide ((taskOf s t).mq = m :: rest) && !s.fenced (taskOf s t).part
      && decide ((taskOf s t).mFault = none)
      && s.cleared m.waits m.waitBlk (taskOf s t)) = true) : AtHead s t (taskOf s t) m rest := by
  simp only [Bool.and_eq_true, decide_eq_true_eq, Bool.not_eq_true'] at h
  exact ⟨on_of h.1.1.1.1, h.1.1.1.2, h.1.1.2, h.1.2, h.2⟩

/-- The M engine at an `mma` of two 2 × 2 tensors, an `mzero`, an `mload` that fails, a drain, a reduction to tile 1. -/
def tiny : Desc := tens 0x08 2 2 0x210000
def mmaOp : MOp := mop (.mma 1 1 tiny tiny 0 0)
def zeroOp : MOp := mop (.mzero 2)
def loadOp : MOp := mop (.mload 3 0x80000000)
def drainOp (filled : Nat) (began : Option Nat) : MOp :=
  { mop (.drain 4 t5 5 2 0 2 1) with filled := filled, began := began }
def redOp (left : Bool) : MOp := mop (.red 1 false 1 2 left)
def mAt (m : MOp) : State := evSt (queued m)

/-- Operations that have begun: an `mzero`, and an `mma` with its operands, which its fetch found in the stash or not. -/
def zeroBegun : MOp := { zeroOp with began := some 0 }
def mmaBegun (resident : Bool) : MOp := { mmaOp with began := some 0, buf := some { resident := resident } }
def waitsM (m : MOp) : State := (evSt { queued m with nextIssue := 1000 }).modTile 0 fun x => { x with held := 40 }

/-- An event of tile 0 is due, and its watchdog does not expire before. -/
def inTime (s : State) (d : Due) : Bool := (s.dueOf 0 d).any fun b => (s.expired 0 b).isNone

theorem witness_MatrixExecutes : AtHead (mAt zeroOp) 0 (taskOf (mAt zeroOp) 0) zeroOp [] ∧ zeroOp.began = none
    ∧ AtHead (waitsM zeroBegun) 0 (taskOf (waitsM zeroBegun) 0) zeroBegun [] ∧ inTime (waitsM zeroBegun) .run = true
    ∧ AtHead (mAt mmaOp) 0 (taskOf (mAt mmaOp) 0) mmaOp [] ∧ mmaClass tiny.fmt = some .i8 ∧ mmaOp.began = none ∧ mmaOp.buf = none
    ∧ AtHead (waitsM (mmaBegun true)) 0 (taskOf (waitsM (mmaBegun true)) 0) (mmaBegun true) []
    ∧ inTime (waitsM (mmaBegun true)) .run = true
    ∧ AtHead (waitsM (mmaBegun false)) 0 (taskOf (waitsM (mmaBegun false)) 0) (mmaBegun false) []
    ∧ (waitsM (mmaBegun false)).dueOf 0 .run = none ∧ 0 + 31 ≤ cycle ((waitsM (mmaBegun false)).tile 0)
    ∧ AtHead (mAt loadOp) 0 (taskOf (mAt loadOp) 0) loadOp []
    ∧ ((mAt loadOp).others 0).accImage 0 0 0x80000000 = .error (.mmaXlate, 0x80000000) :=
  ⟨head_of (by decide +kernel), rfl, head_of (by decide +kernel), by decide +kernel, head_of (by decide +kernel),
    by decide +kernel, rfl, rfl, head_of (by decide +kernel), by decide +kernel, head_of (by decide +kernel), by decide +kernel,
    by decide +kernel, head_of (by decide +kernel), by decide +kernel⟩

/-- The image that an `mload` finds at address 0, where nothing has been written. -/
theorem witness_MatrixExecutes_load : ∃ es, ((mAt (mop (.mload 3 0))).others 0).accImage 0 0 0 = .ok es := by
  obtain ⟨l, hl, plain⟩ : ∃ l, ((mAt (mop (.mload 3 0))).others 0).access (tileUnit 0) 0 0 .read = .ok l ∧ (!l.c) = true :=
    ok_of (by decide +kernel)
  have clean : ((((mAt (mop (.mload 3 0))).others 0).tile 0).stash.all fun x => x.st != .poisoned) = true := by decide +kernel
  exact Laws.accImage_ok (by decide) hl (by simpa using plain) (by decide +kernel)
    fun x hx => bne_iff_ne.1 (List.all_eq_true.1 clean x hx)

/-- The next issue is far: the next event of the tile is a fill. -/
def far (m : MOp) : State :=
  evSt { queued m with nextIssue := 1000, regs := regs0.setDrain 2 { reserved := 2, filled := m.filled, entries := List.replicate 32 {} } }

def filling (n : Nat) : State :=
  (far (drainOp n (some 0))).modTile 0 fun x => x.toBeat (((far (drainOp n (some 0))).dueOf 0 .fill).getD 0)

theorem witness_DrainFills :
    (AtHead (far (drainOp 0 none)) 0 (taskOf (far (drainOp 0 none)) 0) (drainOp 0 none) []
      ∧ (((taskOf (far (drainOp 0 none)) 0).drainSurfaces (drainOp 0 none) 4).regs.acc 4).poison = none)
    ∧ inTime (far (drainOp 0 (some 0))) .fill = true ∧ inTime (far (drainOp 1 (some 0))) .fill = true
    ∧ AtHead (filling 0) 0 (taskOf (filling 0) 0) (drainOp 0 (some 0)) []
    ∧ AtHead (filling 1) 0 (taskOf (filling 1) 0) (drainOp 1 (some 0)) [] :=
  ⟨⟨head_of (by decide +kernel), by decide +kernel⟩, by decide +kernel, by decide +kernel, head_of (by decide +kernel), head_of
    (by decide +kernel)⟩

/-- A reduction whose values wait at tile 1, and one that the peer has acknowledged. -/
def waiting : State := (evSt task0).modTile 0 fun x => { x with peerIn := [⟨1, 7, 2, true, []⟩] }
def acked : State := evSt { queued (redOp true) with acks := [(3, true)] }

theorem witness_PeerReduction : AtHead (mAt (redOp false)) 0 (taskOf (mAt (redOp false)) 0) (redOp false) []
    ∧ (((taskOf (mAt (redOp false)) 0).drainSurfaces (redOp false) 1).regs.acc 1).poison = none
    ∧ (mAt (redOp false)).physOf 1 = some 1 ∧ 1 < (mAt (redOp false)).tiles.length
    ∧ On waiting 0 (taskOf waiting 0) ∧ (taskOf waiting 0).mq = [] ∧ (waiting.tile 0).peerIn = [⟨1, 7, 2, true, []⟩]
    ∧ AtHead acked 0 (taskOf acked 0) (redOp true) [] ∧ (taskOf acked 0).acks.find? (fun x => x.1 == 3) = some (3, true) :=
  ⟨head_of (by decide +kernel), by decide +kernel, by decide +kernel, by decide +kernel, on_of (by decide +kernel),
    by decide +kernel, by decide +kernel, head_of (by decide +kernel), by decide +kernel⟩

/-- A chain of two steps over core 9, a 1 × 2 × 1 tensor of FP32 elements; its second step names no core. -/
def core9 : Desc := { tens 0x00 1 2 0x40000100 with rank := 3, ext := [1, 2, 1], stride := [1, 1, 2] }
def stepBytes : List Byte := [9, 0, 0x21, 0, 0, 0, 0x22, 3] ++ leBytes 8 0
def chainOp (next : Nat) : MOp := mop (.chain 0x40000300 false false 0 [0, 0, 1, 2] next (some 2))
def chainSt (next : Nat) : State :=
  let s : State := mAt (chainOp next)
  { s with mem := Memory.writes s.mem (cellsAt 0x40000310 (stepBytes ++ [8] ++ leBytes 15 0))
           parts := updAt s.parts 0 fun p => { p with tensors := [(9, core9)] } }

theorem witness_ChainStepRuns : AtHead (chainSt 0) 0 (taskOf (chainSt 0) 0) (chainOp 0) [] ∧ OthersUnlocked (chainSt 0) 0
    ∧ OthersUnlocked (chainSt 1) 0
    ∧ ((chainSt 0).others 0).engBytes (tileUnit 0) 0 (some 0) 0x40000310 16 = .ok stepBytes
    ∧ (match ((chainSt 0).others 0).chainStep 0 0 stepBytes false false 0 [0, 0, 1, 2] (taskOf (chainSt 0) 0).regs.bound with
        | .ok _ => true | .error _ => false) = true
    ∧ AtHead (chainSt 1) 0 (taskOf (chainSt 1) 0) (chainOp 1) []
    ∧ ((chainSt 1).others 0).engBytes (tileUnit 0) 0 (some 0) 0x40000320 16 = .ok ([8] ++ leBytes 15 0)
    ∧ (match ((chainSt 1).others 0).chainStep 0 0 ([8] ++ leBytes 15 0) false false 0 [0, 0, 1, 2] (taskOf (chainSt 1) 0).regs.bound with
        | .ok _ => false | .error _ => true) = true :=
  ⟨head_of (by decide +kernel), others_of (by decide +kernel), others_of (by decide +kernel), by decide +kernel,
    by decide +kernel, head_of (by decide +kernel), by decide +kernel⟩

/-! ### Bundles and blocks -/

theorem is_of {ε α : Type} [DecidableEq α] {x : Except ε α} {a : α} (h : okAnd x (fun y => decide (y = a)) = true) : x = .ok a := by
  obtain ⟨y, e, hy⟩ := ok_of h
  rw [e, of_decide_eq_true hy]

/-- Code at 0x1000: a `nop`, and a block of one bundle that is `done`, with its seal. -/
def nopBundle : Word256 := 0x01000000#32 ++ 0#224
def doneBundle : Word256 := 0x05000000#32 ++ 0x2C000000#32 ++ 0#192
def codeSt (ws : List Word256) : State :=
  let s : State := evSt task0
  { s with mem := Memory.writes s.mem (cellsAt 0x1000 (ws.map fun w => leBytes 32 w.toNat).flatten) }
def nopSt : State := codeSt [nopBundle]
def doneSt : State := codeSt [doneBundle, 0x20000#256]
def nopB : Bundle := ⟨0x1000, nopBundle, headerOf (headerWord nopBundle), none⟩
def doneB : Bundle := ⟨0x1000, doneBundle, headerOf (headerWord doneBundle), some 0x20000#256⟩

theorem reaches_of {s : State} {t b : Nat} {bd : Bundle}
    (h : ((s.tile t).task.isSome && decide (s.nextDue t = some (b, .issue)) && s.mayIssue t (taskOf s t)
      && (s.tiles.all fun x => x.task.all fun k => decide (k.blk.run < 3)) && (s.overtaken t b false).isNone
      && (taskOf s t).open_ && !(taskOf s t).awaits && s.relTurn t
      && ((s.approach t b).tile t).life != .retiring
      && okAnd ((s.approach t b).bundleAt t (s.approach t b).me) (fun x => decide (x = bd))
      && decide ((s.approach t b).me.blk.idx < 256) && (s.approach t b).here.req.isNone) = true) :
    Reaches s t b (taskOf s t) bd := by
  simp only [Bool.and_eq_true, decide_eq_true_eq, bne_iff_ne, Option.isNone_iff_eq_none, Bool.not_eq_true'] at h
  obtain ⟨⟨⟨⟨⟨⟨⟨⟨⟨⟨⟨h1, h2⟩, h3⟩, ho⟩, hn⟩, hp⟩, ha⟩, ht⟩, h4⟩, h5⟩, h6⟩, h7⟩ := h
  have hd : s.overdue t b = s := overdue_of (by rw [h1, hp]; rfl)
  exact ⟨on_of h1, h2, h3, others_of ho, ⟨hn, hd⟩, ha, ht, h4, is_of h5, h6, h7⟩

theorem issues_of {s : State} {t b : Nat} {bd : Bundle} {os : List SlotOp} (r : Reaches s t b (taskOf s t) bd)
    (h : okAnd ((checking s t b bd).checkBundle (s.approach t b).me bd) (fun x => decide (x = os)) = true) :
    Issues s t b (taskOf s t) bd os := ⟨r, is_of h⟩

theorem witness_BundleIssues : Issues nopSt 0 1 (taskOf nopSt 0) nopB [⟨.c, .nop, 0, 0⟩]
    ∧ Issues doneSt 0 1 (taskOf doneSt 0) doneB [⟨.c, .done, 0, 0⟩]
    ∧ (∃ w, (issuing nopSt 0 1 nopB).startSlots nopB [⟨.c, .nop, 0, 0⟩] = .ok w ∧ w.here.task.isSome = true)
    ∧ (∃ w, (issuing doneSt 0 1 doneB).startSlots doneB [⟨.c, .done, 0, 0⟩] = .ok w ∧ w.here.task.isSome = true)
    ∧ (doneB.hd.eob && commitOp .done) = false ∧ (encode .nop).isSome = true ∧ (at0 .c).here.task.isSome = true
    ∧ ∃ u, startOp .nop (at0 .c) = .ok u := by
  refine ⟨issues_of (reaches_of (by decide +kernel)) (by decide +kernel), issues_of (reaches_of (by decide +kernel))
    (by decide +kernel), ok_of (by decide +kernel), ok_of (by decide +kernel),
    by decide +kernel, by decide +kernel, by decide +kernel, ?_⟩
  obtain ⟨u, h, _⟩ := ok_of (x := startOp .nop (at0 .c)) (P := fun _ => true) (by decide +kernel)
  exact ⟨u, h⟩

/-- A delayed `mzero` of the block in progress that is due on beat 0. -/
def late0 : Delayed := { due := 0, blk := 0, ord := 0, slot := .m, idx := 0, op := .mzero 2, addr := 0x1000 }
def lateSt : State := evSt { task0 with delayed := [late0] }

theorem witness_DelayedStarts : On lateSt 0 (taskOf lateSt 0) ∧ OthersUnlocked lateSt 0
    ∧ lateSt.fenced (taskOf lateSt 0).part = false ∧ lateSt.dueOf 0 .delayed = some 0
    ∧ lateSt.overtaken 0 0 true = none ∧ (taskOf lateSt 0).awaits = false
    ∧ inOrder ((taskOf lateSt 0).delayed.filter fun d => d.due == 0 && !d.caught) = [late0] ∧ late0.blk = (taskOf lateSt 0).blk.seq ∧ (encode late0.op).isSome = true
    ∧ ∃ u, startOp late0.op (lateStart lateSt 0 0 (taskOf lateSt 0) late0) = .ok u
        ∧ (u.spendInj.restOfBeat 0 0 ([].map .start ++ [.bundle])).isNone = true := by
  refine ⟨on_of (by decide +kernel), others_of (by decide +kernel), by decide +kernel, by decide +kernel,
    Option.isNone_iff_eq_none.1 (by decide +kernel), by decide +kernel, by decide +kernel, by decide +kernel, by decide +kernel, ok_of (by decide +kernel)⟩

/-- A sum that raises `nv` and lands on beat 0, with and without its trap, and where a stop is due already. -/
def sum0 : Landing :=
  { due := 0, blk := 0, ord := 0, slot := 1, wr := .s 5 9, dests := [.s 5], tag := 7, flags := 1, addr := 0x1000 }
def landSt (traps : BitVec 6) (stop : Option StopDue) : State :=
  evSt { task0 with landings := [sum0], regs := { regs0 with fptrap := traps }, stop := stop }
def landings0 : List (BitVec 6 × Option StopDue) := [(0, none), (1, none), (1, some (.fault .breakpoint .s 0x1000 0 0))]

theorem witness_ResultArrives : ∀ x ∈ landings0, let s := landSt x.1 x.2
    On s 0 (taskOf s 0) ∧ OthersUnlocked s 0 ∧ s.dueOf 0 .land = some 0 ∧ s.expired 0 0 = none
    ∧ sum0.blk = (taskOf s 0).blk.seq
    ∧ (taskOf s 0).landings.filter (fun x => decide (x.due ≤ 0) && !x.caught) = [sum0]
    ∧ (fpTrapCause sum0.flags (enablesAfter (taskOf s 0) sum0)).isSome = (x.1 == 1)
    ∧ (taskOf s 0).stop = x.2 ∧ (taskOf s 0).blk.hasXfer = false ∧ (taskOf s 0).blk.phase = .open := by
  intro x hx
  simp only [landings0, List.mem_cons, List.not_mem_nil, or_false] at hx
  rcases hx with rfl | rfl | rfl <;>
  exact ⟨on_of (by decide +kernel), others_of (by decide +kernel), by decide +kernel⟩

/-- Scalar register 1 is locked, or has a write that has not landed. -/
def lockedS : State := onTile { task0 with locks := [⟨1, 2, 9, 0, 0, 0, none, none, false⟩] } { slot := .sa, addr := 0x1000, ord := 1 }
def flying1 : Landing := { due := 3, blk := 0, ord := 0, slot := 1, wr := .s 1 9, dests := [.s 1], tag := 0, flags := 0, addr := 0x1000 }
def earlyS : State :=
  onTile { task0 with regs := { regs0 with debug := true }, landings := [flying1] } { slot := .sa, addr := 0x1000, ord := 1 }
def firstOps : List Instr :=
  [.sadd (plainHcw true 4 1 0 64), .bprepi 0 1, .ilock 1 0, .iunlock 1 0, .sflush 1 0, .sinv 1 0, .caddImm 1 2, .cread 5 1, .nsend 1 2 1 1]

theorem witness_LocksAndEarlyReads : lockedS.here.task.isSome = true ∧ earlyS.here.task.isSome = true ∧ earlyS.me.regs.debug = true
    ∧ ∀ i ∈ firstOps, beginsFirst i lockedS = true
      ∧ ((lineageAt i lockedS).named ++ (lineageAt i lockedS).dests).find? (fun r => lockedS.lockedReg r) = some (.s 1)
      ∧ beginsFirst i earlyS = true ∧ (∀ r ∈ (lineageAt i earlyS).named ++ (lineageAt i earlyS).dests, earlyS.lockedReg r = false)
      ∧ (i.hcw.all fun h => h.predOk earlyS.me.regs) = true ∧ ∃ r ∈ (lineageAt i earlyS).named, earlyS.earlyRead r = true := by
  decide +kernel

theorem atEnd_of {s : State} {t : Nat}
    (h : ((s.tile t).task.isSome && (s.tiles.all fun x => x.task.all fun k => decide (k.blk.run < 3))
      && !s.fenced (taskOf s t).part && !(taskOf s t).awaits && (s.tile t).gangLead.isNone && !s.paired (taskOf s t).part
      && (s.tile t).pairPend.isEmpty && !(taskOf s t).blk.foldMiss && !(taskOf s t).blk.succMiss && !(taskOf s t).blk.stale) = true) :
    AtEnd s t (taskOf s t) := by
  simp only [Bool.and_eq_true, Bool.not_eq_true', Option.isNone_iff_eq_none, List.isEmpty_iff] at h
  obtain ⟨⟨⟨⟨⟨⟨⟨⟨⟨h1, ho⟩, h2⟩, ha⟩, h3⟩, h4⟩, h5⟩, h6⟩, h7⟩, h8⟩ := h
  exact ⟨on_of h1, others_of ho, h2, ha, h3, h4, h5, h6, h7, h8⟩

/-- A block that has read `s1` and folded nothing, whose seal names `s1`, accepts every successor and holds a fold. -/
def sealWith (fold : Word64) : Word256 := fold ++ 2#64 ++ 0#72 ++ 0#16 ++ 0x0001#8 ++ 0x0100020000#32
def blk0 (fold : Word64) (ph : Phase) : Block :=
  { start := 0x1000, idx := 1, entered := true, reads := [1], sealWord := sealWith fold, eAddr := 0x1000, compareAt := 5
    nextAt := 6, phase := ph }
def sealed (b : Block) : State := evSt { task0 with blk := b, nextIssue := 2, pc := 0x1020 }
def bothSeals : List State := [sealed (blk0 foldStart .compare), sealed (blk0 7 .compare)]

theorem witness_BlockCompares : (∀ s ∈ bothSeals, AtEnd s 0 (taskOf s 0) ∧ s.dueOf 0 .compare = some 5 ∧ s.overdue 0 5 = s
      ∧ ∃ x, (s.atSeal 0 5).closeFold = .ok x ∧ (x.1.reads == [1] && sealNames (sealOf x.1.sealWord) 1 && !x.1.blame && !x.1.pendingRead
        && Task.successorOk { taskOf s 0 with blk := x.1 } (sealOf x.1.sealWord)) = true)
    ∧ bothSeals.map (fun s => match (s.atSeal 0 5).closeFold with
        | .ok x => foldBefore x.1.folds 1000 == (sealOf x.1.sealWord).fold
        | .error _ => false) = [true, false]
    ∧ (∀ b ∈ [{ blk0 7 .compare with foldMiss := true }, { blk0 7 .order with stale := true }],
        On (sealed b) 0 (taskOf (sealed b) 0) ∧ OthersUnlocked (sealed b) 0 ∧ (sealed b).fenced (taskOf (sealed b) 0).part = false
        ∧ ((sealed b).tile 0).gangLead = none ∧ (taskOf (sealed b) 0).blk.phase ≠ .open
        ∧ (taskOf (sealed b) 0).blk.entered = true
        ∧ ((taskOf (sealed b) 0).blk.foldMiss = true ∧ (taskOf (sealed b) 0).blk.replay = false
          ∨ (taskOf (sealed b) 0).blk.stale = true)) := by
  refine ⟨List.forall_mem_cons.2 ⟨⟨atEnd_of (by decide +kernel), by decide +kernel, overdue_of (by decide +kernel), ok_of
    (by decide +kernel)⟩, List.forall_mem_singleton.2 ⟨atEnd_of (by decide +kernel), by decide +kernel, overdue_of
    (by decide +kernel), ok_of (by decide +kernel)⟩⟩, by decide +kernel, List.forall_mem_cons.2 ⟨⟨on_of (by decide +kernel),
    others_of (by decide +kernel), by decide +kernel⟩, List.forall_mem_singleton.2 ⟨on_of (by decide +kernel), others_of
    (by decide +kernel), by decide +kernel⟩⟩⟩

/-- The order point of a block that has stored nothing, and of one that has stored five bytes to a line of its stash. -/
def orderSt (hs : List Held) : State := sealed { blk0 foldStart .order with held := hs, heldAt := hs.map fun _ => (0, 5) }
def five : List Byte := [1, 2, 3, 4, 5]

theorem witness_OrderPointEndsBlock : (∀ hs ∈ [[], [Held.store 0x1000 0x200004 (cellsAt 0x200004 five)]],
      AtEnd (orderSt hs) 0 (taskOf (orderSt hs) 0) ∧ (orderSt hs).dueOf 0 .order = some 5
      ∧ (orderSt hs).overtaken 0 5 false = none ∧ (orderSt hs).overdue 0 5 = orderSt hs
      ∧ (taskOf (orderSt hs) 0).blk.phase = .order ∧ (taskOf (orderSt hs) 0).blk.readSet = []
      ∧ (taskOf (orderSt hs) 0).blk.eOp = none ∧ (taskOf (orderSt hs) 0).blk.ending = .go
      ∧ (taskOf (orderSt hs) 0).blk.hasFenceO = false ∧ (taskOf (orderSt hs) 0).injHits = []
      ∧ (orderSt hs).heldLines = [] ∧ (taskOf (orderSt hs) 0).blk.held = hs)
    ∧ let s := orderSt [Held.store 0x1000 0x200004 (cellsAt 0x200004 five)]
      0x200004 % 128 + five.length ≤ 128 ∧ (s.atSeal 0 5).inRound (taskOf s 0) = false
      ∧ ((cellsAt 0x200004 five).all fun x => !(s.atSeal 0 5).sideCell 0 (taskOf s 0).part (cellVa 0x200004 x.1) x.1) = true
      ∧ (s.dirLine (lineOf 0x200004)).owner = some 0
      ∧ (s.tile 0).lineAt (lineOf 0x200004) = some line0 ∧ line0.st ≠ .poisoned := by
  refine ⟨List.forall_mem_cons.2 ⟨⟨atEnd_of (by decide +kernel), by decide +kernel, Option.isNone_iff_eq_none.1
    (by decide +kernel), overdue_of (by decide +kernel), by decide +kernel⟩, List.forall_mem_singleton.2 ⟨atEnd_of
    (by decide +kernel), by decide +kernel, Option.isNone_iff_eq_none.1 (by decide +kernel), overdue_of (by decide +kernel),
    by decide +kernel⟩⟩, by decide +kernel⟩

/-- `AtOrder` of tile 0 on beat 5, as a test. -/
def orderB (s : State) : Bool :=
  ((s.tile 0).task.isSome && (s.tiles.all fun x => x.task.all fun k => decide (k.blk.run < 3))
    && !s.fenced (taskOf s 0).part && !(taskOf s 0).awaits && (s.tile 0).gangLead.isNone && !s.paired (taskOf s 0).part
    && (s.tile 0).pairPend.isEmpty && !(taskOf s 0).blk.foldMiss && !(taskOf s 0).blk.succMiss && !(taskOf s 0).blk.stale)
  && ((s.tile 0).task.isSome && ((taskOf s 0).open_ || s.fenced (taskOf s 0).part
    || ((s.hangAt 0 (taskOf s 0) 5).isNone && !((s.tile 0).forcedBy (taskOf s 0) 5 && (taskOf s 0).stop.isNone))))
  && (decide (s.dueOf 0 .order = some 5) && (s.overtaken 0 5 false).isNone && decide ((taskOf s 0).blk.phase = .order)
      && !(taskOf s 0).blk.hasFenceO && (taskOf s 0).injHits.isEmpty && s.heldLines.isEmpty)
theorem order_of {s : State} (h : orderB s = true) : AtOrder s 0 5 (taskOf s 0) := by
  unfold orderB at h
  rw [Bool.and_eq_true, Bool.and_eq_true] at h
  have e := atEnd_of h.1.1
  have o := overdue_of h.1.2
  have h := h.2
  simp only [Bool.and_eq_true, Bool.not_eq_true', decide_eq_true_eq, List.isEmpty_iff, Option.isNone_iff_eq_none] at h
  obtain ⟨⟨⟨⟨⟨d, p⟩, h1⟩, h2⟩, h3⟩, h4⟩ := h
  exact ⟨e, d, h1, ⟨p, o⟩, h2, h3, h4⟩

/-- Blocks at their order point that end as they say, and ones that hold an operation for their commit. -/
def endingSt (e : BlockEnd) : State :=
  evSt { task0 with blk := { blk0 foldStart .order with ending := e }, nextIssue := 2, pc := 0x1020, record := { record0 with groups := [0, 0, 0, 0] } }
def locked0 : Lock := { reg := 1, serial := 2, blk := 9, ord := 0, beat := 0, tag := 0, value := none, line := none }
def commitSt (i : Instr) (locks : List Lock) : State :=
  evSt { task0 with blk := { blk0 foldStart .order with eOp := some i }, nextIssue := 2, pc := 0x1020, locks := locks }
def holdsNothing (k : Task) : Bool := k.blk.readSet.isEmpty && k.blk.held.isEmpty && k.stop.isNone
theorem witness_OrderPointCommits_ends : (∀ e ∈ [.done, .trap 7, .yield], let s := endingSt e
      AtOrder s 0 5 (taskOf s 0) ∧ holdsNothing (taskOf s 0) = true ∧ (taskOf s 0).blk.eOp = none ∧ (taskOf s 0).blk.ending = e)
    ∧ ((endingSt .done).tile 0).peerIn = [] ∧ (taskOf (endingSt .done) 0).record.groups = [0, 0, 0, 0]
    ∧ (part (endingSt .done) (taskOf (endingSt .done) 0).part).round = none ∧ (taskOf (endingSt (.trap 7)) 0).locks = [] :=
  ⟨List.forall_mem_cons.2 ⟨⟨order_of (by decide +kernel), by decide +kernel⟩,
    List.forall_mem_cons.2 ⟨⟨order_of (by decide +kernel), by decide +kernel⟩,
    List.forall_mem_singleton.2 ⟨order_of (by decide +kernel), by decide +kernel⟩⟩⟩,
    by decide +kernel⟩

theorem witness_OrderPointCommits_op : (∀ x ∈ [(.leave 3, []), (.caddImm 1 2, []), (.caddImm 1 2, [locked0])],
      let s := commitSt x.1 x.2
      AtOrder s 0 5 (taskOf s 0) ∧ holdsNothing (taskOf s 0) = true ∧ (taskOf s 0).blk.eOp = some x.1 ∧ (taskOf s 0).blk.ending = .go)
    ∧ (let s := commitSt (.leave 3) []
      ∃ z, startOp (.leave 3) (atCommit s 0 5 (taskOf s 0)) = .ok z ∧ (decide (z.cur.tile = 0) && z.here.task.isSome
        && decide ((taskOf z 0).blk.eState = .waiting) && decide ((taskOf z 0).blk.ending = .go) && (taskOf z 0).injHits.isEmpty
        && z.heldLines.isEmpty && (z.tile 0).gangLead.isNone) = true)
    ∧ (let s := commitSt (.caddImm 1 2) []
      ∃ x d, startOp (.caddImm 1 2) (atCommit s 0 5 (taskOf s 0)) = .error (.after x d))
    ∧ let s := commitSt (.caddImm 1 2) [locked0]
      ∃ h, startOp (.caddImm 1 2) (atCommit s 0 5 (taskOf s 0)) = .error (.hold h) := by
  refine ⟨List.forall_mem_cons.2 ⟨⟨order_of (by decide +kernel), by decide +kernel⟩,
    List.forall_mem_cons.2 ⟨⟨order_of (by decide +kernel), by decide +kernel⟩,
    List.forall_mem_singleton.2 ⟨order_of (by decide +kernel), by decide +kernel⟩⟩⟩,
    ok_of (by decide +kernel), ?_, ?_⟩
  · have h : (match startOp (.caddImm 1 2) (atCommit (commitSt (.caddImm 1 2) []) 0 5 (taskOf (commitSt (.caddImm 1 2) []) 0)) with
        | .error (.after _ _) => true
        | _ => false) = true := by decide +kernel
    split at h
    · rename_i x d e
      exact ⟨x, d, e⟩
    · exact absurd h Bool.false_ne_true
  · have h : (match startOp (.caddImm 1 2) (atCommit (commitSt (.caddImm 1 2) [locked0]) 0 5 (taskOf (commitSt (.caddImm 1 2) [locked0]) 0)) with
        | .error (.hold _) => true
        | _ => false) = true := by decide +kernel
    split at h
    · rename_i x e
      exact ⟨x, e⟩
    · exact absurd h Bool.false_ne_true

def yieldAt : State := atCommit (endingSt .yield) 0 5 (taskOf (endingSt .yield) 0)
set_option maxRecDepth 100000 in
theorem witness_OrderPointCommits_yield : (∃ x y, yieldAt.leaveTile 0 5 {} (taskOf (endingSt .yield) 0).successor.2 false = (some y, x)
      ∧ x.generalFree (taskOf (endingSt .yield) 0).part = true ∧ (taskOf (endingSt .yield) 0).part < x.parts.length)
    ∧ ((endingSt .yield).quads.getD (taskOf (endingSt .yield) 0).part {}).tt = false ∧ (taskOf (endingSt .yield) 0).blk.yielded = false
    ∧ (endingSt .yield).inRound (taskOf (endingSt .yield) 0) = false := by
  refine ⟨?_, by decide +kernel⟩
  let k := taskOf yieldAt 0
  have on : (yieldAt.tile 0).task = some k := on_of (by decide +kernel)
  obtain ⟨u, hu⟩ : ∃ u, yieldAt.saveCtx 0 (Laws.leaver k.landAll.1 {} (taskOf (endingSt .yield) 0).successor.2 false) .v false = .ok u := fine_of (by decide +kernel)
  have same : (u.markLeft k.landAll.1.part k.landAll.1.record.taskid).parts = u.parts := rfl
  refine ⟨_, _, Laws.leaveTile_saves 5 on (Option.isNone_iff_eq_none.1 (by decide +kernel)) (by decide +kernel) (Option.isNone_iff_eq_none.1 (by decide +kernel)) hu, ?_, ?_⟩
  · have none_ : (part yieldAt (taskOf (endingSt .yield) 0).part).commons = [] := by decide +kernel
    unfold part at none_
    unfold State.generalFree
    rw [same, Laws.saveCtx_parts hu, none_]
    exact decide_eq_true (Nat.two_pow_pos _)
  · rw [same, Laws.saveCtx_parts hu]
    decide +kernel

/-! The effects that a block holds back: of its ring, of the window, of a line, of a ring's register, and of a drain entry. -/
def dSmall : Desc := tens 0x0C 1 16 0x200000
def entryHeld : Held :=
  .entry 0x1000 1 dSmall { data := 0x77, fmt := 0x0C } 0 0 2048
    ((orderSt []).entryCells task0 dSmall (entryElems dSmall { data := 0x77, fmt := 0x0C } 0 0))
def ringOn : Word64 := 0x000007A1_00000080
def effects : List Held :=
  [.publish 1, .release 1, .window 0x1000 windowBase (cellsAt 0x40000 five), .flush 0x200000 1, .inval 0x200000 1, .ringCfg 1 ringOn, .ringCfg 1 0, entryHeld]
def effectSt (h : Held) : State := (orderSt [h]).modTile 0 fun x => { x with stash := [{ line0 with st := .dirty }] }
def sameLine (s : State) (line : Nat) : Bool :=
  (s.heldBytes entryHeld).all fun x => !s.sideCell 0 (taskOf s 0).part x.1 x.2.1 && lineOf x.2.1 == line

theorem witness_HeldEffectsApply : (∀ h ∈ effects, let s := effectSt h
      AtOrder s 0 5 (taskOf s 0) ∧ (taskOf s 0).blk.readSet = [] ∧ (taskOf s 0).blk.eOp = none ∧ (taskOf s 0).blk.ending = .go
        ∧ (taskOf s 0).blk.held = [h] ∧ (taskOf s 0).regs.rings.length = 8 ∧ (s.tile 0).ringPoison = []
        ∧ (s.tile 0).lineAt 0x4000 = some { line0 with st := .dirty } ∧ (s.dirLine 0x4000).owner = some 0 ∧ Memory.wf s.mem = true)
    ∧ (∃ l, ((effectSt (.flush 0x200000 1)).atSeal 0 5).xlate (tileUnit 0) 0 0x200000 = .ok l ∧ decide (lineOf l.pa = 0x4000) = true)
    ∧ (∃ l, ((effectSt (.inval 0x200000 1)).atSeal 0 5).xlate (tileUnit 0) 0 0x200000 = .ok l ∧ decide (lineOf l.pa = 0x4000) = true)
    ∧ inWindow 0x200000 = false ∧ ringOn.getLsbD 32 = true ∧ ((taskOf (effectSt (.ringCfg 1 ringOn)) 0).regs.ring 1).en = false
    ∧ (0 : Word64).getLsbD 32 = false
    ∧ let s := effectSt entryHeld
      dSmall.withMeta = false ∧ s.inRound (taskOf s 0) = false ∧ (taskOf s 0).regs.dqs.length = 4
      ∧ sameLine (s.atSeal 0 5) 0x4000 = true ∧ (((s.atSeal 0 5).heldBytes entryHeld).map (·.2.1)).Nodup := by
  have all : (effects.all fun h => orderB (effectSt h) && decide ((taskOf (effectSt h) 0).blk.readSet = [] ∧ (taskOf (effectSt h) 0).blk.eOp = none
      ∧ (taskOf (effectSt h) 0).blk.ending = .go ∧ (taskOf (effectSt h) 0).blk.held = [h] ∧ (taskOf (effectSt h) 0).regs.rings.length = 8
      ∧ ((effectSt h).tile 0).ringPoison = [] ∧ ((effectSt h).tile 0).lineAt 0x4000 = some { line0 with st := .dirty }
      ∧ ((effectSt h).dirLine 0x4000).owner = some 0 ∧ Memory.wf (effectSt h).mem = true)) = true := by decide +kernel
  refine ⟨fun h hh => ?_, ok_of (by decide +kernel), ok_of (by decide +kernel), by decide +kernel⟩
  have x := List.all_eq_true.1 all h hh
  rw [Bool.and_eq_true, decide_eq_true_eq] at x
  exact ⟨order_of x.1, x.2⟩

/-- Blocks that have read a line of their stash, and a memory-side line that has been written since or not. -/
def readBy (es : List ReadEntry) : State := evSt { task0 with blk := { blk0 foldStart .order with readSet := es }, nextIssue := 2, pc := 0x1020 }
def kept0 : List ReadEntry := [⟨0x4000, 1, false, none⟩, ⟨0x5000, 0, true, none⟩]
def stale0 : List ReadEntry := [⟨0x5000, 3, true, none⟩]
def holdsEffects (k : Task) : Bool := !k.blk.held.isEmpty || k.blk.eOp.isSome || decide (k.blk.ending ≠ .go)
def judged (s : State) (good : Bool) : Bool :=
  if good then (taskOf s 0).blk.readSet.all fun e => lastWrite s e == e.wts && (e.side || (s.dirLine e.line).owner == some 0)
  else (taskOf s 0).blk.readSet.any fun e => e.side && lastWrite s e != e.wts

theorem witness_ReadSetValidates : AtOrder (readBy kept0) 0 5 (taskOf (readBy kept0) 0) ∧ AtOrder (readBy stale0) 0 5 (taskOf (readBy stale0) 0)
    ∧ holdsEffects (taskOf (readBy kept0) 0) = false ∧ holdsEffects (taskOf (readBy stale0) 0) = false
    ∧ judged (readBy kept0) true = true ∧ judged (readBy stale0) false = true :=
  ⟨order_of (by decide +kernel), order_of (by decide +kernel), by decide +kernel⟩

/-- A tile whose block has waited for its pair since tick 5. -/
def pairBlock0 : PairBlock :=
  { seq := 4, fold := 0, crc := 0, before := {}, held := [], readSet := [], again := false, since := 5 }
def lonely : State :=
  let s : State := evSt task0
  ({ s with refTick := 20000 } : State).modTile 5 fun x => { x with pairPend := [pairBlock0] }

def headAnd {α : Type} (l : List α) (P : α → Bool) : Bool :=
  match l with
  | x :: _ => P x
  | [] => false
theorem cons_of {α : Type} {l : List α} {P : α → Bool} (h : headAnd l P = true) :
    ∃ x r, l = x :: r ∧ P x = true := by
  cases l with
  | nil => exact absurd h Bool.false_ne_true
  | cons x r => exact ⟨x, r, rfl, h⟩

def waitedLong (s : State) (p : PairBlock) : Bool := decide (p.since + 10938 ≤ s.refTick) && !p.applied

theorem witness_InstancesAndPairs : 0 < lonely.tiles.length ∧ On lonely 0 (taskOf lonely 0) ∧ 3 < lonely.tiles.length
    ∧ (lonely.tile 3).task = none ∧ (lonely.tile 3).failing = [] ∧ (lonely.quads.getD (lonely.partOf (quadOf 3)) {}).tt = false
    ∧ (lonely.tile 3).sa ≠ (lonely.tile 3).sb ∧ 5 < lonely.tiles.length ∧ (lonely.tile 5).pairIn = [] ∧ OthersUnlocked lonely 5
    ∧ (lonely.tile 5).gangLead = none
    ∧ lonely.partOf (quadOf 5) < lonely.parts.length
    ∧ ∃ p rest, (lonely.tile 5).pairPend = p :: rest ∧ waitedLong lonely p = true :=
  ⟨by decide +kernel, on_of (by decide +kernel), front7 (by decide +kernel) ⟨others_of (by decide +kernel), by decide +kernel,
    by decide +kernel, cons_of (by decide +kernel)⟩⟩

/-- A tile without a task whose pairs both name instance 1 twice. -/
def bothNamed : State := lonely.modTile 3 fun x => { x with sa := 1, sb := 1, va := 1, vb := 1 }
/-- A bundle whose SA syllable names word 1 of the control words, an `sadd`, on a tile without a scalar instance. -/
def saBundle : Word256 := 0x00800000#32 ++ 0#32 ++ 0#16 ++ 0x4020#16 ++ 0#160
def saB : Bundle := ⟨0x1000, saBundle, headerOf (headerWord saBundle), none⟩
def saOp : SlotOp := ⟨.sa, .sadd (plainHcw true 4 1 0 64), 0, 0⟩
def absentSt : State :=
  let s : State := evSt { task0 with hcw := [0, hcwOf 0x1018010100000000 64] }
  let s : State := { s with mem := Memory.writes s.mem (cellsAt 0x1000 (leBytes 32 saBundle.toNat)) }
  s.modTile 0 fun x => { x with sa := 3, sb := 3 }

theorem witness_InstancesAndPairs_instances : (∀ s ∈ [lonely, bothNamed], 3 < s.tiles.length ∧ (s.tile 3).task = none
      ∧ (s.tile 3).failing = [] ∧ (s.quads.getD (s.partOf (quadOf 3)) {}).tt = false)
    ∧ (lonely.tile 3).va ≠ (lonely.tile 3).vb ∧ (bothNamed.tile 3).sa = 1 ∧ (bothNamed.tile 3).sb = 1
    ∧ (bothNamed.tile 3).va = 1 ∧ (bothNamed.tile 3).vb = 1
    ∧ saOp.slot = .sa ∧ (checking absentSt 0 1 saB).here.sa = 3 ∧ (checking absentSt 0 1 saB).probe saOp = none
    ∧ Reaches absentSt 0 1 (taskOf absentSt 0) saB ∧ saB.hd.eob = false
    ∧ (checking absentSt 0 1 saB).checkBundle (absentSt.approach 0 1).me saB = .error .engineAbsent
    ∧ ((absentSt.approach 0 1).tile 0).life = .service := by
  have h : ((checking absentSt 0 1 saB).probe saOp).isNone = true := by decide +kernel
  have c : (match (checking absentSt 0 1 saB).checkBundle (absentSt.approach 0 1).me saB with
    | .error x => decide (x = .engineAbsent)
    | .ok _ => false) = true := by decide +kernel
  refine ⟨List.forall_mem_cons.2 ⟨by decide +kernel, List.forall_mem_singleton.2 (by decide +kernel)⟩, front7 (by decide +kernel)
    ⟨Option.isNone_iff_eq_none.1 h, reaches_of (by decide +kernel), rfl, ?_, by decide +kernel⟩⟩
  split at c
  · rename_i e
    rw [e, of_decide_eq_true c]
  · exact absurd c Bool.false_ne_true

/-! ### The commons, exceptions and the return from them -/

/-- The context at 0x500000 of a task that has stopped, and records without and with a context. -/
def fresh0 : Record := { record0 with groups := [0, 0, 0, 0] }
def back0 : Record := { fresh0 with hasctx := true, taskid := 9 }
def ctxHead : List Byte := back0.bytes ++ [1, 0] ++ leBytes 2 2 ++ leBytes 4 0x00A1
def commonsSt (qs : List Queued) : State :=
  let s : State := evSt task0
  { s with mem := Memory.writes s.mem (cellsAt 0x500000 ctxHead), saved := [{ part := 0, va := 0x500000, task := task0 }]
           parts := updAt s.parts 0 fun p => { p with kernels := [kernel0], commons := qs } }
def offered0 (r : Record) : Queued := { record := r, slot := .general, stamp := 3 }
def launched : State :=
  let s : State := commonsSt []
  { s with launchQ := [{ slice := 2, part := 0, record := fresh0, stamp := 5 }] }

theorem mayPick_of {s : State} {t p : Nat}
    (h : (decide (t < s.tiles.length) && s.partOf (quadOf t) == p && s.idle t && !s.engineStill p && !s.inTable p t
      && (part s p).entering.isEmpty) = true) : MayPick s t p := by
  simp only [Bool.and_eq_true, Bool.not_eq_true', decide_eq_true_eq, beq_iff_eq, List.isEmpty_iff] at h
  obtain ⟨⟨⟨⟨⟨h1, h2⟩, h3⟩, h4⟩, h5⟩, h6⟩ := h
  exact ⟨h1, h2, h3, h4, h5, h6⟩

theorem picked_of {s : State} {p : Nat} {q : Queued}
    (h : (decide (s.offered p = [q]) && decide ((part s p).run.getD q.record.prio.toNat 0 < 1024)) = true) : Picked s p q := by
  simp only [Bool.and_eq_true, decide_eq_true_eq] at h
  refine ⟨by rw [h.1]; simp, Or.inl ⟨fun x hx => ?_, h.2⟩⟩
  rw [h.1, List.mem_singleton] at hx
  rw [hx]
  exact BitVec.le_refl _

theorem base_locks {s : State} {p va : Nat} {sec : Nat → Option (List Byte)} {e : SavedCtx} (h : s.saved = [e]) (h0 : e.task.locks = []) :
    (s.ctxBase p va sec).locks = [] := by
  unfold State.ctxBase State.steppingOf
  dsimp only
  rw [h, List.find?_cons]
  cases (e.part == p && e.va == va && e.matches sec 0 hdrPriv)
  · simp only [List.find?_nil, Option.map_none, Option.getD_none]
  · simp only [Option.map_some, Option.getD_some, h0]

/-- A context holds the locks of the save that its bytes name, and of no other. -/
theorem loadCtx_locks {s : State} {t p : Nat} {r : Record} {e : SavedCtx} {k : Machine.Task} (h : s.saved = [e]) (h0 : e.task.locks = [])
    (hk : s.loadCtx t p r = .ok (some k)) : k.locks = [] := by
  unfold State.loadCtx at hk
  dsimp only at hk
  repeat' split at hk
  all_goals try simp only [Except.ok.injEq, reduceCtorEq] at hk
  rw [← Option.some.inj hk]
  simp only [Task.ofSections, base_locks h h0, List.map_nil]
theorem goesOn_of {s : State} {t p : Nat} {r : Record} {e : SavedCtx} (h : s.saved = [e]) (h0 : e.task.locks = [])
    (hk : okAnd (s.loadCtx t p r) (fun x => x.isSome) = true) : ∃ k, s.loadCtx t p r = .ok (some k) ∧ k.locks = [] := by
  obtain ⟨x, hx, hs⟩ := ok_of hk
  obtain ⟨k, rfl⟩ := Option.isSome_iff_exists.1 hs
  exact ⟨k, hx, loadCtx_locks h h0 hx⟩

theorem witness_CommonsServe :
    ((∃ e, (launched.launchQ.find? fun e => e.slice == 2 && e.part == 0) = some e) ∧ launched.generalFree 0 = true
      ∧ launched.fenced 0 = false ∧ launched.heldLines = [] ∧ 0 < launched.parts.length
      ∧ Unlocked launched ∧ launched.waiters = [])
    ∧ (MayPick (commonsSt [offered0 fresh0]) 1 0 ∧ OthersUnlocked (commonsSt [offered0 fresh0]) 1 ∧ Picked (commonsSt [offered0 fresh0]) 0 (offered0 fresh0)
      ∧ fresh0.hasctx = false)
    ∧ MayPick (commonsSt [offered0 back0]) 1 0 ∧ OthersUnlocked (commonsSt [offered0 back0]) 1 ∧ Picked (commonsSt [offered0 back0]) 0 (offered0 back0) ∧ back0.hasctx = true
      ∧ ∃ k, (picked (commonsSt [offered0 back0]) 1 7 0 (offered0 back0)).loadCtx 1 0 back0 = .ok (some k) ∧ k.locks = [] :=
  ⟨⟨Option.isSome_iff_exists.1 (by decide +kernel), front4 (by decide +kernel) ⟨unlocked_of (by decide +kernel),
    by decide +kernel⟩⟩, ⟨mayPick_of (by decide +kernel), others_of (by decide +kernel), picked_of (by decide +kernel),
    by decide +kernel⟩, mayPick_of (by decide +kernel), others_of (by decide +kernel), picked_of (by decide +kernel),
    by decide +kernel, goesOn_of (e := { part := 0, va := 0x500000, task := task0 }) rfl rfl
    (by decide +kernel)⟩

/-- A task whose context area can be written, and one whose area lies outside the address space. -/
def areaAt (a : Word64) : State := evSt { pc := 0x1000, nextIssue := 1, record := { taskid := 9, ctx := a } }
def why0 : StopInfo := { cause := .bundleReserved, cls := .s, beat := 0, bundle := 0x1000 }
theorem error_of {ε α : Type} {x : Except ε α} (h : okAnd x (fun _ => true) = false) : ∃ e, x = .error e := by
  cases x with
  | ok a => exact absurd h (by simp [okAnd])
  | error e => exact ⟨e, rfl⟩

set_option maxRecDepth 100000 in
theorem witness_StopSavesContext :
    (On (areaAt 0x500000) 0 (taskOf (areaAt 0x500000) 0) ∧ ((areaAt 0x500000).tile 0).peerIn = []
      ∧ (taskOf (areaAt 0x500000) 0).unread = [] ∧ (taskOf (areaAt 0x500000) 0).injHits = [] ∧ (taskOf (areaAt 0x500000) 0).part < (areaAt 0x500000).parts.length
      ∧ (taskOf (areaAt 0x500000) 0).record.tt = false)
    ∧ (∃ w, (areaAt 0x500000).saveCtx 0 (stopped (taskOf (areaAt 0x500000) 0) why0) why0.cls true = .ok w ∧ (fun _ => true) w = true)
    ∧ (∃ w, (areaAt 0x500000).saveCtx 0 (resting (taskOf (areaAt 0x500000) 0) 5) .v true = .ok w ∧ (fun _ => true) w = true)
    ∧ On (areaAt 0x90000000) 0 (taskOf (areaAt 0x90000000) 0) ∧ ((areaAt 0x90000000).tile 0).peerIn = []
    ∧ (taskOf (areaAt 0x90000000) 0).unread = [] ∧ (taskOf (areaAt 0x90000000) 0).injHits = [] ∧ (taskOf (areaAt 0x90000000) 0).part < (areaAt 0x90000000).parts.length
    ∧ (taskOf (areaAt 0x90000000) 0).record.tt = false
    ∧ ∃ e, (areaAt 0x90000000).saveCtx 0 (stopped (taskOf (areaAt 0x90000000) 0) why0) why0.cls true = .error e :=
  ⟨⟨on_of (by decide +kernel), by decide +kernel⟩, ok_of (by decide +kernel), ok_of (by decide +kernel), on_of
    (by decide +kernel), front5 (by decide +kernel) (error_of (by decide +kernel))⟩

/-- A write translates through the only leaf that a quadrant caches, for a unit that caches none of its own. -/
theorem access_leaf {s : State} {q p va : Nat} {e : TlbEntry} (micro : s.microOf q = []) (tlb : (s.quads.getD (unitQuad q) {}).tlb = [e])
    (part : e.part = p) (page : e.va = va / 2 ^ e.size * 2 ^ e.size) (w : e.perm.getLsbD 1 = true) (en : (s.quads.getD p {}).en = true)
    (low : va < 0xFFFFFFFF00000) : ∃ l, s.access q p va .write = .ok l ∧ l.pa = e.pa + va % 2 ^ e.size := by
  have win : inWindow va = false := by
    simp only [inWindow, Bool.and_eq_false_iff, decide_eq_false_iff_not]
    omega
  have hit : s.cached q p va = some { pa := e.pa + va % 2 ^ e.size, perm := e.perm, page := e.va, size := e.size } := by
    unfold State.cached
    rw [micro, tlb, show leafIn [] p va = none from rfl, leafIn, List.find?_cons_of_pos (by simpa [part] using page)]
  have : s.xlate q p va = .ok { pa := e.pa + va % 2 ^ e.size, perm := e.perm, page := e.va, size := e.size } := by
    simp only [State.xlate, hit, en, win, Bool.not_true, Bool.false_eq_true, if_false]
    exact if_neg (by omega)
  exact ⟨_, by rw [State.access, this]; exact if_pos w, rfl⟩

/-- The gigabyte at 0x40000000, readable and writable, on the memory side. -/
def leafE : TlbEntry := ⟨0, 0x40000000, 30, 0x40000000, 0b01011⟩
/-- A stopped task whose context area lies in a gigabyte that quadrant 0 has cached. -/
def ctxSt : State :=
  let s : State := mapped (onTile { pc := 0x1000, nextIssue := 1, regs := regs0, record := { taskid := 9, ctx := 0x40010000 } } {})
  { s with quads := updAt s.quads 0 fun q => { q with tlb := [leafE] } }
def ctxTask : Task := stopped (taskOf ctxSt 0) why0

theorem padTo_length {n : Nat} {bs : List Byte} (h : bs.length ≤ n) : (padTo n bs).length = n := by
  rw [padTo, List.length_append, List.length_replicate]
  omega
theorem owner_none {s : State} (h : (s.dir.all fun d => d.owner.isNone) = true) (l : Nat) : (s.dirLine l).owner = none := by
  unfold State.dirLine
  cases e : s.dir.find? fun d => d.line == l with
  | none => rfl
  | some d => exact Option.isNone_iff_eq_none.1 (List.all_eq_true.1 h d (List.mem_of_find?_eq_some e))

set_option maxRecDepth 100000 in
theorem witness_ContextBytes : AreaAt ctxSt 0 ctxTask 0x40010000 ∧ ∃ w, ctxSt.saveCtx 0 ctxTask .s true = .ok w := by
  refine ⟨⟨fun n hn => ?_, by decide, ⟨owner_none (by decide +kernel), by decide +kernel⟩, ?_, by decide +kernel, by decide +kernel, fun full mark => ?_⟩, fine_of (by decide +kernel)⟩
  · have c : ctxTask.record.ctx.toNat = 0x40010000 := by decide +kernel
    obtain ⟨l, hl, at_⟩ := access_leaf (s := ctxSt) (q := tileUnit 0) (p := ctxTask.part) (va := ctxTask.record.ctx.toNat + n) (e := leafE)
      (by decide +kernel) (by decide +kernel) (by decide +kernel) (by rw [c]; simp only [leafE]; omega) (by decide) (by decide +kernel) (by omega)
    refine ⟨l, hl, ?_⟩
    rw [at_, c]
    simp only [leafE]
    omega
  · have h : ((List.range 13).all fun n => ((ctxSt.ctxSection 0 ctxTask [] ctxSt.serial n).getD []).all fun x => x.1 + x.2.length ≤ ctxLen n) = true := by
      decide +kernel
    intro n hn x hx
    have := List.all_eq_true.1 (List.all_eq_true.1 h n (List.mem_range.2 hn)) x hx
    exact of_decide_eq_true this
  · unfold Task.headerRest
    rw [List.length_append, padTo_length (by cases full <;> decide +kernel), steppingBytes, List.length_map, List.length_range]
    decide

/-- A partition whose tiles stand still, a halted one, and one that can revive the task of 0x500000. -/
def stillSt (halt : Bool) : State :=
  let s : State := (commonsSt []).modTile 0 fun x => { x with task := none }
  { s with quads := updAt s.quads 0 fun q => { q with halt := halt } }

def fencedSt (halt : Bool) : State :=
  let s : State := stillSt halt
  { s with parts := updAt s.parts 0 fun p => { p with fenced := some .partitionFence } }

theorem witness_PartitionControl : Unlocked (stillSt false) ∧ Unlocked (stillSt true) ∧ Unlocked (fencedSt false)
    ∧ Unlocked (fencedSt true) ∧ (fencedSt false).fenced 0 = true ∧ ((fencedSt false).quads.getD 0 {}).halt = false
    ∧ (fencedSt true).fenced 0 = true ∧ ((fencedSt true).quads.getD 0 {}).halt = true ∧ 0 < (stillSt true).quads.length
    ∧ (stillSt false).fenced 0 = false ∧ ((stillSt false).quads.getD 0 {}).halt = false
    ∧ (((stillSt false).tilesOf 0).all fun t => ((stillSt false).tile t).task.isNone && ((stillSt false).tile t).copyQ.isEmpty) = true
    ∧ (((stillSt false).quadsOf 0).all fun q => ((stillSt false).quads.getD q {}).copyQ.isEmpty) = true
    ∧ (stillSt true).fenced 0 = false ∧ ((stillSt true).quads.getD 0 {}).halt = true
    ∧ ((stillSt true).quads.all fun q => q.queues.all fun x => !x.awake) = true ∧ (part (stillSt true) 0).commons = []
    ∧ 0 < (stillSt false).parts.length ∧ (stillSt false).generalFree 0 = true
    ∧ ∃ r, (stillSt false).revivable 0 (alignDown 0x500000 64) = some r ∧ r.groups = [0, 0, 0, 0] := by
  refine ⟨unlocked_of (by decide +kernel), unlocked_of (by decide +kernel), unlocked_of (by decide +kernel), unlocked_of
    (by decide +kernel), front15 (by decide +kernel) ?_⟩
  exact ⟨back0, by decide +kernel⟩

def runSt : State := evSt task0
theorem witness_PartitionControl_running : Unlocked runSt ∧ (runSt.quads.getD 0 {}).halt = false ∧ runSt.fenced 0 = false ∧ 0 ∈ runSt.tilesOf 0
    ∧ On runSt 0 (taskOf runSt 0)
    ∧ ((runSt.tilesOf 0).all fun u => (u == 0 || (runSt.tile u).task.isNone) && (runSt.tile u).copyQ.isEmpty) = true
    ∧ ((runSt.quadsOf 0).all fun q => (runSt.quads.getD q {}).copyQ.isEmpty) = true
    ∧ (taskOf runSt 0).mills = [] ∧ (taskOf runSt 0).open_ = true ∧ (taskOf runSt 0).forcible = true
    ∧ ((runSt.tile 0).dues.all fun d => decide ((runSt.tile 0).heldBeat (taskOf runSt 0) ≤ d.1)) = true :=
  ⟨unlocked_of (by decide +kernel), by decide +kernel, by decide +kernel, by decide +kernel, on_of (by decide +kernel), by decide +kernel⟩

/-- A copy of tile 0 under a token, a translation that quadrant 0 caches, and an invalidation under way. -/
def copy0 : CopyCmd := { serial := 3, part := 0, dst := t5, src := t6, counter := none, round := 0, wcw := 2048, waits := [], waitBlk := none
                         owner := 9, tids := 0 }
def tokenSt : State :=
  let s : State := (evSt task0).modTile 0 fun x => { x with copyHalted := [copy0] }
  { s with quads := updAt s.quads 0 fun q => { q with halted := [(7, .tileCopy 0 3)], invalidating := [(0x20, 4)]
                                                      tlb := [⟨0, 0x200000, 16, 0x200000, 7⟩, ⟨0, 0x600000, 16, 0x600000, 7⟩] } }

theorem witness_TokensAndTranslations : 0 < tokenSt.quads.length
    ∧ ((tokenSt.quads.getD 0 {}).halted.find? fun h => h.1 == 7) = some (7, .tileCopy 0 3) ∧ 0 < tokenSt.tiles.length
    ∧ ((tokenSt.tile 0).copyHalted.find? fun c => c.serial == 3) = some copy0 ∧ (tokenSt.tile 0).copyQ = []
    ∧ tokenSt.partOf 0 = 0 ∧ (tokenSt.quads.getD 0 {}).invalidating ≠ [] :=
  by decide +kernel

/-! ### Engines and memory errors -/

/-- A copy of eight INT8 elements to INT32 ones on both sides of a 4 KiB boundary, and one whose source is not there. -/
def dstD : Desc := tens 0x0C 4 2 0x40000FF0
def srcD (base : Nat) : Desc := tens 0x08 4 2 base
def copy1 (base chunk : Nat) : CopyCmd := { copy0 with dst := dstD, src := srcD base, chunk := chunk }
def copySt (base chunk : Nat) : State := (evSt task0).modTile 0 fun x => { x with copyQ := [copy1 base chunk] }
def chunkOf (c : CopyCmd) : Nat := (c.chunks[c.chunk]?).getD 0
def hasTile0 (w : State) : Bool := decide (0 < w.tiles.length)

theorem witness_CopyMoves : Unlocked (copySt 0x40000600 0) ∧ 0 < (copySt 0x40000600 0).tiles.length
    ∧ ((copySt 0x40000600 0).tile 0).copyQ = [copy1 0x40000600 0] ∧ (copySt 0x40000600 0).copyReady (.tile 0) (copy1 0x40000600 0) = true
    ∧ (copySt 0x40000600 1).copyReady (.tile 0) (copy1 0x40000600 1) = true
    ∧ (copySt 0x90000000 0).copyReady (.tile 0) (copy1 0x90000000 0) = true
    ∧ (copy1 0x40000600 0).chunks.length = 2 ∧ (copy1 0x40000600 1).chunks[(copy1 0x40000600 1).chunk]? = some (chunkOf (copy1 0x40000600 1))
    ∧ (copy1 0x40000600 0).chunks[(copy1 0x40000600 0).chunk]? = some (chunkOf (copy1 0x40000600 0))
    ∧ (∃ w, ((copySt 0x40000600 0).others 0).copyBlock 0 (copy1 0x40000600 0) (chunkOf (copy1 0x40000600 0)) = .ok w ∧ hasTile0 w = true)
    ∧ (∃ w, ((copySt 0x40000600 1).others 0).copyBlock 0 (copy1 0x40000600 1) (chunkOf (copy1 0x40000600 1)) = .ok w ∧ hasTile0 w = true)
    ∧ (∃ e, ((copySt 0x90000000 0).others 0).copyBlock 0 (copy1 0x90000000 0) (chunkOf (copy1 0x90000000 0)) = .error e)
    ∧ ((copySt 0x90000000 0).quads.getD 0 {}).llen = 0 :=
  ⟨unlocked_of (by decide +kernel), front8 (by decide +kernel) ⟨ok_of (by decide +kernel), ok_of (by decide +kernel), error_of
    (by decide +kernel), by decide +kernel⟩⟩

/-- Mills at ring 1, with slots of 128 bytes, over 16 × 16 INT32 elements. -/
def mill0 (push : Bool) : Mill :=
  { serial := 3, part := 0, g := 1, push := push, desc := tens 0x0C 16 16 0x40001000, die := 0, next := 0, left := 4, wcw := 2048, tid := 5
    waits := [], waitBlk := none }
def millTask (push : Bool) : Task :=
  { task0 with mills := [mill0 push]
               regs := { regs0 with rings := regs0.rings.set 1 { lslot := 7, lcount := 1, en := true, base := 0x80, free := 1, filled := 1
                                                                 millP := push, millC := !push, freeTags := [3], fillTags := [4] } } }
def millSt (push : Bool) : State := evSt (millTask push)

/-- What a mill is ready with: its task, and itself. -/
def readyWith (x : Option (Task × Mill)) (k : Task) (m : Mill) : Bool :=
  match x with
  | some y => decide (y.1 = k) && decide (y.2 = m)
  | none => false
theorem ready_with {x : Option (Task × Mill)} {k : Task} {m : Mill} (h : readyWith x k m = true) : x = some (k, m) := by
  cases x with
  | none => exact absurd h Bool.false_ne_true
  | some y =>
    simp only [readyWith, Bool.and_eq_true, decide_eq_true_eq] at h
    rw [← h.1, ← h.2]

/-- A pulling mill whose tensor is not mapped, and what a pulling mill of tile 0 leaves. -/
def millLost : Mill := { mill0 false with desc := tens 0x0C 16 16 0x90000000 }
def unmapped : State := evSt { millTask false with mills := [millLost] }
def chunksOf (s : State) (m : Mill) : State × Option (Nat × Cause × Nat) :=
  (s.others (s.dieQuad 0 0)).writeChunks (s.dieQuad 0 0) 0 m.desc (millWrites s 0 (taskOf s 0) m 1) 0 m.wcw m.chunk

set_option maxRecDepth 100000 in
theorem witness_MillsMove : (taskOf (millSt true) 0).regs.rings.length = 8 ∧ (taskOf (millSt false) 0).regs.rings.length = 8
    ∧ 1 < (mill0 true).left ∧ Unlocked (millSt true) ∧ (millSt true).millReady 0 1 true = some (taskOf (millSt true) 0, mill0 true)
    ∧ (∃ cs, millReads ((millSt true).others ((millSt true).dieQuad 0 0)) (taskOf (millSt true) 0) (mill0 true) 128 = .ok cs
        ∧ (cs.length == 32) = true)
    ∧ (millSt false).millReady 0 1 false = some (taskOf (millSt false) 0, mill0 false) ∧ Unlocked (millSt false)
    ∧ ((millSt false).tile 0).ringPoison = [] ∧ (chunksOf (millSt false) (mill0 false)).2 = none
    ∧ ((chunksOf (millSt false) (mill0 false)).1.tile 0).task = some (taskOf (millSt false) 0)
    ∧ (millSt false).millReady 0 1 false = some (taskOf (millSt false) 0, mill0 false)
    ∧ unmapped.millReady 0 1 false = some (taskOf unmapped 0, millLost) ∧ Unlocked unmapped ∧ (unmapped.tile 0).ringPoison = []
    ∧ (chunksOf unmapped millLost).2.isSome = true ∧ ((chunksOf unmapped millLost).1.quads.getD 0 {}).llen = 0 :=
  ⟨by decide +kernel, by decide +kernel, by decide +kernel, unlocked_of (by decide +kernel), ready_with (by decide +kernel),
    ok_of (by decide +kernel), ready_with (by decide +kernel), unlocked_of (by decide +kernel), by decide +kernel,
    by decide +kernel, by decide +kernel, ready_with (by decide +kernel), ready_with (by decide +kernel), unlocked_of
    (by decide +kernel), by decide +kernel⟩

/-- A reduction of eight elements across a 4 KiB boundary, a compressed tensor, and a frame that closes at tick 100. -/
def red0 (chunk : Nat) : ReduceCmd :=
  { serial := 3, part := 0, tile := 0, owner := 9, dst := 0x40001FF0, count := 8, srcs := [0x40003000, 0x40004000], addVal := 0
    counter := none, chunk := chunk, waits := [], waitBlk := none }
def comp0 : Desc := { tens 0x08 64 16 0x40006000 with compressed := true, wait := 50, metaVa := 0x40008000 }
def frame0 : WcFrame := { part := 0, desc := comp0, frame := 1, bytes := [(0, 5)], off := 0, deadline := 100 }
def dieSt (chunk tick : Nat) : State :=
  let s : State := evSt task0
  { s with refTick := tick, dies := updAt s.dies 0 fun x => { x with reduceQ := [red0 chunk], wc := [frame0] }
           parts := updAt s.parts 0 fun p => { p with tensors := [(7, comp0)] } }
def compDie : Nat := ((dieSt 0 100).others 0).frameDie 0 0 comp0 0
def hasDie0 (w : State) : Bool := decide (0 < w.dies.length)

theorem witness_BaseDieEngines : 0 < (dieSt 0 100).dies.length ∧ Unlocked (dieSt 0 100) ∧ Unlocked (dieSt 1 100) ∧ Unlocked (dieSt 0 99)
    ∧ (dieSt 0 100).asks = [] ∧ (die (dieSt 0 100) 0).reduceQ = [red0 0]
    ∧ (dieSt 0 100).engineStill 0 = false ∧ (dieSt 0 100).clearedOf 0 9 [] none = true ∧ (red0 0).addOnly = false ∧ (red0 0).chunks = 2
    ∧ (∃ w, ((dieSt 0 100).others ((dieSt 0 100).dieQuad 0 0)).reduceBlock ((dieSt 0 100).dieQuad 0 0) (red0 0) = .ok w ∧ hasDie0 w = true)
    ∧ (∃ w, ((dieSt 1 100).others ((dieSt 1 100).dieQuad 0 0)).reduceBlock ((dieSt 1 100).dieQuad 0 0) (red0 1) = .ok w ∧ hasDie0 w = true)
    ∧ (dieSt 0 100).tensor 0 7 = some comp0 ∧ comp0.compressed = true ∧ comp0.writable = true ∧ 0 < comp0.frames
    ∧ compDie < (dieSt 0 100).dies.length ∧ (die (dieSt 0 100) compDie).wc = []
    ∧ (die (dieSt 0 100) 0).wc = [frame0] ∧ (dieSt 0 100).wcWait 0 comp0 ≠ 0
    ∧ frame0.deadline ≤ (dieSt 0 100).refTick ∧ (dieSt 0 99).refTick < frame0.deadline :=
  ⟨by decide +kernel, unlocked_of (by decide +kernel), unlocked_of (by decide +kernel), unlocked_of (by decide +kernel), front6
    (by decide +kernel) ⟨ok_of (by decide +kernel), ok_of (by decide +kernel), by decide +kernel⟩⟩

theorem countable_of {s : State} {p pa : Nat} (h : (Memory.wf s.mem && decide (pa % 8 = 0 ∧ pa + 8 ≤ ctrlBase)
    && (s.parts.getD p {}).round.isNone && !s.lineHeld none (lineOf pa) && (s.dirLine (lineOf pa)).owner.isNone) = true) :
    Countable s p pa := by
  simp only [Bool.and_eq_true, Bool.not_eq_true', decide_eq_true_eq, Option.isNone_iff_eq_none] at h
  exact ⟨h.1.1.1.1, h.1.1.1.2, h.1.1.2, h.1.2, h.2⟩

/-- The last chunk of a copy that names a counter. -/
def lastCopy : CopyCmd := { copy1 0x40000600 1 with counter := some 0x40000200 }
def lastSt : State := (evSt task0).modTile 0 fun x => { x with copyQ := [lastCopy] }
def counted (s : State) (q va : Nat) : Bool := okAnd (s.counterPa q 0 va .write) fun pa =>
  Memory.wf s.mem && decide (pa % 8 = 0 ∧ pa + 8 ≤ ctrlBase) && (s.parts.getD 0 {}).round.isNone && !s.lineHeld none (lineOf pa)
    && (s.dirLine (lineOf pa)).owner.isNone
theorem counted_of {s : State} {q va : Nat} (h : counted s q va = true) : ∃ pa, s.counterPa q 0 va .write = .ok pa ∧ Countable s 0 pa := by
  obtain ⟨pa, hp, c⟩ := ok_of h
  exact ⟨pa, hp, countable_of c⟩

theorem witness_CopyMoves_counter : Unlocked lastSt ∧ (lastSt.tile 0).copyQ = [lastCopy] ∧ lastSt.copyReady (.tile 0) lastCopy = true
    ∧ lastCopy.addOnly = false ∧ lastCopy.chunks[lastCopy.chunk]? = some (chunkOf lastCopy) ∧ lastCopy.chunks.length ≤ lastCopy.chunk + 1
    ∧ lastCopy.counter = some 0x40000200
    ∧ ∃ w, (lastSt.others (quadOf 0)).copyBlock (quadOf 0) lastCopy (chunkOf lastCopy) = .ok w
      ∧ (decide (0 < w.tiles.length) && counted w 0 0x40000200) = true :=
  ⟨unlocked_of (by decide +kernel), front6 (by decide +kernel) (ok_of (by decide +kernel))⟩

/-- The last chunk of a reduction that names a counter. -/
def lastRed : ReduceCmd := { red0 1 with counter := some 0x40000200, addVal := 5 }
def lastRedSt : State :=
  let s : State := evSt task0
  { s with dies := updAt s.dies 0 fun x => { x with reduceQ := [lastRed] } }
theorem witness_BaseDieEngines_counter : Unlocked lastRedSt ∧ lastRedSt.asks = [] ∧ (die lastRedSt 0).reduceQ = [lastRed]
    ∧ lastRedSt.engineStill lastRed.part = false ∧ lastRedSt.clearedOf lastRed.part lastRed.owner lastRed.waits lastRed.waitBlk = true
    ∧ lastRed.addOnly = false ∧ lastRed.chunk < lastRed.chunks ∧ lastRed.chunks ≤ lastRed.chunk + 1 ∧ lastRed.counter = some 0x40000200
    ∧ ∃ w, (lastRedSt.others (lastRedSt.dieQuad 0 0)).reduceBlock (lastRedSt.dieQuad 0 0) lastRed = .ok w
      ∧ (decide (0 < w.dies.length) && counted w (lastRedSt.dieQuad 0 0) 0x40000200) = true :=
  ⟨unlocked_of (by decide +kernel), front8 (by decide +kernel) (ok_of (by decide +kernel))⟩

/-- A mill's last block. -/
def lastMill (push : Bool) : Mill := { mill0 push with left := 1 }
def lastMillSt (push : Bool) : State := evSt { millTask push with mills := [lastMill push] }
set_option maxRecDepth 100000 in
theorem witness_MillsMove_last : Unlocked (lastMillSt true) ∧ Unlocked (lastMillSt false)
    ∧ (∀ b ∈ [true, false], (lastMillSt b).millReady 0 1 b = some (taskOf (lastMillSt b) 0, lastMill b) ∧ (lastMill b).left ≤ 1)
    ∧ (∃ cs, millReads ((lastMillSt true).others ((lastMillSt true).dieQuad 0 0)) (taskOf (lastMillSt true) 0) (lastMill true) 128 = .ok cs
        ∧ (cs.length == 32) = true)
    ∧ (chunksOf (lastMillSt false) (lastMill false)).2.isNone = true
    ∧ ((chunksOf (lastMillSt false) (lastMill false)).1.tile 0).task = some (taskOf (lastMillSt false) 0) :=
  ⟨unlocked_of (by decide +kernel), unlocked_of (by decide +kernel), List.forall_mem_cons.2 ⟨⟨ready_with (by decide +kernel), by decide⟩,
    List.forall_mem_singleton.2 ⟨ready_with (by decide +kernel), by decide⟩⟩, ok_of (by decide +kernel), by decide +kernel⟩

/-- A tile with a ring area at stash offset 0x40000. -/
def ringSt : State := ringAt true 1 1 0 0

theorem witness_MemoryErrors : Unlocked dirty0 ∧ 0 < ringSt.tiles.length ∧ (ringSt.tile 0).inRing (128 * 0x800) = true
    ∧ 0x5000 < 2 ^ 45 ∧ homeDie (0x5000 * 128) < 4 ∧ dirty0.populated (0x5000 * 128) 128 = true ∧ isCtrl (0x5000 * 128) = false
    ∧ (dirty0.sliceFor (homeDie (0x5000 * 128)) 0x5000).1 < dirty0.quads.length
    ∧ (dirty0.sliceFor (homeDie (0x5000 * 128)) 0x5000).2
      < (dirty0.quads.getD (dirty0.sliceFor (homeDie (0x5000 * 128)) 0x5000).1 {}).perf.length
    ∧ (dirty0.dirLine 0x5000).owner = none ∧ dirty0.populated (0x4000 * 128) 128 = true ∧ isCtrl (0x4000 * 128) = false
    ∧ (dirty0.dirLine 0x4000).owner = some 0 ∧ (dirty0.tile 0).lineAt 0x4000 = some { line0 with st := .dirty } ∧ 0 < dirty0.dies.length :=
  ⟨unlocked_of (by decide +kernel), by decide +kernel, by decide +kernel, by decide, by decide +kernel⟩

/-! ### Command processors and timetables -/

def someAnd {α : Type} (x : Option α) (P : α → Bool) : Bool :=
  match x with
  | some a => P a
  | none => false
theorem some_of {α : Type} {x : Option α} {P : α → Bool} (h : someAnd x P = true) : ∃ a, x = some a ∧ P a = true := by
  cases x with
  | none => exact absurd h Bool.false_ne_true
  | some a => exact ⟨a, rfl, h⟩

/-- Queue 2 of quadrant 0, awake, with a packet at the head of its ring; a descriptor of a graph of one node, and a table. -/
def packetOf (type fmt : Nat) (body : List Byte) : List Byte :=
  let n := if fmt == 3 then 120 else 56
  leBytes 8 (1 + 2 * fmt + 16 * type) ++ body ++ leBytes (n - body.length) 0
def ringOf (fmt : Nat) : List Byte := leBytes 8 0x40002000 ++ leBytes 1 (128 + fmt * 16 + 4) ++ leBytes 23 0
def node7 : List Byte := leBytes 1 7 ++ leBytes 3 0 ++ leBytes 8 0xFFFFFFFFFFFFFFFF ++ leBytes 52 0
def graphBytes (count : Nat) : List Byte := leBytes 8 count ++ leBytes 8 0x40004100 ++ leBytes 8 0x40004200 ++ leBytes 40 1
def tableBytes : List Byte := leBytes 8 0x1000 ++ leBytes 8 6 ++ leBytes 8 0x500000 ++ leBytes 2 0 ++ [1, 1] ++ leBytes 4 0
def queueSt (q : Queue) (type fmt : Nat) (body : List Byte) : State :=
  let s : State := mapped (onTile task0 {})
  { s with mem := Memory.writes s.mem (cellsAt 0x40000840 (ringOf fmt) ++ cellsAt 0x40002000 (packetOf type fmt body)
             ++ cellsAt 0x40000200 (leBytes 8 41) ++ cellsAt 0x40004000 (graphBytes 1) ++ cellsAt 0x40004100 node7
             ++ cellsAt 0x40005000 tableBytes)
           quads := updAt s.quads 0 fun x => { x with qbase := 0x80001, tt := true, queues := x.queues.set 2 q }
           parts := updAt s.parts 0 fun p => { p with tensors := [(5, t5), (6, t6)], kernels := [kernel0] } }
def packetSt (type fmt : Nat) (body : List Byte) : State := queueSt { awake := true } type fmt body
def addSt : State := packetSt 3 2 (leBytes 8 0x40000200 ++ leBytes 8 3)
def waitSt (target : Nat) : State := packetSt 4 2 (leBytes 8 0x40000200 ++ leBytes 8 target)
def waitPacket (target : Nat) : Packet := { slot := 0x40002000, bytes := packetOf 4 2 (leBytes 8 0x40000200 ++ leBytes 8 target) }
def stallSt (target : Nat) : State := queueSt { awake := true, stall := some (.wait (waitPacket target)) } 4 2 []
def cpySt : State := packetSt 5 2 (leBytes 2 5 ++ leBytes 2 6)
def fenceSt : State := packetSt 6 2 [0x20, 0]
def haltedSt : State := queueSt { halted := true, rewritten := true } 6 2 [0x20, 0]

def ordersO (k : Packet) : Bool := (byteField k.bytes 8 1).testBit 5

/-- The states above hold no locked run: their only task is that of tile 0, which has just started. -/
def freeOf (s : State) : Bool := s.tiles.all fun x => x.task.all fun k => decide (k.blk.run < 3)

theorem witness_QueuesRun_unlocked : ∀ s ∈ [addSt, haltedSt, waitSt 41, waitSt 42, stallSt 41, stallSt 42, cpySt, fenceSt],
    Unlocked s := by
  have h : ([addSt, haltedSt, waitSt 41, waitSt 42, stallSt 41, stallSt 42, cpySt, fenceSt].all freeOf) = true := by decide +kernel
  exact fun s hs => unlocked_of (List.all_eq_true.1 h s hs)

theorem witness_QueuesRun : addSt.fenced (addSt.partOf 0) = false
    ∧ (haltedSt.fenced (haltedSt.partOf 0) = false ∧ (haltedSt.queue 0 2).halted = true ∧ (haltedSt.queue 0 2).rewritten = true
      ∧ haltedSt.queueEnabled 0 2 = true)
    ∧ (∃ k, addSt.takePacket 0 2 3 = some k ∧ fine (addSt.hAdd 0 (byteField k.bytes 8 8) (byteField k.bytes 16 8)) = true)
    ∧ (∀ n ∈ [41, 42], (∃ k, (waitSt n).takePacket 0 2 4 = some k
        ∧ okAnd ((waitSt n).hReached 0 (byteField k.bytes 8 8) (byteField k.bytes 16 8)) (fun b => b == (n == 41)) = true)
      ∧ ((stallSt n).queue 0 2).stall = some (.wait (waitPacket n)) ∧ (stallSt n).engineStill ((stallSt n).partOf 0) = false
        ∧ okAnd ((stallSt n).hReached 0 (byteField (waitPacket n).bytes 8 8) (byteField (waitPacket n).bytes 16 8))
          (fun b => b == (n == 41)) = true)
    ∧ (∃ k, cpySt.takePacket 0 2 5 = some k ∧ fine (cpySt.startCopy 0 (k.bytes.drop 8)) = true)
    ∧ ∃ k, fenceSt.takePacket 0 2 6 = some k ∧ ordersO k = true :=
  ⟨by decide +kernel, (by decide +kernel), some_of (by decide +kernel), List.forall_mem_cons.2 ⟨⟨some_of (by decide +kernel),
    by decide +kernel⟩, List.forall_mem_singleton.2 ⟨some_of (by decide +kernel), by decide +kernel⟩⟩, some_of
    (by decide +kernel), some_of (by decide +kernel)⟩

def plainFence : State := packetSt 6 2 [0, 3]
theorem witness_QueuesRun_fence : Unlocked plainFence ∧ (∃ k, plainFence.takePacket 0 2 6 = some k ∧ (byteField k.bytes 8 1 % 64 == 0) = true)
    ∧ ∃ k, fenceSt.takePacket 0 2 6 = some k ∧ (byteField k.bytes 8 1 % 64 != 0) = true :=
  ⟨unlocked_of (by decide +kernel), some_of (by decide +kernel), some_of (by decide +kernel)⟩

/-- A LAUNCH of one task, one that waits for its start counter, and launches whose tasks have ended. -/
def launchBody (start target : Nat) : List Byte :=
  leBytes 8 0x1000 ++ leBytes 8 6 ++ leBytes 8 7 ++ leBytes 4 1 ++ leBytes 4 0 ++ leBytes 8 0x500000 ++ leBytes 32 0
  ++ leBytes 8 start ++ leBytes 8 target ++ leBytes 24 0
def launchSt : State := packetSt 1 3 (launchBody 0 0)
def startPacket (target : Nat) : Packet := { slot := 0x40002000, bytes := packetOf 1 3 (launchBody 0x40000200 target) }
def startingSt (target : Nat) : State := queueSt { awake := true, stall := some (.start (startPacket target)) } 1 3 (launchBody 0x40000200 target)
def spec0 (counter : Nat) : LaunchSpec :=
  { entry := 0x1000, argA := 0, argAStep := 0, argB := 0, count := 1, kernel := 0, ctx := 0x500000, ctxStep := 0, counter := counter
    value := 3, groups := [0, 0, 0, 0], start := 0, target := 0, prio := 0, rel := true }
def ended0 (counter : Nat) : Launch :=
  { n := 4, spec := spec0 counter, first := 0, quad := 0, queue := 2, packet := startPacket 0, node := false, made := 1, ended := [0] }
def endedSt (counter : Nat) : State :=
  let s : State := launchSt
  { s with parts := updAt s.parts 0 fun p => { p with launches := [ended0 counter] } }
/-- The state of a launch that has been taken off its list. -/
def overSt (counter : Nat) : State :=
  let s := (endedSt counter).writeBackAll 0
  { s with parts := updAt s.parts 0 fun x => { x with launches := x.launches.filter fun y => y.n != 4 } }
def plainLaunch (s : State) (k : Packet) : Bool :=
  s.launchOk 0 k.launch && k.launch.counter == 0 && k.launch.start == 0 && k.launch.count == 1
    && k.launch.groups == [0, 0, 0, 0]

/-- A LAUNCH of two tasks that has created one, and a node of a graph that has. -/
def half (node : Bool) : Launch := { ended0 0 with spec := { spec0 0 with count := 2 }, node := node, ended := [] }
def creatingSt (node : Bool) : State :=
  let s : State := queueSt { awake := true, stall := if node then none else some (.create (startPacket 0) 4) } 1 3 (launchBody 0 0)
  { s with parts := updAt s.parts 0 fun p => { p with launches := [half node] } }

theorem witness_LaunchesRun_unlocked : ∀ s ∈ [launchSt, startingSt 41, startingSt 42, endedSt 0, endedSt 0x40000200, creatingSt true,
    creatingSt false], Unlocked s := by
  have h : ([launchSt, startingSt 41, startingSt 42, endedSt 0, endedSt 0x40000200, creatingSt true,
    creatingSt false].all freeOf) = true := by decide +kernel
  exact fun s hs => unlocked_of (List.all_eq_true.1 h s hs)

theorem witness_LaunchesRun_stalled : (creatingSt false).engineStill ((creatingSt false).partOf 0) = false
    ∧ ((creatingSt false).queue 0 2).stall = some (.create (startPacket 0) 4)
    ∧ (creatingSt true).engineStill ((creatingSt true).partOf 0) = false ∧ ((creatingSt true).queue 0 2).stall = none
    ∧ (creatingSt true).stalledNode 0 2 = some (half true) := by decide +kernel

theorem witness_LaunchesRun : launchSt.engineStill (launchSt.partOf 0) = false
    ∧ (∃ k, launchSt.takePacket 0 2 1 = some k ∧ plainLaunch launchSt k = true) ∧ launchSt.partOf 0 = 0
    ∧ 0 < launchSt.parts.length ∧ launchSt.generalFree 0 = true ∧ (part launchSt 0).launches = []
    ∧ (∀ n ∈ [41, 42], (startingSt n).engineStill ((startingSt n).partOf 0) = false
      ∧ ((startingSt n).queue 0 2).stall = some (.start (startPacket n))
      ∧ okAnd ((startingSt n).hReached 0 (startPacket n).launch.start (startPacket n).launch.target) (fun b => b == (n == 41)) = true)
    ∧ (∀ c ∈ [0, 0x40000200], (endedSt c).engineStill ((endedSt c).partOf 0) = false ∧ (endedSt c).launchOf 0 4 = some (ended0 c))
    ∧ (spec0 0).rel = true ∧ fine ((overSt 0x40000200).hAdd 0 0x40000200 3) = true :=
  ⟨by decide +kernel, some_of (by decide +kernel), front4 (by decide +kernel) ⟨List.forall_mem_cons.2 ⟨(by decide +kernel),
    List.forall_mem_singleton.2 (by decide +kernel)⟩, List.forall_mem_cons.2 ⟨⟨by decide +kernel, by decide +kernel⟩,
    List.forall_mem_singleton.2 ⟨by decide +kernel, by decide +kernel⟩⟩, rfl, by decide +kernel⟩⟩

/-- A GRAPH with its descriptor at an address; graphs whose only node runs, without work or with a wait for a counter. -/
def graphSt (at_ : Nat) : State := packetSt 2 2 (leBytes 8 at_)
def running0 (kind : Nat) : GNode := { preds := 0, left := 0, running := true, kind := kind, counter := 0x40000200, target := 100 }
def graph0 (kind : Nat) : Graph :=
  { n := 6, queue := 2, packet := { slot := 0x40002000, bytes := packetOf 2 2 (leBytes 8 0x40004000) }, nodesVa := 0x40004100
    traceVa := 0x40004200, traceLen := 1, nodes := [running0 kind] }
def walkSt (kind : Nat) : State :=
  let s : State := launchSt
  { s with quads := updAt s.quads 0 fun q => { q with graphs := [graph0 kind] } }

def badGraph (k : Packet) : Bool := !fine ((graphSt 0x40006000).startGraph 0 2 k)

theorem witness_GraphsRun_unlocked : ∀ s ∈ [graphSt 0x40004000, graphSt 0x40006000, walkSt 7, walkSt 4], Unlocked s := by
  have h : ([graphSt 0x40004000, graphSt 0x40006000, walkSt 7, walkSt 4].all freeOf) = true := by decide +kernel
  exact fun s hs => unlocked_of (List.all_eq_true.1 h s hs)

theorem witness_GraphsRun : (∃ k, (graphSt 0x40004000).takePacket 0 2 2 = some k ∧ fine ((graphSt 0x40004000).startGraph 0 2 k) = true)
    ∧ (∃ k, (graphSt 0x40006000).takePacket 0 2 2 = some k ∧ badGraph k = true)
    ∧ (∀ kind ∈ [7, 4], (walkSt kind).graphOf 0 6 = some (graph0 kind) ∧ (graph0 kind).nodes[0]? = some (running0 kind)
      ∧ (running0 kind).running = true ∧ (walkSt kind).engineStill ((walkSt kind).partOf 0) = false
      ∧ okAnd ((walkSt kind).nodeDone 0 (running0 kind)) (fun b => b == (kind == 7)) = true)
    ∧ fine (((walkSt 7).others 0).completeNode 0 6 0 (running0 7)) = true :=
  ⟨some_of (by decide +kernel), some_of (by decide +kernel), List.forall_mem_cons.2 ⟨(by decide +kernel),
    List.forall_mem_singleton.2 (by decide +kernel)⟩, by decide +kernel⟩

/-- Graphs whose node 0 is done: it names a node that waits for another as well, or none, or one that it leaves with none to wait for: a
conditional or a while node, that looks at the word at 0x40000200. -/
def node0 (names : List Nat) : GNode := { preds := 0, left := 0, running := true, kind := 7, names := names }
def waiting1 (left : Nat) : GNode := { preds := 2, left := left }
def nodesAt (ns : List GNode) (counter : Nat) : Graph :=
  { graph0 7 with packet := { slot := 0x40002000, bytes := packetOf 2 2 (leBytes 8 0x40004000 ++ leBytes 8 counter ++ leBytes 8 3) }, nodes := ns }
def judging (ty : Nat) : List Byte :=
  [BitVec.ofNat 8 ty, 1, 0, 0] ++ leBytes 2 0 ++ leBytes 6 0xFFFFFFFFFFFF ++ leBytes 4 0 ++ leBytes 8 0x40000200 ++ leBytes 40 0
def doneSt1 (ns : List GNode) (counter ty : Nat) : State :=
  let s : State := launchSt
  let s : State := { s with mem := Memory.writes s.mem (cellsAt 0x40004140 (judging ty)) }
  { s with quads := updAt s.quads 0 fun q => { q with graphs := [nodesAt ns counter] } }
def decSt : State := doneSt1 [node0 [1], waiting1 2, running0 4] 0 0
def endSt (counter : Nat) : State := doneSt1 [node0 []] counter 0
def judgeSt (ty : Nat) : State := doneSt1 [node0 [1], waiting1 1] 0 ty
def isDone (s : State) : Bool :=
  decide (((s.graphOf 0 6).bind fun g => g.nodes[0]?).map (fun x => (x.running, x.again)) = some (true, 0)) && !s.engineStill (s.partOf 0)
    && (s.graphOf 0 6).any fun g => g.nodes[0]?.any fun x => okAnd (s.nodeDone 0 x) id

def opened (ty : Nat) : State :=
  (((judgeSt ty).others 0).modNode 0 6 0 fun y => { y with running := false }).modNode 0 6 1 fun y => { y with left := y.left - 1 }

theorem witness_GraphsRun_steps : (∀ s ∈ [decSt, endSt 0, endSt 0x40000200, judgeSt 5, judgeSt 6], Unlocked s ∧ isDone s = true)
    ∧ decSt.graphOf 0 6 = some (nodesAt [node0 [1], waiting1 2, running0 4] 0)
    ∧ (running0 4).running = true ∧ 1 < (waiting1 2).left
    ∧ (∀ c ∈ [0, 0x40000200], (endSt c).graphOf 0 6 = some (nodesAt [node0 []] c) ∧ byteField (nodesAt [node0 []] c).packet.bytes 16 8 = c)
    ∧ ∃ pa, ((endSt 0x40000200).others 0).hCounter 0 0x40000200 = .ok pa ∧ Countable (endSt 0x40000200) ((endSt 0x40000200).partOf 0) pa := by
  have h : ([decSt, endSt 0, endSt 0x40000200, judgeSt 5, judgeSt 6].all fun s => freeOf s && isDone s) = true := by decide +kernel
  have c : okAnd (((endSt 0x40000200).others 0).hCounter 0 0x40000200) (fun pa => Memory.wf (endSt 0x40000200).mem && decide (pa % 8 = 0 ∧ pa + 8 ≤ ctrlBase)
    && ((endSt 0x40000200).parts.getD ((endSt 0x40000200).partOf 0) {}).round.isNone && !(endSt 0x40000200).lineHeld none (lineOf pa)
    && ((endSt 0x40000200).dirLine (lineOf pa)).owner.isNone) = true := by decide +kernel
  obtain ⟨pa, hp, c⟩ := ok_of c
  refine ⟨fun s hs => ?_, by decide +kernel, by decide, by decide, List.forall_mem_cons.2 ⟨by decide +kernel, List.forall_mem_singleton.2
    (by decide +kernel)⟩, pa, hp, countable_of c⟩
  have x := List.all_eq_true.1 h s hs
  rw [Bool.and_eq_true] at x
  exact ⟨unlocked_of x.1, x.2⟩

/-- An engine's write of bytes outside the control pages leaves the quadrants. -/
theorem engWrite_quads {s z : State} {q p : Nat} {cs : List (Nat × Byte)} (h : s.engWrite q p cs = .ok z)
    (plain : (cs.all fun c => okAnd (s.access q p c.1 .write) fun l => !isCtrl l.pa) = true) : z.quads = s.quads := by
  unfold State.engWrite at h
  dsimp only at h
  split at h
  · cases h
  · split at h
    · cases h
    · cases h
      refine Laws.lowWrite_quads s fun c hc => ?_
      obtain ⟨x, hx, rfl⟩ := List.mem_map.1 hc
      obtain ⟨d, hd, rfl⟩ := List.mem_map.1 hx
      obtain ⟨l, hl, no⟩ := ok_of (List.all_eq_true.1 plain d hd)
      rw [hl]
      simpa using no

/-- The trace entry of the node that judges. -/
def traced (ty : Nat) (w : List Byte) : List (Nat × Byte) :=
  cellsAt (0x40004200 + 16 * (0 % 1)) (leBytes 2 1 ++ leBytes 1 ty ++ leBytes 1 0
    ++ leBytes 4 (framePosition (judgeSt ty) ((judgeSt ty).partOf 0)) ++ leBytes 8 (leNat w))

theorem witness_GraphsRun_judges : ∀ ty ∈ [5, 6], (judgeSt ty).graphOf 0 6 = some (nodesAt [node0 [1], waiting1 1] 0)
    ∧ (opened ty).hRead 0 (0x40004100 + 64) 64 = .ok (judging ty)
    ∧ (∀ l < 4, byteField (judging ty) (4 + 2 * l) 2 = 0xFFFF ∨ byteField (judging ty) (4 + 2 * l) 2 < 2)
    ∧ onlyNamed (judging ty) 2 [(4, 12), (16, 24)] = true ∧ byteField (judging ty) 0 1 = ty
    ∧ ∃ w, (opened ty).hRead 0 (byteField (judging ty) 16 8) 8 = .ok w
      ∧ ∃ z, (opened ty).engWrite 0 ((judgeSt ty).partOf 0) (traced ty w) = .ok z ∧ z.quads = (opened ty).quads := by
  have all : ∀ ty ∈ [5, 6], (judgeSt ty).graphOf 0 6 = some (nodesAt [node0 [1], waiting1 1] 0)
    ∧ okAnd ((opened ty).hRead 0 (0x40004100 + 64) 64) (fun y => decide (y = judging ty)) = true
    ∧ (∀ l < 4, byteField (judging ty) (4 + 2 * l) 2 = 0xFFFF ∨ byteField (judging ty) (4 + 2 * l) 2 < 2)
    ∧ onlyNamed (judging ty) 2 [(4, 12), (16, 24)] = true ∧ byteField (judging ty) 0 1 = ty
    ∧ okAnd ((opened ty).hRead 0 (byteField (judging ty) 16 8) 8) (fun w => fine ((opened ty).engWrite 0 ((judgeSt ty).partOf 0) (traced ty w))
      && (traced ty w).all fun c => okAnd ((opened ty).access 0 ((judgeSt ty).partOf 0) c.1 .write) fun l => !isCtrl l.pa) = true := by
    decide +kernel
  intro ty h
  obtain ⟨g, r, sc, named, t, w⟩ := all ty h
  obtain ⟨w, hw, both⟩ := ok_of w
  rw [Bool.and_eq_true] at both
  obtain ⟨z, hz⟩ := fine_of both.1
  exact ⟨g, is_of r, sc, named, t, w, hw, z, hz, engWrite_quads hz both.2⟩

/-- The packets of timetable mode, and a partition whose table waits for its first frame. -/
def tableBody : List Byte := leBytes 8 0x40005000 ++ leBytes 4 1 ++ leBytes 4 4096 ++ leBytes 8 0
def entry0 : TtEntry := { entry := 0x1000, argA := 6, ctx := 0x500000, kernel := 0, lead := 1, size := 1, stride := 0 }
def table0 : Timetable := { entries := [entry0], len := 4096, limit := 0, ctxSize := 0 }
def timeSt (type : Nat) (body : List Byte) (start : Option Nat) : State :=
  let s : State := packetSt type 2 body
  { s with parts := updAt s.parts 0 fun p => { p with table := some table0, pendingStart := start } }

/-- Bytes are written where each of them may be and no line is poisoned. -/
theorem engWrite_fine {s : State} {q p : Nat} {cs : List (Nat × Byte)} (h : ∀ c ∈ cs, ∃ l, s.access q p c.1 .write = .ok l)
    (hp : ∀ l, s.cohPoisoned l = false) : ∃ w, s.engWrite q p cs = .ok w := by
  unfold State.engWrite
  dsimp only
  rw [List.findSome?_eq_none_iff.2 ?_]
  · simp only [hp, Bool.false_and]
    rw [List.find?_eq_none.2 (by simp)]
    exact ⟨_, rfl⟩
  · intro x hx
    obtain ⟨c, hc, rfl⟩ := List.mem_map.1 hx
    obtain ⟨l, hl⟩ := h c hc
    simp [hl]

theorem mem_cellsAt {a : Nat} {bs : List Byte} {c : Nat × Byte} (h : c ∈ cellsAt a bs) : a ≤ c.1 ∧ c.1 < a + bs.length := by
  have : c.1 ∈ (cellsAt a bs).map (·.1) := List.mem_map_of_mem h
  rw [Laws.cellsAt_addresses] at this
  obtain ⟨n, hn, he⟩ := List.mem_map.1 this
  rw [List.mem_range] at hn
  omega

theorem leBytes_length (n x : Nat) : (leBytes n x).length = n := by
  induction n generalizing x with
  | zero => rfl
  | succ n ih => simp [leBytes, ih]

theorem flat_length {α : Type} (l : List α) (f : α → List Byte) {n : Nat} (h : ∀ x, (f x).length = n) :
    ((l.map f).flatten).length = l.length * n := by
  rw [List.length_flatten, List.map_map, show List.length ∘ f = fun _ => n from funext h]
  simp

theorem busyBytes_length (s : State) (p : Nat) : (s.busyBytes p).length = (s.quadsOf p).length * 16384 := by
  refine flat_length _ _ fun q => (flat_length (n := 512) _ _ fun i => (flat_length (n := 8) _ _ fun ph => ?_).trans (by simp)).trans
    (by simp)
  exact leBytes_length 8 _

/-- TT_READ at 0x40010000, whose gigabyte quadrant 0 has cached. -/
def readSt : State :=
  let s : State := timeSt 0x14 (leBytes 8 0x40010000) none
  { s with quads := updAt s.quads 0 fun q => { q with tlb := [leafE] } }
def toTable (k : Packet) : Bool := byteField k.bytes 8 8 == 0x40010000 && byteField k.bytes 16 8 == 0

theorem readSt_access {va : Nat} (h : 0x40010000 ≤ va) (k : va < 0x40040000) : ∃ l, readSt.access 0 0 va .write = .ok l :=
  (access_leaf (e := leafE) (by decide +kernel) (by decide +kernel) (by decide) (by simp only [leafE]; omega) (by decide) (by decide +kernel)
    (by omega)).imp fun _ h => h.1

theorem readSt_clean (l : Nat) : readSt.cohPoisoned l = false := by
  have poison : readSt.poison = [] := by decide +kernel
  unfold State.cohPoisoned State.poisoned
  rw [owner_none (by decide +kernel) l, poison]
  rfl

def startsAt (a : Nat) (k : Packet) : Bool := byteField k.bytes 8 8 == a

theorem witness_TimetablesRun_unlocked : ∀ s ∈ [timeSt 0x10 tableBody none, timeSt 0x13 tableBody none,
    timeSt 0x11 (leBytes 8 65536) none, timeSt 0x11 (leBytes 8 65535) none, timeSt 0x12 [] none, readSt, timeSt 0 [] (some 0)],
    Unlocked s := by
  have h : ([timeSt 0x10 tableBody none, timeSt 0x13 tableBody none, timeSt 0x11 (leBytes 8 65536) none,
    timeSt 0x11 (leBytes 8 65535) none, timeSt 0x12 [] none, readSt, timeSt 0 [] (some 0)].all freeOf) = true := by decide +kernel
  exact fun s hs => unlocked_of (List.all_eq_true.1 h s hs)

theorem witness_TimetablesRun :
    (∀ ty ∈ [0x10, 0x13], ∃ k, (timeSt ty tableBody none).takePacket 0 2 ty = some k
      ∧ fine ((timeSt ty tableBody none).readTable 0 k.bytes) = true)
    ∧ (∀ a ∈ [65536, 65535], (∃ k, (timeSt 0x11 (leBytes 8 a) none).takePacket 0 2 0x11 = some k
        ∧ startsAt a k = true) ∧ ((timeSt 0x11 (leBytes 8 a) none).quads.getD 0 {}).tt = true
      ∧ (part (timeSt 0x11 (leBytes 8 a) none) 0).table.isSome = true ∧ (part (timeSt 0x11 (leBytes 8 a) none) 0).frames = none
      ∧ (part (timeSt 0x11 (leBytes 8 a) none) 0).pendingStart = none ∧ (timeSt 0x11 (leBytes 8 a) none).refTick = 0)
    ∧ (∃ k, (timeSt 0x12 [] none).takePacket 0 2 0x12 = some k ∧ (fun _ => true) k = true)
    ∧ (∃ k, readSt.takePacket 0 2 0x14 = some k ∧ toTable k = true)
    ∧ (∃ w, readSt.engWrite 0 0 (cellsAt 0x40010000 (readSt.busyBytes 0)) = .ok w)
    ∧ let s := timeSt 0 [] (some 0)
      s.engineStill 0 = false ∧ s.partOf 0 = 0 ∧ 0 < s.parts.length ∧ (part s 0).frames = none ∧ (part s 0).pendingStart = some 0
      ∧ (part s 0).nextTable = none ∧ (part s 0).table = some table0 ∧ 0 ≤ s.refTick ∧ s.tableIdle table0 = true
      ∧ table0.entries = [entry0] ∧ entry0.size = 1 ∧ s.physOf entry0.lead = some 1 ∧ 1 < s.tiles.length
      ∧ 1 ∈ s.tilesOf 0 := by
  refine ⟨List.forall_mem_cons.2 ⟨some_of (by decide +kernel), List.forall_mem_singleton.2 (some_of (by decide +kernel))⟩,
    List.forall_mem_cons.2 ⟨⟨some_of (by decide +kernel), by decide +kernel⟩, List.forall_mem_singleton.2 ⟨some_of
    (by decide +kernel), by decide +kernel⟩⟩, some_of (by decide +kernel), some_of (by decide +kernel), ?_, by decide +kernel⟩
  refine engWrite_fine (fun c hc => ?_) readSt_clean
  have hn : (readSt.quadsOf 0).length = 8 := by decide +kernel
  have := mem_cellsAt hc
  rw [busyBytes_length, hn] at this
  exact readSt_access this.1 (by omega)

/-! ### Merge rounds, peer links and clocks -/

/-- Merge mode with a record in the commons; rounds over which two tasks have written two bytes or one. -/
def priv0 (va : Nat) : PrivLine := { va := va, data := 0x11, mask := 1 }
def round0 (second : Nat) (running : List Word64) : MergeRound :=
  { members := [8, 9], running := running, log := [(8, priv0 0x40000400), (9, priv0 second)], ops := [] }
def mergeSt (r : Option MergeRound) : State :=
  let s : State := stillSt false
  { s with quads := updAt s.quads 0 fun q => { q with mg := true }
           parts := updAt s.parts 0 fun p => { p with commons := [offered0 fresh0], round := r } }
def clashes (s : State) (r : MergeRound) : Bool := (mergeClash (s.mergeBytes 0 r)).isSome

theorem witness_MergeRounds_unlocked : ∀ s ∈ [mergeSt none, mergeSt (some (round0 0x40000480 [])),
    mergeSt (some (round0 0x40000400 [])), mergeSt (some (round0 0x40000480 [8]))], Unlocked s := by
  have h : ([mergeSt none, mergeSt (some (round0 0x40000480 [])), mergeSt (some (round0 0x40000400 [])),
    mergeSt (some (round0 0x40000480 [8]))].all freeOf) = true := by decide +kernel
  exact fun s hs => unlocked_of (List.all_eq_true.1 h s hs)

theorem witness_MergeRounds : 0 < (mergeSt none).parts.length ∧ (mergeSt none).engineStill 0 = false
    ∧ ((mergeSt none).quads.getD 0 {}).mg = true ∧ (part (mergeSt none) 0).round = none
    ∧ (∃ q ∈ (part (mergeSt none) 0).commons, q.record.tt = false)
    ∧ (∀ r ∈ [round0 0x40000480 [], round0 0x40000400 [], round0 0x40000480 [8]], (mergeSt (some r)).engineStill 0 = false
      ∧ (part (mergeSt (some r)) 0).round = some r)
    ∧ clashes (mergeSt (some (round0 0x40000480 []))) (round0 0x40000480 []) = false
    ∧ clashes (mergeSt (some (round0 0x40000400 []))) (round0 0x40000400 []) = true := by
  refine (front4 (by decide +kernel) ⟨?_, ?_, by decide +kernel⟩)
  · exact List.any_eq_true.1 (show ((part (mergeSt none) 0).commons.any fun q => !q.record.tt) = true by decide +kernel) |>.imp
      fun q h => ⟨h.1, by simpa using h.2⟩
  · exact List.forall_mem_cons.2 ⟨⟨by decide +kernel, by decide +kernel⟩, List.forall_mem_cons.2 ⟨⟨by decide +kernel,
    by decide +kernel⟩, List.forall_mem_singleton.2 ⟨by decide +kernel, by decide +kernel⟩⟩⟩

/-- Rounds that close with a line of the log, with an atomic and an add on one counter, and with two records. -/
def logged : MergeRound := { members := [8], running := [], log := [(8, priv0 0x40000400)], ops := [] }
def onWord : MergeRound :=
  { members := [8, 9], running := [], log := [], ops := [(9, .add 0x40000200 3 0x1000), (8, .amo 0x500000 0 .swap true 0x40000200 5 0 0x1020)] }
def twoRecords : MergeRound :=
  { members := [8, 9], running := [], log := [], ops := [(9, .enqueue fresh0 false), (8, .enqueue back0 false)] }
def closing (r : MergeRound) : State :=
  let s : State := mergeSt (some r)
  { s with quads := updAt s.quads 0 fun q => { q with tlb := [leafE] } }
theorem quiet_of {s : State} {p : Nat} {r : MergeRound} (h : decide ((part s p).round = some r ∧ r.running = [] ∧ (part s p).deferred = []
    ∧ (part s p).entering = [] ∧ s.waiters = [] ∧ s.launchQ = [] ∧ s.heldLines = [] ∧ Memory.wf s.mem = true) = true) : QuietRound s p r := by
  obtain ⟨a, b, c, d, e, f, g, i⟩ := of_decide_eq_true h
  exact ⟨a, b, ⟨c, d⟩, ⟨e, f, g⟩, i⟩
/-- The line at 0x40000400 and the word at 0x40000200, as the round's close finds them. -/
def openLine (s : State) (pa : Nat) : Bool :=
  (List.range 128).all fun i => !isCtrl (pa + i) && (s.dirLine (lineOf (pa + i))).owner.isNone
def openWord (s : State) (l : Leaf) : Bool :=
  decide (l.ms = true ∧ l.pa % 8 = 0 ∧ l.pa + 8 ≤ ctrlBase) && (s.dirLine (lineOf l.pa)).owner.isNone && !s.poisoned (lineOf l.pa)
    && okAnd (s.access 0 0 0x40000200 .both) (fun m => decide (m = l)) && okAnd (s.access 0 0 0x40000200 .write) (fun m => decide (m = l))

theorem witness_MergeRounds_close : (∀ r ∈ [logged, onWord, twoRecords], Unlocked (closing r) ∧ QuietRound (closing r) 0 r
      ∧ 0 < (closing r).parts.length ∧ (closing r).engineStill 0 = false)
    ∧ (∃ x, (closing logged).access 0 0 0x40000400 .write = .ok x ∧ openLine (closing logged) x.pa = true)
    ∧ (∃ l, (closing onWord).cached 0 0 0x40000200 = some l ∧ openWord (closing onWord) l = true)
    ∧ ((part (closing twoRecords) 0).commons.filter fun q => q.slot == .general).length + 2 ≤ 2 ^ ((closing twoRecords).quads.getD 0 {}).lk.toNat := by
  have all : ∀ r ∈ [logged, onWord, twoRecords], freeOf (closing r) = true ∧ decide ((part (closing r) 0).round = some r ∧ r.running = []
      ∧ (part (closing r) 0).deferred = [] ∧ (part (closing r) 0).entering = [] ∧ (closing r).waiters = [] ∧ (closing r).launchQ = []
      ∧ (closing r).heldLines = [] ∧ Memory.wf (closing r).mem = true) = true
      ∧ 0 < (closing r).parts.length ∧ (closing r).engineStill 0 = false := by decide +kernel
  exact ⟨fun r hr => ⟨unlocked_of (all r hr).1, quiet_of (all r hr).2.1, (all r hr).2.2⟩, ok_of (by decide +kernel), some_of (by decide +kernel),
    by decide +kernel⟩

/-- Port 1 with its link up and a frame that no ACK has freed, a send of tile 0 whose data is read, and its channel. -/
def data0 (seq : BitVec 32) (last : Bool) (payload : List Byte) : DataFrame :=
  { ch := 2, first := true, last := last, queue := false, seq := seq, arg := 0, payload := payload }
def send0 : Send :=
  { serial := 5, task := 9, tile := 0, port := 1, ch := 2, va := 0x300000, len := 3, data := some [1, 2, 3], part := 0, addr := 0
    waits := [], waitBlk := none }
def linkSt (en : Bool) : State :=
  let s : State := (evSt task0).modTile 0 fun x => { x with sends := [send0] }
  { s with refTick := 5000, ports := updAt s.ports 1 fun p => { p with
      up := true, learned := some 4, sendSeq := 6, recvSeq := 3, unacked := [.data (data0 5 true [])], sinceAck := 2, takenAt := 10
      ackAt := 20, chans := p.chans.set 2 { en := en, sbase := 0x300000, slen := 0x1000, rbase := 0x300000, rlen := 0x1000, credits := 9 } } }
def payload0 : List Byte := leBytes 4 five.length ++ leBytes 4 (crc32c five).toNat ++ five
def sendsThree (s : State) (m : Send) : Bool :=
  decide (m.data = some [1, 2, 3]) && m.len == 3 && decide (creditsOf m.len ≤ (s.chan 1 2).credits)

/-- The port with a frame that has been acknowledged and is still kept, with seven frames taken since its last ACK, and without its
link; what an ACK that names a number is worth there. -/
def portSt (f : Port → Port) : State := (linkSt true).modPort 1 f
def kept1 : State := portSt fun x => { x with acked := 1 }
def seven : State := portSt fun x => { x with sinceAck := 7 }
def down1 : State := portSt fun x => { x with up := false }
def names (s : State) (seq : BitVec 32) : Nat := (seq + 1 - ((s.port 1).sendSeq - BitVec.ofNat 32 (s.port 1).unacked.length)).toNat

theorem witness_LinksSend_acks : names (linkSt true) 5 = 1 ∧ ((linkSt true).port 1).acked = 0
    ∧ names kept1 5 = 1 ∧ (kept1.port 1).acked = 1 ∧ (kept1.port 1).unacked.length = 1
    ∧ names (linkSt true) 6 = 2 ∧ ((linkSt true).port 1).pending ≠ [] ∧ ((linkSt true).port 1).pending.length < 256
    ∧ (kept1.port 1).up = true ∧ (kept1.port 1).pairOut = [] ∧ 1 < kept1.ports.length := by decide +kernel

theorem witness_Links_unlocked : ∀ s ∈ [linkSt true, linkSt false, kept1, seven], Unlocked s := by
  have h : ([linkSt true, linkSt false, kept1, seven].all freeOf) = true := by decide +kernel
  exact fun s hs => unlocked_of (List.all_eq_true.1 h s hs)

theorem witness_LinksSend : 1 < (linkSt true).ports.length ∧ ((linkSt true).port 1).up = true ∧ ((linkSt true).port 1).pairOut = []
    ∧ (∃ m, (linkSt true).nextSend 1 2 = some m ∧ sendsThree (linkSt true) m = true)
    ∧ ((linkSt true).port 1).unacked.length = 1 ∧ ((linkSt true).port 1).sendSeq = 6 ∧ 2 < ((linkSt true).port 1).chans.length
    ∧ 0 < ((linkSt true).port 1).sinceAck ∧ ((linkSt true).port 1).takenAt + 219 ≤ (linkSt true).refTick
    ∧ ((linkSt true).port 1).ackAt + 4375 ≤ (linkSt true).refTick :=
  ⟨by decide +kernel, by decide +kernel, by decide +kernel, some_of (by decide +kernel), by decide +kernel⟩

theorem witness_LinksTake : 1 < (linkSt true).ports.length ∧ ((linkSt true).port 1).up = true
    ∧ ((linkSt true).port 1).learned.isSome = true ∧ ((linkSt true).port 1).sinceAck < 7 ∧ ((linkSt true).port 1).recvSeq = 3
    ∧ (data0 3 true payload0).payload = leBytes 4 five.length ++ leBytes 4 (crc32c five).toNat ++ five
    ∧ 2 < ((linkSt true).port 1).chans.length ∧ ((linkSt true).chan 1 2).en = true ∧ ((linkSt true).chan 1 2).dep = false
    ∧ ((linkSt false).port 1).up = true ∧ ((linkSt false).port 1).learned.isSome = true ∧ ((linkSt false).chan 1 2).en = false :=
  front5 (by decide +kernel) ⟨rfl, by decide +kernel⟩

theorem holds_of {s : State} {h : HoldReason} (a : (s.tiles.all fun x => x.hold != some h) = true) (t : Nat) : (s.tile t).hold ≠ some h := by
  unfold State.tile
  rw [List.getD_eq_getElem?_getD]
  cases e : s.tiles[t]? with
  | none => exact fun h => nomatch h
  | some x => exact bne_iff_ne.1 (List.all_eq_true.1 a x (List.mem_of_getElem? e))

theorem witness_LinksTake_disable : Unlocked (linkSt true) ∧ ((linkSt true).chan 1 2).en = true
    ∧ ∀ t, ((linkSt true).tile t).hold ≠ some (.recv 1 2) :=
  ⟨unlocked_of (by decide +kernel), by decide +kernel, holds_of (by decide +kernel)⟩

theorem witness_LinksTake_seven : 1 < seven.ports.length ∧ (seven.port 1).up = true ∧ (seven.port 1).learned.isSome = true
    ∧ (seven.port 1).sinceAck = 7 ∧ (seven.port 1).recvSeq = 3 := by decide +kernel

theorem witness_LinksAndClock : 1 < down1.ports.length ∧ (down1.port 1).pending ≠ [] ∧ (down1.chan 1 2).en = true
    ∧ 14 < (linkSt true).ports.length ∧ ((linkSt true).port (29 - 14)).up = false ∧ (linkSt true).dev.ptp = false := by
  decide +kernel

/-- What the events of the links leave: a message of three bytes leaves port 1 with its CRC and takes one credit, eight frames
bring an ACK that names the last, and a channel grants its 128 credits (R298). -/
def ports1 (i : Instr) (s : State) (P : State → Bool) : Bool :=
  match exec i s with
  | .next u => P u
  | _ => false

theorem test_links : ports1 (.messageSend 1 2) (linkSt true) (fun u => (u.chan 1 2).credits == 8 && (u.port 1).sendSeq == 7) = true
    ∧ ports1 (.pair 1 0 3 []) seven (fun u => u.outputs == [.frame 1 4 (.ack 3)]) = true
    ∧ ports1 (.channelEnable 1 2) (linkSt false) (fun u => u.outputs == [.frame 1 4 (.credit 2 true 128)]) = true
    ∧ ports1 (.channelDisable 1 2) (linkSt true) (fun u => u.outputs == [.frame 1 4 (.credit 2 true 0)]) = true
    ∧ ports1 (.ackTimer 1) (linkSt true) (fun u => u.outputs == [.frame 1 4 (.ack 2)]) = true
    ∧ ports1 (.credit 1 4 2 false 5) (linkSt true) (fun u => (u.chan 1 2).credits == 14) = true
    ∧ ports1 (.ack 1 4 5) (linkSt true) (fun u => (u.port 1).pending.isEmpty && u.outputs.isEmpty) = true
    ∧ ports1 (.data 1 4 (data0 3 true payload0)) (linkSt true) (fun u => (u.chan 1 2).skew == five) = true := by decide +kernel

/-! ### The host port, the loader and resets -/

/-- A state in which source 3 of the queue transport has had one request answered. -/
def hostSt : State :=
  let s : State := evSt task0
  { s with qt := [{ src := 3, expect := 8, answers := [(7, [1, 2])] }] }
def isSome' {α : Type} (x : Option α) : Bool := someAnd x fun _ => true
theorem isSome_of {α : Type} {x : Option α} (h : isSome' x = true) : ∃ a, x = some a := by
  cases x with
  | none => exact absurd h (by simp [isSome', someAnd])
  | some a => exact ⟨a, rfl⟩

theorem witness_HostAccesses : Unlocked hostSt ∧ (∃ bs, hostSt.hostRead 0x40000100 8 = some bs) ∧ hostSt.hostRead 0x90000000 8 = none
    ∧ (∃ w, hostSt.hostWrite 0x40000100 five = some w) ∧ (isSome' (hostSt.hostWrite 0x90000000 five)) = false
    ∧ (hostSt.qt.find? fun q => q.src == 3) = some { src := 3, expect := 8, answers := [(7, [1, 2])] }
    ∧ hostSt.fenced (hostSt.partOf 1) = false :=
  ⟨unlocked_of (by decide +kernel), isSome_of (by decide +kernel), by decide +kernel, isSome_of (by decide +kernel),
    by decide +kernel⟩

/-- The image of a kernel whose only block is `done`, at 0x40010000, with its seal; a cached gigabyte around it. -/
def doneScan : BlockScan := BlockScan.bundle {} [⟨.c, .done, 0, 0⟩]
def doneSeal : Word256 := (doneScan.fold.getD 0) ++ 0#144 ++ 0#8 ++ 0x02#8 ++ 0x00020000#32
def imageB : List Byte :=
  leBytes 4 0x4D495853 ++ leBytes 2 1 ++ leBytes 2 1 ++ leBytes 2 0x00A1 ++ leBytes 14 0
    ++ leBytes 4 State.reset.fixed.latency.toNat ++ leBytes 4 1 ++ leBytes 8 64 ++ leBytes 8 160 ++ leBytes 16 0
    ++ leBytes 8 0 ++ leBytes 8 96 ++ leBytes 16 96
    ++ leBytes 32 doneBundle.toNat ++ leBytes 32 doneSeal.toNat
def loadBase (op : Bool) (img ent : Nat) : State :=
  let s : State := mapped State.reset
  { s with mem := Memory.writes s.mem (cellsAt 0x40010000 imageB)
           quads := updAt s.quads 0 fun q => { q with tlb := [leafE] }
           dev := { s.dev with status := 0xFF, op := op, lpart := 0, img := BitVec.ofNat _ img, ent := BitVec.ofNat _ ent } }

/-- A cache entry of that image with a tag. -/
def entryA : List Byte := leBytes 8 160 ++ leBytes 12 0
def entryB : List Byte := leBytes 2 0x00A1 ++ leBytes 1 1 ++ leBytes 25 0
def entryOf (tag : Nat) : List Byte := entryA ++ leBytes 16 tag ++ entryB
def imageTag : BitVec 128 := Config.loaderTag 0 (entryA ++ entryB ++ imageB)
def withMem (s : State) (m : List Host.Cell) : State := { s with mem := m }
theorem withMem_mem (s : State) (m : List Host.Cell) : (withMem s m).mem = m := rfl
def entryBase : State := loadBase true 0x40010000 0x40020000
def entrySt (tag : Nat) : State := withMem entryBase (Memory.writes entryBase.mem (cellsAt 0x40020000 (entryOf tag)))
def passes (s : State) (x : Nat × Option (ImageHeader × List KernelEntry)) : Bool :=
  x.1 == 0 && someAnd x.2 fun y => y.1.length == 160 && y.2.length == 1
    && decide (s.imageBytes 0 0x40010000 160 = some imageB)
def sealSt : State := loadBase false 0x40010000 0x40020000
def nonce0 : BitVec 96 := Config.loaderNonce sealSt.free
/-- The cells of the entry that the loader writes there, with a tag that no definition names. -/
def sealCells : List (Nat × Byte) :=
  let parts := entryParts 160 nonce0 sealSt.fixed.stepping.toNat 1
  cellsAt 0x40020000 (parts.1 ++ leBytes 16 (Config.loaderTag nonce0 (parts.1 ++ parts.2 ++ imageB)).toNat ++ parts.2)

theorem witness_LoaderAnswers_unlocked : ∀ s ∈ [sealSt, loadBase false 0x40020000 0, loadBase false 0x40010001 0,
    loadBase true 0x40010001 0x40020000, loadBase true 0x40010000 0x40020001, loadBase true 0x40010000 0x40020000], Unlocked s := by
  have h : ([sealSt, loadBase false 0x40020000 0, loadBase false 0x40010001 0, loadBase true 0x40010001 0x40020000,
    loadBase true 0x40010000 0x40020001, loadBase true 0x40010000 0x40020000].all freeOf) = true := by decide +kernel
  exact fun s hs => unlocked_of (List.all_eq_true.1 h s hs)

theorem witness_LoaderAnswers_seal : sealSt.dev.status = 0xFF ∧ sealSt.dev.op = false
    ∧ (loadBase false 0x40020000 0).checkImage 0 0x40020000 = (1, none) ∧ (loadBase false 0x40020000 0).dev.img.toNat = 0x40020000
    ∧ (loadBase false 0x40010001 0).dev.img.toNat % 4096 ≠ 0
    ∧ passes sealSt (sealSt.checkImage 0 0x40010000) = true ∧ 0x40020000 % 64 = 0 ∧ 0 < sealSt.parts.length
    ∧ ∃ w, sealSt.engWrite 0 0 sealCells = .ok w ∧ decide (w.parts = sealSt.parts) = true :=
  front6 (by decide +kernel) ⟨by decide, by decide +kernel, ok_of (by decide +kernel)⟩

/-- What path H reads from an address whose bytes are memory's own. -/
theorem imageBytes_plain {s : State} {va n : Nat} {l : Nat → Leaf} (h : s.accessRange 0 0 va n .read = .ok ((List.range n).map fun i => (va + i, l i)))
    (hp : s.poison = []) (hc : va + n ≤ ctrlBase) :
    s.imageBytes 0 va n = some ((List.range n).map fun i => Memory.read s.mem (va + i)) := by
  have e : s.engBytes 0 0 none va n = .ok ((List.range n).map fun i => Memory.read s.mem (va + i)) := by
    unfold State.engBytes
    rw [h]
    simp only [State.poisoned, hp]
    rw [List.find?_eq_none.2 (by simp)]
    simp only [List.map_map]
    refine congrArg _ (List.map_congr_left fun i hi => ?_)
    have := List.mem_range.1 hi
    have : isCtrl (va + i) = false := by
      simp only [isCtrl, Bool.and_eq_false_iff, decide_eq_false_iff_not]
      omega
    simp [this]
  rw [State.imageBytes, e]

theorem read_list {m : List Host.Cell} (h : Memory.wf m = true) (a : Nat) (bs : List Byte) {n : Nat} (hn : bs.length = n) :
    (List.range n).map (fun i => Memory.read (Memory.writes m (cellsAt a bs)) (a + i)) = bs := by
  refine List.ext_getElem (by simp [hn]) fun i h1 h2 => ?_
  rw [List.getElem_map, List.getElem_range, Laws.read_writes_cellsAt h a bs (by simpa using h2)]

def leafAt (a i : Nat) : Leaf := { pa := a + i, perm := 0b01011, page := 0x40000000, size := 30 }

def reads (s : State) (va n : Nat) : Prop := s.accessRange 0 0 va n .read = .ok ((List.range n).map fun i => (va + i, leafAt va i))

theorem entrySt_mem (tag : Nat) : (entrySt tag).mem
    = Memory.writes entryBase.mem (cellsAt 0x40020000 (entryOf tag)) := by rw [entrySt, withMem_mem]

theorem base_wf : Memory.wf entryBase.mem = true := by decide +kernel

theorem entryOf_length (tag : Nat) : (entryOf tag).length = 64 := by simp [entryOf, entryA, entryB, leBytes_length]

theorem entrySt_entry {tag : Nat} (h : reads (entrySt tag) 0x40020000 64) (hp : (entrySt tag).poison = []) :
    (entrySt tag).imageBytes 0 0x40020000 64 = some (entryOf tag) := by
  rw [imageBytes_plain h hp (by decide), entrySt_mem, read_list base_wf _ _ (entryOf_length tag)]

theorem entrySt_image {tag n : Nat} (h : reads (entrySt tag) 0x40010000 n) (hp : (entrySt tag).poison = []) (hn : n ≤ 160) :
    (entrySt tag).imageBytes 0 0x40010000 n
      = some ((List.range n).map fun i => Memory.read entryBase.mem (0x40010000 + i)) := by
  rw [imageBytes_plain h hp ((Nat.add_le_add_left hn _).trans (by decide)), entrySt_mem]
  refine congrArg some (List.map_congr_left fun i hi => ?_)
  rw [Laws.read_writes_cellsAt_other base_wf]
  have := List.mem_range.1 hi
  omega

theorem entry_parts (tag : Nat) : (entryOf tag).take 20 ++ (entryOf tag).drop 36 = entryA ++ entryB
    ∧ ((entryOf tag).drop 20).take 16 = leBytes 16 tag ∧ byteField (entryOf tag) 8 12 = 0 ∧ byteField (entryOf tag) 0 8 = 160 := by
  have a : entryA.length = 20 := by decide
  have t : (leBytes 16 tag).length = 16 := leBytes_length 16 tag
  have h20 : (entryOf tag).take 20 = entryA := by rw [entryOf, List.append_assoc, List.take_left' a]
  have d20 : (entryOf tag).drop 20 = leBytes 16 tag ++ entryB := by rw [entryOf, List.append_assoc, List.drop_left' a]
  have d36 : (entryOf tag).drop 36 = entryB := by
    rw [show 36 = 20 + 16 from rfl, ← List.drop_drop, d20, List.drop_left' t]
  have low {o n : Nat} (h : o + n ≤ 20) : byteField (entryOf tag) o n = byteField entryA o n := by
    rw [byteField, byteField, ← h20, List.drop_take, List.take_take, Nat.min_eq_left (by omega)]
  exact ⟨by rw [h20, d36], by rw [d20, List.take_left' t], by rw [low (by decide)]; decide, by rw [low (by decide)]; decide⟩

/-- The translations and the poison that the entry's state has, whatever the tag's bytes are. -/
def clearFor (s : State) : Prop :=
  reads s 0x40010000 160 ∧ reads s 0x40010000 64 ∧ reads s 0x40010040 32 ∧ reads s 0x40020000 64 ∧ s.poison = []

theorem entrySt_table {tag : Nat} (h : reads (entrySt tag) 0x40010040 32) (hp : (entrySt tag).poison = []) :
    (entrySt tag).imageBytes 0 0x40010040 32
      = some ((List.range 32).map fun i => Memory.read entryBase.mem (0x40010040 + i)) := by
  rw [imageBytes_plain h hp (by decide), entrySt_mem]
  refine congrArg some (List.map_congr_left fun i hi => ?_)
  rw [Laws.read_writes_cellsAt_other base_wf]
  have := List.mem_range.1 hi
  omega

def header0 : ImageHeader :=
  { gen := 1, steppings := [0x00A1], latency := State.reset.fixed.latency.toNat, kernels := 1, table := 64, length := 160 }

theorem entry_of {tag : Nat} (h : clearFor (entrySt tag)) : (entrySt tag).imageBytes 0 0x40020000 64 = some (entryOf tag)
    ∧ (entrySt tag).imageBytes 0 0x40010000 160 = some imageB
    ∧ ((entrySt tag).imageBytes 0 0x40010000 64).bind imageHeader = some header0
    ∧ (entrySt tag).kernelEntries 0 0x40010000 header0 = some [⟨0, 96, 96, 0⟩] := by
  obtain ⟨h160, h64, h32, he, hp⟩ := h
  refine ⟨entrySt_entry he hp, ?_, ?_, ?_⟩
  · rw [entrySt_image h160 hp (by omega)]; decide +kernel
  · rw [entrySt_image h64 hp (by omega)]; decide +kernel
  · have t := entrySt_table h32 hp
    simp only [State.kernelEntries, header0]
    rw [show List.range 1 = [0] from rfl, List.foldr_cons, List.foldr_nil, show 0x40010000 + 64 + 32 * 0 = 0x40010040 from rfl, t]
    decide +kernel

/-- Requests of op 1 with a misaligned image or entry, the entry with the image's tag, and one with another. -/
theorem witness_LoaderAnswers_entry :
    (∀ x ∈ [(0x40010001, 0x40020000), (0x40010000, 0x40020001), (0x40010000, 0x40020000)],
      (loadBase true x.1 x.2).dev.status = 0xFF ∧ (loadBase true x.1 x.2).dev.op = true
      ∧ (loadBase true x.1 x.2).dev.img.toNat = x.1 ∧ (loadBase true x.1 x.2).dev.ent.toNat = x.2)
    ∧ (∀ tag, byteField (entryOf tag) 0 8 = 160 ∧ ((entryOf tag).drop 20).take 16 = leBytes 16 tag
        ∧ Config.loaderTag (BitVec.ofNat 96 (byteField (entryOf tag) 8 12)) ((entryOf tag).take 20 ++ (entryOf tag).drop 36 ++ imageB)
          = imageTag)
    ∧ clearFor (entrySt imageTag.toNat)
    ∧ ∃ tag ∈ [0, 1], leBytes 16 imageTag.toNat ≠ leBytes 16 tag ∧ clearFor (entrySt tag) := by
  refine ⟨by decide +kernel, fun tag => ?_, ?_, ?_⟩
  · obtain ⟨h1, h2, h3, h4⟩ := entry_parts tag
    exact ⟨h4, h2, by rw [h1, h3]; rfl⟩
  · exact ⟨by unfold reads; decide +kernel, by unfold reads; decide +kernel, by unfold reads; decide +kernel,
      by unfold reads; decide +kernel, by decide +kernel⟩
  · have clear0 : clearFor (entrySt 0) := by unfold clearFor reads; decide +kernel
    have clear1 : clearFor (entrySt 1) := by unfold clearFor reads; decide +kernel
    by_cases h : leBytes 16 imageTag.toNat = leBytes 16 0
    · exact ⟨1, by simp, by rw [h]; decide, clear1⟩
    · exact ⟨0, by simp, h, clear0⟩

/-- A device that has passed its self-test, with and without tasks. -/
def readySt : State :=
  let s : State := State.reset
  { s with dev := { s.dev with ready := true } }

/-- A timetable runs on every tile, and the spares are off. -/
def pinnedSt : State :=
  let s : State := State.reset
  { s with parts := updAt s.parts 0 fun p => { p with frames := some frames0 }
           tiles := s.tiles.map fun x => { x with point := if x.life == .spare then .off else x.point } }

theorem witness_ResetsAndPower : State.reset.dev.ready = false ∧ (State.reset.tiles.all fun x => x.task.isNone) = true
    ∧ 0 ∈ hostSt.partitions ∧ 0 < hostSt.parts.length
    ∧ (∃ t, t < hostSt.tiles.length ∧ (hostSt.tile t).life = .spare)
    ∧ Unlocked hostSt ∧ hostSt.islandPinned (.tile 3) = false ∧ hostSt.othersFirst (hostSt.partOf (quadOf 3)) = false
    ∧ pointRank .p0700 < pointRank (hostSt.pointOf (.tile 3))
    ∧ Unlocked pinnedSt ∧ pinnedSt.islandPinned (.tile 3) = true ∧ pinnedSt.islandPart (.tile 3) < pinnedSt.parts.length
    ∧ pointRank .p1400 < pointRank (pinnedSt.pointOf (.tile 3))
    ∧ (pinnedSt.partitions.all fun q => (pinnedSt.islandsOf q).all fun x => !pinnedSt.lowerable x) = true :=
  front4 (by decide +kernel) ⟨⟨32, by decide +kernel⟩, unlocked_of (by decide +kernel), by decide +kernel, by decide +kernel,
    by decide +kernel, unlocked_of (by decide +kernel), by decide +kernel⟩

/-! ### Registers, tags, the fault log, steps -/

theorem witness_Destinations : (∀ n : BitVec 6, n.toNat < regs0.s.length) ∧ (∀ n : BitVec 3, n.toNat < regs0.q.length)
    ∧ (∀ n : BitVec 5, n.toNat < regs0.v.length) ∧ ∀ x : Reg, x.code < 256 → x.code < regs0.tags.length :=
  by
  have s : regs0.s.length = 64 := by decide +kernel
  have q : regs0.q.length = 8 := by decide +kernel
  have v : regs0.v.length = 32 := by decide +kernel
  have t : regs0.tags.length = 256 := by decide +kernel
  exact ⟨fun n => by rw [s]; exact n.isLt, fun n => by rw [q]; exact n.isLt, fun n => by rw [v]; exact n.isLt,
    fun x h => by rw [t]; exact h⟩

/-- A log of sixteen records at 0x40007000, of which three have been written. -/
def logSt : State :=
  let s : State := evSt task0
  { s with quads := updAt s.quads 0 fun q => { q with llen := 4, lbase := 0x10001C0, lwr := 19 } }

theorem witness_FaultLog : 0 < logSt.quads.length ∧ (logSt.quads.getD 0 {}).llen ≠ 0 ∧ (logSt.quads.getD 0 {}).lctr = 0
    ∧ Memory.wf logSt.mem = true ∧ slotOf (logSt.quads.getD 0 {}) = 0x400070C0
    ∧ logSt.access 0 0 0x400070C0 .write = .ok ⟨0x400070C0, 0b01011, 0x40000000, 30⟩
    ∧ ((List.range 64).all fun k => !isCtrl (0x400070C0 + k) && (logSt.dirLine (lineOf (0x400070C0 + k))).owner.isNone) = true :=
  by decide +kernel

/-- An agenda with an event, with one that names no unit, and without any; a device after reset, and one at rest. -/
def agendaSt (e : Instr) : State :=
  let s : State := State.reset
  { s with agenda := [{ ticks := 3, ev := e }] }

theorem witness_StepRuns : (agendaSt (.ptpMessage 0 5)).agenda = [⟨3, .ptpMessage 0 5⟩] ∧ (Instr.ptpMessage 0 5).wf = true
    ∧ (agendaSt (.ptpMessage 2 5)).agenda = [⟨3, .ptpMessage 2 5⟩] ∧ (Instr.ptpMessage 2 5).wf = false
    ∧ (evSt task0).agenda = [] ∧ (evSt task0).next.isSome = true ∧ readySt.agenda = [] ∧ readySt.next.isNone = true :=
  ⟨rfl, by decide +kernel, rfl, by decide +kernel, by decide +kernel, by decide +kernel, rfl, by decide +kernel⟩

/-- One word of every slot and class. -/
def someWords : List Code := [.slot .c 0x0D300000, .slot .m 0x0500A049, .slot .l 0x1505D400, .slot .d 0x14A2CC40, .slot .t 0x0530C000,
  .hcw (hcwOf 0x1208004500000000 0), .hcw (hcwOf 0x218000C108200100 0)]
/-- The code of an encoding, read again. -/
def roundtrips (c : Code) : Bool := okAnd (decode c) fun i => i.wf && decide (encode i = some c)

theorem witness_DecodeEncode : ∀ c ∈ someWords, ∃ i, decode c = .ok i ∧ (i.wf && decide (encode i = some c)) = true := by
  have h : someWords.all roundtrips = true := by decide +kernel
  exact fun c hc => ok_of (List.all_eq_true.1 h c hc)

theorem witness_UnassignedRefused : unassigned .c 0x10 = true ∧ unassigned .m 0x06 = true ∧ unassigned .l 0x0C = true
    ∧ unassigned .d 0x13 = true ∧ unassigned .t 0x3F = true ∧ (0x40000000#32).extractLsb' 26 6 = 0x10#6
    ∧ (hcwOf 0 0).extractLsb' 252 4 = 0 ∧ (hcwOf 0x3010000000000000 0).extractLsb' 252 4 = 3
    ∧ (hcwOf 0x1060000000000000 0).extractLsb' 252 4 = 1 ∧ unassignedScalar ((hcwOf 0x1060000000000000 0).extractLsb' 244 8) = true
    ∧ (hcwOf 0x22C0000000000000 0).extractLsb' 252 4 = 2 ∧ unassignedVector ((hcwOf 0x22C0000000000000 0).extractLsb' 244 8) = true := by
  decide +kernel

/-! ### Ill-formed terms: one for each check -/

def plain : Hcw := hw 0 0 0 0

/-- R58, R92, R94: modifiers that an opcode does not have, and fields out of range. -/
theorem smoke_control_words : ([.sclz { plain with imm := true }, .sclz { plain with sat := true }, .smulhu { plain with uns := true },
    .sadd { plain with uns := true }, .vadd { plain with round := 6 }, .sadd { plain with round := 1 }, .scmp (hw 8 0 0 0),
    .sqop (hw 0 8 0 0), .sadd { hw 0 0 1 0 with imm := true }, .sqop (hw 0 0 8 0), .scmp (hw 0 0 0 6), .sadd (hw 0 0 0 1),
    .minv { plain with reloc := 8 }, .sli { plain with reloc := 4 }, .sadd { plain with imm := true, reloc := 2 },
    .scmp { plain with reloc := 1 }, .sadd { plain with fmt := 1 }, .minv { plain with shape := 1 }, .sadd { plain with pq := 1 },
    .sadd { plain with psense := true }, .vadd (hw 32 0 0 0), .sadd { plain with immA := 1 }, .sli { plain with imm := true },
    .sgetc { plain with immA := 0x0F }, .ssetc { plain with immA := 0x1C }, .sext { plain with imm := true, immA := 65 },
    .vrot { plain with imm := true, immA := 1024 }, .vcvt { plain with immA := 0x100 }, .vfrexp { plain with immA := 2 },
    .vpopq { plain with immA := 4 }] : List Instr).all (fun i => !i.wf) = true := by decide +kernel

/-- R79-R90: operand fields of the direct slots, and ports. -/
theorem smoke_direct_slots : ([.lmark 1 0, .lmark 0 3, .lmarkImm 3 65, .inj 9 1 1 1, .inj 1 0 1 1, .inj 1 1 0 1, .inj 1 1 1 0,
    .chset 1 0, .ld 1 2 .d true 0, .cwait 1 2 63 0, .amo .cas true 1 2 63, .amoc .cas .eq 1 2 3, .amoc .add .eq 1 2 63,
    .tmovPortV 0x28 1, .tmovPortV 0x06 1, .tmovVPort 1 0x05, .tmovPortPort 0x06 0x06, .tmovPortPort 0x00 0x00, .tmovPortS 0x07 1,
    .tmovSPort 1 0x00] : List Instr).all (fun i => !i.wf) = true := by decide +kernel

/-- R7, R127, R219, R293, R295, R302: units that do not exist. -/
theorem smoke_units : ([.bundleIssue 288, .taskPick 288 0, .engineInstanceFailure 0 true 3, .lineRecall (2 ^ 45), .launchQueueDrain 256 0,
    .launchQueueDrain 0 8, .copyChunk (.tile 288), .copyChunk (.cp 8), .patrolScrub 8 [], .patrolScrub 0 [2 ^ 45], .reductionChunk 8,
    .launch 8 0, .notifyWrite 0 64 0, .graphNodeComplete 8 0 0, .partitionFence 8, .revive 8 0, .selfTest [⟨288, false, 0⟩],
    .powerCapAdjust (.tile 288) .p1750, .powerCapAdjust (.l2 0) .off, .powerCapAdjust (.base 8) .p1750, .channelEnable 16 0,
    .messageSend 0 32, .ackTimer 16, .ptpMessage 2 0, .registerWrite (2 ^ 52) 0 0 true] : List Instr).all (fun i => !i.wf) = true := by
  decide +kernel

/-! ### Words that the spec writes out -/

def reads' (c : Code) (i : Instr) : Bool := okAnd (decode c) fun x => decide (x = i)

/-- R79, R80, R307, R323, R329, R355, R356, R395, R423. -/
theorem test_words_c : ([(0x0D300000, .xfer 2 3), (0x0BF00000, .bprepi 0 63), (0x08640000, .bprepi 2 6), (0x15800000, .call 3),
    (0x380000C7, .brk 0xC7), (0x3400002A, .trap 0x2A), (0x280003E8, .rel 1000), (0x1C300005, .ilock 3 5), (0x20300005, .iunlock 3 5),
    (0x3C140401, .inj 1 1 1 1)] : List (Word32 × Instr)).all (fun x => reads' (.slot .c x.1) x.2) = true := by decide +kernel

/-- R333, R336, R367, R371, R373, R381. -/
theorem test_words_m : ([(0x0500A049, .mma 2 5 9 1), (0x0B000000, .mzero 6), (0x0C02E000, .mdrain 0 23 0), (0x1100E145, .mdrainRed 2 7 40 5),
    (0x15900000, .mload 3 8), (0x21000040, .chsetImm 4 64), (0x20490000, .chset 1 9), (0x2440C000, .chrun 4 3), (0x28700000, .chstep 7),
    (0x2870E000, .chstepPick 7 3)] : List (Word32 × Instr)).all (fun x => reads' (.slot .m x.1) x.2) = true := by decide +kernel

/-- R401, R415, R417. -/
theorem test_words_l : ([(0x2800C010, .sflush 3 16), (0x2C00C010, .sinv 3 16), (0x08605801, .st 6 1 .d 1), (0x087093FF, .st 7 2 .w 0x3FF),
    (0x1505D400, .stq 1 23 20)] : List (Word32 × Instr)).all (fun x => reads' (.slot .l x.1) x.2) = true := by decide +kernel

/-- R85, R86, R116, R243-R247, R296, R338, R342, R352, R375, R409. -/
theorem test_words_d : ([(0x1C418A90, .amo .cas false 4 6 10), (0x20518A22, .amoc .max .lt 5 6 10), (0x20504805, .amoc .add .geu 5 1 8),
    (0x1061C000, .cadd 6 7), (0x10602001, .caddImm 6 1), (0x18918000, .cread 9 6), (0x0409014C, .cpy 9 5 12), (0x24630000, .mred 6 12),
    (0x2CC00000, .spawn 12), (0x406528B0, .nsend 3 5 10 11)] : List (Word32 × Instr)).all (fun x => reads' (.slot .d x.1) x.2) = true := by
  decide +kernel

/-- R58, R92: `smul s4, s2, s3`, `scmp.eq q1, s5, 0`, `sqop q3, q1, q2, 8`, `(!q2) smin.u s9, s10, s11`. -/
theorem test_words_scalar : ([(hcwOf 0x103001020C000000 0, .smul (hw 4 2 3 0)), (hcwOf 0x1208004500000000 0, .scmp { hw 1 5 0 0 with imm := true }),
    (hcwOf 0x121000C108800000 0, .sqop (hw 3 1 2 8)),
    (0x1100424A2C000000#64 ++ 0xA800000000000000#64 ++ 0#128, .smin { hw 9 10 11 0 with uns := true, pen := true, pq := 2, psense := true })] :
    List (Word256 × Instr)).all (fun x => reads' (.hcw x.1) x.2) = true := by decide +kernel

/-- R94: `(q3) vfma.bf16.rtz v4, v5, v6, v7`, `vcmp.f32.lt v3, v1, v2`, `vadd.i32 v2, v1, 1`, `vcvt.bf16.rne v2, v1, f32`. -/
theorem test_words_vector : ([(0x2042010518700200#64 ++ 0xB000000000000000#64 ++ 0#128,
      .vfma { hw 4 5 6 7 with round := 2, fmt := 0x02, pen := true, pq := 3 }),
    (hcwOf 0x218000C108200100 0, .vcmp { hw 3 1 2 2 with fmt := 0x01 }), (hcwOf 0x2018008100000C00 1, .vadd { hw 2 1 0 0 with imm := true, fmt := 0x0C, immA := 1 }),
    (hcwOf 0x20C1008100000200 1, .vcvt { hw 2 1 0 0 with round := 1, fmt := 0x02, immA := 1 })] :
    List (Word256 × Instr)).all (fun x => reads' (.hcw x.1) x.2) = true := by decide +kernel

/-! ### Small runs -/

/-- R170: the lineage of the block `sadd s3, s1, 1` and `done`. -/
theorem test_lineage : canonTag 1 = 0x0458EB3B
    ∧ (BlockScan.bundle {} [⟨.sa, .sadd { hw 3 1 0 0 with imm := true, immA := 1 }, 0, 0⟩]).fold = some 0x10123CE0B53DA992
    ∧ ((BlockScan.bundle {} [⟨.sa, .sadd { hw 3 1 0 0 with imm := true, immA := 1 }, 0, 0⟩]).bundle [⟨.c, .done, 0, 0⟩]).fold
      = some 0x1A94176B94E13A77 := by decide +kernel

/-- R218: the slices of PA 0x12_3456_7880. -/
theorem test_slices : localSlice 0x1234567880 = 0 ∧ wideSlice 0x1234567880 = 43 := by decide +kernel

def pcOf (o : Host.Outcome State Fault Refusal) : Nat :=
  match o with
  | .next s => (taskOf s 0).pc
  | _ => 0

/-- The machine after reset, and its step. -/
theorem witness_Kept : Memory.wf State.reset.mem = true ∧ RegisterFiles State.reset
    ∧ ∃ t, step State.reset = .next t := by
  refine ⟨by decide +kernel, ⟨fun x hx => ?_, fun e he => ?_⟩, ?_⟩
  · have none_ : (State.reset.tiles.all fun x => x.task.isNone && x.pairPend.isEmpty) = true := by decide +kernel
    have := List.all_eq_true.1 none_ x hx
    rw [Bool.and_eq_true, Option.isNone_iff_eq_none, List.isEmpty_iff] at this
    rw [this.1, this.2]
    exact ⟨fun k h => (nomatch h), fun p h => (nomatch h)⟩
  · have : State.reset.saved = [] := rfl
    rw [this] at he
    exact nomatch he
  · have h : (match step State.reset with | .next _ => true | _ => false) = true := by decide +kernel
    split at h
    · rename_i t e
      exact ⟨t, e⟩
    · exact absurd h Bool.false_ne_true

/-- A number, and one beyond the greatest, of FP16 (R27). -/
theorem witness_RoundsExactly : isNumber (.fin false 3 (-1)) = true ∧ (3 : Nat) ≠ 0 ∧ fp16 ∈ [fp32, bf16, fp16, a36]
    ∧ |exact (.fin false 3 (-1))| ≤ exact (fp16.decode fp16.maxCode) ∧ (2 : ℚ) ^ (fp16.bias + 1) ≤ |exact (.fin false 1 20)| := by
  have top : fp16.decode fp16.maxCode = .fin false 2047 5 := by decide +kernel
  rw [top]
  refine ⟨rfl, by decide, by simp, ?_, ?_⟩ <;> norm_num [exact, fp16]

/-- R65: a bundle that holds `nop` issues as the first instruction after reset, and the task goes on at the next bundle. -/
theorem test_first_nop : pcOf (step (State.reset.withFetchWord 256 (0x01000000 <<< 224))) = codeAddr + 32 := by decide +kernel

/-- R65: so does one that holds `sadd s0, s0, s0` from its control word. -/
theorem test_first_sadd : pcOf (step (State.reset.withFetchWord 512
    ((0x1010000000000000 <<< 448) + (0x00800000 <<< 224) + (0x4000 <<< 160)))) = codeAddr + 32 := by decide +kernel

/-- R25, R29: P3109 code 0x84 encodes −1.5 as 0xC4; 300 overflows to NaN, and to 240 under saturation. -/
theorem test_p3109 : (match formatOf 0x84 with
    | some (.float f) => ((roundTo f .rne false (.fin true 3 (-1))).1, (roundTo f .rne false (.fin false 300 0)).1,
        (roundTo f .rne true (.fin false 300 0)).1)
    | _ => (0, 0, 0)) = (0xC4, 0x80, 0x7F) := by decide +kernel

/-- R37: an `mma` rounds once. -/
theorem test_mma_rounds_once : (mmaFloat (a36.decode 0) [(bf16.decode 0x3F80, bf16.decode 0x3F80), (bf16.decode 0x3880, bf16.decode 0x3900),
    (bf16.decode 0x3880, bf16.decode 0x3900)]).1 = 0x3FC000001 := by decide +kernel

/-- R40: three sources reduce in pairs, each sum rounded. -/
theorem test_reduction_order : (pairTree fp32Sum 4 [0x3F800000, 0x33800000, 0x33800000]).headD 0 = 0x3F800000 := by decide +kernel

/-- R31: FP32 0x3F81_8000 lies halfway, and converts to the even BF16. -/
theorem test_convert_tie : convert (.float fp32) (.float bf16) .rne false 0x3F818000 = (0x3F82, .nx) := by decide +kernel

/-- R13: logical tile 77 has mesh identifier 0x091 at reset. -/
theorem test_mesh : (State.reset.physOf 77).map meshOf = some 0x091 := by decide +kernel

/-- R266, R273: the CRC-32C of 32 zero bytes, and the word that moves it to `s6`. -/
theorem test_crc : crc32c (List.replicate 32 0) = 0x8A9136AA ∧ reads' (.slot .t 0x14658000) (.tmovSPort 6 0x16) = true := by
  decide +kernel
end Sys2Proof.Tests
end

section
namespace Sys2Proof.Laws

open Machine
open Host (Cell)

/-! ### Nothing but the queue transport reads its sources

A request of the queue transport is performed on a state whose sources are already written (R292). So that it reads and writes what the
same access would from outside, no function that a host access reaches may look at the sources, or change them but for the device
reset, which clears them. A host write may disable a channel, and with that take up a beat of a tile that waits for it: what it
reaches is nearly all of the machine. Each function has one lemma `f_withQt` here, in the order of the model's files: what reads a state
gives the same, and what changes it commutes with exchanging the sources. -/

/-- The state with other sources of the queue transport. -/
def withQt (s : State) (x : List QtSource) : State := { s with qt := x }

theorem fields_withQt (s : State) (x : List QtSource) :
    (withQt s x).fixed = s.fixed ∧ (withQt s x).dev = s.dev ∧ (withQt s x).mem = s.mem ∧ (withQt s x).poison = s.poison
    ∧ (withQt s x).dir = s.dir ∧ (withQt s x).tiles = s.tiles ∧ (withQt s x).quads = s.quads ∧ (withQt s x).parts = s.parts
    ∧ (withQt s x).dies = s.dies ∧ (withQt s x).ports = s.ports ∧ (withQt s x).waiters = s.waiters
    ∧ (withQt s x).launchQ = s.launchQ ∧ (withQt s x).heldLines = s.heldLines ∧ (withQt s x).asks = s.asks
    ∧ (withQt s x).replies = s.replies ∧ (withQt s x).saved = s.saved ∧ (withQt s x).stores = s.stores
    ∧ (withQt s x).outputs = s.outputs ∧ (withQt s x).refTick = s.refTick ∧ (withQt s x).ptpLock = s.ptpLock
    ∧ (withQt s x).clockMax = s.clockMax ∧ (withQt s x).serial = s.serial ∧ (withQt s x).free = s.free
    ∧ (withQt s x).agenda = s.agenda ∧ (withQt s x).cur = s.cur := by
  refine ⟨rfl, rfl, rfl, rfl, rfl, rfl, rfl, rfl, rfl, rfl, rfl, rfl, rfl, rfl, rfl, rfl, rfl, rfl, rfl, rfl, rfl, rfl, rfl, rfl, rfl⟩

theorem update_withQt {fixed dev mem poison dir tiles quads parts dies ports waiters launchQ heldLines asks replies saved stores outputs
    refTick ptpLock clockMax serial free agenda cur} (s : State) (x : List QtSource) :
    State.mk fixed dev mem poison dir tiles quads parts dies ports waiters launchQ heldLines asks replies saved stores (withQt s x).qt
      outputs refTick ptpLock clockMax serial free agenda cur
    = withQt (State.mk fixed dev mem poison dir tiles quads parts dies ports waiters launchQ heldLines asks replies saved stores s.qt
      outputs refTick ptpLock clockMax serial free agenda cur) x := (rfl)

theorem ite_withQt (p : Prop) [Decidable p] (a b : State) (x : List QtSource) :
    (if p then withQt a x else withQt b x) = withQt (if p then a else b) x :=
  (apply_ite (withQt · x) _ _ _).symm

theorem foldl_withQt {ι : Type} {f : State → ι → State} (s : State) (x : List QtSource) (is : List ι)
    (h : ∀ s i, f (withQt s x) i = withQt (f s i) x) :
    is.foldl f (withQt s x) = withQt (is.foldl f s) x := by
  induction is generalizing s with
  | nil => rfl
  | cons i is ih => rw [List.foldl_cons, h, ih]; rfl

/-- What a run that may stop leaves, with other sources. -/
def carry {ε : Type} (x : List QtSource) : Except ε State → Except ε State
  | .ok u => .ok (withQt u x)
  | .error e => .error e

theorem carry_eqs {ε : Type} (x : List QtSource) :
    (∀ u, carry (ε := ε) x (.ok u) = .ok (withQt u x)) ∧ (∀ e : ε, carry x (.error e) = .error e)
    ∧ ∀ (p : Prop) [Decidable p] (a b : Except ε State), carry x (if p then a else b) = if p then carry x a else carry x b :=
  ⟨fun _ => rfl, fun _ => rfl, fun _ _ _ _ => apply_ite ..⟩

theorem foldl_carry {ε ι : Type} {f : Except ε State → ι → Except ε State} (s : State) (x : List QtSource) (is : List ι)
    (h : ∀ r i, f (carry x r) i = carry x (f r i)) : is.foldl f (.ok (withQt s x)) = carry x (is.foldl f (.ok s)) := by
  have run (r : Except ε State) : is.foldl f (carry x r) = carry x (is.foldl f r) := by
    induction is generalizing r with
    | nil => rfl
    | cons i is ih => rw [List.foldl_cons, h, ih]; rfl
  exact run (.ok s)

theorem map_eqs {ε α β : Type} (f : α → β) :
    (∀ u, Except.map (ε := ε) f (.ok u) = .ok (f u)) ∧ (∀ e : ε, Except.map f (.error e) = .error e)
    ∧ ∀ (p : Prop) [Decidable p] (a b : Except ε α), Except.map f (if p then a else b) = if p then a.map f else b.map f :=
  ⟨fun _ => rfl, fun _ => rfl, fun _ _ _ _ => apply_ite ..⟩

/-- What an operation that may not come about leaves, with other sources. -/
def maybe (x : List QtSource) : Option State → Option State
  | some u => some (withQt u x)
  | none => none

theorem maybe_eqs (x : List QtSource) :
    (∀ u, maybe x (some u) = some (withQt u x)) ∧ maybe x none = none
    ∧ ∀ (p : Prop) [Decidable p] (a b : Option State), maybe x (if p then a else b) = if p then maybe x a else maybe x b :=
  ⟨fun _ => rfl, rfl, fun _ _ _ _ => apply_ite ..⟩

/-- A state and what stands beside it, with other sources. -/
def besides {β : Type} (x : List QtSource) (p : State × β) : State × β := (withQt p.1 x, p.2)

/-- An operation that has started, with other sources. -/
def onOpn (x : List QtSource) (o : Opn) : Opn := { o with st := withQt o.st x }

theorem reads_onOpn (x : List QtSource) (o : Opn) :
    (onOpn x o).st = withQt o.st x ∧ (onOpn x o).srcs = o.srcs ∧ (onOpn x o).tag = o.tag ∧ (∀ i, (onOpn x o).sval i = o.sval i)
    ∧ (∀ i, (onOpn x o).vval i = o.vval i) ∧ (∀ i, (onOpn x o).qval i = o.qval i) ∧ (∀ n, (onOpn x o).sreg n = o.sreg n)
    ∧ (∀ u, (onOpn x o).topval u = o.topval u) ∧ (∀ i n, (onOpn x o).aval i n = o.aval i n)
    ∧ (∀ h, (onOpn x o).second h = o.second h) ∧ (∀ h w n, (onOpn x o).vsecond h w n = o.vsecond h w n)
    ∧ (∀ i u, (onOpn x o).stackval i u = o.stackval i u) := by
  refine ⟨rfl, rfl, rfl, fun _ => rfl, fun _ => rfl, fun _ => rfl, fun _ => rfl, fun _ => rfl, fun _ _ => rfl, fun _ => rfl,
    fun _ _ _ => rfl, fun _ _ => rfl⟩

section
variable (s : State) (x : List QtSource)

/-! #### The functions, file by file

A lemma whose proof is `(rfl)` is about a function that unfolds to the fields of `fields_withQt`; the parentheses keep `simp` from
taking it as a definitional equation, which would have to unfold the function again at each use. -/

/-! #### Mem -/

theorem ctrlByte_withQt (pa) : (withQt s x).ctrlByte pa = s.ctrlByte pa := (rfl)
theorem ctrlClear_withQt (pa b) :
    (withQt s x).ctrlClear pa b = withQt (s.ctrlClear pa b) x := by
  simp only [State.ctrlClear, fields_withQt, update_withQt, ite_withQt]
theorem dirLine_withQt (line) : (withQt s x).dirLine line = s.dirLine line := (rfl)
theorem setDir_withQt (d) :
    (withQt s x).setDir d = withQt (s.setDir d) x := by
  simp only [State.setDir, fields_withQt, update_withQt]
theorem cohByte_withQt (pa) : (withQt s x).cohByte pa = s.cohByte pa := (rfl)
theorem cohBytes_withQt (pa n) : (withQt s x).cohBytes pa n = s.cohBytes pa n := (rfl)
theorem cohPoisoned_withQt (line) : (withQt s x).cohPoisoned line = s.cohPoisoned line := (rfl)
theorem cached_withQt (unit part va) : (withQt s x).cached unit part va = s.cached unit part va := (rfl)
theorem xlate_withQt (unit part va) : (withQt s x).xlate unit part va = s.xlate unit part va := (rfl)
theorem cacheLeaf_withQt (unit part l) :
    (withQt s x).cacheLeaf unit part l = withQt (s.cacheLeaf unit part l) x := by
  simp only [State.cacheLeaf, fields_withQt, update_withQt]
theorem touchTlb_withQt (unit part va) :
    (withQt s x).touchTlb unit part va = withQt (s.touchTlb unit part va) x := by
  simp only [State.touchTlb, xlate_withQt, cacheLeaf_withQt]
  split <;> rfl
theorem access_withQt (quad part va need) : (withQt s x).access quad part va need = s.access quad part va need := (rfl)
theorem accessRange_withQt (quad part va n need) : (withQt s x).accessRange quad part va n need = s.accessRange quad part va n need := (rfl)

/-! #### Cache -/

theorem tile_withQt (t) : (withQt s x).tile t = s.tile t := (rfl)
theorem setTile_withQt (t y) :
    (withQt s x).setTile t y = withQt (s.setTile t y) x := by
  simp only [State.setTile, fields_withQt, update_withQt]
theorem modTile_withQt (t f) :
    (withQt s x).modTile t f = withQt (s.modTile t f) x := by
  simp only [State.modTile, setTile_withQt, tile_withQt]
theorem partOf_withQt (quad) : (withQt s x).partOf quad = s.partOf quad := (rfl)
theorem quadsOf_withQt (p) : (withQt s x).quadsOf p = s.quadsOf p := (rfl)
theorem tilesOf_withQt (p) : (withQt s x).tilesOf p = s.tilesOf p := (rfl)
theorem logicalOf_withQt (t) : (withQt s x).logicalOf t = s.logicalOf t := (rfl)
theorem writeBack_withQt (l) :
    (withQt s x).writeBack l = withQt (s.writeBack l) x := by
  simp only [State.writeBack, fields_withQt, update_withQt]
  split <;> rfl
theorem evict_withQt (t l) :
    (withQt s x).evict t l = withQt (s.evict t l) x := by
  simp only [State.evict, ite_withQt, dirLine_withQt, setDir_withQt, writeBack_withQt, modTile_withQt]
theorem trimStash_withQt (t) :
    (withQt s x).trimStash t = withQt (s.trimStash t) x := by
  simp only [State.trimStash, foldl_withQt, implies_true, tile_withQt, evict_withQt, modTile_withQt]
theorem useLines_withQt (t lines) :
    (withQt s x).useLines t lines = withQt (s.useLines t lines) x := by
  simp only [State.useLines, modTile_withQt]
theorem recall_withQt (line) :
    (withQt s x).recall line = withQt (s.recall line) x := by
  simp only [State.recall, dirLine_withQt, tile_withQt, setDir_withQt, writeBack_withQt, modTile_withQt]
  (repeat' split) <;> rfl
theorem sliceFor_withQt (quad line) : (withQt s x).sliceFor quad line = s.sliceFor quad line := (rfl)
theorem modPerf_withQt (slice f) :
    (withQt s x).modPerf slice f = withQt (s.modPerf slice f) x := by
  simp only [State.modPerf, fields_withQt, update_withQt]
theorem enterSlices_withQt (quad lines) :
    (withQt s x).enterSlices quad lines = withQt (s.enterSlices quad lines) x := by
  simp only [State.enterSlices, fields_withQt, update_withQt, foldl_withQt, implies_true, modPerf_withQt, sliceFor_withQt]
theorem leaveSlices_withQt (quad lines) :
    (withQt s x).leaveSlices quad lines = withQt (s.leaveSlices quad lines) x := by
  simp only [State.leaveSlices, foldl_withQt, implies_true, modPerf_withQt, sliceFor_withQt]
theorem request_withQt (quad lines) :
    (withQt s x).request quad lines = withQt (s.request quad lines) x := by
  simp only [State.request, leaveSlices_withQt, enterSlices_withQt]
theorem sliceDepth_withQt (slice) : (withQt s x).sliceDepth slice = s.sliceDepth slice := (rfl)
theorem askLines_withQt (t lines batch) :
    (withQt s x).askLines t lines batch = withQt (s.askLines t lines batch) x := by
  simp only [State.askLines, ite_withQt, foldl_withQt, implies_true, tile_withQt, sliceFor_withQt, sliceDepth_withQt, modTile_withQt,
    enterSlices_withQt]
theorem clearFills_withQt (t) :
    (withQt s x).clearFills t = withQt (s.clearFills t) x := by
  simp only [State.clearFills, leaveSlices_withQt, tile_withQt, modTile_withQt]
theorem others_withQt (quad) :
    (withQt s x).others quad = withQt (s.others quad) x := by
  simp only [State.others, fields_withQt, update_withQt]
theorem othersOn_withQt (quad part vas) :
    (withQt s x).othersOn quad part vas = withQt (s.othersOn quad part vas) x := by
  simp only [State.othersOn, ite_withQt, xlate_withQt, others_withQt]
theorem translates_withQt (quad part va) :
    (withQt s x).translates quad part va = withQt (s.translates quad part va) x := by
  simp only [State.translates, ite_withQt, touchTlb_withQt, cached_withQt, others_withQt]
theorem readSide_withQt (t line) :
    (withQt s x).readSide t line = withQt (s.readSide t line) x := by
  simp only [State.readSide, dirLine_withQt, modTile_withQt, setDir_withQt, tile_withQt]
theorem writeBackAll_withQt (part) :
    (withQt s x).writeBackAll part = withQt (s.writeBackAll part) x := by
  simp only [State.writeBackAll, ite_withQt, foldl_withQt, implies_true, modTile_withQt, writeBack_withQt, tile_withQt, tilesOf_withQt]
theorem launchCount_withQt (slice) : (withQt s x).launchCount slice = s.launchCount slice := (rfl)
theorem wake_withQt (w stamp) :
    (withQt s x).wake w stamp = withQt (s.wake w stamp) x := by
  simp only [State.wake, fields_withQt, update_withQt, ite_withQt, launchCount_withQt]
theorem wakeReached_withQt :
    (withQt s x).wakeReached = withQt (s.wakeReached) x := by
  simp only [State.wakeReached, fields_withQt, foldl_withQt, implies_true, wake_withQt]
theorem testWaiters_withQt (pa stamp) :
    (withQt s x).testWaiters pa stamp = withQt (s.testWaiters pa stamp) x := by
  simp only [State.testWaiters, fields_withQt, update_withQt, ite_withQt, foldl_withQt, implies_true, wake_withQt]
theorem markWritten_withQt (l cs) :
    (withQt s x).markWritten l cs = withQt (s.markWritten l cs) x := by
  simp only [State.markWritten, fields_withQt, update_withQt, dirLine_withQt, setDir_withQt]
theorem noteWrites_withQt (lines cs) :
    (withQt s x).noteWrites lines cs = withQt (s.noteWrites lines cs) x := by
  simp only [State.noteWrites, fields_withQt, ite_withQt, foldl_withQt, implies_true, markWritten_withQt, testWaiters_withQt,
    dirLine_withQt]
theorem lowWrite_withQt (cs) :
    (withQt s x).lowWrite cs = withQt (s.lowWrite cs) x := by
  simp only [State.lowWrite, fields_withQt, update_withQt, foldl_withQt, implies_true, recall_withQt, noteWrites_withQt, ctrlClear_withQt]
theorem lowBytes_withQt (pa n) : (withQt s x).lowBytes pa n = s.lowBytes pa n := (rfl)

/-! #### Records -/

theorem kernel_withQt (p id) : (withQt s x).kernel p id = s.kernel p id := (rfl)
theorem recordOk_withQt (p bs) : (withQt s x).recordOk p bs = s.recordOk p bs := (rfl)
theorem lineHeld_withQt (tile line) : (withQt s x).lineHeld tile line = s.lineHeld tile line := (rfl)
theorem stampLine_withQt (line) :
    (withQt s x).stampLine line = withQt (s.stampLine line) x := by
  simp only [State.stampLine, fields_withQt, dirLine_withQt, setDir_withQt]
theorem addAt_withQt (tile p pa n) :
    (withQt s x).addAt tile p pa n = withQt (s.addAt tile p pa n) x := by
  simp only [State.addAt, fields_withQt, update_withQt, ite_withQt, lineHeld_withQt, lowWrite_withQt, stampLine_withQt, lowBytes_withQt]
theorem counterPa_withQt (quad p va need) : (withQt s x).counterPa quad p va need = s.counterPa quad p va need := (rfl)
theorem addOrHold_withQt (p va pa n) :
    (withQt s x).addOrHold p va pa n = withQt (s.addOrHold p va pa n) x := by
  simp only [State.addOrHold, fields_withQt, update_withQt, addAt_withQt]
  split <;> rfl
theorem counterAdd_withQt (quad p va n) :
    (withQt s x).counterAdd quad p va n = carry x (s.counterAdd quad p va n) := by
  simp only [State.counterAdd, counterPa_withQt, addOrHold_withQt]
  split <;> rfl
theorem logBytes_withQt (r) : (withQt s x).logBytes r = s.logBytes r := (rfl)
theorem logAs_withQt (p r codes) :
    (withQt s x).logAs p r codes = withQt (s.logAs p r codes) x := by
  simp only [State.logAs, fields_withQt, logBytes_withQt, access_withQt, lowWrite_withQt]
  split
  · rfl
  generalize s.access p p _ Need.write = r
  cases r <;> simp only [fields_withQt, update_withQt, counterAdd_withQt]
  · split
    · rfl
    generalize State.counterAdd _ p p _ 1 = u
    cases u <;> rfl
  · split
    · rfl
    generalize State.counterAdd _ p p _ 1 = u
    cases u <;> rfl
theorem log_withQt (p r) :
    (withQt s x).log p r = withQt (s.log p r) x := by
  simp only [State.log, logAs_withQt]
theorem groupVa_withQt (p g) : (withQt s x).groupVa p g = s.groupVa p g := (rfl)
theorem groupApply_withQt (p g up pa) :
    (withQt s x).groupApply p g up pa = withQt (s.groupApply p g up pa) x := by
  simp only [State.groupApply, cohPoisoned_withQt, log_withQt, groupVa_withQt, cohBytes_withQt, stampLine_withQt, lowWrite_withQt,
    writeBackAll_withQt, counterAdd_withQt]
  generalize (if up = true then min _ _ else _ : Nat) = new
  split
  · rfl
  split
  · rfl
  split
  · rfl
  generalize State.counterAdd _ p p _ 1 = u
  cases u <;> rfl
theorem groupUpdate_withQt (p g up) :
    (withQt s x).groupUpdate p g up = withQt (s.groupUpdate p g up) x := by
  simp only [State.groupUpdate, groupVa_withQt, access_withQt, log_withQt, lineHeld_withQt, fields_withQt, update_withQt, request_withQt,
    groupApply_withQt, ite_withQt]
  split <;> rfl
theorem groupsUpdate_withQt (p gs up) :
    (withQt s x).groupsUpdate p gs up = withQt (s.groupsUpdate p gs up) x := by
  simp only [State.groupsUpdate, foldl_withQt, groupUpdate_withQt, ite_withQt, implies_true]
theorem queueVa_withQt (quad n) : (withQt s x).queueVa quad n = s.queueVa quad n := (rfl)
theorem queueStatus_withQt (quad n status) :
    (withQt s x).queueStatus quad n status = withQt (s.queueStatus quad n status) x := by
  simp only [State.queueStatus, ite_withQt, queueVa_withQt, access_withQt, partOf_withQt, cohPoisoned_withQt, cohByte_withQt,
    lowWrite_withQt]
  split <;> rfl
theorem queueEnabled_withQt (quad n) : (withQt s x).queueEnabled quad n = s.queueEnabled quad n := (rfl)
theorem fencePart_withQt (p r) :
    (withQt s x).fencePart p r = withQt (s.fencePart p r) x := by
  simp only [State.fencePart, fields_withQt, update_withQt, ite_withQt, foldl_withQt, implies_true, log_withQt, modTile_withQt,
    tilesOf_withQt, queueEnabled_withQt, queueStatus_withQt, quadsOf_withQt]
theorem fenced_withQt (p) : (withQt s x).fenced p = s.fenced p := (rfl)

/-! #### Operands -/

theorem here_withQt : (withQt s x).here = s.here := (rfl)
theorem me_withQt : (withQt s x).me = s.me := (rfl)
theorem setMe_withQt (k) :
    (withQt s x).setMe k = withQt (s.setMe k) x := by
  simp only [State.setMe, fields_withQt, modTile_withQt]
theorem modMe_withQt (f) :
    (withQt s x).modMe f = withQt (s.modMe f) x := by
  simp only [State.modMe, setMe_withQt, me_withQt]
theorem modRegs_withQt (f) :
    (withQt s x).modRegs f = withQt (s.modRegs f) x := by
  simp only [State.modRegs, fields_withQt, ite_withQt, modMe_withQt, modTile_withQt, me_withQt]
theorem myUnit_withQt : (withQt s x).myUnit = s.myUnit := (rfl)
theorem injFires_withQt : (withQt s x).injFires = s.injFires := (rfl)
theorem substitute_withQt (srcs) : (withQt s x).substitute srcs = s.substitute srcs := (rfl)
theorem lockedReg_withQt (r) : (withQt s x).lockedReg r = s.lockedReg r := (rfl)
theorem earlyRead_withQt (r) : (withQt s x).earlyRead r = s.earlyRead r := (rfl)
theorem spendInj_withQt :
    (withQt s x).spendInj = withQt (s.spendInj) x := by
  simp only [State.spendInj, fields_withQt, injFires_withQt, modMe_withQt]
  split <;> rfl
theorem tagOf_withQt (opc destcode srcs pq) : (withQt s x).tagOf opc destcode srcs pq = s.tagOf opc destcode srcs pq := (rfl)
theorem begin_withQt (opc destcode dests srcs pq live more) :
    (withQt s x).begin opc destcode dests srcs pq live more = (s.begin opc destcode dests srcs pq live more).map (onOpn x) := by
  simp only [State.begin, fields_withQt, me_withQt, lockedReg_withQt, earlyRead_withQt, substitute_withQt, tagOf_withQt, injFires_withQt,
    setMe_withQt]
  split
  · rfl
  · split <;> rfl
theorem land_withQt (lat wr dests tag flags) :
    (withQt s x).land lat wr dests tag flags = withQt (s.land lat wr dests tag flags) x := by
  simp only [State.land, fields_withQt, modMe_withQt]
theorem hold_withQt (e) :
    (withQt s x).hold_ e = withQt (s.hold_ e) x := by
  simp only [State.hold_, fields_withQt, modMe_withQt]

/-! #### Ops -/

theorem frameOf_withQt (p) : (withQt s x).frameOf p = s.frameOf p := (rfl)
theorem clearedOf_withQt (p owner waits waitBlk) : (withQt s x).clearedOf p owner waits waitBlk = s.clearedOf p owner waits waitBlk := (rfl)
theorem cleared_withQt (waits waitBlk k) : (withQt s x).cleared waits waitBlk k = s.cleared waits waitBlk k := (rfl)
theorem nextDue_withQt (t) : (withQt s x).nextDue t = s.nextDue t := (rfl)
theorem dueOf_withQt (t d) : (withQt s x).dueOf t d = s.dueOf t d := (rfl)
theorem oPending_withQt : (withQt s x).oPending = s.oPending := (rfl)
theorem oAccess_withQt :
    (withQt s x).oAccess = carry x (s.oAccess) := by
  simp only [State.oAccess, fields_withQt, carry_eqs, me_withQt, oPending_withQt, cleared_withQt, setMe_withQt, modTile_withQt]
theorem beginO_withQt (opc destcode dests srcs more) :
    (withQt s x).beginO opc destcode dests srcs more = (s.beginO opc destcode dests srcs more).map (onOpn x) := by
  simp only [State.beginO, begin_withQt]
  generalize State.begin _ _ _ _ _ _ _ _ = r
  cases r with
  | error e => rfl
  | ok o =>
    simp only [map_eqs, reads_onOpn, oAccess_withQt]
    generalize State.oAccess _ = a
    cases a <;> rfl
theorem beginT_withQt (opc destcode dests srcs more) :
    (withQt s x).beginT opc destcode dests srcs more = (s.beginT opc destcode dests srcs more).map (onOpn x) := by
  simp only [State.beginT, map_eqs, oPending_withQt, begin_withQt]
theorem header_withQt (t k cls) : (withQt s x).header t k cls = s.header t k cls := (rfl)
theorem spoilCtx_withQt (t k) :
    (withQt s x).spoilCtx t k = withQt (s.spoilCtx t k) x := by
  simp only [State.spoilCtx, fields_withQt, update_withQt, accessRange_withQt, lowWrite_withQt]
  split <;> rfl
theorem ctxCells_withQt (t k head mark) : (withQt s x).ctxCells t k head mark = s.ctxCells t k head mark := (rfl)
theorem saveCtx_withQt (t k cls full) :
    (withQt s x).saveCtx t k cls full = carry x (s.saveCtx t k cls full) := by
  simp only [State.saveCtx, fields_withQt, update_withQt, foldl_withQt, implies_true, tile_withQt, header_withQt, access_withQt,
    ctxCells_withQt, lowWrite_withQt]
  (repeat' split) <;> rfl
theorem fetch_withQt (t p va) : (withQt s x).fetch t p va = s.fetch t p va := (rfl)
theorem codeAt_withQt (t k va) : (withQt s x).codeAt t k va = s.codeAt t k va := (rfl)
theorem sealAhead_withQt (t k n va) :
    (withQt s x).sealAhead t k n va = s.sealAhead t k n va := by
  induction n generalizing va with
  | zero => rfl
  | succ n ih => simp only [State.sealAhead, codeAt_withQt, ih]
theorem launchEnded_withQt (p id) :
    (withQt s x).launchEnded p id = withQt (s.launchEnded p id) x := by
  simp only [State.launchEnded, fields_withQt, update_withQt]
theorem mergeAppend_withQt (p r id l) :
    (withQt s x).mergeAppend p r id l = withQt (s.mergeAppend p r id l) x := by
  simp only [State.mergeAppend, fields_withQt, update_withQt, fencePart_withQt, accessRange_withQt, lowWrite_withQt]
  (repeat' split) <;> rfl
theorem mergeSync_withQt (p k) :
    (withQt s x).mergeSync p k = withQt (s.mergeSync p k) x := by
  unfold State.mergeSync
  rw [foldl_withQt _ _ _ fun s l => ?_]
  · simp only [fields_withQt, update_withQt]
  · simp only [fields_withQt, mergeAppend_withQt]
    split <;> rfl
theorem freeTile_withQt (t) :
    (withQt s x).freeTile t = withQt (s.freeTile t) x := by
  simp only [State.freeTile, modTile_withQt, clearFills_withQt]
theorem releaseChans_withQt (p id) :
    (withQt s x).releaseChans p id = withQt (s.releaseChans p id) x := by
  simp only [State.releaseChans, fields_withQt, update_withQt]
theorem frameBusy_withQt (p) : (withQt s x).frameBusy p = s.frameBusy p := (rfl)
theorem noteFrame_withQt (p) :
    (withQt s x).noteFrame p = withQt (s.noteFrame p) x := by
  simp only [State.noteFrame, fields_withQt, update_withQt, ite_withQt, frameBusy_withQt]
theorem leaveGroups_withQt (p r) :
    (withQt s x).leaveGroups p r = withQt (s.leaveGroups p r) x := by
  simp only [State.leaveGroups, fields_withQt, update_withQt, groupsUpdate_withQt, ite_withQt]
  split <;> rfl
theorem endTask_withQt (t k) :
    (withQt s x).endTask t k = withQt (s.endTask t k) x := by
  simp only [State.endTask, releaseChans_withQt, mergeSync_withQt, leaveGroups_withQt, launchEnded_withQt, freeTile_withQt,
    noteFrame_withQt]
theorem gangOf_withQt (t) : (withQt s x).gangOf t = s.gangOf t := (rfl)
theorem putTask_withQt (t k) :
    (withQt s x).putTask t k = withQt (s.putTask t k) x := by
  simp only [State.putTask, modTile_withQt]
theorem acknowledge_withQt (serial io) :
    (withQt s x).acknowledge serial io = withQt (s.acknowledge serial io) x := by
  simp only [State.acknowledge, fields_withQt, update_withQt]
theorem applyPeer_withQt (t) :
    (withQt s x).applyPeer t = withQt (s.applyPeer t) x := by
  simp only [State.applyPeer, tile_withQt, modTile_withQt, acknowledge_withQt, putTask_withQt]
  (repeat' split) <;> rfl
theorem flushPeer_withQt (t) :
    (withQt s x).flushPeer t = withQt (s.flushPeer t) x := by
  simp only [State.flushPeer, foldl_withQt, implies_true, applyPeer_withQt, tile_withQt]
theorem logInject_withQt (t k replayed) :
    (withQt s x).logInject t k replayed = withQt (s.logInject t k replayed) x := by
  simp only [State.logInject, foldl_withQt, implies_true, log_withQt]
theorem endEntry_withQt (p id) :
    (withQt s x).endEntry p id = withQt (s.endEntry p id) x := by
  simp only [State.endEntry, fields_withQt, update_withQt, noteFrame_withQt, tilesOf_withQt]
  refine foldl_withQt _ _ _ fun s m => ?_
  simp only [tile_withQt, endTask_withQt, modTile_withQt, ite_withQt]
  split <;> rfl
theorem ctxFail_withQt (t k r c va) :
    (withQt s x).ctxFail t k r c va = withQt (s.ctxFail t k r c va) x := by
  simp only [State.ctxFail, logInject_withQt, log_withQt, endEntry_withQt, freeTile_withQt, endTask_withQt, ite_withQt]
theorem abort_withQt (t i) :
    (withQt s x).abort t i = withQt (s.abort t i) x := by
  simp only [State.abort, flushPeer_withQt, tile_withQt, logInject_withQt, log_withQt, endEntry_withQt, saveCtx_withQt, spoilCtx_withQt,
    ctxFail_withQt]
  split
  · rfl
  split
  · rfl
  generalize State.saveCtx _ t _ _ true = u
  cases u <;> simp only [carry_eqs, log_withQt, endTask_withQt]
theorem backAt_withQt :
    (withQt s x).backAt = s.backAt := by
  simp only [State.backAt, fields_withQt, me_withQt, sealAhead_withQt]
theorem takeBack_withQt (t k) :
    (withQt s x).takeBack t k = withQt (s.takeBack t k) x := by
  simp only [State.takeBack, fields_withQt, update_withQt, ite_withQt, tile_withQt, modTile_withQt]
theorem faultAt_withQt (c cls data) :
    (withQt s x).faultAt c cls data = withQt (s.faultAt c cls data) x := by
  simp only [State.faultAt, fields_withQt, abort_withQt, takeBack_withQt, backAt_withQt]
theorem lateAt_withQt (c bundle data step upto) :
    (withQt s x).lateAt c bundle data step upto = withQt (s.lateAt c bundle data step upto) x := by
  simp only [State.lateAt, fields_withQt, abort_withQt, takeBack_withQt, backAt_withQt]
theorem skipAt_withQt (c data) :
    (withQt s x).skipAt c data = withQt (s.skipAt c data) x := by
  simp only [State.skipAt, fields_withQt, me_withQt, abort_withQt, setMe_withQt]
theorem busyAt_withQt (p t ltick beats ticks) :
    (withQt s x).busyAt p t ltick beats ticks = withQt (s.busyAt p t ltick beats ticks) x := by
  simp only [State.busyAt, fields_withQt, update_withQt, ite_withQt, logicalOf_withQt]
  split <;> rfl
theorem busyHold_withQt (t n) :
    (withQt s x).busyHold t n = withQt (s.busyHold t n) x := by
  simp only [State.busyHold, fields_withQt, ite_withQt, tile_withQt, modTile_withQt, busyAt_withQt, frameOf_withQt]
  split <;> rfl
theorem busyBeats_withQt (p t beats) :
    (withQt s x).busyBeats p t beats = withQt (s.busyBeats p t beats) x := by
  simp only [State.busyBeats, fields_withQt, ite_withQt, foldl_withQt, implies_true, frameOf_withQt, busyAt_withQt]
theorem raiseHold_withQt (t h) :
    (withQt s x).raiseHold t h = withQt (s.raiseHold t h) x := by
  simp only [State.raiseHold, fields_withQt, update_withQt, foldl_withQt, implies_true, modTile_withQt, busyHold_withQt, gangOf_withQt,
    tile_withQt, askLines_withQt]
  split <;> rfl
theorem decodeAt_withQt (c) :
    (withQt s x).decodeAt c = withQt (s.decodeAt c) x := by
  simp only [State.decodeAt, fields_withQt, ite_withQt, me_withQt, modTile_withQt, takeBack_withQt, sealAhead_withQt, faultAt_withQt]
theorem settled_withQt (e) :
    (withQt s x).settled (.error e) = withQt (s.settled (.error e)) x := by
  cases e <;> simp only [State.settled, decodeAt_withQt, faultAt_withQt, skipAt_withQt, lateAt_withQt, raiseHold_withQt, fields_withQt]
theorem idle_withQt (t) : (withQt s x).idle t = s.idle t := (rfl)
theorem requestPreempt_withQt (p prio) :
    (withQt s x).requestPreempt p prio = withQt (s.requestPreempt p prio) x := by
  simp only [State.requestPreempt, fields_withQt, tilesOf_withQt, idle_withQt, tile_withQt, modTile_withQt]
  (repeat' split) <;> rfl
theorem returnRecord_withQt (p t r) :
    (withQt s x).returnRecord p t r = withQt (s.returnRecord p t r) x := by
  simp only [State.returnRecord, fields_withQt, update_withQt, requestPreempt_withQt]
theorem giveUp_withQt (t f raf why) :
    (withQt s x).giveUp t f raf why = withQt (s.giveUp t f raf why) x := by
  simp only [State.giveUp, flushPeer_withQt, tile_withQt, saveCtx_withQt, spoilCtx_withQt, ctxFail_withQt]
  split
  · rfl
  generalize State.saveCtx _ t _ .v true = u
  cases u <;> simp only [carry_eqs, freeTile_withQt, returnRecord_withQt]
theorem placeOf_withQt (t p) : (withQt s x).placeOf t p = s.placeOf t p := (rfl)
theorem freshTask_withQt (p r) : (withQt s x).freshTask p r = s.freshTask p r := (rfl)
theorem resumedTask_withQt (t p r y) : (withQt s x).resumedTask t p r y = s.resumedTask t p r y := (rfl)
theorem placeTask_withQt (t p r y) :
    (withQt s x).placeTask t p r y = withQt (s.placeTask t p r y) x := by
  simp only [State.placeTask, resumedTask_withQt, modTile_withQt, placeOf_withQt, fields_withQt, trimStash_withQt, ctxFail_withQt,
    freshTask_withQt]
  split
  · split <;> rfl
  · rfl
theorem hangAt_withQt (t k b) : (withQt s x).hangAt t k b = s.hangAt t k b := (rfl)
theorem hang_withQt (t f) :
    (withQt s x).hang t f = withQt (s.hang t f) x := by
  simp only [State.hang, tile_withQt, abort_withQt, modTile_withQt, takeBack_withQt, sealAhead_withQt, putTask_withQt, ite_withQt]
  split <;> rfl

/-! #### Tensor -/

theorem tensor_withQt (p id) : (withQt s x).tensor p id = s.tensor p id := (rfl)
theorem engBytes_withQt (quad part stash va n) : (withQt s x).engBytes quad part stash va n = s.engBytes quad part stash va n := (rfl)
theorem engWrite_withQt (quad part cs) :
    (withQt s x).engWrite quad part cs = carry x (s.engWrite quad part cs) := by
  simp only [State.engWrite, access_withQt, cohPoisoned_withQt, lowWrite_withQt]
  split
  · rfl
  · generalize List.find? _ _ = r
    cases r <;> rfl
theorem storedFrame_withQt (quad part stash d f verify) :
    (withQt s x).storedFrame quad part stash d f verify = s.storedFrame quad part stash d f verify := (rfl)
theorem freeBytes_withQt (n) : (withQt s x).freeBytes n = s.freeBytes n := (rfl)
theorem storeFrame_withQt (quad part d f v) :
    (withQt s x).storeFrame quad part d f v = carry x (s.storeFrame quad part d f v) := by
  simp only [State.storeFrame, freeBytes_withQt, fields_withQt, update_withQt, engWrite_withQt]
theorem engineDie_withQt (u d) : (withQt s x).engineDie u d = s.engineDie u d := (rfl)
theorem closeFrame_withQt (die w) :
    (withQt s x).closeFrame die w = withQt (s.closeFrame die w) x := by
  simp only [State.closeFrame, fields_withQt, update_withQt, storedFrame_withQt, log_withQt, storeFrame_withQt]
  generalize (if _ ≤ w.bytes.length then Except.ok _ else State.storedFrame _ _ _ _ _ _ _ : Except (Cause × Nat) FrameView) = old
  cases old with
  | error e => rfl
  | ok v =>
    dsimp only
    generalize State.storeFrame _ _ _ _ _ _ = r
    cases r <;> rfl
theorem asClosed_withQt :
    (withQt s x).asClosed = withQt s.asClosed x := by
  simp only [State.asClosed, fields_withQt, foldl_withQt, closeFrame_withQt, implies_true]
theorem wcWait_withQt (p d) : (withQt s x).wcWait p d = s.wcWait p d := (rfl)

/-! #### LoadStore -/

theorem inRound_withQt (k) : (withQt s x).inRound k = s.inRound k := (rfl)
theorem loadRow_withQt (va n) : (withQt s x).loadRow va n = s.loadRow va n := (rfl)
theorem loadRows_withQt (n vas) :
    (withQt s x).loadRows n vas = (s.loadRows n vas).map (besides x) := by
  simp only [State.loadRows, here_withQt, loadRow_withQt, fields_withQt, modMe_withQt, useLines_withQt, clearFills_withQt, foldl_withQt,
    readSide_withQt, translates_withQt, me_withQt, ite_withQt, implies_true, map_eqs]
  congr 1
  split
  · rfl
  · simp only [map_eqs, besides]
theorem startLd_withQt (d base sz signed off) :
    startLd d base sz signed off (withQt s x) = carry x (startLd d base sz signed off s) := by
  simp only [startLd, beginO_withQt, me_withQt]
  generalize State.beginO _ _ _ _ _ _ = r
  cases r with
  | error e => rfl
  | ok o =>
    simp only [map_eqs, reads_onOpn, me_withQt, loadRows_withQt, carry_eqs]
    generalize State.loadRows _ _ _ = l
    cases l <;> simp only [map_eqs, besides, carry_eqs, land_withQt]
theorem startVld_withQt (v base stride) :
    startVld v base stride (withQt s x) = carry x (startVld v base stride s) := by
  simp only [startVld, beginO_withQt, me_withQt]
  generalize State.beginO _ _ _ _ _ _ = r
  cases r with
  | error e => rfl
  | ok o =>
    simp only [map_eqs, reads_onOpn, me_withQt, loadRow_withQt, loadRows_withQt]
    split
    · rfl
    · generalize State.loadRows _ _ _ = l
      cases l <;> simp only [map_eqs, besides, carry_eqs, land_withQt]
theorem canPin_withQt (lines) : (withQt s x).canPin lines = s.canPin lines := (rfl)
theorem storeRow_withQt (va n more) : (withQt s x).storeRow va n more = s.storeRow va n more := (rfl)
theorem bufferRoom_withQt :
    (withQt s x).bufferRoom = s.bufferRoom := by
  simp only [State.bufferRoom, fields_withQt, me_withQt, sealAhead_withQt]
theorem buffer_withQt (hs) :
    (withQt s x).buffer hs = withQt (s.buffer hs) x := by
  simp only [State.buffer, fields_withQt, modMe_withQt]
theorem startSt_withQt (n base sz off) :
    startSt n base sz off (withQt s x) = carry x (startSt n base sz off s) := by
  simp only [startSt, beginO_withQt, fields_withQt]
  generalize State.beginO _ _ _ _ _ _ = r
  cases r with
  | error e => rfl
  | ok o =>
    simp only [map_eqs, reads_onOpn, me_withQt, storeRow_withQt, bufferRoom_withQt, buffer_withQt, carry_eqs]
    generalize State.storeRow _ _ _ _ = l
    cases l <;> simp only [carry_eqs]
theorem storeRows_withQt (vas) : (withQt s x).storeRows vas = s.storeRows vas := (rfl)
theorem startVst_withQt (v base stride) :
    startVst v base stride (withQt s x) = carry x (startVst v base stride s) := by
  simp only [startVst, beginO_withQt, me_withQt, fields_withQt]
  generalize State.beginO _ _ _ _ _ _ = r
  cases r with
  | error e => rfl
  | ok o =>
    simp only [map_eqs, reads_onOpn, me_withQt, storeRow_withQt, storeRows_withQt, bufferRoom_withQt, buffer_withQt]
    split
    · rfl
    · split
      · rfl
      · simp only [carry_eqs]
theorem entryCells_withQt (k d xs) : (withQt s x).entryCells k d xs = s.entryCells k d xs := (rfl)
theorem startStq_withQt (dq t c) :
    startStq dq t c (withQt s x) = carry x (startStq dq t c s) := by
  simp only [startStq, beginO_withQt, tensor_withQt, access_withQt, fields_withQt, canPin_withQt, wcWait_withQt, entryCells_withQt]
  generalize State.beginO _ _ _ _ _ _ = r
  cases r with
  | error e => rfl
  | ok o =>
    simp only [map_eqs, reads_onOpn, me_withQt, modRegs_withQt, hold_withQt]
    split
    · rfl
    · simp only [carry_eqs]
      iterate 4 congr 1
      split
      · rfl
      · simp only [carry_eqs]
        iterate 2 congr 1
        split <;> rfl
theorem ringOp_withQt (opc dest g bad) {f h : Opn → BitVec 3 → Ring → Except Stop State}
    (same : ∀ o n r, f (onOpn x o) n r = carry x (h o n r)) :
    (withQt s x).ringOp opc dest g bad f = carry x (s.ringOp opc dest g bad h) := by
  simp only [State.ringOp, begin_withQt]
  generalize State.begin _ _ _ _ _ _ _ _ = r
  cases r <;> simp only [map_eqs, carry_eqs, reads_onOpn, me_withQt, same]
theorem startRacq_withQt (d g) :
    startRacq d g (withQt s x) = carry x (startRacq d g s) := by
  refine ringOp_withQt s x _ _ _ _ fun o n r => ?_
  simp only [reads_onOpn, modRegs_withQt, land_withQt, carry_eqs]
theorem startRget_withQt (d g) :
    startRget d g (withQt s x) = carry x (startRget d g s) := by
  refine ringOp_withQt s x _ _ _ _ fun o n r => ?_
  simp only [reads_onOpn, modRegs_withQt, land_withQt, carry_eqs]
theorem startRpub_withQt (g) :
    startRpub g (withQt s x) = carry x (startRpub g s) := by
  refine ringOp_withQt s x _ _ _ _ fun o n r => ?_
  simp only [reads_onOpn, me_withQt, hold_withQt, carry_eqs]
theorem startRrel_withQt (g) :
    startRrel g (withQt s x) = carry x (startRrel g s) := by
  refine ringOp_withQt s x _ _ _ _ fun o n r => ?_
  simp only [reads_onOpn, me_withQt, hold_withQt, carry_eqs]
theorem startSflush_withQt (base lines) :
    startSflush base lines (withQt s x) = carry x (startSflush base lines s) := by
  simp only [startSflush, begin_withQt]
  generalize State.begin _ _ _ _ _ _ _ _ = r
  cases r <;> simp only [carry_eqs, map_eqs, reads_onOpn, hold_withQt]
theorem startSinv_withQt (base lines) :
    startSinv base lines (withQt s x) = carry x (startSinv base lines s) := by
  simp only [startSinv, begin_withQt]
  generalize State.begin _ _ _ _ _ _ _ _ = r
  cases r <;> simp only [carry_eqs, map_eqs, reads_onOpn, hold_withQt]

/-! #### Slices -/

theorem takeId_withQt (p) : (withQt s x).takeId p = ((s.takeId p).1, withQt (s.takeId p).2 x) := rfl
theorem generalFree_withQt (p) : (withQt s x).generalFree p = s.generalFree p := (rfl)
theorem reservedFree_withQt (p d) : (withQt s x).reservedFree p d = s.reservedFree p d := (rfl)
theorem enterCommons_withQt (p r slot stamp) :
    (withQt s x).enterCommons p r slot stamp = withQt (s.enterCommons p r slot stamp) x := by
  simp only [State.enterCommons, fields_withQt, update_withQt, requestPreempt_withQt]
theorem newRecord_withQt (p r) :
    (withQt s x).newRecord p r = ((s.newRecord p r).1, withQt (s.newRecord p r).2 x) := by
  simp only [State.newRecord, takeId_withQt, groupsUpdate_withQt]
theorem amoAt_withQt (pa op wide a b) :
    (withQt s x).amoAt pa op wide a b = ((s.amoAt pa op wide a b).1, withQt (s.amoAt pa op wide a b).2 x) := by
  simp only [State.amoAt, cohBytes_withQt, recall_withQt, stampLine_withQt, lowWrite_withQt]
  split <;> rfl
theorem reply_withQt (tile serial v) :
    (withQt s x).reply tile serial v = withQt (s.reply tile serial v) x := by
  simp only [State.reply, fields_withQt, update_withQt, ite_withQt]
theorem amocAt_withQt (p pa tile serial op cc v r) :
    (withQt s x).amocAt p pa tile serial op cc v r = maybe x (s.amocAt p pa tile serial op cc v r) := by
  simp only [State.amocAt, lowBytes_withQt, reply_withQt, launchCount_withQt, writeBackAll_withQt, amoAt_withQt, newRecord_withQt,
    fields_withQt, update_withQt, maybe_eqs]
theorem tileOfTask_withQt (p id) : (withQt s x).tileOfTask p id = s.tileOfTask p id := (rfl)
theorem respondTo_withQt (p id addr c data left) :
    (withQt s x).respondTo p id addr c data left = withQt (s.respondTo p id addr c data left) x := by
  simp only [State.respondTo, tileOfTask_withQt, modTile_withQt, log_withQt]
  split <;> rfl
theorem dropLock_withQt (serial) :
    (withQt s x).dropLock serial = withQt (s.dropLock serial) x := by
  simp only [State.dropLock, fields_withQt, update_withQt]
theorem sliceEffect_withQt (h) :
    (withQt s x).sliceEffect h = maybe x (s.sliceEffect h) := by
  simp only [State.sliceEffect, cohPoisoned_withQt, dropLock_withQt, respondTo_withQt, writeBackAll_withQt, stampLine_withQt,
    lowWrite_withQt, lowBytes_withQt, amoAt_withQt, reply_withQt, amocAt_withQt, groupApply_withQt, ite_withQt, maybe_eqs]
  congr 1
  cases h.op <;> rfl
theorem performHeld_withQt (h) :
    (withQt s x).performHeld h = maybe x (s.performHeld h) := by
  simp only [State.performHeld, enterSlices_withQt, ite_withQt, sliceEffect_withQt]
  generalize State.sliceEffect _ h = r
  cases r with
  | none => rfl
  | some u =>
    simp only [maybe_eqs, leaveSlices_withQt, tileOfTask_withQt, readSide_withQt, ite_withQt]
    congr 1
    split <;> rfl
theorem sliceFull_withQt (p line) : (withQt s x).sliceFull p line = s.sliceFull p line := (rfl)
theorem arrive_withQt (p pa op va l2) :
    (withQt s x).arrive p pa op va l2 = withQt (s.arrive p pa op va l2) x := by
  simp only [State.arrive, sliceFull_withQt, me_withQt, fields_withQt, update_withQt, enterSlices_withQt, lineHeld_withQt,
    performHeld_withQt, ite_withQt]
  generalize State.performHeld _ _ = r
  cases r <;> simp only [maybe_eqs, ite_withQt]
theorem groupFrom_withQt (p tile g up) :
    (withQt s x).groupFrom p tile g up = withQt (s.groupFrom p tile g up) x := by
  simp only [State.groupFrom, groupVa_withQt, access_withQt, log_withQt, arrive_withQt]
  split <;> rfl
theorem holdMerge_withQt (p id op) :
    (withQt s x).holdMerge p id op = withQt (s.holdMerge p id op) x := by
  simp only [State.holdMerge, fields_withQt, update_withQt]

/-! #### DSlot -/

theorem beginD_withQt (i) :
    (withQt s x).beginD i = (s.beginD i).map (onOpn x) := by
  simp only [State.beginD, begin_withQt]
theorem beginDO_withQt (i) : (withQt s x).beginDO i = (s.beginDO i).map (onOpn x) := beginO_withQt ..
theorem beginDT_withQt (i) :
    (withQt s x).beginDT i = (s.beginDT i).map (onOpn x) := by
  simp only [State.beginDT, beginT_withQt]
theorem respond_withQt (c data) :
    (withQt s x).respond c data = withQt (s.respond c data) x := by
  simp only [State.respond, fields_withQt, modMe_withQt]
theorem fresh_withQt : (withQt s x).fresh = (s.fresh.1, withQt s.fresh.2 x) := rfl
theorem lockReg_withQt (d tag line) :
    (withQt s x).lockReg d tag line = ((s.lockReg d tag line).1, withQt (s.lockReg d tag line).2 x) := by
  simp only [State.lockReg, fresh_withQt, fields_withQt, modMe_withQt]
  split <;> rfl
theorem counterAt_withQt (va need) : (withQt s x).counterAt va need = s.counterAt va need := (rfl)
theorem caddOf_withQt (i) {val : Opn → Word64} (same : ∀ o, val (onOpn x o) = val o) :
    (withQt s x).caddOf i val = carry x (s.caddOf i val) := by
  simp only [State.caddOf, beginDO_withQt, counterAt_withQt, inRound_withQt, fields_withQt]
  generalize State.beginDO _ _ = r
  cases r with
  | error e => rfl
  | ok o =>
    simp only [map_eqs, reads_onOpn, me_withQt, holdMerge_withQt, arrive_withQt, same]
    split
    · rfl
    · simp only [carry_eqs]
theorem startCadd_withQt (a n) : startCadd a n (withQt s x) = carry x (startCadd a n s) := caddOf_withQt s x _ fun _ => rfl
theorem startCaddImm_withQt (a v) : startCaddImm a v (withQt s x) = carry x (startCaddImm a v s) := caddOf_withQt s x _ fun _ => rfl
theorem counterRead_withQt (pa) : (withQt s x).counterRead pa = s.counterRead pa := (rfl)
theorem creadPoisoned_withQt (i va) :
    (withQt s x).creadPoisoned i va = withQt (s.creadPoisoned i va) x := by
  simp only [State.creadPoisoned, fields_withQt, modMe_withQt]
theorem startCread_withQt (d a) :
    startCread d a (withQt s x) = carry x (startCread d a s) := by
  simp only [startCread, beginDO_withQt, here_withQt, access_withQt, myUnit_withQt, me_withQt, cohPoisoned_withQt, lowBytes_withQt,
    inRound_withQt, fields_withQt, counterRead_withQt]
  generalize State.beginDO _ _ = r
  cases r with
  | error e => rfl
  | ok o =>
    simp only [map_eqs, reads_onOpn, creadPoisoned_withQt, modMe_withQt, readSide_withQt, lockReg_withQt, reply_withQt, carry_eqs]
    iterate 2 congr 1
    split <;> simp only [carry_eqs]
theorem startCwait_withQt (a t m b) :
    startCwait a t m b (withQt s x) = carry x (startCwait a t m b s) := by
  simp only [startCwait, beginDO_withQt, me_withQt, counterAt_withQt]
  generalize State.beginDO _ _ = r
  cases r with
  | error e => rfl
  | ok o =>
    simp only [map_eqs, reads_onOpn, modMe_withQt, carry_eqs]
    congr 1
    split
    · rfl
    · split <;> rfl
theorem suspendFor_withQt (op) :
    (withQt s x).suspendFor op = withQt (s.suspendFor op) x := by
  simp only [State.suspendFor, me_withQt, holdMerge_withQt, modMe_withQt]
  split <;> rfl
theorem startAmo_withQt (op wide d a n) :
    startAmo op wide d a n (withQt s x) = carry x (startAmo op wide d a n s) := by
  simp only [startAmo, beginDO_withQt, access_withQt, myUnit_withQt, me_withQt, inRound_withQt, fields_withQt]
  generalize State.beginDO _ _ = r
  cases r with
  | error e => rfl
  | ok o =>
    simp only [map_eqs, reads_onOpn, suspendFor_withQt, lockReg_withQt, arrive_withQt, carry_eqs]
    congr 1
    split <;> simp only [carry_eqs]
theorem template_withQt (quad p va) : (withQt s x).template quad p va = s.template quad p va := (rfl)
theorem startAmoc_withQt (op cc d a n) :
    startAmoc op cc d a n (withQt s x) = carry x (startAmoc op cc d a n s) := by
  simp only [startAmoc, beginDO_withQt, access_withQt, myUnit_withQt, me_withQt, inRound_withQt, fields_withQt, template_withQt]
  generalize State.beginDO _ _ = r
  cases r with
  | error e => rfl
  | ok o =>
    simp only [map_eqs, reads_onOpn, suspendFor_withQt, respond_withQt, lockReg_withQt, arrive_withQt, carry_eqs]
    congr 1
    split
    · rfl
    · simp only [carry_eqs]
      iterate 4 congr 1
      split <;> rfl
theorem cpCount_withQt : (withQt s x).cpCount = s.cpCount := (rfl)
theorem startCpy_withQt (tD tS c) :
    startCpy tD tS c (withQt s x) = carry x (startCpy tD tS c s) := by
  simp only [startCpy, fields_withQt, beginDT_withQt, me_withQt, tensor_withQt, counterAt_withQt, cpCount_withQt, wcWait_withQt,
    inRound_withQt]
  generalize State.beginDT _ _ = r
  cases r with
  | error e => rfl
  | ok o =>
    simp only [map_eqs, reads_onOpn]
    (repeat' split) <;> rfl
theorem millOf_withQt (i push g tid) :
    (withQt s x).millOf i push g tid = carry x (s.millOf i push g tid) := by
  simp only [State.millOf, beginDT_withQt, me_withQt, inRound_withQt, tensor_withQt, cpCount_withQt, access_withQt, myUnit_withQt,
    wcWait_withQt, fields_withQt]
  generalize State.beginDT _ _ = r
  cases r with
  | error e => rfl
  | ok o =>
    simp only [map_eqs, reads_onOpn, fresh_withQt, modMe_withQt, modRegs_withQt, carry_eqs]
    congr 1
    split
    · rfl
    · simp only [carry_eqs]
theorem startMsub_withQt (g t n) : startMsub g t n (withQt s x) = carry x (startMsub g t n s) := millOf_withQt ..
theorem startMret_withQt (g t n) : startMret g t n (withQt s x) = carry x (startMret g t n s) := millOf_withQt ..
theorem compressedIn_withQt (quad part va n) : (withQt s x).compressedIn quad part va n = s.compressedIn quad part va n := (rfl)
theorem dieQuad_withQt (die p) : (withQt s x).dieQuad die p = s.dieQuad die p := (rfl)
theorem reduceDie_withQt (a) :
    (withQt s x).reduceDie a = s.reduceDie a := by
  simp only [State.reduceDie, access_withQt, engineDie_withQt, cohBytes_withQt]
theorem reduceRoom_withQt (die) : (withQt s x).reduceRoom die = s.reduceRoom die := (rfl)
theorem reduceGoes_withQt :
    (withQt s x).reduceGoes = s.reduceGoes := by
  funext a
  simp only [State.reduceGoes, clearedOf_withQt, reduceRoom_withQt, reduceDie_withQt]
theorem takeReduce_withQt (a) :
    (withQt s x).takeReduce a = carry x (s.takeReduce a) := by
  simp only [State.takeReduce, fields_withQt, update_withQt, carry_eqs, reduceDie_withQt, dieQuad_withQt, engBytes_withQt,
    compressedIn_withQt]
  (repeat' split) <;> rfl
theorem startMred_withQt (p c) :
    startMred p c (withQt s x) = carry x (startMred p c s) := by
  simp only [startMred, beginD_withQt, me_withQt, inRound_withQt, counterPa_withQt, myUnit_withQt, fields_withQt]
  generalize State.beginD _ _ = r
  cases r with
  | error e => rfl
  | ok o =>
    simp only [map_eqs, reads_onOpn, respond_withQt, fresh_withQt, reduceGoes_withQt, fields_withQt, update_withQt, takeReduce_withQt,
      carry_eqs]
    iterate 2 congr 1
    generalize (if (c == 0) = true then Except.ok 0 else State.counterPa _ _ _ _ _ : Except Cause Nat) = n
    cases n with
    | error e => rfl
    | ok n =>
      simp only [carry_eqs]
      congr 1
      generalize State.takeReduce _ _ = t
      cases t <;> rfl
theorem fenceWaits_withQt (before) : (withQt s x).fenceWaits before = s.fenceWaits before := (rfl)
theorem startFence_withQt (before after) :
    startFence before after (withQt s x) = carry x (startFence before after s) := by
  simp only [startFence, beginD_withQt, fenceWaits_withQt, cleared_withQt]
  generalize State.beginD _ _ = r
  cases r <;> simp only [ite_withQt, carry_eqs, map_eqs, reads_onOpn, me_withQt, setMe_withQt, writeBackAll_withQt]
theorem ownByte_withQt (va pa) : (withQt s x).ownByte va pa = s.ownByte va pa := (rfl)
theorem startSpawn_withQt (a) :
    startSpawn a (withQt s x) = carry x (startSpawn a s) := by
  simp only [startSpawn, beginDO_withQt, me_withQt, access_withQt, myUnit_withQt, cohPoisoned_withQt, ownByte_withQt, recordOk_withQt,
    inRound_withQt, generalFree_withQt, reservedFree_withQt]
  generalize State.beginDO _ _ = r
  cases r with
  | error e => rfl
  | ok o =>
    simp only [fields_withQt, carry_eqs, map_eqs, reads_onOpn, respond_withQt, holdMerge_withQt, newRecord_withQt, enterCommons_withQt]
    (repeat' split) <;> rfl
theorem groupChange_withQt (g up) :
    (withQt s x).groupChange g up = withQt (s.groupChange g up) x := by
  simp only [State.groupChange, fields_withQt, ite_withQt, me_withQt, inRound_withQt, holdMerge_withQt, groupFrom_withQt]
theorem startJoin_withQt (g) :
    startJoin g (withQt s x) = carry x (startJoin g s) := by
  simp only [startJoin, beginDO_withQt, me_withQt]
  generalize State.beginDO _ _ = r
  cases r with
  | error e => rfl
  | ok o =>
    simp only [carry_eqs, map_eqs, reads_onOpn, groupChange_withQt, modMe_withQt]
    (repeat' split) <;> rfl
theorem startLeave_withQt (g) :
    startLeave g (withQt s x) = carry x (startLeave g s) := by
  simp only [startLeave, beginDO_withQt, me_withQt]
  generalize State.beginDO _ _ = r
  cases r with
  | error e => rfl
  | ok o =>
    simp only [carry_eqs, map_eqs, reads_onOpn, groupChange_withQt, modMe_withQt]
    (repeat' split) <;> rfl
theorem startTdef_withQt (t d) :
    startTdef t d (withQt s x) = carry x (startTdef t d s) := by
  simp only [startTdef, beginDO_withQt, me_withQt, accessRange_withQt, myUnit_withQt, cohPoisoned_withQt, ownByte_withQt]
  generalize State.beginDO _ _ = r
  cases r with
  | error e => rfl
  | ok o =>
    simp only [fields_withQt, update_withQt, carry_eqs, map_eqs, reads_onOpn, respond_withQt, modRegs_withQt]
    (repeat' split) <;> rfl
theorem startTdrop_withQt (t) :
    startTdrop t (withQt s x) = carry x (startTdrop t s) := by
  simp only [startTdrop, beginDO_withQt, me_withQt]
  generalize State.beginDO _ _ = r
  cases r <;> simp only [fields_withQt, update_withQt, carry_eqs, map_eqs, reads_onOpn]
theorem chan_withQt (port ch) : (withQt s x).chan port ch = s.chan port ch := (rfl)
theorem modChan_withQt (port ch f) :
    (withQt s x).modChan port ch f = withQt (s.modChan port ch f) x := by
  simp only [State.modChan, fields_withQt, update_withQt]
theorem netCheck_withQt (port ch a l recv queue) : (withQt s x).netCheck port ch a l recv queue = s.netCheck port ch a l recv queue := (rfl)
theorem startNsend_withQt (port ch a l) :
    startNsend port ch a l (withQt s x) = carry x (startNsend port ch a l s) := by
  simp only [startNsend, fields_withQt, beginD_withQt, me_withQt, inRound_withQt, netCheck_withQt, accessRange_withQt, myUnit_withQt,
    here_withQt]
  generalize State.beginD _ _ = r
  cases r with
  | error e => rfl
  | ok o =>
    simp only [carry_eqs, map_eqs, reads_onOpn, fresh_withQt, modTile_withQt]
    (repeat' split) <;> rfl
theorem startNsendq_withQt (port ch dq) :
    startNsendq port ch dq (withQt s x) = carry x (startNsendq port ch dq s) := by
  simp only [startNsendq, fields_withQt, beginD_withQt, inRound_withQt, netCheck_withQt, here_withQt]
  generalize State.beginD _ _ = r
  cases r with
  | error e => rfl
  | ok o =>
    simp only [carry_eqs, map_eqs, reads_onOpn, me_withQt, fresh_withQt, modRegs_withQt, modTile_withQt]
    (repeat' split) <;> rfl
theorem startNrecv_withQt (port ch a l) :
    startNrecv port ch a l (withQt s x) = carry x (startNrecv port ch a l s) := by
  simp only [startNrecv, fields_withQt, beginDO_withQt, me_withQt, inRound_withQt, netCheck_withQt, chan_withQt, storeRow_withQt]
  generalize State.beginDO _ _ = r
  cases r with
  | error e => rfl
  | ok o =>
    simp only [carry_eqs, map_eqs, reads_onOpn, modChan_withQt, modRegs_withQt, hold_withQt, modMe_withQt]
    (repeat' split) <;> rfl

/-! #### Link -/

theorem port_withQt (p) : (withQt s x).port p = s.port p := (rfl)
theorem modPort_withQt (p f) :
    (withQt s x).modPort p f = withQt (s.modPort p f) x := by
  simp only [State.modPort, fields_withQt, update_withQt]
theorem emit_withQt (p f) :
    (withQt s x).emit p f = withQt (s.emit p f) x := by
  simp only [State.emit, fields_withQt, update_withQt, ite_withQt, port_withQt]
theorem sendCredit_withQt (p c reset n) :
    (withQt s x).sendCredit p c reset n = withQt (s.sendCredit p c reset n) x := by
  simp only [State.sendCredit, ite_withQt, port_withQt, emit_withQt, modPort_withQt]

/-! #### Control -/

theorem prepare_withQt (o b a) :
    (withQt s x).prepare (onOpn x o) b a = withQt (s.prepare o b a) x := by
  simp only [State.prepare, fields_withQt, fetch_withQt, me_withQt, reads_onOpn, land_withQt]
theorem startNop_withQt : startNop (withQt s x) = carry x (startNop s) := (rfl)
theorem startBprep_withQt (b off) :
    startBprep b off (withQt s x) = carry x (startBprep b off s) := by
  simp only [startBprep, begin_withQt, fields_withQt]
  generalize State.begin _ _ _ _ _ _ _ _ = r
  cases r <;> simp only [map_eqs, carry_eqs, prepare_withQt]
theorem startBprepi_withQt (b n) :
    startBprepi b n (withQt s x) = carry x (startBprepi b n s) := by
  simp only [startBprepi, begin_withQt]
  generalize State.begin _ _ _ _ _ _ _ _ = r
  cases r <;> simp only [map_eqs, carry_eqs, reads_onOpn, prepare_withQt]
theorem transfer_withQt (opc destcode dests b cond) {takes : Opn → Bool} (same : ∀ o, takes (onOpn x o) = takes o) :
    (withQt s x).transfer opc destcode dests b cond takes
      = (s.transfer opc destcode dests b cond takes).map fun p => (onOpn x p.1, withQt p.2 x) := by
  simp only [State.transfer, begin_withQt]
  generalize State.begin _ _ _ _ _ _ _ _ = r
  cases r with
  | error e => rfl
  | ok o =>
    simp only [map_eqs, reads_onOpn, me_withQt, modMe_withQt, same]
    split <;> rfl
theorem transferIf_withQt (opc b cond) {takes : Opn → Bool} (same : ∀ o, takes (onOpn x o) = takes o) :
    (withQt s x).transferIf opc b cond takes = carry x (s.transferIf opc b cond takes) := by
  simp only [State.transferIf, transfer_withQt _ _ _ _ _ _ _ same]
  generalize State.transfer _ _ _ _ _ _ _ = r
  cases r <;> rfl
theorem startXfer_withQt (b q) : startXfer b q (withQt s x) = carry x (startXfer b q s) := transferIf_withQt s x _ _ _ fun _ => rfl
theorem startXferF_withQt (b q) : startXferF b q (withQt s x) = carry x (startXferF b q s) := transferIf_withQt s x _ _ _ fun _ => rfl
theorem startXferMz_withQt (b u) : startXferMz b u (withQt s x) = carry x (startXferMz b u s) := transferIf_withQt s x _ _ _ fun _ => rfl
theorem startXferMnz_withQt (b u) : startXferMnz b u (withQt s x) = carry x (startXferMnz b u s) := transferIf_withQt s x _ _ _ fun _ => rfl
theorem startCall_withQt (b) :
    startCall b (withQt s x) = carry x (startCall b s) := by
  simp only [startCall, transfer_withQt (takes := fun _ => true) s x 0x05 0x3F [.s 63] b none fun _ => rfl, fields_withQt]
  generalize State.transfer _ _ _ _ _ _ _ = r
  cases r <;> rfl
theorem mark_withQt (src) {count : Opn → Nat} (len) (same : ∀ o, count (onOpn x o) = count o) :
    (withQt s x).mark src count len = carry x (s.mark src count len) := by
  simp only [State.mark, begin_withQt, me_withQt]
  generalize State.begin _ _ _ _ _ _ _ _ = r
  cases r <;> simp only [map_eqs, carry_eqs, reads_onOpn, land_withQt, same]
theorem startLmark_withQt (n len) :
    startLmark n len (withQt s x) = carry x (startLmark n len s) := by
  simp only [startLmark, implies_true, reads_onOpn, mark_withQt]
theorem startLmarkImm_withQt (count len) :
    startLmarkImm count len (withQt s x) = carry x (startLmarkImm count len s) := by
  simp only [startLmarkImm, implies_true, mark_withQt]
theorem startIlock_withQt (n lines) :
    startIlock n lines (withQt s x) = carry x (startIlock n lines s) := by
  simp only [startIlock, fields_withQt, begin_withQt, access_withQt, myUnit_withQt]
  generalize State.begin _ _ _ _ _ _ _ _ = r
  cases r <;> simp only [carry_eqs, map_eqs, reads_onOpn, me_withQt, others_withQt, setMe_withQt]
theorem startIunlock_withQt (n lines) :
    startIunlock n lines (withQt s x) = carry x (startIunlock n lines s) := by
  simp only [startIunlock, fields_withQt, begin_withQt, me_withQt, access_withQt, myUnit_withQt]
  generalize State.begin _ _ _ _ _ _ _ _ = r
  cases r <;> simp only [carry_eqs, map_eqs, reads_onOpn, others_withQt, modMe_withQt]
theorem waitCounts_withQt : (withQt s x).waitCounts = s.waitCounts := (rfl)
theorem startWait_withQt (ld st cp mx) :
    startWait ld st cp mx (withQt s x) = carry x (startWait ld st cp mx s) := by
  simp only [startWait, fields_withQt, begin_withQt, waitCounts_withQt]
  generalize State.begin _ _ _ _ _ _ _ _ = r
  cases r with
  | error e => rfl
  | ok o =>
    simp only [map_eqs, reads_onOpn, me_withQt, setMe_withQt]
    (repeat' split) <;> rfl
theorem logSlip_withQt (p f tile block ticks clamp) :
    (withQt s x).logSlip p f tile block ticks clamp = withQt (s.logSlip p f tile block ticks clamp) x := by
  simp only [State.logSlip, log_withQt]
theorem charge_withQt (p tile block d) :
    (withQt s x).charge p tile block d = withQt (s.charge p tile block d) x := by
  simp only [State.charge, fields_withQt, update_withQt, ite_withQt, logSlip_withQt, fencePart_withQt]
  split <;> rfl
theorem startRel_withQt (n) :
    startRel n (withQt s x) = carry x (startRel n s) := by
  simp only [startRel, fields_withQt, me_withQt, begin_withQt, here_withQt, frameOf_withQt]
  generalize State.begin _ _ _ _ _ _ _ _ = r
  cases r with
  | error e => rfl
  | ok o =>
    simp only [ite_withQt, map_eqs, reads_onOpn, logSlip_withQt, charge_withQt]
    (repeat' split) <;> rfl
theorem ends_withQt (opc e) :
    (withQt s x).ends opc e = carry x (s.ends opc e) := by
  simp only [State.ends, begin_withQt]
  generalize State.begin _ _ _ _ _ _ _ _ = r
  cases r <;> simp only [carry_eqs, map_eqs, reads_onOpn, modMe_withQt]
theorem startDone_withQt :
    startDone (withQt s x) = carry x (startDone s) := by
  simp only [startDone, ends_withQt]
theorem startYield_withQt :
    startYield (withQt s x) = carry x (startYield s) := by
  simp only [startYield, ends_withQt]
theorem startTrap_withQt (code) :
    startTrap code (withQt s x) = carry x (startTrap code s) := by
  simp only [startTrap, ends_withQt]
theorem startBrk_withQt (tag) :
    startBrk tag (withQt s x) = carry x (startBrk tag s) := by
  simp only [startBrk, fields_withQt, begin_withQt]
  generalize State.begin _ _ _ _ _ _ _ _ = r
  cases r <;> simp only [carry_eqs, map_eqs, reads_onOpn, modMe_withQt]
theorem startInj_withQt (slot src d step) :
    startInj slot src d step (withQt s x) = carry x (startInj slot src d step s) := by
  simp only [startInj, ite_withQt, carry_eqs, me_withQt, modMe_withQt, begin_withQt]
  generalize State.begin _ _ _ _ _ _ _ _ = r
  cases r <;> simp only [carry_eqs, map_eqs, reads_onOpn, modMe_withQt]

/-! #### Matrix -/

theorem startM_withQt (opc destcode dests srcs names fetches) {f g : Opn → Except Stop (State × MWork)}
    (same : ∀ o, f (onOpn x o) = (g o).map (besides x)) :
    (withQt s x).startM opc destcode dests srcs names fetches f = carry x (s.startM opc destcode dests srcs names fetches g) := by
  have starts : (if names then (withQt s x).beginT opc destcode dests srcs else (withQt s x).begin opc destcode dests srcs none)
      = (if names then s.beginT opc destcode dests srcs else s.begin opc destcode dests srcs none).map (onOpn x) := by
    simp only [beginT_withQt, begin_withQt, map_eqs]
  simp only [State.startM, me_withQt, starts]
  split
  · rfl
  generalize (if names = true then State.beginT _ _ _ _ _ else _ : Except Stop Opn) = r
  cases r with
  | error e => rfl
  | ok o =>
    simp only [map_eqs, same]
    generalize g o = b
    cases b <;> simp only [map_eqs, carry_eqs, besides, me_withQt, fields_withQt, update_withQt, setMe_withQt, land_withQt, reads_onOpn]
theorem startMma_withQt (a tA tB c) :
    startMma a tA tB c (withQt s x) = carry x (startMma a tA tB c s) := by
  refine startM_withQt s x _ _ _ _ _ _ fun o => ?_
  simp only [tensor_withQt, me_withQt, reads_onOpn]
  split
  · simp only [map_eqs, besides]
  · rfl
theorem startMzero_withQt (a) : startMzero a (withQt s x) = carry x (startMzero a s) := startM_withQt s x _ _ _ _ _ _ fun _ => rfl
theorem startMload_withQt (a n) :
    startMload a n (withQt s x) = carry x (startMload a n s) := by
  refine startM_withQt s x _ _ _ _ _ _ fun o => ?_
  simp only [reads_onOpn, map_eqs, besides]
theorem startMdrain_withQt (a t dq) :
    startMdrain a t dq (withQt s x) = carry x (startMdrain a t dq s) := by
  refine startM_withQt s x _ _ _ _ _ _ fun o => ?_
  simp only [tensor_withQt, me_withQt, fields_withQt, modRegs_withQt, reads_onOpn]
  split
  · rfl
  · simp only [map_eqs, besides]
theorem peerOf_withQt (t p peer) : (withQt s x).peerOf t p peer = s.peerOf t p peer := (rfl)
theorem startMdrainRed_withQt (a t tile aM) :
    startMdrainRed a t tile aM (withQt s x) = carry x (startMdrainRed a t tile aM s) := by
  refine startM_withQt s x _ _ _ _ _ _ fun o => ?_
  simp only [tensor_withQt, me_withQt, fields_withQt, peerOf_withQt, inRound_withQt, reads_onOpn]
  split
  · rfl
  · simp only [map_eqs, besides]
theorem chset_withQt (bd src) {val : Opn → BitVec 16} (same : ∀ o, val (onOpn x o) = val o) :
    (withQt s x).chset bd src val = carry x (s.chset bd src val) := by
  simp only [State.chset, begin_withQt]
  generalize State.begin _ _ _ _ _ _ _ _ = r
  cases r <;> simp only [map_eqs, carry_eqs, reads_onOpn, land_withQt, same]
theorem startChset_withQt (bd n) : startChset bd n (withQt s x) = carry x (startChset bd n s) := chset_withQt s x _ _ fun _ => rfl
theorem startChsetImm_withQt (bd v) : startChsetImm bd v (withQt s x) = carry x (startChsetImm bd v s) := chset_withQt s x _ _ fun _ => rfl
theorem chain_withQt (opc n m single pick) :
    (withQt s x).chain opc n m single pick = carry x (s.chain opc n m single pick) := by
  refine startM_withQt s x _ _ _ _ _ _ fun o => ?_
  simp only [me_withQt, reads_onOpn, map_eqs, besides]
theorem startChrun_withQt (n m) : startChrun n m (withQt s x) = carry x (startChrun n m s) := chain_withQt ..
theorem startChstep_withQt (n) : startChstep n (withQt s x) = carry x (startChstep n s) := chain_withQt ..
theorem startChstepPick_withQt (n m) : startChstepPick n m (withQt s x) = carry x (startChstepPick n m s) := chain_withQt ..

/-! #### Scalar -/

theorem hcwStart_withQt (r h lat dst srcs) {f g : Body} (same : ∀ o, f (onOpn x o) h = (g o h).map (besides x)) :
    (withQt s x).hcwStart r h lat dst srcs f = carry x (s.hcwStart r h lat dst srcs g) := by
  simp only [State.hcwStart, begin_withQt, me_withQt]
  generalize State.begin _ _ _ _ _ _ _ _ = b
  cases b with
  | error e => rfl
  | ok o =>
    simp only [map_eqs, reads_onOpn, me_withQt, same, land_withQt, carry_eqs]
    congr 1
    generalize g o h = w
    cases w <;> simp only [map_eqs, besides, land_withQt, carry_eqs]
theorem scalar_withQt (i h lat) {f g : Body} (same : ∀ o, f (onOpn x o) h = (g o h).map (besides x)) :
    (withQt s x).scalar i h lat f = carry x (s.scalar i h lat g) := hcwStart_withQt s x _ _ _ _ _ same
theorem scalar2_withQt (i h lat f) : (withQt s x).scalar2 i h lat f = carry x (s.scalar2 i h lat f) := scalar_withQt s x _ _ _ fun _ => rfl
theorem startSadd_withQt (h) : startSadd h (withQt s x) = carry x (startSadd h s) := scalar2_withQt ..
theorem startSsub_withQt (h) : startSsub h (withQt s x) = carry x (startSsub h s) := scalar2_withQt ..
theorem startSmul_withQt (h) : startSmul h (withQt s x) = carry x (startSmul h s) := scalar2_withQt ..
theorem startSmulh_withQt (h) : startSmulh h (withQt s x) = carry x (startSmulh h s) := scalar2_withQt ..
theorem startSmulhu_withQt (h) : startSmulhu h (withQt s x) = carry x (startSmulhu h s) := scalar2_withQt ..
theorem startSand_withQt (h) : startSand h (withQt s x) = carry x (startSand h s) := scalar2_withQt ..
theorem startSor_withQt (h) : startSor h (withQt s x) = carry x (startSor h s) := scalar2_withQt ..
theorem startSxor_withQt (h) : startSxor h (withQt s x) = carry x (startSxor h s) := scalar2_withQt ..
theorem startSandn_withQt (h) : startSandn h (withQt s x) = carry x (startSandn h s) := scalar2_withQt ..
theorem startSshl_withQt (h) : startSshl h (withQt s x) = carry x (startSshl h s) := scalar2_withQt ..
theorem startSshr_withQt (h) : startSshr h (withQt s x) = carry x (startSshr h s) := scalar2_withQt ..
theorem startSsar_withQt (h) : startSsar h (withQt s x) = carry x (startSsar h s) := scalar2_withQt ..
theorem startSmin_withQt (h) : startSmin h (withQt s x) = carry x (startSmin h s) := scalar2_withQt ..
theorem startSmax_withQt (h) : startSmax h (withQt s x) = carry x (startSmax h s) := scalar2_withQt ..
theorem startSminu_withQt (h) : startSminu h (withQt s x) = carry x (startSminu h s) := scalar2_withQt ..
theorem startSmaxu_withQt (h) : startSmaxu h (withQt s x) = carry x (startSmaxu h s) := scalar2_withQt ..
theorem startSclz_withQt (h) : startSclz h (withQt s x) = carry x (startSclz h s) := scalar2_withQt ..
theorem startSctz_withQt (h) : startSctz h (withQt s x) = carry x (startSctz h s) := scalar2_withQt ..
theorem startSpopc_withQt (h) : startSpopc h (withQt s x) = carry x (startSpopc h s) := scalar2_withQt ..
theorem startSsel_withQt (h) : startSsel h (withQt s x) = carry x (startSsel h s) := scalar_withQt s x _ _ _ fun _ => rfl
theorem startSli_withQt (h) : startSli h (withQt s x) = carry x (startSli h s) := scalar2_withQt ..
theorem startSmov_withQt (h) : startSmov h (withQt s x) = carry x (startSmov h s) := scalar2_withQt ..
theorem startSext_withQt (h) : startSext h (withQt s x) = carry x (startSext h s) := scalar2_withQt ..
theorem startScmp_withQt (h) : startScmp h (withQt s x) = carry x (startScmp h s) := scalar2_withQt ..
theorem startSqop_withQt (h) : startSqop h (withQt s x) = carry x (startSqop h s) := scalar_withQt s x _ _ _ fun _ => rfl
theorem startSgetc_withQt (h) : startSgetc h (withQt s x) = carry x (startSgetc h s) := scalar_withQt s x _ _ _ fun _ => rfl
theorem startSsetc_withQt (h) :
    startSsetc h (withQt s x) = carry x (startSsetc h s) := by
  unfold startSsetc
  extract_lets n
  split
  · rfl
  · refine scalar_withQt s x _ _ _ fun o => ?_
    simp only [reads_onOpn, me_withQt, hold_withQt, map_eqs, besides]
theorem startSlget_withQt (h) : startSlget h (withQt s x) = carry x (startSlget h s) := scalar2_withQt ..

/-! #### Vector -/

theorem vview_withQt (h other) : (withQt s x).vview h other = s.vview h other := (rfl)
theorem myMask_withQt : (withQt s x).myMask = s.myMask := (rfl)
theorem vectorOn_withQt (i h lat other ok srcs) {f g : VBody} (same : ∀ o t rows cols, f (onOpn x o) t rows cols = g o t rows cols) :
    (withQt s x).vectorOn i h lat other ok srcs f = carry x (s.vectorOn i h lat other ok srcs g) := by
  simp only [State.vectorOn, vview_withQt, me_withQt, fields_withQt, myMask_withQt]
  split
  · rfl
  · simp only [carry_eqs]
    iterate 2 congr 1
    refine hcwStart_withQt s x _ _ _ _ _ fun o => ?_
    simp only [same, reads_onOpn]
    split <;> rfl
theorem vector_withQt (i h lat ok) {f g : VBody} (same : ∀ o t rows cols, f (onOpn x o) t rows cols = g o t rows cols) :
    (withQt s x).vector i h lat ok f = carry x (s.vector i h lat ok g) := vectorOn_withQt s x _ _ _ _ _ _ same
theorem vector1_withQt (i h lat ok f) :
    (withQt s x).vector1 i h lat ok f = carry x (s.vector1 i h lat ok f) := vector_withQt s x _ _ _ _ fun _ _ _ _ => rfl
theorem vector2_withQt (i h lat ok f) :
    (withQt s x).vector2 i h lat ok f = carry x (s.vector2 i h lat ok f) := vector_withQt s x _ _ _ _ fun _ _ _ _ => rfl
theorem vector3_withQt (i h lat ok f) :
    (withQt s x).vector3 i h lat ok f = carry x (s.vector3 i h lat ok f) := vector_withQt s x _ _ _ _ fun _ _ _ _ => rfl
theorem startVadd_withQt (h) : startVadd h (withQt s x) = carry x (startVadd h s) := vector2_withQt ..
theorem startVsub_withQt (h) : startVsub h (withQt s x) = carry x (startVsub h s) := vector2_withQt ..
theorem startVmul_withQt (h) : startVmul h (withQt s x) = carry x (startVmul h s) := vector2_withQt ..
theorem startVfma_withQt (h) : startVfma h (withQt s x) = carry x (startVfma h s) := vector3_withQt ..
theorem startVfms_withQt (h) : startVfms h (withQt s x) = carry x (startVfms h s) := vector3_withQt ..
theorem startVmin_withQt (h) : startVmin h (withQt s x) = carry x (startVmin h s) := vector2_withQt ..
theorem startVmax_withQt (h) : startVmax h (withQt s x) = carry x (startVmax h s) := vector2_withQt ..
theorem startVminn_withQt (h) : startVminn h (withQt s x) = carry x (startVminn h s) := vector2_withQt ..
theorem startVmaxn_withQt (h) : startVmaxn h (withQt s x) = carry x (startVmaxn h s) := vector2_withQt ..
theorem startVabs_withQt (h) : startVabs h (withQt s x) = carry x (startVabs h s) := vector1_withQt ..
theorem startVneg_withQt (h) : startVneg h (withQt s x) = carry x (startVneg h s) := vector1_withQt ..
theorem startVcvt_withQt (h) :
    startVcvt h (withQt s x) = carry x (startVcvt h s) := by
  unfold startVcvt
  split
  · rfl
  · exact vectorOn_withQt s x _ _ _ _ _ _ fun _ _ _ _ => rfl
theorem startVand_withQt (h) : startVand h (withQt s x) = carry x (startVand h s) := vector2_withQt ..
theorem startVor_withQt (h) : startVor h (withQt s x) = carry x (startVor h s) := vector2_withQt ..
theorem startVxor_withQt (h) : startVxor h (withQt s x) = carry x (startVxor h s) := vector2_withQt ..
theorem startVshl_withQt (h) : startVshl h (withQt s x) = carry x (startVshl h s) := vector2_withQt ..
theorem startVshr_withQt (h) : startVshr h (withQt s x) = carry x (startVshr h s) := vector2_withQt ..
theorem startVsar_withQt (h) : startVsar h (withQt s x) = carry x (startVsar h s) := vector2_withQt ..
theorem startVcmp_withQt (h) : startVcmp h (withQt s x) = carry x (startVcmp h s) := vector2_withQt ..
theorem startVsel_withQt (h) : startVsel h (withQt s x) = carry x (startVsel h s) := vector3_withQt ..
theorem maskOp_withQt (i h srcs) {f g : Opn → MaskUnit → Except Stop Wr} (same : ∀ o u, f (onOpn x o) u = g o u) :
    (withQt s x).maskOp i h srcs f = carry x (s.maskOp i h srcs g) := by
  unfold State.maskOp
  refine hcwStart_withQt s x _ _ _ _ _ fun o => ?_
  simp only [same, reads_onOpn, fields_withQt]
  split <;> rfl
theorem startMpush_withQt (h) :
    startMpush h (withQt s x) = carry x (startMpush h s) := by
  simp only [startMpush, fields_withQt, reads_onOpn, vview_withQt, maskOp_withQt, me_withQt]
  (repeat' split) <;> rfl
theorem startMinv_withQt (h) :
    startMinv h (withQt s x) = carry x (startMinv h s) := by
  simp only [startMinv, fields_withQt, reads_onOpn, maskOp_withQt, me_withQt]
theorem startMpop_withQt (h) :
    startMpop h (withQt s x) = carry x (startMpop h s) := by
  simp only [startMpop, fields_withQt, maskOp_withQt, me_withQt]
theorem reduction_withQt (i h f empty) :
    (withQt s x).reduction i h f empty = carry x (s.reduction i h f empty) := by
  simp only [State.reduction, vview_withQt, fields_withQt, myMask_withQt]
  split
  · rfl
  · exact hcwStart_withQt s x _ _ _ _ _ fun _ => rfl
theorem startVredsum_withQt (h) : startVredsum h (withQt s x) = carry x (startVredsum h s) := reduction_withQt ..
theorem startVredmax_withQt (h) : startVredmax h (withQt s x) = carry x (startVredmax h s) := reduction_withQt ..
theorem startVredmin_withQt (h) : startVredmin h (withQt s x) = carry x (startVredmin h s) := reduction_withQt ..
theorem startVbcast_withQt (h) :
    startVbcast h (withQt s x) = carry x (startVbcast h s) := by
  simp only [startVbcast, reads_onOpn, vector_withQt]
theorem startVmov_withQt (h) : startVmov h (withQt s x) = carry x (startVmov h s) := vector1_withQt ..
theorem startVtrn_withQt (h) :
    startVtrn h (withQt s x) = carry x (startVtrn h s) := by
  simp only [startVtrn, reads_onOpn, vector_withQt]
theorem startVrot_withQt (h) :
    startVrot h (withQt s x) = carry x (startVrot h s) := by
  simp only [startVrot, reads_onOpn, vector_withQt]
theorem startVfrexp_withQt (h) : startVfrexp h (withQt s x) = carry x (startVfrexp h s) := vector1_withQt ..
theorem startVldexp_withQt (h) : startVldexp h (withQt s x) = carry x (startVldexp h s) := vector2_withQt ..
theorem startVmacw_withQt (h) :
    startVmacw h (withQt s x) = carry x (startVmacw h s) := by
  simp only [startVmacw, kernel_withQt, me_withQt, vview_withQt, fields_withQt, myMask_withQt]
  generalize (decide (2 ≤ (_ : Nat)) && _) = removed
  cases removed with
  | true => rfl
  | false =>
    simp only [Bool.false_eq_true, if_false]
    split
    · rfl
    · rfl
    · simp only [carry_eqs]
      congr 1
      exact hcwStart_withQt s x _ _ _ _ _ fun _ => rfl
theorem startVpopq_withQt (h) :
    startVpopq h (withQt s x) = carry x (startVpopq h s) := by
  unfold startVpopq
  refine hcwStart_withQt s x _ _ _ _ _ fun o => ?_
  simp only [reads_onOpn, me_withQt, modRegs_withQt, fields_withQt, myMask_withQt]
  split
  · split <;> rfl
  · rfl

/-! #### Palette -/

theorem fired_withQt (unit lat f) :
    (withQt s x).fired unit lat f = carry x (s.fired unit lat f) := by
  simp only [State.fired, carry_eqs, me_withQt, land_withQt, modRegs_withQt]
theorem roundMode_withQt : (withQt s x).roundMode = s.roundMode := (rfl)
theorem startQntQ_withQt :
    startQntQ (withQt s x) = carry x (startQntQ s) := by
  simp only [startQntQ, fired_withQt, roundMode_withQt]
theorem startQntQs_withQt :
    startQntQs (withQt s x) = carry x (startQntQs s) := by
  simp only [startQntQs, fired_withQt, roundMode_withQt]
theorem startQntDq_withQt :
    startQntDq (withQt s x) = carry x (startQntDq s) := by
  simp only [startQntDq, fired_withQt, roundMode_withQt]
theorem startQntAmax_withQt :
    startQntAmax (withQt s x) = carry x (startQntAmax s) := by
  simp only [startQntAmax, fired_withQt]
theorem startTrnE8_withQt :
    startTrnE8 (withQt s x) = carry x (startTrnE8 s) := by
  simp only [startTrnE8, fired_withQt]
theorem startTrnE16_withQt :
    startTrnE16 (withQt s x) = carry x (startTrnE16 s) := by
  simp only [startTrnE16, fired_withQt]
theorem startTrnE32_withQt :
    startTrnE32 (withQt s x) = carry x (startTrnE32 s) := by
  simp only [startTrnE32, fired_withQt]
theorem startTrnE4_withQt :
    startTrnE4 (withQt s x) = carry x (startTrnE4 s) := by
  simp only [startTrnE4, fired_withQt]
theorem startCrcInit_withQt :
    startCrcInit (withQt s x) = carry x (startCrcInit s) := by
  simp only [startCrcInit, fired_withQt]
theorem startCrcV_withQt :
    startCrcV (withQt s x) = carry x (startCrcV s) := by
  simp only [startCrcV, fired_withQt]
theorem startCrcS_withQt :
    startCrcS (withQt s x) = carry x (startCrcS s) := by
  simp only [startCrcS, fired_withQt]
theorem startCrcFin_withQt :
    startCrcFin (withQt s x) = carry x (startCrcFin s) := by
  simp only [startCrcFin, fired_withQt]
theorem startHshKey_withQt :
    startHshKey (withQt s x) = carry x (startHshKey s) := by
  simp only [startHshKey, fired_withQt]
theorem startHshNb_withQt :
    startHshNb (withQt s x) = carry x (startHshNb s) := by
  simp only [startHshNb, fired_withQt]
theorem startHshId_withQt :
    startHshId (withQt s x) = carry x (startHshId s) := by
  simp only [startHshId, fired_withQt]
theorem startHshBkt_withQt :
    startHshBkt (withQt s x) = carry x (startHshBkt s) := by
  simp only [startHshBkt, fired_withQt]
theorem startTopK_withQt :
    startTopK (withQt s x) = carry x (startTopK s) := by
  simp only [startTopK, fired_withQt]
theorem startTopGo_withQt :
    startTopGo (withQt s x) = carry x (startTopGo s) := by
  simp only [startTopGo, fired_withQt]
theorem startTopIdx_withQt :
    startTopIdx (withQt s x) = carry x (startTopIdx s) := by
  simp only [startTopIdx, fired_withQt]
theorem startTopClr_withQt :
    startTopClr (withQt s x) = carry x (startTopClr s) := by
  simp only [startTopClr, fired_withQt]
theorem startTrigger_withQt (i) :
    startTrigger i (withQt s x) = carry x (startTrigger i s) := by
  simp only [startTrigger, startQntQ_withQt, startQntQs_withQt, startQntDq_withQt, startQntAmax_withQt, startTrnE8_withQt,
    startTrnE16_withQt, startTrnE32_withQt, startTrnE4_withQt, startCrcInit_withQt, startCrcV_withQt, startCrcS_withQt, startCrcFin_withQt,
    startHshKey_withQt, startHshNb_withQt, startHshId_withQt, startHshBkt_withQt, startTopK_withQt, startTopGo_withQt, startTopIdx_withQt,
    startTopClr_withQt]
  (repeat' split) <;> rfl
theorem toPort_withQt (p d) :
    (withQt s x).toPort p d = carry x (s.toPort p d) := by
  simp only [State.toPort, startTrigger_withQt, land_withQt]
  (repeat' split) <;> rfl
theorem startTmovPortV_withQt (p v) :
    startTmovPortV p v (withQt s x) = carry x (startTmovPortV p v s) := by
  simp only [startTmovPortV, begin_withQt]
  generalize State.begin _ _ _ _ _ _ _ _ = r
  cases r <;> simp only [carry_eqs, map_eqs, reads_onOpn, toPort_withQt]
theorem startTmovVPort_withQt (v p) :
    startTmovVPort v p (withQt s x) = carry x (startTmovVPort v p s) := by
  simp only [startTmovVPort, begin_withQt, me_withQt]
  generalize State.begin _ _ _ _ _ _ _ _ = r
  cases r <;> simp only [carry_eqs, map_eqs, reads_onOpn, land_withQt]
theorem startTmovPortPort_withQt (d p) :
    startTmovPortPort d p (withQt s x) = carry x (startTmovPortPort d p s) := by
  simp only [startTmovPortPort, fields_withQt, begin_withQt, me_withQt]
  generalize State.begin _ _ _ _ _ _ _ _ = r
  cases r with
  | error e => rfl
  | ok o =>
    simp only [map_eqs, reads_onOpn, modMe_withQt, land_withQt]
    (repeat' split) <;> rfl
theorem startTmovPortS_withQt (p n) :
    startTmovPortS p n (withQt s x) = carry x (startTmovPortS p n s) := by
  simp only [startTmovPortS, begin_withQt]
  generalize State.begin _ _ _ _ _ _ _ _ = r
  cases r <;> simp only [carry_eqs, map_eqs, reads_onOpn, toPort_withQt]
theorem startTmovSPort_withQt (n p) :
    startTmovSPort n p (withQt s x) = carry x (startTmovSPort n p s) := by
  simp only [startTmovSPort, begin_withQt, me_withQt]
  generalize State.begin _ _ _ _ _ _ _ _ = r
  cases r <;> simp only [carry_eqs, map_eqs, reads_onOpn, land_withQt]

/-! #### Start -/

theorem startOp_withQt (i) :
    startOp i (withQt s x) = carry x (startOp i s) := by
  cases i <;> simp only [startOp, carry_eqs, startNop_withQt, startBprep_withQt, startBprepi_withQt, startXfer_withQt, startXferF_withQt,
    startXferMz_withQt, startXferMnz_withQt, startCall_withQt, startLmark_withQt, startLmarkImm_withQt, startIlock_withQt,
    startIunlock_withQt, startWait_withQt, startRel_withQt, startDone_withQt, startYield_withQt, startTrap_withQt, startBrk_withQt,
    startInj_withQt, startMma_withQt, startMzero_withQt, startMdrain_withQt, startMdrainRed_withQt, startMload_withQt, startChset_withQt,
    startChsetImm_withQt, startChrun_withQt, startChstep_withQt, startChstepPick_withQt, startLd_withQt, startSt_withQt, startVld_withQt,
    startVst_withQt, startStq_withQt, startRacq_withQt, startRpub_withQt, startRget_withQt, startRrel_withQt, startSflush_withQt,
    startSinv_withQt, startCpy_withQt, startMsub_withQt, startMret_withQt, startCadd_withQt, startCaddImm_withQt, startCwait_withQt,
    startCread_withQt, startAmo_withQt, startAmoc_withQt, startMred_withQt, startFence_withQt, startSpawn_withQt, startJoin_withQt,
    startLeave_withQt, startTdef_withQt, startTdrop_withQt, startNsend_withQt, startNrecv_withQt, startNsendq_withQt,
    startTmovPortV_withQt, startTmovVPort_withQt, startTmovPortPort_withQt, startTmovPortS_withQt, startTmovSPort_withQt, startQntQ_withQt,
    startQntQs_withQt, startQntDq_withQt, startQntAmax_withQt, startTrnE8_withQt, startTrnE16_withQt, startTrnE32_withQt,
    startTrnE4_withQt, startCrcInit_withQt, startCrcV_withQt, startCrcS_withQt, startCrcFin_withQt, startHshKey_withQt, startHshNb_withQt,
    startHshId_withQt, startHshBkt_withQt, startTopK_withQt, startTopGo_withQt, startTopIdx_withQt, startTopClr_withQt, startSadd_withQt,
    startSsub_withQt, startSmul_withQt, startSmulh_withQt, startSmulhu_withQt, startSand_withQt, startSor_withQt, startSxor_withQt,
    startSandn_withQt, startSshl_withQt, startSshr_withQt, startSsar_withQt, startSmin_withQt, startSmax_withQt, startSminu_withQt,
    startSmaxu_withQt, startSclz_withQt, startSctz_withQt, startSpopc_withQt, startSsel_withQt, startSli_withQt, startSmov_withQt,
    startSext_withQt, startScmp_withQt, startSqop_withQt, startSgetc_withQt, startSsetc_withQt, startSlget_withQt, startVadd_withQt,
    startVsub_withQt, startVmul_withQt, startVfma_withQt, startVfms_withQt, startVmin_withQt, startVmax_withQt, startVminn_withQt,
    startVmaxn_withQt, startVabs_withQt, startVneg_withQt, startVcvt_withQt, startVand_withQt, startVor_withQt, startVxor_withQt,
    startVshl_withQt, startVshr_withQt, startVsar_withQt, startVcmp_withQt, startVsel_withQt, startMpush_withQt, startMinv_withQt,
    startMpop_withQt, startVredsum_withQt, startVredmax_withQt, startVredmin_withQt, startVbcast_withQt, startVmov_withQt,
    startVtrn_withQt, startVrot_withQt, startVfrexp_withQt, startVldexp_withQt, startVmacw_withQt, startVpopq_withQt]

/-! #### Issue -/

theorem boundary_withQt (t p) :
    (withQt s x).boundary t p = withQt (s.boundary t p) x := by
  simp only [State.boundary, fields_withQt, modTile_withQt]
theorem mayStop_withQt (t k) : (withQt s x).mayStop t k = s.mayStop t k := (rfl)
theorem mayIssue_withQt (t k) : (withQt s x).mayIssue t k = s.mayIssue t k := (rfl)
theorem bundleAt_withQt (t k) : (withQt s x).bundleAt t k = s.bundleAt t k := (rfl)
theorem stepped_withQt (k) : (withQt s x).stepped k = s.stepped k := (rfl)
theorem at_withQt (o) :
    (withQt s x).at_ o = withQt (s.at_ o) x := by
  simp only [State.at_, fields_withQt, update_withQt]
theorem probe_withQt (o) :
    (withQt s x).probe o = s.probe o := by
  simp only [State.probe, at_withQt, modMe_withQt, startOp_withQt]
  generalize startOp _ _ = r
  cases r <;> rfl
theorem slotCause_withQt (k bd cop dop next o) :
    (withQt s x).slotCause k bd cop dop next o = s.slotCause k bd cop dop next o := by
  simp only [State.slotCause, probe_withQt, stepped_withQt, here_withQt]
theorem decodeSlots_withQt (k bd) :
    (withQt s x).decodeSlots k bd = s.decodeSlots k bd := by
  simp only [State.decodeSlots, codeAt_withQt, fields_withQt, slotCause_withQt]
theorem checkBundle_withQt (k bd) :
    (withQt s x).checkBundle k bd = s.checkBundle k bd := by
  simp only [State.checkBundle, decodeSlots_withQt]
theorem placeRun_withQt (t k) :
    (withQt s x).placeRun t k = withQt (s.placeRun t k) x := by
  simp only [State.placeRun, fields_withQt, update_withQt, putTask_withQt]
theorem approach_withQt (t b) :
    (withQt s x).approach t b = withQt (s.approach t b) x := by
  simp only [State.approach, fields_withQt, update_withQt, ite_withQt, modTile_withQt, tile_withQt, placeRun_withQt, boundary_withQt]
  split <;> rfl
theorem enterBlock_withQt :
    (withQt s x).enterBlock = withQt (s.enterBlock) x := by
  simp only [State.enterBlock, me_withQt, setMe_withQt]
theorem startSlot_withQt (bd o) :
    (withQt s x).startSlot bd o = carry x (s.startSlot bd o) := by
  simp only [State.startSlot, modMe_withQt, at_withQt, startOp_withQt, fields_withQt, carry_eqs]
  iterate 2 congr 1
  generalize startOp _ _ = r
  cases r <;> simp only [map_eqs, carry_eqs, spendInj_withQt]
theorem startSlots_withQt (bd os) :
    (withQt s x).startSlots bd os = carry x (s.startSlots bd os) := by
  refine foldl_carry s x os fun acc o => ?_
  cases acc with
  | error e => rfl
  | ok u =>
    simp only [carry_eqs, startSlot_withQt, fields_withQt]
    generalize State.startSlot _ _ _ = r
    cases r <;> simp only [carry_eqs, fields_withQt, update_withQt]
theorem logPreempt_withQt (t k forced) :
    (withQt s x).logPreempt t k forced = withQt (s.logPreempt t k forced) x := by
  simp only [State.logPreempt, fields_withQt, ite_withQt, log_withQt]
theorem takePreempt_withQt (t f forced) :
    (withQt s x).takePreempt t f forced = withQt (s.takePreempt t f forced) x := by
  simp only [State.takePreempt, tile_withQt, logPreempt_withQt, giveUp_withQt]
  split <;> rfl
theorem endsHere_withQt (t k) : (withQt s x).endsHere t k = s.endsHere t k := (rfl)
theorem spendEmpty_withQt (os) :
    (withQt s x).spendEmpty os = withQt (s.spendEmpty os) x := by
  simp only [State.spendEmpty, fields_withQt, modMe_withQt]
theorem splitCycle_withQt (t) :
    (withQt s x).splitCycle t = withQt (s.splitCycle t) x := by
  simp only [State.splitCycle, modTile_withQt, busyHold_withQt]
theorem tryIssue_withQt (t b) :
    (withQt s x).tryIssue t b = carry x (s.tryIssue t b) := by
  simp only [State.tryIssue, me_withQt, bundleAt_withQt, endsHere_withQt, here_withQt, fields_withQt, update_withQt, checkBundle_withQt,
    enterBlock_withQt, startSlots_withQt]
  split
  · rfl
  simp only [carry_eqs]
  iterate 2 congr 1
  split
  · rfl
  generalize State.startSlots _ _ _ = r
  cases r with
  | error e => rfl
  | ok u =>
    simp only [carry_eqs, spendEmpty_withQt, me_withQt, setMe_withQt, translates_withQt, others_withQt, busyBeats_withQt,
      splitCycle_withQt, ite_withQt]
theorem bundleHalts_withQt (t b h) :
    (withQt s x).bundleHalts t b h = withQt (s.bundleHalts t b h) x := by
  simp only [State.bundleHalts, fields_withQt, update_withQt, decodeAt_withQt, takePreempt_withQt, modMe_withQt, ite_withQt]
  split
  · rfl
  · rfl
  · split <;> exact settled_withQt ..
  · rfl
theorem issue_withQt (t b) :
    (withQt s x).issue t b = withQt (s.issue t b) x := by
  simp only [State.issue, tryIssue_withQt, bundleHalts_withQt]
  generalize State.tryIssue _ _ _ = r
  cases r <;> rfl
theorem takeStop_withQt (t f) :
    (withQt s x).takeStop t f = withQt (s.takeStop t f) x := by
  simp only [State.takeStop, modTile_withQt, tile_withQt, abort_withQt, putTask_withQt, takePreempt_withQt]
  (repeat' split) <;> rfl
theorem force_withQt (t) :
    (withQt s x).force t = withQt (s.force t) x := by
  simp only [State.force, tile_withQt, takePreempt_withQt, modTile_withQt, putTask_withQt, ite_withQt]
  split <;> rfl
theorem overtaken_withQt (t b late) :
    (withQt s x).overtaken t b late = maybe x (s.overtaken t b late) := by
  simp only [State.overtaken, tile_withQt, fenced_withQt, hangAt_withQt, hang_withQt, force_withQt]
  split
  · rfl
  · split
    · rfl
    · split <;> simp only [maybe_eqs]
theorem overdue_withQt (t b) :
    (withQt s x).overdue t b = withQt (s.overdue t b) x := by
  simp only [State.overdue, ite_withQt, tile_withQt, fenced_withQt, hangAt_withQt, hang_withQt, putTask_withQt]
  (repeat' split) <;> rfl
theorem relTurn_withQt (t) : (withQt s x).relTurn t = s.relTurn t := (rfl)
theorem bundleIssue_withQt (t) :
    (withQt s x).bundleIssue t = withQt (s.bundleIssue t) x := by
  simp only [State.bundleIssue, tile_withQt, nextDue_withQt, mayStop_withQt, takeStop_withQt, overtaken_withQt, overdue_withQt,
    approach_withQt, raiseHold_withQt, relTurn_withQt, issue_withQt, ite_withQt]
  split
  · split
    · rfl
    split
    · rfl
    · split
      · rfl
      generalize State.overtaken _ _ _ _ = o
      cases o <;> simp only [maybe_eqs]
    · rfl
  · rfl
theorem lateCtx_withQt (t b k d) :
    (withQt s x).lateCtx t b k d = withQt (s.lateCtx t b k d) x := by
  simp only [State.lateCtx, fields_withQt, update_withQt]
theorem tryDelayed_withQt (t b k d) :
    (withQt s x).tryDelayed t b k d = carry x (s.tryDelayed t b k d) := by
  simp only [State.tryDelayed, lateCtx_withQt, setMe_withQt, startOp_withQt]
  generalize startOp _ _ = r
  cases r with
  | error e => rfl
  | ok u => simp only [map_eqs, carry_eqs, spendInj_withQt, me_withQt, setMe_withQt]
theorem recordStart_withQt (d) :
    (withQt s x).recordStart d = withQt (s.recordStart d) x := by
  simp only [State.recordStart, fields_withQt, update_withQt, modMe_withQt, begin_withQt]
  split
  · rfl
  generalize State.begin _ _ _ _ _ _ _ _ = r
  cases r <;> simp only [map_eqs, reads_onOpn, me_withQt]
theorem catchLate_withQt (t b k d c cls addr data step) :
    (withQt s x).catchLate t b k d c cls addr data step = withQt (s.catchLate t b k d c cls addr data step) x := by
  simp only [State.catchLate, lateCtx_withQt, recordStart_withQt, modTile_withQt, ite_withQt]
theorem lateHalts_withQt (t b d e) :
    (withQt s x).lateHalts t b d e = withQt (s.lateHalts t b d e) x := by
  simp only [State.lateHalts, tile_withQt, lateCtx_withQt, injFires_withQt, putTask_withQt, fields_withQt, ite_withQt]
  split
  · rfl
  generalize State.injFires _ = i
  cases i <;> cases e <;> simp only [tile_withQt, catchLate_withQt, lateCtx_withQt, settled_withQt, ite_withQt]
theorem tryBeat_withQt (t b v) :
    (withQt s x).tryBeat t b v = carry x (s.tryBeat t b v) := by
  simp only [State.tryBeat, tile_withQt, tryDelayed_withQt, mayIssue_withQt, approach_withQt, tryIssue_withQt]
  split
  · rfl
  split
  · generalize State.tryDelayed _ _ _ _ _ = r
    cases r <;> rfl
  · simp only [carry_eqs]
theorem beatHalts_withQt (t b h) :
    (withQt s x).beatHalts t b h = withQt (s.beatHalts t b h) x := by
  simp only [State.beatHalts, lateHalts_withQt, approach_withQt, bundleHalts_withQt]
  split <;> rfl
theorem restOfBeat_withQt (t b vs) :
    (withQt s x).restOfBeat t b vs = s.restOfBeat t b vs := by
  unfold State.restOfBeat
  rw [foldl_carry s x vs fun acc v => ?_]
  · generalize List.foldl _ _ vs = r
    cases r <;> rfl
  · cases acc with
    | error e => rfl
    | ok u =>
      simp only [carry_eqs, tryBeat_withQt]
      generalize State.tryBeat _ _ _ _ = r
      cases r <;> simp only [carry_eqs]
theorem delayedStart_withQt (t) :
    (withQt s x).delayedStart t = withQt (s.delayedStart t) x := by
  simp only [State.delayedStart, dueOf_withQt, tile_withQt, fenced_withQt, overtaken_withQt, modTile_withQt, raiseHold_withQt,
    tryBeat_withQt, beatHalts_withQt]
  split
  · split
    · rfl
    split
    · rfl
    generalize State.overtaken _ _ _ _ = o
    cases o with
    | some u => rfl
    | none =>
      simp only [maybe_eqs]
      split
      · rfl
      rename_i d _ _ _ _
      generalize State.tryBeat _ _ _ (.start _) = r
      cases r with
      | error h => rfl
      | ok u =>
        simp only [carry_eqs, restOfBeat_withQt]
        split
        · rfl
        split
        · rfl
        generalize State.tryBeat _ _ _ _ = r
        cases r <;> simp only [carry_eqs, ite_withQt]
  · rfl

/-! #### Commit -/

theorem modRegsAt_withQt (t f) :
    (withQt s x).modRegsAt t f = withQt (s.modRegsAt t f) x := by
  simp only [State.modRegsAt, modTile_withQt]

/-! #### Engines -/

theorem haltedLive_withQt (r) : (withQt s x).haltedLive r = s.haltedLive r := (rfl)
theorem haltToken_withQt (quad ref) :
    (withQt s x).haltToken quad ref = ((s.haltToken quad ref).1, withQt (s.haltToken quad ref).2 x) := by
  simp only [State.haltToken, fields_withQt, update_withQt, haltedLive_withQt]
  split
  · rfl
  · split <;> rfl
theorem copies_withQt (e) : (withQt s x).copies e = s.copies e := (rfl)
theorem setCopies_withQt (e run halted) :
    (withQt s x).setCopies e run halted = withQt (s.setCopies e run halted) x := by
  simp only [State.setCopies, fields_withQt, update_withQt, modTile_withQt]
  split <;> rfl
theorem haltCopy_withQt (e c cause va) :
    (withQt s x).haltCopy e c cause va = withQt (s.haltCopy e c cause va) x := by
  simp only [State.haltCopy, haltToken_withQt, log_withQt, copies_withQt, setCopies_withQt]
theorem haltMill_withQt (t m cause va) :
    (withQt s x).haltMill t m cause va = withQt (s.haltMill t m cause va) x := by
  simp only [State.haltMill, haltToken_withQt, tile_withQt, log_withQt, putTask_withQt, modRegsAt_withQt]
  split <;> rfl

/-! #### CmdProc -/

theorem hRead_withQt (quad va n) : (withQt s x).hRead quad va n = s.hRead quad va n := (rfl)
theorem queue_withQt (quad n) : (withQt s x).queue quad n = s.queue quad n := (rfl)
theorem modQueue_withQt (quad n f) :
    (withQt s x).modQueue quad n f = withQt (s.modQueue quad n f) x := by
  simp only [State.modQueue, fields_withQt, update_withQt]
theorem look_withQt (quad n) : (withQt s x).look quad n = s.look quad n := (rfl)
theorem haltQueue_withQt (quad n status c va seq) :
    (withQt s x).haltQueue quad n status c va seq = withQt (s.haltQueue quad n status c va seq) x := by
  simp only [State.haltQueue, log_withQt, queueStatus_withQt, partOf_withQt, modQueue_withQt]
theorem lookOn_withQt (quad n) :
    (withQt s x).lookOn quad n = withQt (s.lookOn quad n) x := by
  simp only [State.lookOn, queueVa_withQt, hRead_withQt, othersOn_withQt, partOf_withQt, look_withQt, modQueue_withQt, log_withQt,
    haltQueue_withQt, queueStatus_withQt]
  split <;> rfl
theorem notify_withQt (quad n v) :
    (withQt s x).notify quad n v = withQt (s.notify quad n v) x := by
  simp only [State.notify, fields_withQt, update_withQt, ite_withQt, foldl_withQt, implies_true, partOf_withQt, fenced_withQt,
    modQueue_withQt, quadsOf_withQt, lookOn_withQt]

/-! #### Tasks -/

theorem pauseCopy_withQt (e) :
    (withQt s x).pauseCopy e = withQt (s.pauseCopy e) x := by
  simp only [State.pauseCopy, copies_withQt, haltCopy_withQt]
  split <;> rfl
theorem pauseMills_withQt (t) :
    (withQt s x).pauseMills t = withQt (s.pauseMills t) x := by
  simp only [State.pauseMills, tile_withQt, foldl_withQt, haltMill_withQt, implies_true]
  split <;> rfl
theorem setHalt_withQt (p b) :
    (withQt s x).setHalt p b = withQt (s.setHalt p b) x := by
  simp only [State.setHalt, fields_withQt, update_withQt]
theorem haltPartition_withQt (p) :
    (withQt s x).haltPartition p = withQt (s.haltPartition p) x := by
  simp only [State.haltPartition, fields_withQt, fenced_withQt, setHalt_withQt, tilesOf_withQt, quadsOf_withQt, foldl_withQt,
    pauseCopy_withQt, pauseMills_withQt, force_withQt, ite_withQt, implies_true]
theorem leadOf_withQt (t k) : (withQt s x).leadOf t k = s.leadOf t k := (rfl)
theorem restoreTimetable_withQt (p) :
    (withQt s x).restoreTimetable p = withQt (s.restoreTimetable p) x := by
  unfold State.restoreTimetable
  refine foldl_withQt _ _ _ fun s q => ?_
  simp only [idle_withQt, fields_withQt, update_withQt, tile_withQt, placeTask_withQt, modTile_withQt, leadOf_withQt]
  split
  · split
    · rfl
    · split <;> rfl
  · rfl
theorem resumePartition_withQt (p) :
    (withQt s x).resumePartition p = withQt (s.resumePartition p) x := by
  simp only [State.resumePartition, fields_withQt, fenced_withQt, setHalt_withQt, restoreTimetable_withQt, quadsOf_withQt, lookOn_withQt,
    foldl_withQt, ite_withQt, implies_true]
theorem revivable_withQt (p va) : (withQt s x).revivable p va = s.revivable p va := (rfl)
theorem revive_withQt (p va) :
    (withQt s x).revive p va = withQt (s.revive p va) x := by
  simp only [State.revive, fields_withQt, ite_withQt, revivable_withQt, generalFree_withQt, fenced_withQt, enterCommons_withQt,
    groupsUpdate_withQt]
  split <;> rfl
theorem onMill_withQt (n f) :
    (withQt s x).onMill n f = withQt (s.onMill n f) x := by
  simp only [State.onMill, fields_withQt, update_withQt]
theorem detachMill_withQt (n) :
    (withQt s x).detachMill n = withQt (s.detachMill n) x := by
  simp only [State.detachMill, fields_withQt, update_withQt]
theorem haltedCopy_withQt (e n go) :
    (withQt s x).haltedCopy e n go = withQt (s.haltedCopy e n go) x := by
  simp only [State.haltedCopy, copies_withQt, setCopies_withQt]
  split <;> rfl
theorem haltedReduce_withQt (die n go) :
    (withQt s x).haltedReduce die n go = withQt (s.haltedReduce die n go) x := by
  simp only [State.haltedReduce, fields_withQt, update_withQt, ite_withQt, engineDie_withQt]
  split <;> rfl
theorem haltedFrame_withQt (die p va go) :
    (withQt s x).haltedFrame die p va go = withQt (s.haltedFrame die p va go) x := by
  simp only [State.haltedFrame, fields_withQt, update_withQt, ite_withQt, engineDie_withQt]
  split <;> rfl
theorem actOnToken_withQt (quad tok go) :
    (withQt s x).actOnToken quad tok go = withQt (s.actOnToken quad tok go) x := by
  simp only [State.actOnToken, fields_withQt, update_withQt, ite_withQt, haltedCopy_withQt, onMill_withQt, detachMill_withQt,
    haltedReduce_withQt, haltedFrame_withQt]
  (repeat' split) <;> rfl
theorem startInvalidate_withQt (quad) :
    (withQt s x).startInvalidate quad = withQt (s.startInvalidate quad) x := by
  simp only [State.startInvalidate, fields_withQt, update_withQt, ite_withQt, partOf_withQt]

/-! #### Fabric -/

theorem enableChan_withQt (p c) :
    (withQt s x).enableChan p c = withQt (s.enableChan p c) x := by
  simp only [State.enableChan, ite_withQt, chan_withQt, sendCredit_withQt, modChan_withQt]
theorem retryRecv_withQt (p c t) :
    (withQt s x).retryRecv p c t = withQt (s.retryRecv p c t) x := by
  simp only [State.retryRecv, tile_withQt, nextDue_withQt, delayedStart_withQt, bundleIssue_withQt]
  split
  · rfl
  · split <;> rfl
theorem disableChan_withQt (p c) :
    (withQt s x).disableChan p c = withQt (s.disableChan p c) x := by
  simp only [State.disableChan, chan_withQt, fields_withQt, update_withQt, modChan_withQt, sendCredit_withQt, retryRecv_withQt,
    foldl_withQt, ite_withQt, implies_true]
theorem partitions_withQt : (withQt s x).partitions = s.partitions := (rfl)

/-! #### Reset -/

theorem setLayout_withQt (v) :
    (withQt s x).setLayout v = withQt (s.setLayout v) x := by
  simp only [State.setLayout, fields_withQt, update_withQt, ite_withQt]
theorem clearTile_withQt (t) :
    (withQt s x).clearTile t = withQt (s.clearTile t) x := by
  simp only [State.clearTile, ite_withQt, foldl_withQt, implies_true, clearFills_withQt, modTile_withQt, dirLine_withQt, recall_withQt,
    tile_withQt]
theorem clearGroups_withQt (p) :
    (withQt s x).clearGroups p = withQt (s.clearGroups p) x := by
  simp only [State.clearGroups, fields_withQt, access_withQt, lowWrite_withQt]
  split <;> rfl
theorem clearChans_withQt (p) :
    (withQt s x).clearChans p = withQt (s.clearChans p) x := by
  simp only [State.clearChans, chan_withQt, disableChan_withQt, modChan_withQt, foldl_withQt, ite_withQt, implies_true]
theorem partitionReset_withQt (p) :
    (withQt s x).partitionReset p = withQt (s.partitionReset p) x := by
  simp only [State.partitionReset, partitions_withQt, tilesOf_withQt, clearTile_withQt, fields_withQt, update_withQt, leaveSlices_withQt,
    clearGroups_withQt, clearChans_withQt, quadsOf_withQt, wakeReached_withQt, foldl_withQt, ite_withQt, implies_true]

/-! #### HostPort -/

theorem regRead_withQt (w) : (withQt s x).regRead w = s.regRead w := (rfl)
theorem modQuad_withQt (q f) :
    (withQt s x).modQuad q f = withQt (s.modQuad q f) x := by
  simp only [State.modQuad, fields_withQt, update_withQt]
theorem pageEffect_withQt (q off v n be) :
    (withQt s x).pageEffect q off v n be = withQt (s.pageEffect q off v n be) x := by
  simp only [State.pageEffect, ite_withQt, partOf_withQt, startInvalidate_withQt, modQuad_withQt, haltPartition_withQt,
    resumePartition_withQt, fencePart_withQt, revive_withQt, actOnToken_withQt]
  split <;> rfl
theorem pageWrite_withQt (q off v be priv) :
    (withQt s x).pageWrite q off v be priv = withQt (s.pageWrite q off v be priv) x := by
  simp only [State.pageWrite, fields_withQt, ite_withQt, modQuad_withQt, partOf_withQt, pageEffect_withQt]
theorem chanWrite_withQt (p c off v be) :
    (withQt s x).chanWrite p c off v be = withQt (s.chanWrite p c off v be) x := by
  simp only [State.chanWrite, chan_withQt, disableChan_withQt, modChan_withQt, enableChan_withQt, ite_withQt]
theorem hostPlace_withQt (a n need) : (withQt s x).hostPlace a n need = s.hostPlace a n need := (rfl)
theorem hostRead_withQt (a n) :
    (withQt s x).hostRead a n = s.hostRead a n := by
  simp only [State.hostRead, hostPlace_withQt, cohPoisoned_withQt, asClosed_withQt, ctrlByte_withQt, regRead_withQt, fields_withQt]
theorem noteRewrite_withQt (pas) :
    (withQt s x).noteRewrite pas = withQt (s.noteRewrite pas) x := by
  unfold State.noteRewrite
  refine foldl_withQt _ _ _ fun s q => foldl_withQt _ _ _ fun s n => ?_
  simp only [queue_withQt, partOf_withQt, queueVa_withQt, access_withQt, modQueue_withQt, ite_withQt]
  split
  · rfl
  · split
    · rfl
    · split <;> rfl
theorem ctrlWrite_withQt (cs) :
    (withQt s x).ctrlWrite cs = withQt (s.ctrlWrite cs) x := by
  simp only [State.ctrlWrite, ite_withQt, foldl_withQt, implies_true, pageWrite_withQt]

/-! #### Writes

A write of the device page may reset the device, which clears the sources: whatever the sources were, they are all that differs after
it. -/

/-- Two states that differ in nothing but the sources of the queue transport. -/
def SameBut (u v : State) : Prop := ∃ y, u = withQt v y

theorem deviceWrite_same (off v be) :
    SameBut ((withQt s x).deviceWrite off v be) (s.deviceWrite off v be) := by
  simp only [State.deviceWrite, fields_withQt, update_withQt, setLayout_withQt, partitionReset_withQt, foldl_withQt, ite_withQt,
    implies_true]
  split
  · split
    · exact ⟨[], rfl⟩
    · exact ⟨x, rfl⟩
  all_goals exact ⟨x, rfl⟩

theorem regWrite_same (w v be priv) :
    SameBut ((withQt s x).regWrite w v be priv) (s.regWrite w v be priv) := by
  unfold State.regWrite
  simp only [pageWrite_withQt, queue_withQt, notify_withQt, chanWrite_withQt, ite_withQt]
  split
  · exact ⟨x, rfl⟩
  · exact ⟨x, rfl⟩
  · split
    · exact deviceWrite_same ..
    · exact ⟨x, rfl⟩
  · exact ⟨x, rfl⟩
  · exact ⟨x, rfl⟩

/-- One register word of a host write (R293). -/
def putWord (s : State) (w : Nat × BitVec 8 × Word64) : State := match regWord w.1 with
  | some r => s.regWrite r w.2.2 w.2.1 true
  | none => s

theorem foldl_putWord_same {u v : State} (same : SameBut u v) (ws : List (Nat × BitVec 8 × Word64)) :
    SameBut (ws.foldl putWord u) (ws.foldl putWord v) := by
  induction ws generalizing u v with
  | nil => exact same
  | cons w ws ih =>
    obtain ⟨y, rfl⟩ := same
    refine ih ?_
    unfold putWord
    split
    · exact regWrite_same ..
    · exact ⟨y, rfl⟩

theorem hostWrite_same {a bs} {w : State} (done : s.hostWrite a bs = some w) :
    ∃ u, (withQt s x).hostWrite a bs = some u ∧ SameBut u w := by
  unfold State.hostWrite at done ⊢
  simp only [hostPlace_withQt, cohPoisoned_withQt, lowWrite_withQt, ctrlWrite_withQt, noteRewrite_withQt]
  cases place : s.hostPlace a bs.length .write with
  | nothing =>
    rw [place] at done
    cases done
  | bytes pas =>
    rw [place] at done
    dsimp only at done ⊢
    generalize List.any _ _ = refused at done ⊢
    cases refused with
    | false =>
      rw [if_neg Bool.false_ne_true] at done ⊢
      exact ⟨_, rfl, x, by rw [← Option.some.inj done]⟩
    | true =>
      rw [if_pos rfl] at done
      cases done
  | region o =>
    rw [place] at done
    cases done
    exact ⟨_, rfl, foldl_putWord_same ⟨x, rfl⟩ _⟩

end

open Sys2Proof.Claims

/-! ### What a host access leaves -/

/-- No write breaks a locked run where no task is in one. -/
theorem breaksLock_of_unlocked {s : State} (free : Unlocked s) (u : State) : s.breaksLock u = false := by
  refine List.any_eq_false.mpr fun (x, t) mem => ?_
  have here : s.tiles[t]? = some x := List.mem_zipIdx_iff_getElem?.mp mem
  cases on : x.task with
  | none => simp [on]
  | some k =>
    have short : k.blk.run < 3 := free t k (by simp [On, State.tile, List.getD, here, on])
    have : ¬ 3 ≤ k.blk.run := by omega
    simp [on, State.lockLost, this]

theorem heldBack_of_unlocked {s : State} (free : Unlocked s) (u : State) : heldBack s u = .next { u with fixed := s.fixed } := by
  simp [heldBack, happens, breaksLock_of_unlocked free]

/-- Requests to the L2 slices change only what the slices count. -/
def CountsOnly (u s : State) : Prop := u.mem = s.mem ∧ u.outputs = s.outputs ∧ u.qt = s.qt

theorem othersOn_countsOnly (s : State) (quad part : Nat) (vas : List Nat) : CountsOnly (s.othersOn quad part vas) s := by
  unfold State.othersOn
  split <;> exact ⟨rfl, rfl, rfl⟩

theorem foldl_others_countsOnly (s : State) (qs : List Nat) : CountsOnly (qs.foldl (fun s q => s.others q) s) s := by
  induction qs generalizing s with
  | nil => exact ⟨rfl, rfl, rfl⟩
  | cons q qs ih => exact ih (s.others q)

theorem hostTraffic_countsOnly (s : State) (a n : Nat) : CountsOnly (s.hostTraffic a n) s := by
  unfold State.hostTraffic
  extract_lets
  split
  · exact othersOn_countsOnly ..
  · split
    · exact foldl_others_countsOnly ..
    · exact ⟨rfl, rfl, rfl⟩

/-! ### The queue transport -/

theorem qtSource_known {s : State} {src : Nat} {seq : BitVec 16} {q : QtSource} (known : (s.qt.find? fun q => q.src == src) = some q) :
    s.qtSource src seq = q := by
  simp [State.qtSource, known]

theorem qtRequest_expected {s : State} {src len : Nat} {q : QtSource} {perform : State → State × List Byte}
    (known : (s.qt.find? fun q => q.src == src) = some q) (short : len ≤ 8192) :
    s.qtRequest src q.expect len perform =
      let (u, ans) := perform (withQt s ({ q with expect := q.expect + 1 } :: s.qt.filter fun x => x.src != src))
      { u.output (.answer src ans) with qt := u.qt.map fun x =>
          if x.src == src then { x with answers := ((q.expect, ans) :: x.answers).take 256 } else x } := by
  have carried : ¬ qtLimit < len := Nat.not_lt.mpr short
  simp only [State.qtRequest, qtSource_known known, carried, if_false, BitVec.sub_self, BitVec.toNat_zero, beq_self_eq_true, if_true]
  rfl

theorem qtRequest_repeated {s : State} {src len : Nat} {seq : BitVec 16} {q : QtSource} {perform : State → State × List Byte} {ans}
    (known : (s.qt.find? fun q => q.src == src) = some q) (short : len ≤ 8192) (late : 0 < (q.expect - seq).toNat)
    (kept : (q.expect - seq).toNat ≤ 256) (found : (q.answers.find? fun x => x.1 == seq) = some (seq, ans)) :
    s.qtRequest src seq len perform = s.output (.answer src ans) := by
  have carried : ¬ qtLimit < len := Nat.not_lt.mpr short
  have passed : ¬ (q.expect - seq).toNat = 0 := by omega
  simp only [State.qtRequest, qtSource_known known, carried, if_false, beq_iff_eq, passed, kept, if_true, found]

theorem qtRequest_dropped {s : State} {src len : Nat} {seq : BitVec 16} {q : QtSource} {perform : State → State × List Byte}
    (known : (s.qt.find? fun q => q.src == src) = some q) (far : 256 < (q.expect - seq).toNat) :
    s.qtRequest src seq len perform = s := by
  have passed : ¬ (q.expect - seq).toNat = 0 := by omega
  have old : ¬ (q.expect - seq).toNat ≤ 256 := by omega
  simp only [State.qtRequest, qtSource_known known, beq_iff_eq, passed, old, if_false, ite_self]

/-- The answer goes into the record of its source alone. -/
theorem map_record_answer {qs : List QtSource} {q : QtSource} {src : Nat} (own : q.src = src) (seq : BitVec 16) (ans : List Byte) :
    (({ q with expect := q.expect + 1 } :: qs.filter fun x => x.src != src).map fun x =>
      if x.src == src then { x with answers := ((seq, ans) :: x.answers).take 256 } else x)
    = answered q seq ans :: qs.filter fun x => x.src != src := by
  have rest : ((qs.filter fun x => x.src != src).map fun x =>
      if x.src == src then { x with answers := ((seq, ans) :: x.answers).take 256 } else x) = qs.filter fun x => x.src != src := by
    refine (List.map_congr_left fun x mem => ?_).trans (List.map_id _)
    have other : x.src ≠ src := by simpa using (List.mem_filter.mp mem).2
    simp [other]
  rw [List.map_cons, rest]
  simp [answered, own]

theorem queueTransportRead_performed {s : State} {src n : Nat} {a : Word64} {q : QtSource} {bs : List Byte}
    (known : (s.qt.find? fun q => q.src == src) = some q) (short : n ≤ 8192) (named : a.toNat < 2 ^ 56)
    (read : s.hostRead a.toNat n = some bs) :
    Comes s (.queueTransportRead src q.expect a n) fun u => u.mem = s.mem ∧
      u.outputs = s.outputs ++ [.answer src (answerTo a n 1 q.expect true bs)] ∧
      u.qt = answered q q.expect (answerTo a n 1 q.expect true bs) :: s.qt.filter fun x => x.src != src := by
  refine ⟨_, rfl, rfl, ?_⟩
  rw [qtRequest_expected known short]
  simp only [named, if_true, hostRead_withQt, read]
  obtain ⟨mem, outputs, qt⟩ := hostTraffic_countsOnly
    (withQt s ({ q with expect := q.expect + 1 } :: s.qt.filter fun x => x.src != src)) a.toNat n
  refine ⟨mem, congrArg (· ++ _) outputs, ?_⟩
  refine (congrArg (List.map _) qt).trans ?_
  exact map_record_answer (by simpa using List.find?_some known) ..

theorem queueTransportWrite_performed {s w : State} {src : Nat} {a : Word64} {q : QtSource} {bs : List Byte} (free : Unlocked s)
    (known : (s.qt.find? fun q => q.src == src) = some q) (short : bs.length ≤ 8192) (named : a.toNat < 2 ^ 56)
    (wrote : s.hostWrite a.toNat bs = some w) :
    Comes s (.queueTransportWrite src q.expect a bs) fun u => u.mem = w.mem ∧
      u.outputs = w.outputs ++ [.answer src (answerTo a bs.length 2 q.expect true [])] := by
  refine ⟨_, heldBack_of_unlocked free _, rfl, ?_⟩
  rw [qtRequest_expected known short]
  obtain ⟨u, wrote', y, rfl⟩ := hostWrite_same s ({ q with expect := q.expect + 1 } :: s.qt.filter fun x => x.src != src) wrote
  simp only [named, if_true, wrote']
  obtain ⟨mem, outputs, -⟩ := hostTraffic_countsOnly (withQt w y) a.toNat bs.length
  exact ⟨mem, congrArg (· ++ _) outputs⟩

/-! ### Register writes -/

theorem written_all (old v : Word64) : written old v 0xFF = v := by
  have all : byteMask 0xFF = BitVec.allOnes 64 := by decide
  rw [written, all, BitVec.not_allOnes, BitVec.and_zero, BitVec.zero_or, BitVec.and_allOnes]

theorem setWidth_written_low (old v : Word64) : (written old v 0x0F#8).setWidth 32 = v.setWidth 32 := by
  have low : byteMask 0x0F#8 = (BitVec.allOnes 32).setWidth 64 := by decide
  ext i
  rw [written, low]
  simp [-BitVec.reduceAllOnes]

theorem registerWrite_cap (s : State) (v : Word64) :
    s.registerWrite 0x20018 v 0xFF true = { s with dev := { s.dev with cap := v.extractLsb' 0 16 } } := by
  have : s.registerWrite 0x20018 v 0xFF true
      = { s with dev := { s.dev with cap := (written (s.dev.word s.fixed 0x018) v 0xFF).extractLsb' 0 16 } } := rfl
  rw [this, written_all]

theorem registerWrite_device_unprivileged (s : State) {off : Nat} (v : Word64) (be : BitVec 8) (low : 0x20000 ≤ off)
    (high : off < 0x21000) : s.registerWrite off v be false = s := by
  have word : regWord off = some (.device (off - 0x20000)) := by
    simp only [regWord, show ¬ off < 0x8000 by omega, show ¬ (0x10000 ≤ off ∧ off < 0x18000) by omega, low, high, and_self, if_true,
      if_false]
  simp [State.registerWrite, word, State.regWrite]

theorem registerWrite_notify (s : State) {q n : Nat} (v : Word64) (quad : q < 8) (slot : n < 64) :
    s.registerWrite (0x10000 + 0x1000 * q + 8 * n) v 0x0F true = s.notify q n (v.setWidth 32) := by
  have word : regWord (0x10000 + 0x1000 * q + 8 * n) = some (.notify q n) := by
    simp only [regWord, show ¬ 0x10000 + 0x1000 * q + 8 * n < 0x8000 by omega,
      show 0x10000 ≤ 0x10000 + 0x1000 * q + 8 * n ∧ 0x10000 + 0x1000 * q + 8 * n < 0x18000 by omega, and_self, if_true, if_false,
      show (0x10000 + 0x1000 * q + 8 * n - 0x10000) % 0x1000 = 8 * n by omega, show 8 * n < 0x200 by omega,
      show (0x10000 + 0x1000 * q + 8 * n - 0x10000) / 0x1000 = q by omega, show 8 * n / 8 = n by omega]
  have aligned : (0x10000 + 0x1000 * q + 8 * n) % 8 = 0 := by omega
  simp [State.registerWrite, aligned, word, State.regWrite, setWidth_written_low]

/-- Settles O45. A request of the queue transport is performed on a state that differs in its sources alone, which no access reads
(`hostRead_withQt`, `hostWrite_same`); nothing holds a write back while no run is locked. -/
theorem hostAccesses : Obligations.HostAccesses := by
  intro s free
  refine ⟨?_, ?_, ?_, ?_, ?_, ?_, ?_, ?_, ?_⟩
  · intro conn a n bs read
    obtain ⟨mem, outputs, -⟩ := hostTraffic_countsOnly s a.toNat n
    refine ⟨_, rfl, rfl, ?_⟩
    rw [read]
    exact ⟨mem, congrArg (· ++ _) outputs⟩
  · intro conn a n refused
    change happens s _ = _
    rw [refused]
    rfl
  · intro conn a bs w wrote
    obtain ⟨mem, outputs, -⟩ := hostTraffic_countsOnly w a.toNat bs.length
    refine ⟨_, heldBack_of_unlocked free _, rfl, ?_⟩
    rw [wrote]
    exact ⟨mem, congrArg (· ++ _) outputs⟩
  · intro conn a bs refused
    refine (heldBack_of_unlocked free _).trans ?_
    rw [refused]
    rfl
  · intro src seq a n q bs known short named
    refine ⟨?_, ?_, ?_⟩
    · rintro rfl read
      exact queueTransportRead_performed known short named read
    · intro ans late kept found
      exact congrArg (happens s) (qtRequest_repeated known short late kept found)
    · intro far
      exact congrArg (happens s) (qtRequest_dropped known far)
  · rintro src seq a bs q w known short named rfl wrote
    exact queueTransportWrite_performed free known short named wrote
  · intro v
    exact (heldBack_of_unlocked free _).trans (by rw [registerWrite_cap])
  · intro off v be low high
    exact (heldBack_of_unlocked free _).trans (by rw [registerWrite_device_unprivileged s v be low high])
  · intro q n v quad slot _
    exact congrArg (heldBack s) (registerWrite_notify s v quad slot)

end Sys2Proof.Laws
end

section
namespace Sys2Proof.Laws

open Machine
open Host (Cell)
open Sys2Proof.Claims

/-! ### The state after a reset -/

/-- A file of entries at their default reads as the default at every number. -/
theorem getD_replicate_default {α : Type} (n i : Nat) (d : α) : (List.replicate n d).getD i d = d := by
  rw [List.getD_eq_getElem?_getD, List.getElem?_getD_replicate_default_eq]

/-- The tiles of R14 after a reset: those in service, and the spares. -/
theorem mem_reset_tiles {x : Tile} (mem : x ∈ State.reset.tiles) : x = {} ∨ x = { life := .spare } := by
  obtain ⟨quad, here, mem⟩ := List.mem_flatten.mp mem
  rw [List.eq_of_mem_replicate here] at mem
  exact (List.mem_append.mp mem).imp List.eq_of_mem_replicate List.eq_of_mem_replicate

/-- What holds of a tile at its default, which stands outside the list, and of every tile of a state holds at every number. -/
theorem tile_of_forall {P : Tile → Prop} {s : State} (outside : P {}) (all : ∀ x ∈ s.tiles, P x) (t : Nat) : P (s.tile t) := by
  rw [State.tile, List.getD_eq_getElem?_getD]
  cases here : s.tiles[t]? with
  | none => exact outside
  | some x => exact all x (List.mem_of_getElem? here)

theorem reset_tile_task (t : Nat) : (State.reset.tile t).task = none := by
  refine tile_of_forall (P := fun x => x.task = none) rfl (fun x mem => ?_) t
  rcases mem_reset_tiles mem with rfl | rfl <;> rfl

theorem filesOk_default : FilesOk {} := by
  simp only [FilesOk, List.length_replicate, and_self]

theorem reset_registerFiles : RegisterFiles State.reset := by
  have empty (x : Tile) (mem : x ∈ State.reset.tiles) : x.task = none ∧ x.pairPend = [] := by
    rcases mem_reset_tiles mem with rfl | rfl <;> exact ⟨rfl, rfl⟩
  refine ⟨fun x mem => ?_, List.forall_mem_nil _⟩
  obtain ⟨idle, settled⟩ := empty x mem
  rw [idle, settled]
  exact ⟨fun _ runs => (nomatch runs), List.forall_mem_nil _⟩

/-- Settles O52: the state after a reset is a literal, so its values are read off; its files are runs of one default each. -/
theorem resetState : Obligations.ResetState := by
  have quads (q : Nat) : State.reset.quads.getD q {} = {} := getD_replicate_default 8 q _
  have parts (p : Nat) : State.reset.parts.getD p {} = {} := getD_replicate_default 8 p _
  refine ⟨rfl, ?_, reset_tile_task, fun q => ?_, fun p => ?_, ?_, ?_, reset_wf, fun n => ?_,
    fun n => getD_replicate_default .., fun n => ?_, rfl, rfl, rfl, rfl, rfl, filesOk_default, reset_registerFiles⟩
  · simp only [State.reset, List.length_flatten, List.map_replicate, List.length_append, List.length_replicate, List.sum_replicate]
    rfl
  · rw [quads]
    exact ⟨rfl, rfl, rfl, rfl, rfl, rfl, rfl, rfl, rfl, rfl, rfl, rfl, rfl, rfl, rfl, rfl, rfl, rfl, rfl⟩
  · rw [parts]
    exact ⟨rfl, rfl, rfl⟩
  · decide
  · decide
  · rw [Regs.sreg, getD_replicate_default, ite_self]
  · rw [Regs.qreg, getD_replicate_default, Bool.or_false, beq_eq_decide]

end Sys2Proof.Laws
end

section
namespace Sys2Proof.Laws

open Machine
open Host (Cell)

/-! ### What one tile does to the others

A partition reset withdraws the channels of the partition, and a tile of another partition that holds for their bytes then starts its
operation again, whatever it is (R303, R391). So the reset has to be followed through every operation of a bundle: each lemma below
says of one function of the model, in the model's order, that it is confined to the tile it runs on. -/

/-- `s` has come from `o` by what the tile `t` does: what `view` reads of the partitions has not changed, no other tile has been given
a task, and an operation is starting on tile `c`. -/
structure Confined {α : Type} (view : Part → α) (o : State) (t c : Nat) (s : State) : Prop where
  parts : s.parts.map view = o.parts.map view
  idle : ∀ i, i ≠ t → (o.tile i).task = none → (s.tile i).task = none
  cur : s.cur.tile = c

section
variable {α : Type} {view : Part → α} {o : State} {t c : Nat} {s u : State}

theorem Confined.refl (view : Part → α) (s : State) (t : Nat) : Confined view s t s.cur.tile s := ⟨rfl, fun _ _ => id, rfl⟩

theorem Confined.same (h : Confined view o t c s) (parts : u.parts = s.parts) (tiles : u.tiles = s.tiles)
    (cur : u.cur.tile = s.cur.tile) : Confined view o t c u where
  parts := parts ▸ h.parts
  idle i other was := by rw [State.tile, tiles]; exact h.idle i other was
  cur := cur.trans h.cur

theorem Confined.foldl {ι : Type} {f : State → ι → State} (h : Confined view o t c s) (is : List ι)
    (step : ∀ i u, Confined view o t c u → Confined view o t c (f u i)) : Confined view o t c (is.foldl f s) :=
  Kept.run step h is

theorem setTile_outside {m : Nat} (x : Tile) (outside : s.tiles.length ≤ m) : s.setTile m x = s := by
  rw [State.setTile, List.set_eq_of_length_le outside]

theorem Confined.setTile {m : Nat} {x : Tile} (h : Confined view o t c s)
    (idle : m ≠ t → (s.tile m).task = none → x.task = none) : Confined view o t c (s.setTile m x) where
  parts := h.parts
  idle i other was := by
    have now := h.idle i other was
    rcases eq_or_ne m i with rfl | apart
    · rcases Nat.lt_or_ge m s.tiles.length with inside | outside
      · rw [setTile_tile s m x inside]
        exact idle other now
      · rwa [setTile_outside _ outside]
    · rw [setTile_other s m i x apart]
      exact now
  cur := h.cur

theorem Confined.modTile {m : Nat} {f : Tile → Tile} (h : Confined view o t c s)
    (idle : ∀ x, x.task = none → (f x).task = none) : Confined view o t c (s.modTile m f) :=
  h.setTile fun _ => idle _

theorem Confined.mapTiles {f : Tile → Tile} (h : Confined view o t c s) (idle : ∀ x, x.task = none → (f x).task = none) :
    Confined view o t c { s with tiles := s.tiles.map f } where
  parts := h.parts
  idle i other was := by
    have now := h.idle i other was
    rw [State.tile, List.getD_eq_getElem?_getD] at now ⊢
    rw [List.getElem?_map]
    cases here : s.tiles[i]? with
    | none => rfl
    | some x =>
      rw [here] at now
      exact idle x now
  cur := h.cur

theorem updAt_tiles (s : State) (m : Nat) (f : Tile → Tile) : updAt s.tiles m f = (s.modTile m f).tiles := by
  rw [updAt, State.modTile, State.setTile, State.tile, List.getD_eq_getElem?_getD]
  cases here : s.tiles[m]? with
  | none => exact (List.set_eq_of_length_le (List.getElem?_eq_none_iff.mp here)).symm
  | some x => rfl

theorem updAt_map {β : Type} (xs : List Part) (p : Nat) {f : Part → Part} {g : Part → β} (keeps : ∀ x, g (f x) = g x) :
    (updAt xs p f).map g = xs.map g := by
  rw [updAt]
  split
  · rename_i x here
    rw [List.map_set, keeps]
    refine List.ext_getElem? fun i => ?_
    rw [List.getElem?_set, List.getElem?_map]
    split
    · subst_vars
      obtain ⟨inside, rfl⟩ := List.getElem?_eq_some_iff.mp here
      simp [inside]
    · rfl
  · rfl

theorem Confined.updParts {p : Nat} {f : Part → Part} (h : Confined view o t c s)
    (keeps : ∀ x, view (f x) = view x) : Confined view o t c { s with parts := updAt s.parts p f } where
  parts := (updAt_map _ _ keeps).trans h.parts
  idle := h.idle
  cur := h.cur

theorem Confined.putTask {k : Task} (h : Confined view o t c s) : Confined view o t c (s.putTask t k) :=
  h.setTile fun other => absurd rfl other

/-- A task may take the place of another on any tile. -/
theorem Confined.putTask_running {m : Nat} {k y : Task} (h : Confined view o t c s) (runs : (s.tile m).task = some y) :
    Confined view o t c (s.putTask m k) :=
  h.setTile fun _ idle => absurd (runs.symm.trans idle) nofun

theorem Confined.setMe {k : Task} (h : Confined view o t t s) : Confined view o t t (s.setMe k) :=
  h.setTile fun other => absurd h.cur other

theorem Confined.modMe {f : Task → Task} (h : Confined view o t t s) : Confined view o t t (s.modMe f) := h.setMe

theorem Confined.modRegs {f : Regs → Regs} (h : Confined view o t t s) : Confined view o t t (s.modRegs f) := by
  unfold State.modRegs
  dsimp only
  split
  · exact h.modMe.modTile fun _ => id
  · exact h.modMe

/-! #### Branches -/

/-- What a guard lets through. -/
theorem ok_of_guarded {ε β : Type} {p : Prop} [Decidable p] {e : ε} {x : Except ε β} {y : β}
    (done : (if p then .error e else x) = .ok y) : x = .ok y := by
  split at done
  · cases done
  · exact done

/-- An `if` whose branches both come to one outcome comes to it in one of them. -/
theorem of_ite_eq {β : Type} {p : Prop} [Decidable p] {x y z : β} (done : (if p then x else y) = z) : x = z ∨ y = z := by
  split at done
  · exact .inl done
  · exact .inr done

theorem Confined.ite {p : Prop} [Decidable p] (h : Confined view o t c s) (h' : Confined view o t c u) :
    Confined view o t c (if p then s else u) := by
  split
  · exact h
  · exact h'

/-! #### Memory and the caches -/

theorem Confined.ctrlClear {pa b} (h : Confined view o t c s) : Confined view o t c (s.ctrlClear pa b) := by
  unfold State.ctrlClear
  dsimp only
  split
  · exact h.same rfl rfl rfl
  · exact h

theorem Confined.setDir {d} (h : Confined view o t c s) : Confined view o t c (s.setDir d) := h.same rfl rfl rfl

theorem Confined.writeBack {l} (h : Confined view o t c s) : Confined view o t c (s.writeBack l) := by
  unfold State.writeBack
  split <;> exact h.same rfl rfl rfl

theorem Confined.evict {m l} (h : Confined view o t c s) : Confined view o t c (s.evict m l) := by
  unfold State.evict
  dsimp only
  split
  · exact h.writeBack.setDir.modTile fun _ => id
  · exact h.modTile fun _ => id

theorem Confined.cacheLeaf {unit p l} (h : Confined view o t c s) : Confined view o t c (s.cacheLeaf unit p l) := by
  unfold State.cacheLeaf
  split
  · exact h.same rfl rfl rfl
  · rw [updAt_tiles]
    exact (h.modTile (m := unit - 8) (f := fun x => { x with micro := addLeaf x.micro p 64 l }) fun _ => id).same rfl rfl rfl

theorem Confined.touchTlb {unit p va} (h : Confined view o t c s) : Confined view o t c (s.touchTlb unit p va) := by
  unfold State.touchTlb
  split
  · exact h.cacheLeaf
  · exact h

theorem Confined.useLines {m ls} (h : Confined view o t c s) : Confined view o t c (s.useLines m ls) := by
  refine h.modTile fun x idle => ?_
  refine List.foldlRecOn (motive := fun y : Tile => y.task = none) ls _ idle fun y idle n _ => ?_
  split <;> exact idle

theorem Confined.recall {line} (h : Confined view o t c s) : Confined view o t c (s.recall line) := by
  unfold State.recall
  dsimp only
  split
  · exact h
  · split
    · exact h.setDir
    · refine (h.writeBack.modTile fun x idle => ?_).setDir
      split <;> exact idle

theorem Confined.modPerf {x f} (h : Confined view o t c s) : Confined view o t c (s.modPerf x f) := h.same rfl rfl rfl

theorem Confined.enterSlices {quad ls} (h : Confined view o t c s) : Confined view o t c (s.enterSlices quad ls) :=
  (h.foldl _ fun _ _ hu => hu.modPerf).same rfl rfl rfl

theorem Confined.leaveSlices {quad ls} (h : Confined view o t c s) : Confined view o t c (s.leaveSlices quad ls) :=
  h.foldl _ fun _ _ hu => hu.modPerf

theorem Confined.request {quad ls} (h : Confined view o t c s) : Confined view o t c (s.request quad ls) := h.enterSlices.leaveSlices

theorem Confined.askLines {m ls batch} (h : Confined view o t c s) : Confined view o t c (s.askLines m ls batch) := by
  refine h.foldl _ fun _ _ hu => ?_
  split
  · exact hu.enterSlices.modTile fun _ => id
  · exact hu

theorem Confined.clearFills {m} (h : Confined view o t c s) : Confined view o t c (s.clearFills m) := by
  unfold State.clearFills
  exact h.leaveSlices.modTile fun _ => id

theorem Confined.others {quad} (h : Confined view o t c s) : Confined view o t c (s.others quad) := h.same rfl rfl rfl

theorem Confined.translates {quad p va} (h : Confined view o t c s) : Confined view o t c (s.translates quad p va) := by
  unfold State.translates
  split
  · exact h.touchTlb
  · exact h.others.touchTlb

theorem Confined.readSide {m line} (h : Confined view o t c s) : Confined view o t c (s.readSide m line) :=
  Confined.setDir (h.modTile fun _ => id)

theorem Confined.writeBackAll {p} (h : Confined view o t c s) : Confined view o t c (s.writeBackAll p) := by
  refine h.foldl _ fun m _ hu => hu.foldl _ fun _ _ hv => ?_
  split
  · exact hv.writeBack.modTile fun _ => id
  · exact hv

theorem Confined.wake {w stamp} (h : Confined view o t c s) : Confined view o t c (s.wake w stamp) := by
  unfold State.wake
  split <;> exact h.same rfl rfl rfl

theorem Confined.wakeReached (h : Confined view o t c s) : Confined view o t c s.wakeReached := h.foldl _ fun _ _ hu => hu.wake

theorem Confined.testWaiters {pa stamp} (h : Confined view o t c s) : Confined view o t c (s.testWaiters pa stamp) := by
  refine h.foldl _ fun _ _ hu => ?_
  split
  · split
    · split
      · exact hu
      · exact hu.wake
    · exact hu.same rfl rfl rfl
  · exact hu

theorem Confined.markWritten {l cs} (h : Confined view o t c s) : Confined view o t c (s.markWritten l cs) := h.same rfl rfl rfl

theorem Confined.noteWrites {ls cs} (h : Confined view o t c s) : Confined view o t c (s.noteWrites ls cs) := by
  unfold State.noteWrites
  have hm := h.foldl ls (f := fun s l => s.markWritten l (cs.filter fun c => lineOf c.1 == l)) fun _ _ hu => hu.markWritten
  dsimp only
  split
  · exact hm
  · exact hm.foldl _ fun _ _ hu => hu.testWaiters

theorem Confined.lowWrite {cs} (h : Confined view o t c s) : Confined view o t c (s.lowWrite cs) := by
  have recalled (ls : List Nat) := h.foldl ls (f := fun s l => s.recall l) fun _ _ hu => hu.recall
  exact Confined.foldl (Confined.noteWrites ((recalled _).same (by rfl) (by rfl) (by rfl))) _ fun _ _ hu => hu.ctrlClear

theorem Confined.stampLine {l} (h : Confined view o t c s) : Confined view o t c (s.stampLine l) := h.setDir

theorem Confined.addAt {tile p pa n} (h : Confined view o t c s) : Confined view o t c (s.addAt tile p pa n) := by
  unfold State.addAt
  split
  · exact h.same rfl rfl rfl
  · exact h.stampLine.lowWrite

theorem Confined.queueStatus {quad n status} (h : Confined view o t c s) : Confined view o t c (s.queueStatus quad n status) := by
  unfold State.queueStatus
  dsimp only
  split
  · exact h
  · split
    · exact h
    · exact h.lowWrite

/-! #### Records, counters and the fault log -/

theorem Confined.addOrHold {p va pa n} (h : Confined Part.kernels o t c s) : Confined Part.kernels o t c (s.addOrHold p va pa n) := by
  unfold State.addOrHold
  split
  · exact h.updParts fun _ => rfl
  · exact h.addAt

theorem Confined.counterAdd {quad p va n} (h : Confined Part.kernels o t c s) (done : s.counterAdd quad p va n = .ok u) :
    Confined Part.kernels o t c u := by
  unfold State.counterAdd at done
  split at done <;> cases done
  exact h.addOrHold

theorem Confined.logAs {p r codes} (h : Confined Part.kernels o t c s) : Confined Part.kernels o t c (s.logAs p r codes) := by
  have counted {v : State} (hv : Confined Part.kernels o t c v) : Confined Part.kernels o t c
      (if (s.quads.getD p {}).lctr == 0 then v
       else match v.counterAdd p p ((s.quads.getD p {}).lctr.toNat * 8) 1 with
        | .ok w => w
        | .error _ => v) := by
    split
    · exact hv
    · split
      · exact hv.counterAdd ‹_›
      · exact hv
  unfold State.logAs
  dsimp only
  split
  · exact h
  · refine counted ?_
    split
    · exact h.lowWrite.same rfl rfl rfl
    · exact h.same rfl rfl rfl

theorem Confined.log {p r} (h : Confined Part.kernels o t c s) : Confined Part.kernels o t c (s.log p r) := h.logAs

theorem Confined.groupApply {p g up pa} (h : Confined Part.kernels o t c s) : Confined Part.kernels o t c (s.groupApply p g up pa) := by
  unfold State.groupApply
  dsimp only
  split
  · exact h.log
  · split
    · exact h
    · generalize (if up then min (leNat (s.cohBytes pa 4) + 1) (2 ^ 32 - 1) else leNat (s.cohBytes pa 4) - 1) = n
      split
      · exact h.stampLine.lowWrite
      · split
        · exact h.stampLine.lowWrite.writeBackAll.counterAdd ‹_›
        · exact h.stampLine.lowWrite.log

theorem Confined.groupUpdate {p g up} (h : Confined Part.kernels o t c s) : Confined Part.kernels o t c (s.groupUpdate p g up) := by
  unfold State.groupUpdate
  dsimp only
  split
  · exact h.log
  · split
    · exact h.same rfl rfl rfl
    · split
      · exact h.groupApply
      · exact h.request.groupApply

theorem Confined.groupsUpdate {p gs up} (h : Confined Part.kernels o t c s) : Confined Part.kernels o t c (s.groupsUpdate p gs up) := by
  refine h.foldl _ fun _ _ hu => ?_
  split
  · exact hu
  · exact hu.groupUpdate

/-- The queues of a partition halted with status 6, as its fence does it (R289). -/
theorem Confined.haltQueues {p} (h : Confined view o t c s) : Confined view o t c
    ((s.quadsOf p).foldl (fun s q => (List.range 64).foldl (fun s n =>
      let s : State := { s with quads := updAt s.quads q fun x => { x with queues := updAt x.queues n fun y =>
        { y with awake := false, halted := true, rewritten := false } } }
      if s.queueEnabled q n then s.queueStatus q n 6 else s) s) s) := by
  refine h.foldl _ fun _ _ hu => hu.foldl _ fun _ _ hv => ?_
  dsimp only
  split
  · exact Confined.queueStatus (hv.same rfl rfl rfl)
  · exact hv.same rfl rfl rfl

theorem Confined.fencePart {p r} (h : Confined Part.kernels o t c s) : Confined Part.kernels o t c (s.fencePart p r) := by
  unfold State.fencePart
  dsimp only
  split
  · exact h
  · refine Confined.haltQueues (Confined.foldl (h.log.updParts ?_) _ fun _ _ hu => hu.modTile ?_)
    · exact fun _ => rfl
    · exact fun _ => id

/-! #### Operations as they start -/

theorem Confined.spendInj (h : Confined view o t t s) : Confined view o t t s.spendInj := by
  unfold State.spendInj
  split
  · exact h.modMe
  · exact h

theorem Confined.begin {opc dc ds srcs pq live more} {n : Opn} (h : Confined view o t t s)
    (done : s.begin opc dc ds srcs pq live more = .ok n) : Confined view o t t n.st := by
  unfold State.begin at done
  dsimp only at done
  split at done
  · cases done
  · split at done <;> cases done
    exact h.setMe

theorem Confined.land {lat wr ds tag fl} (h : Confined view o t t s) : Confined view o t t (s.land lat wr ds tag fl) := h.modMe

theorem Confined.hold_ {e} (h : Confined view o t t s) : Confined view o t t (s.hold_ e) := h.modMe

/-! #### Accesses of path O, and the context areas -/

theorem Confined.oAccess (h : Confined view o t t s) (done : s.oAccess = .ok u) : Confined view o t t u := by
  unfold State.oAccess at done
  dsimp only at done
  split at done
  · cases done
  · split at done
    · cases done
      exact h
    · split at done <;> cases done
      exact h.setMe.modTile fun _ => id

theorem Confined.beginO {opc dc ds srcs more} {n : Opn} (h : Confined view o t t s)
    (done : s.beginO opc dc ds srcs more = .ok n) : Confined view o t t n.st := by
  unfold State.beginO at done
  split at done
  · cases done
  · split at done <;> cases done
    exact (h.begin ‹_›).oAccess ‹_›

theorem Confined.beginT {opc dc ds srcs more} {n : Opn} (h : Confined view o t t s)
    (done : s.beginT opc dc ds srcs more = .ok n) : Confined view o t t n.st := by
  unfold State.beginT at done
  split at done
  · cases done
  · exact h.begin done

theorem Confined.spoilCtx {m k} (h : Confined view o t c s) : Confined view o t c (s.spoilCtx m k) := by
  unfold State.spoilCtx
  dsimp only
  split
  · exact Confined.lowWrite (h.same rfl rfl rfl)
  · exact h.same rfl rfl rfl

theorem Confined.saveCtx {m k cls full} (h : Confined view o t c s) (done : s.saveCtx m k cls full = .ok u) :
    Confined view o t c u := by
  unfold State.saveCtx at done
  dsimp only at done
  split at done
  · cases done
  · split at done <;> cases done
    exact (h.foldl _ fun _ _ hu => hu.lowWrite).same rfl rfl rfl

/-! #### The end of a task -/

theorem Confined.launchEnded {p id} (h : Confined Part.kernels o t c s) : Confined Part.kernels o t c (s.launchEnded p id) :=
  h.updParts fun _ => rfl

theorem Confined.mergeAppend {p r id l} (h : Confined Part.kernels o t c s) : Confined Part.kernels o t c (s.mergeAppend p r id l) := by
  unfold State.mergeAppend
  dsimp only
  split
  · exact h.fencePart
  · split
    · exact h.fencePart
    · exact h.lowWrite.updParts fun _ => rfl

theorem Confined.mergeSync {p k} (h : Confined Part.kernels o t c s) : Confined Part.kernels o t c (s.mergeSync p k) := by
  refine Confined.updParts (h.foldl _ fun _ _ hu => ?_) fun _ => rfl
  split
  · exact hu.mergeAppend
  · exact hu

theorem Confined.freeTile {m} (h : Confined view o t c s) : Confined view o t c (s.freeTile m) :=
  h.clearFills.modTile fun _ _ => rfl

theorem Confined.releaseChans {p id} (h : Confined view o t c s) : Confined view o t c (s.releaseChans p id) := h.same rfl rfl rfl

theorem Confined.noteFrame {p} (h : Confined Part.kernels o t c s) : Confined Part.kernels o t c (s.noteFrame p) := by
  unfold State.noteFrame
  dsimp only
  split
  · exact h
  · exact h.updParts fun _ => rfl

theorem Confined.leaveGroups {p r} (h : Confined Part.kernels o t c s) : Confined Part.kernels o t c (s.leaveGroups p r) := by
  unfold State.leaveGroups
  dsimp only
  split
  · split
    · exact h.updParts fun _ => rfl
    · exact h.groupsUpdate
  · exact h.groupsUpdate

theorem Confined.endTask {m k} (h : Confined Part.kernels o t c s) : Confined Part.kernels o t c (s.endTask m k) :=
  h.releaseChans.mergeSync.leaveGroups.launchEnded.freeTile.noteFrame

/-! #### Additions from peers -/

theorem Confined.acknowledge {serial io} (h : Confined view o t c s) : Confined view o t c (s.acknowledge serial io) :=
  (h.mapTiles fun _ idle => congrArg (Option.map _) idle).same rfl rfl rfl

/-- A change of a tile that leaves its task leaves the tasks of all. -/
theorem modTile_task (s : State) (m : Nat) (f : Tile → Tile) (n : Nat) (keeps : ∀ x, (f x).task = x.task) :
    ((s.modTile m f).tile n).task = (s.tile n).task := by
  rw [modTile_eq]
  rcases eq_or_ne m n with rfl | apart
  · rcases Nat.lt_or_ge m s.tiles.length with inside | outside
    · rw [setTile_tile s m _ inside, keeps]
    · rw [setTile_outside _ outside]
  · rw [setTile_other s m n _ apart]

theorem modTile_runs {s : State} {m n : Nat} {f : Tile → Tile} {k : Task} (runs : (s.tile n).task = some k)
    (keeps : ∀ x, (f x).task = x.task) : ((s.modTile m f).tile n).task = some k :=
  (modTile_task s m f n keeps).trans runs

theorem Confined.applyPeer {m} (h : Confined view o t c s) : Confined view o t c (s.applyPeer m) := by
  unfold State.applyPeer
  dsimp only
  split
  · exact h
  · split
    · exact Confined.acknowledge (h.modTile fun _ => id)
    · rename_i y runs
      refine Confined.acknowledge (Confined.modTile (Confined.putTask_running (y := y) (h.modTile fun _ => id) ?_) fun _ => id)
      exact modTile_runs runs fun _ => rfl

theorem Confined.flushPeer {m} (h : Confined view o t c s) : Confined view o t c (s.flushPeer m) :=
  h.foldl _ fun _ _ hu => hu.applyPeer

/-! #### Exceptions -/

theorem Confined.logInject {m k replayed} (h : Confined Part.kernels o t c s) : Confined Part.kernels o t c (s.logInject m k replayed) :=
  h.foldl _ fun _ _ hu => hu.log

theorem Confined.endEntry {p id} (h : Confined Part.kernels o t c s) : Confined Part.kernels o t c (s.endEntry p id) := by
  refine Confined.foldl (Confined.noteFrame (h.updParts ?_)) _ fun _ _ hu => ?_
  · exact fun _ => rfl
  split
  · split
    · exact hu.endTask.modTile fun _ idle => idle
    · exact hu
  · exact hu

theorem Confined.ctxFail {m k r x va} (h : Confined Part.kernels o t c s) : Confined Part.kernels o t c (s.ctxFail m k r x va) := by
  unfold State.ctxFail
  dsimp only
  split
  · exact h.logInject.log.endEntry.freeTile
  · exact h.logInject.log.endTask

theorem Confined.abort {m i} (h : Confined Part.kernels o t c s) : Confined Part.kernels o t c (s.abort m i) := by
  unfold State.abort
  dsimp only
  split
  · exact h.flushPeer
  · split
    · exact h.flushPeer.logInject.log.endEntry
    · split
      · exact (h.flushPeer.logInject.saveCtx ‹_›).log.endTask
      · exact h.flushPeer.logInject.spoilCtx.ctxFail

/-- The additions of a cancelled `mdrain.red` cancelled (R177). -/
theorem Confined.cancelPeers {gone : List Nat} (h : Confined view o t c s) : Confined view o t c
    (if gone.isEmpty then s
     else { s with tiles := s.tiles.map fun x => { x with peerIn := x.peerIn.filter fun p => !gone.contains p.serial } }) := by
  split
  · exact h
  · exact h.mapTiles fun _ idle => idle

theorem Confined.takeBack {m k} (h : Confined view o t c s) (here : m = t) : Confined view o t c (s.takeBack m k) := by
  subst here
  exact h.cancelPeers.putTask

theorem Confined.faultAt {x cls data} (h : Confined Part.kernels o t t s) : Confined Part.kernels o t t (s.faultAt x cls data) :=
  (h.takeBack h.cur).abort

theorem Confined.lateAt {x bundle data step upto} (h : Confined Part.kernels o t t s) :
    Confined Part.kernels o t t (s.lateAt x bundle data step upto) := (h.takeBack h.cur).abort

theorem Confined.skipAt {x data} (h : Confined Part.kernels o t t s) : Confined Part.kernels o t t (s.skipAt x data) := h.setMe.abort

theorem Confined.busyAt {p m ltick beats ticks} (h : Confined Part.kernels o t c s) :
    Confined Part.kernels o t c (s.busyAt p m ltick beats ticks) := by
  unfold State.busyAt
  dsimp only
  split
  · split
    · exact h
    · exact h.updParts fun _ => rfl
  · exact h

theorem Confined.busyHold {m n} (h : Confined Part.kernels o t c s) : Confined Part.kernels o t c (s.busyHold m n) := by
  unfold State.busyHold
  dsimp only
  split
  · exact h
  · split
    · exact h
    · exact h.busyAt.modTile fun _ => id

theorem Confined.busyBeats {p m n} (h : Confined Part.kernels o t c s) : Confined Part.kernels o t c (s.busyBeats p m n) := by
  unfold State.busyBeats
  dsimp only
  split
  · exact h
  · exact h.foldl _ fun _ _ hu => hu.busyAt

theorem Confined.raiseHold {m r} (h : Confined Part.kernels o t c s) : Confined Part.kernels o t c (s.raiseHold m r) := by
  have up {v : State} (hv : Confined Part.kernels o t c v) : Confined Part.kernels o t c ((v.gangOf m).foldl (fun s n =>
      (s.busyHold n 1).modTile n fun x => x.raise (if n == m then r else .gang)) v) :=
    hv.foldl _ fun _ _ hu => hu.busyHold.modTile fun _ => id
  unfold State.raiseHold
  dsimp only
  split
  · rename_i runs
    exact h.setTile fun _ idle => absurd (runs.symm.trans idle) nofun
  · exact up h.askLines
  · exact up (h.same rfl rfl rfl)
  · exact up h

theorem Confined.decodeAt {x} (h : Confined Part.kernels o t t s) : Confined Part.kernels o t t (s.decodeAt x) := by
  unfold State.decodeAt
  dsimp only
  split
  · exact (h.takeBack h.cur).modTile fun _ => id
  · exact h.faultAt

theorem Confined.settled {r : Except Stop State} (h : Confined Part.kernels o t t s)
    (started : ∀ u, r = .ok u → Confined Part.kernels o t t u) : Confined Part.kernels o t t (s.settled r) := by
  unfold State.settled
  split
  · exact started _ rfl
  · exact h.decodeAt
  · exact h.faultAt
  · exact h.skipAt
  · exact h.lateAt
  · exact h.raiseHold

/-! #### Leaving a tile -/

theorem Confined.requestPreempt {p prio} (h : Confined view o t c s) : Confined view o t c (s.requestPreempt p prio) := by
  unfold State.requestPreempt
  dsimp only
  split
  · exact h
  · split
    · exact h
    · exact h.modTile fun _ => id

theorem Confined.returnRecord {p m r} (h : Confined Part.kernels o t c s) : Confined Part.kernels o t c (s.returnRecord p m r) :=
  Confined.requestPreempt (h.updParts fun _ => rfl)

theorem Confined.giveUp {m f raf why} (h : Confined Part.kernels o t c s) : Confined Part.kernels o t c (s.giveUp m f raf why) := by
  unfold State.giveUp
  dsimp only
  split
  · exact h.flushPeer
  · split
    · exact (h.flushPeer.saveCtx ‹_›).freeTile.returnRecord
    · exact h.flushPeer.spoilCtx.ctxFail

theorem Confined.hang {f} (h : Confined Part.kernels o t c s) : Confined Part.kernels o t c (s.hang t f) := by
  unfold State.hang
  dsimp only
  split
  · exact h
  · split
    · exact Confined.abort (h.modTile fun _ => id)
    · split
      · exact h.abort
      · split
        · exact (h.takeBack rfl).abort
        · exact h.putTask

/-! #### The L slot -/

theorem Confined.loadRows {n vas} {x : State × List (List Byte)} (h : Confined view o t t s) (done : s.loadRows n vas = .ok x) :
    Confined view o t t x.1 := by
  unfold State.loadRows at done
  dsimp only at done
  split at done
  · cases done
  · split at done
    · cases done
    · split at done <;> cases done
      refine Confined.foldl (Confined.foldl h.modMe.useLines.clearFills _ fun _ _ hu => ?_) _ fun _ _ hu => hu.translates
      split
      · exact hu.readSide
      · exact hu

theorem Confined.startLd {d base sz signed off} (h : Confined view o t t s) (done : startLd d base sz signed off s = .ok u) :
    Confined view o t t u := by
  unfold Machine.startLd at done
  dsimp only at done
  (repeat' split at done) <;> cases done
  all_goals exact ((h.beginO ‹_›).loadRows ‹_›).land

theorem Confined.startVld {v base stride} (h : Confined view o t t s) (done : startVld v base stride s = .ok u) :
    Confined view o t t u := by
  unfold Machine.startVld at done
  (repeat' split at done) <;> cases done
  exact ((h.beginO ‹_›).loadRows ‹_›).land

theorem Confined.buffer {hs} (h : Confined view o t t s) : Confined view o t t (s.buffer hs) := h.modMe

theorem Confined.startSt {n base sz off} (h : Confined view o t t s) (done : startSt n base sz off s = .ok u) :
    Confined view o t t u := by
  unfold Machine.startSt at done
  dsimp only at done
  (repeat' split at done) <;> cases done
  all_goals exact (h.beginO ‹_›).buffer

theorem Confined.startVst {v base stride} (h : Confined view o t t s) (done : startVst v base stride s = .ok u) :
    Confined view o t t u := by
  unfold Machine.startVst at done
  dsimp only at done
  (repeat' split at done) <;> cases done
  exact (h.beginO ‹_›).buffer

theorem Confined.startStq {dq i x} (h : Confined view o t t s) (done : startStq dq i x s = .ok u) : Confined view o t t u := by
  unfold Machine.startStq at done
  dsimp only at done
  (repeat' split at done) <;> cases done
  all_goals exact (h.beginO ‹_›).modRegs.hold_

theorem Confined.ringOp {opc dest g bad body} (h : Confined view o t t s) (done : s.ringOp opc dest g bad body = .ok u)
    (started : ∀ n x r, Confined view o t t n.st → body n x r = .ok u → Confined view o t t u) : Confined view o t t u := by
  unfold State.ringOp at done
  split at done
  · cases done
  · exact started _ _ _ (h.begin ‹_›) (ok_of_guarded done)

theorem Confined.startRacq {d g} (h : Confined view o t t s) (done : startRacq d g s = .ok u) : Confined view o t t u := by
  refine h.ringOp done fun n x r hn body => ?_
  split at body <;> cases body
  exact hn.modRegs.land

theorem Confined.startRget {d g} (h : Confined view o t t s) (done : startRget d g s = .ok u) : Confined view o t t u := by
  refine h.ringOp done fun n x r hn body => ?_
  split at body <;> cases body
  exact hn.modRegs.land

theorem Confined.startRpub {g} (h : Confined view o t t s) (done : startRpub g s = .ok u) : Confined view o t t u := by
  refine h.ringOp done fun n x r hn body => ?_
  split at body <;> cases body
  exact hn.hold_

theorem Confined.startRrel {g} (h : Confined view o t t s) (done : startRrel g s = .ok u) : Confined view o t t u := by
  refine h.ringOp done fun n x r hn body => ?_
  split at body <;> cases body
  exact hn.hold_

theorem Confined.startSflush {base ls} (h : Confined view o t t s) (done : startSflush base ls s = .ok u) : Confined view o t t u := by
  unfold Machine.startSflush at done
  split at done <;> cases done
  exact (h.begin ‹_›).hold_

theorem Confined.startSinv {base ls} (h : Confined view o t t s) (done : startSinv base ls s = .ok u) : Confined view o t t u := by
  unfold Machine.startSinv at done
  split at done <;> cases done
  exact (h.begin ‹_›).hold_

/-! #### The commons and the slices -/

theorem Confined.takeId {p} (h : Confined Part.kernels o t c s) : Confined Part.kernels o t c (s.takeId p).2 :=
  h.updParts fun _ => rfl

theorem Confined.enterCommons {p r slot stamp} (h : Confined Part.kernels o t c s) :
    Confined Part.kernels o t c (s.enterCommons p r slot stamp) := Confined.requestPreempt (h.updParts fun _ => rfl)

theorem Confined.newRecord {p r} (h : Confined Part.kernels o t c s) : Confined Part.kernels o t c (s.newRecord p r).2 :=
  h.takeId.groupsUpdate

theorem Confined.amoAt {pa op wide x y} (h : Confined view o t c s) : Confined view o t c (s.amoAt pa op wide x y).2 := by
  unfold State.amoAt
  dsimp only
  split
  · exact h.recall.stampLine.lowWrite
  · exact h.recall

theorem Confined.reply {m serial v} (h : Confined view o t c s) : Confined view o t c (s.reply m serial v) := by
  unfold State.reply
  split
  · exact h
  · exact h.same rfl rfl rfl

theorem Confined.amocAt {p pa m serial op cc x r} (h : Confined Part.kernels o t c s)
    (done : s.amocAt p pa m serial op cc x r = some u) : Confined Part.kernels o t c u := by
  unfold State.amocAt at done
  dsimp only at done
  (repeat' split at done) <;> cases done
  · exact h.reply
  · exact Confined.reply (h.writeBackAll.amoAt.newRecord.same rfl rfl rfl)

theorem Confined.respondTo {p id addr x data left} (h : Confined Part.kernels o t c s) :
    Confined Part.kernels o t c (s.respondTo p id addr x data left) := by
  unfold State.respondTo
  split
  · exact h.modTile fun _ idle => congrArg (Option.map _) idle
  · exact h.log

theorem Confined.dropLock {serial} (h : Confined view o t c s) : Confined view o t c (s.dropLock serial) :=
  (h.mapTiles fun _ idle => congrArg (Option.map _) idle).same rfl rfl rfl

theorem Confined.sliceEffect {w} (h : Confined Part.kernels o t c s) (done : s.sliceEffect w = some u) :
    Confined Part.kernels o t c u := by
  unfold State.sliceEffect at done
  dsimp only at done
  split at done
  · cases done
    exact h.dropLock.respondTo
  · split at done
    · cases done
      refine Confined.lowWrite (Confined.stampLine ?_)
      split
      · exact h.writeBackAll
      · exact h
    · cases done
      exact h.amoAt.reply
    · exact h.amocAt done
    · cases done
      exact h.stampLine.lowWrite
    · cases done
      exact h.groupApply

theorem Confined.performHeld {w} (h : Confined Part.kernels o t c s) (done : s.performHeld w = some u) :
    Confined Part.kernels o t c u := by
  unfold State.performHeld at done
  dsimp only at done
  split at done
  · cases done
  · rename_i v performed
    have effect := (h.enterSlices.ite h).sliceEffect performed
    have left : Confined Part.kernels o t c (if w.l2 then v.leaveSlices w.part [w.line] else v) := effect.leaveSlices.ite effect
    split at done
    · cases done
      exact left
    · split at done <;> cases done
      · exact left.readSide
      · exact left

theorem Confined.arrive {p pa op va l2} (h : Confined Part.kernels o t c s) : Confined Part.kernels o t c (s.arrive p pa op va l2) := by
  unfold State.arrive
  dsimp only
  have entered : Confined Part.kernels o t c
      (if l2 && !(l2 && s.sliceFull p (lineOf pa)) then s.enterSlices p [lineOf pa] else s) := h.enterSlices.ite h
  generalize (if l2 && !(l2 && s.sliceFull p (lineOf pa)) then s.enterSlices p [lineOf pa] else s) = v at entered ⊢
  split
  · exact entered.same rfl rfl rfl
  · split
    · exact entered.performHeld ‹_›
    · exact entered.same rfl rfl rfl

theorem Confined.groupFrom {p m g up} (h : Confined Part.kernels o t c s) : Confined Part.kernels o t c (s.groupFrom p m g up) := by
  unfold State.groupFrom
  dsimp only
  split
  · exact h.log
  · exact h.arrive

theorem Confined.holdMerge {p id op} (h : Confined Part.kernels o t c s) : Confined Part.kernels o t c (s.holdMerge p id op) :=
  h.updParts fun _ => rfl

/-! #### The D slot -/

theorem Confined.beginD {i} {n : Opn} (h : Confined view o t t s) (done : s.beginD i = .ok n) : Confined view o t t n.st :=
  h.begin done

theorem Confined.beginDO {i} {n : Opn} (h : Confined view o t t s) (done : s.beginDO i = .ok n) : Confined view o t t n.st :=
  h.beginO done

theorem Confined.beginDT {i} {n : Opn} (h : Confined view o t t s) (done : s.beginDT i = .ok n) : Confined view o t t n.st :=
  h.beginT done

theorem Confined.respond {x data} (h : Confined view o t t s) : Confined view o t t (s.respond x data) := h.modMe

theorem Confined.fresh (h : Confined view o t c s) : Confined view o t c s.fresh.2 := h.same rfl rfl rfl

theorem Confined.lockReg {d tag line} (h : Confined view o t t s) : Confined view o t t (s.lockReg d tag line).2 := by
  unfold State.lockReg
  split
  · exact h
  · dsimp only [State.fresh]
    exact h.fresh.modMe

theorem Confined.caddOf {i val} (h : Confined Part.kernels o t t s) (done : s.caddOf i val = .ok u) : Confined Part.kernels o t t u := by
  unfold State.caddOf at done
  dsimp only at done
  (repeat' split at done) <;> cases done
  · exact (h.beginDO ‹_›).holdMerge
  · exact (h.beginDO ‹_›).arrive

theorem Confined.creadPoisoned {i va} (h : Confined view o t t s) : Confined view o t t (s.creadPoisoned i va) := h.modMe

theorem Confined.startCread {d a} (h : Confined view o t t s) (done : startCread d a s = .ok u) : Confined view o t t u := by
  unfold Machine.startCread at done
  dsimp only at done
  (repeat' split at done) <;> cases done
  · exact (h.beginDO ‹_›).creadPoisoned
  all_goals exact (h.beginDO ‹_›).modMe.readSide.lockReg.reply

theorem Confined.startCwait {a i m b} (h : Confined view o t t s) (done : startCwait a i m b s = .ok u) : Confined view o t t u := by
  unfold Machine.startCwait at done
  dsimp only at done
  (repeat' split at done) <;> cases done
  exact (h.beginDO ‹_›).modMe

theorem Confined.suspendFor {op} (h : Confined Part.kernels o t t s) : Confined Part.kernels o t t (s.suspendFor op) := by
  unfold State.suspendFor
  dsimp only
  split
  · exact h.holdMerge
  · exact h.holdMerge.modMe
  · exact h.holdMerge.modMe

theorem Confined.startAmo {op wide d a n} (h : Confined Part.kernels o t t s) (done : startAmo op wide d a n s = .ok u) :
    Confined Part.kernels o t t u := by
  unfold Machine.startAmo at done
  dsimp only at done
  (repeat' split at done) <;> cases done
  · exact (h.beginDO ‹_›).suspendFor
  · exact (h.beginDO ‹_›).lockReg.arrive

theorem Confined.startAmoc {op cc d a n} (h : Confined Part.kernels o t t s) (done : startAmoc op cc d a n s = .ok u) :
    Confined Part.kernels o t t u := by
  unfold Machine.startAmoc at done
  dsimp only at done
  (repeat' split at done) <;> cases done
  · exact (h.beginDO ‹_›).suspendFor
  · exact (h.beginDO ‹_›).respond
  · exact (h.beginDO ‹_›).lockReg.arrive

theorem Confined.startCpy {tD tS x} (h : Confined Part.kernels o t t s) (done : startCpy tD tS x s = .ok u) :
    Confined Part.kernels o t t u := by
  unfold Machine.startCpy at done
  dsimp only at done
  (repeat' split at done) <;> cases done
  · exact (h.beginDT ‹_›).fresh.holdMerge
  · exact (h.beginDT ‹_›).fresh.holdMerge
  · exact (h.beginDT ‹_›).fresh.modTile fun _ => id
  · exact (h.beginDT ‹_›).fresh.modTile fun _ => id

theorem Confined.millOf {i push g tid} (h : Confined view o t t s) (done : s.millOf i push g tid = .ok u) : Confined view o t t u := by
  unfold State.millOf at done
  dsimp only at done
  split at done
  · cases done
  · have begun := h.beginDT ‹_›
    replace done := ok_of_guarded done
    split at done
    · cases done
    · rcases of_ite_eq (ok_of_guarded (ok_of_guarded (ok_of_guarded done))) with nothing | attached
      · cases nothing
        exact begun
      · cases attached
        exact begun.fresh.modMe.modRegs

theorem Confined.takeReduce {a} (h : Confined view o t c s) (done : s.takeReduce a = .ok u) : Confined view o t c u := by
  unfold State.takeReduce at done
  dsimp only at done
  (repeat' split at done) <;> cases done
  exact h.same rfl rfl rfl

theorem Confined.startMred {p x} (h : Confined view o t t s) (done : startMred p x s = .ok u) : Confined view o t t u := by
  unfold Machine.startMred at done
  dsimp only at done
  split at done
  · cases done
  · have begun := h.beginD ‹_›
    replace done := ok_of_guarded (ok_of_guarded done)
    split at done
    · cases done
      exact begun.respond
    · rcases of_ite_eq done with waits | taken
      · cases waits
        exact begun.fresh.same rfl rfl rfl
      · split at taken <;> cases taken
        · exact begun.fresh.takeReduce ‹_›
        · exact begun.respond

theorem Confined.startFence {b a} (h : Confined view o t t s) (done : startFence b a s = .ok u) : Confined view o t t u := by
  unfold Machine.startFence at done
  dsimp only at done
  split at done <;> cases done
  have begun := h.beginD ‹_›
  exact begun.ite (begun.setMe.writeBackAll.ite begun.setMe)

theorem Confined.startSpawn {a} (h : Confined Part.kernels o t t s) (done : startSpawn a s = .ok u) : Confined Part.kernels o t t u := by
  unfold Machine.startSpawn at done
  dsimp only at done
  split at done
  · cases done
  · have begun := h.beginDO ‹_›
    replace done := ok_of_guarded done
    split at done
    · cases done
    · rcases of_ite_eq done with poisoned | done
      · cases poisoned
        exact begun.respond
      rcases of_ite_eq done with bad | done
      · cases bad
        exact begun.respond
      rcases of_ite_eq done with round | done
      · cases round
        exact begun.holdMerge
      rcases of_ite_eq done with general | done
      · cases general
        exact begun.newRecord.enterCommons
      rcases of_ite_eq done with reserved | full
      · cases reserved
        exact begun.newRecord.enterCommons
      · cases full

theorem Confined.groupChange {g up} (h : Confined Part.kernels o t c s) : Confined Part.kernels o t c (s.groupChange g up) := by
  unfold State.groupChange
  dsimp only
  split
  · exact h.holdMerge
  · exact h.groupFrom

theorem Confined.startJoin {g} (h : Confined Part.kernels o t t s) (done : startJoin g s = .ok u) : Confined Part.kernels o t t u := by
  unfold Machine.startJoin at done
  dsimp only at done
  (repeat' split at done) <;> cases done
  · exact h.beginDO ‹_›
  · exact (h.beginDO ‹_›).modMe.groupChange

theorem Confined.startLeave {g} (h : Confined Part.kernels o t t s) (done : startLeave g s = .ok u) : Confined Part.kernels o t t u := by
  unfold Machine.startLeave at done
  dsimp only at done
  (repeat' split at done) <;> cases done
  · exact h.beginDO ‹_›
  · exact (h.beginDO ‹_›).modMe.groupChange

theorem Confined.startTdef {i d} (h : Confined Part.kernels o t t s) (done : startTdef i d s = .ok u) : Confined Part.kernels o t t u := by
  unfold Machine.startTdef at done
  dsimp only at done
  (repeat' split at done) <;> cases done
  · exact (h.beginDO ‹_›).respond
  · exact (h.beginDO ‹_›).respond
  · exact (h.beginDO ‹_›).respond
  · exact (h.beginDO ‹_›).modRegs.updParts fun _ => rfl

theorem Confined.startTdrop {i} (h : Confined Part.kernels o t t s) (done : startTdrop i s = .ok u) : Confined Part.kernels o t t u := by
  unfold Machine.startTdrop at done
  split at done <;> cases done
  exact (h.beginDO ‹_›).updParts fun _ => rfl

theorem Confined.modChan {p n f} (h : Confined view o t c s) : Confined view o t c (s.modChan p n f) := h.same rfl rfl rfl

theorem Confined.startNsend {p n a l} (h : Confined view o t t s) (done : startNsend p n a l s = .ok u) : Confined view o t t u := by
  unfold Machine.startNsend at done
  dsimp only at done
  (repeat' split at done) <;> cases done
  exact (h.beginD ‹_›).fresh.modTile fun _ => id

theorem Confined.startNsendq {p n q} (h : Confined view o t t s) (done : startNsendq p n q s = .ok u) : Confined view o t t u := by
  unfold Machine.startNsendq at done
  dsimp only at done
  (repeat' split at done) <;> cases done
  all_goals exact (h.beginD ‹_›).modRegs.fresh.modTile fun _ => id

theorem Confined.startNrecv {p n a l} (h : Confined view o t t s) (done : startNrecv p n a l s = .ok u) : Confined view o t t u := by
  unfold Machine.startNrecv at done
  dsimp only at done
  (repeat' split at done) <;> cases done
  exact (h.beginDO ‹_›).modChan.modRegs.hold_.modMe

/-! #### Links and the C slot -/

theorem Confined.modPort {p f} (h : Confined view o t c s) : Confined view o t c (s.modPort p f) := h.same rfl rfl rfl

theorem Confined.emit {p f} (h : Confined view o t c s) : Confined view o t c (s.emit p f) := by
  unfold State.emit
  split
  · exact h.same rfl rfl rfl
  · exact h

theorem Confined.sendCredit {p ch reset n} (h : Confined view o t c s) : Confined view o t c (s.sendCredit p ch reset n) :=
  h.emit.ite h.modPort

theorem Confined.prepare {n b a} (h : Confined view o t t n.st) : Confined view o t t (s.prepare n b a) := h.land

theorem Confined.startBprep {b off} (h : Confined view o t t s) (done : startBprep b off s = .ok u) : Confined view o t t u := by
  unfold Machine.startBprep at done
  split at done <;> cases done
  exact (h.begin ‹_›).prepare

theorem Confined.startBprepi {b n} (h : Confined view o t t s) (done : startBprepi b n s = .ok u) : Confined view o t t u := by
  unfold Machine.startBprepi at done
  dsimp only at done
  (repeat' split at done) <;> cases done
  exact (h.begin ‹_›).prepare

theorem Confined.transfer {opc dc ds b cond takes} {x : Opn × State} (h : Confined view o t t s)
    (done : s.transfer opc dc ds b cond takes = .ok x) : Confined view o t t x.2 := by
  unfold State.transfer at done
  split at done
  · cases done
  · have begun := h.begin ‹_›
    dsimp only at done
    generalize (State.me _).regs.breg _ = target at done
    cases target <;> cases done
    dsimp only
    exact begun.modMe

theorem Confined.transferIf {opc b cond takes} (h : Confined view o t t s) (done : s.transferIf opc b cond takes = .ok u) :
    Confined view o t t u := by
  unfold State.transferIf at done
  split at done <;> cases done
  exact h.transfer ‹_›

theorem Confined.startCall {b} (h : Confined view o t t s) (done : startCall b s = .ok u) : Confined view o t t u := by
  unfold Machine.startCall at done
  split at done <;> cases done
  exact (h.transfer ‹_›).land

theorem Confined.mark {src count len} (h : Confined view o t t s) (done : s.mark src count len = .ok u) : Confined view o t t u := by
  unfold State.mark at done
  (repeat' split at done) <;> cases done
  exact (h.begin ‹_›).land

theorem Confined.startIlock {n ls} (h : Confined view o t t s) (done : startIlock n ls s = .ok u) : Confined view o t t u := by
  unfold Machine.startIlock at done
  dsimp only at done
  split at done <;> cases done
  exact (h.begin ‹_›).setMe.others

theorem Confined.startIunlock {n ls} (h : Confined view o t t s) (done : startIunlock n ls s = .ok u) : Confined view o t t u := by
  unfold Machine.startIunlock at done
  dsimp only at done
  split at done <;> cases done
  exact (h.begin ‹_›).modMe.others

theorem Confined.startWait {ld st cp mx} (h : Confined view o t t s) (done : startWait ld st cp mx s = .ok u) : Confined view o t t u := by
  unfold Machine.startWait at done
  dsimp only at done
  (repeat' split at done) <;> cases done
  · exact h.begin ‹_›
  · exact (h.begin ‹_›).setMe

theorem Confined.logSlip {p f m b n clamp} (h : Confined Part.kernels o t c s) : Confined Part.kernels o t c (s.logSlip p f m b n clamp) :=
  h.log

theorem Confined.charge {p m b d} (h : Confined Part.kernels o t c s) : Confined Part.kernels o t c (s.charge p m b d) := by
  unfold State.charge
  dsimp only
  split
  · exact h
  · split
    · exact Confined.fencePart (h.logSlip.updParts fun _ => rfl)
    · exact h.logSlip.updParts fun _ => rfl

theorem Confined.startRel {n} (h : Confined Part.kernels o t t s) (done : startRel n s = .ok u) : Confined Part.kernels o t t u := by
  unfold Machine.startRel at done
  dsimp only at done
  split at done
  · cases done
  · have begun := h.begin ‹_›
    split at done
    · cases done
      exact begun
    · rcases of_ite_eq done with member | done
      · cases member
        exact begun
      rcases of_ite_eq done with again | done
      · cases again
        exact begun.logSlip.ite begun
      rcases of_ite_eq (ok_of_guarded done) with onTime | late
      · cases onTime
        exact begun.logSlip.ite begun
      · cases late
        exact (begun.logSlip.ite begun).charge

theorem Confined.ends {opc e} (h : Confined view o t t s) (done : s.ends opc e = .ok u) : Confined view o t t u := by
  unfold State.ends at done
  split at done <;> cases done
  exact (h.begin ‹_›).modMe

theorem Confined.startBrk {tag} (h : Confined view o t t s) (done : startBrk tag s = .ok u) : Confined view o t t u := by
  unfold Machine.startBrk at done
  split at done <;> cases done
  exact (h.begin ‹_›).modMe

theorem Confined.startInj {slot src d step} (h : Confined view o t t s) (done : startInj slot src d step s = .ok u) :
    Confined view o t t u := by
  unfold Machine.startInj at done
  dsimp only at done
  replace done := ok_of_guarded done
  have cleared : Confined view o t t (if s.me.blk.replay || 1 < s.me.blk.run then s else s.modMe fun k => { k with inj := none }) :=
    h.ite h.modMe
  generalize (if s.me.blk.replay || decide (1 < s.me.blk.run) then s else s.modMe fun k => { k with inj := none }) = v at done cleared
  split at done
  · cases done
  · have begun := cleared.begin ‹_›
    split at done <;> cases done
    · exact begun
    · exact begun.modMe

/-! #### The M slot -/

theorem Confined.startM {opc dc ds srcs names fetches body} (h : Confined view o t t s)
    (done : s.startM opc dc ds srcs names fetches body = .ok u)
    (captured : ∀ n x, Confined view o t t n.st → body n = .ok x → Confined view o t t x.1) : Confined view o t t u := by
  unfold State.startM at done
  dsimp only at done
  split at done
  · cases done
  · split at done
    · cases done
    · rename_i n started
      have begun : Confined view o t t n.st := by
        cases names
        · exact h.begin started
        · exact h.beginT started
      split at done
      · cases done
      · have held := captured _ _ begun ‹_›
        replace done := ok_of_guarded done
        cases done
        exact Confined.land (held.setMe.same rfl rfl rfl)

theorem Confined.startMma {a tA tB x} (h : Confined view o t t s) (done : startMma a tA tB x s = .ok u) : Confined view o t t u := by
  refine h.startM done fun n x hn body => ?_
  dsimp only at body
  (repeat' split at body) <;> cases body
  exact hn

theorem Confined.startMzero {a} (h : Confined view o t t s) (done : startMzero a s = .ok u) : Confined view o t t u :=
  h.startM done fun n x hn body => by
    cases body
    exact hn

theorem Confined.startMload {a n} (h : Confined view o t t s) (done : startMload a n s = .ok u) : Confined view o t t u := by
  refine h.startM done fun n x hn body => ?_
  split at body <;> cases body
  exact hn

theorem Confined.startMdrain {a i q} (h : Confined view o t t s) (done : startMdrain a i q s = .ok u) : Confined view o t t u := by
  refine h.startM done fun n x hn body => ?_
  dsimp only at body
  (repeat' split at body) <;> cases body
  dsimp only
  exact hn.modRegs

theorem Confined.startMdrainRed {a i m x} (h : Confined view o t t s) (done : startMdrainRed a i m x s = .ok u) :
    Confined view o t t u := by
  refine h.startM done fun n x hn body => ?_
  (repeat' split at body) <;> cases body
  exact hn

theorem Confined.chset {bd src val} (h : Confined view o t t s) (done : s.chset bd src val = .ok u) : Confined view o t t u := by
  unfold State.chset at done
  split at done <;> cases done
  exact (h.begin ‹_›).land

theorem Confined.chain {opc n m single pick} (h : Confined view o t t s) (done : s.chain opc n m single pick = .ok u) :
    Confined view o t t u := by
  refine h.startM done fun n x hn body => ?_
  replace body := ok_of_guarded body
  cases body
  exact hn

/-! #### The S and V slots -/

theorem Confined.hcwStart {r w lat dst srcs body} (h : Confined view o t t s) (done : s.hcwStart r w lat dst srcs body = .ok u)
    (computed : ∀ n x, Confined view o t t n.st → body n w = .ok x → Confined view o t t x.1) : Confined view o t t u := by
  unfold State.hcwStart at done
  split at done
  · cases done
  · have begun := h.begin ‹_›
    split at done
    · split at done <;> cases done
      exact (computed _ _ begun ‹_›).land
    · cases done
      exact begun.land

theorem Confined.scalar {i w lat body} (h : Confined view o t t s) (done : s.scalar i w lat body = .ok u)
    (computed : ∀ n x, Confined view o t t n.st → body n w = .ok x → Confined view o t t x.1) : Confined view o t t u :=
  h.hcwStart done computed

theorem Confined.scalar2 {i w lat f} (h : Confined view o t t s) (done : s.scalar2 i w lat f = .ok u) : Confined view o t t u :=
  h.scalar done fun n x hn body => by
    cases body
    exact hn

theorem Confined.startSsel {w} (h : Confined view o t t s) (done : startSsel w s = .ok u) : Confined view o t t u :=
  h.scalar done fun n x hn body => by
    cases body
    exact hn

theorem Confined.startSqop {w} (h : Confined view o t t s) (done : startSqop w s = .ok u) : Confined view o t t u :=
  h.scalar done fun n x hn body => by
    cases body
    exact hn

theorem Confined.startSgetc {w} (h : Confined view o t t s) (done : startSgetc w s = .ok u) : Confined view o t t u :=
  h.scalar done fun n x hn body => by
    cases body
    exact hn

theorem Confined.startSsetc {w} (h : Confined view o t t s) (done : startSsetc w s = .ok u) : Confined view o t t u := by
  unfold Machine.startSsetc at done
  refine h.scalar (ok_of_guarded done) fun n x hn body => ?_
  dsimp only at body
  (repeat' split at body) <;> cases body
  · exact hn
  · exact hn.hold_
  · exact hn

theorem Confined.vectorOn {i w lat other ok srcs body} (h : Confined view o t t s)
    (done : s.vectorOn i w lat other ok srcs body = .ok u) : Confined view o t t u := by
  unfold State.vectorOn at done
  dsimp only at done
  split at done
  · cases done
  · refine h.hcwStart (ok_of_guarded (ok_of_guarded done)) fun n x hn body => ?_
    split at body <;> cases body
    exact hn

theorem Confined.vector {i w lat ok body} (h : Confined view o t t s) (done : s.vector i w lat ok body = .ok u) :
    Confined view o t t u := h.vectorOn done

theorem Confined.vector1 {i w lat ok f} (h : Confined view o t t s) (done : s.vector1 i w lat ok f = .ok u) :
    Confined view o t t u := h.vector done

theorem Confined.vector2 {i w lat ok f} (h : Confined view o t t s) (done : s.vector2 i w lat ok f = .ok u) :
    Confined view o t t u := h.vector done

theorem Confined.vector3 {i w lat ok f} (h : Confined view o t t s) (done : s.vector3 i w lat ok f = .ok u) :
    Confined view o t t u := h.vector done

theorem Confined.startVcvt {w} (h : Confined view o t t s) (done : startVcvt w s = .ok u) : Confined view o t t u := by
  unfold Machine.startVcvt at done
  split at done
  · cases done
  · exact h.vectorOn done

theorem Confined.maskOp {i w srcs body} (h : Confined view o t t s) (done : s.maskOp i w srcs body = .ok u) : Confined view o t t u := by
  unfold State.maskOp at done
  refine h.hcwStart done fun n x hn body => ?_
  split at body <;> cases body
  exact hn

theorem Confined.startMpush {w} (h : Confined view o t t s) (done : startMpush w s = .ok u) : Confined view o t t u := by
  unfold Machine.startMpush at done
  split at done
  · cases done
  · exact h.maskOp done

theorem Confined.reduction {i w f empty} (h : Confined view o t t s) (done : s.reduction i w f empty = .ok u) : Confined view o t t u := by
  unfold State.reduction at done
  dsimp only at done
  split at done
  · cases done
  · refine h.hcwStart done fun n x hn body => ?_
    cases body
    exact hn

theorem Confined.startVmacw {w} (h : Confined view o t t s) (done : startVmacw w s = .ok u) : Confined view o t t u := by
  unfold Machine.startVmacw at done
  dsimp only at done
  split at done
  · cases done
  · cases done
  · refine h.hcwStart (ok_of_guarded done) fun n x hn body => ?_
    cases body
    exact hn

theorem Confined.startVpopq {w} (h : Confined view o t t s) (done : startVpopq w s = .ok u) : Confined view o t t u := by
  unfold Machine.startVpopq at done
  refine h.hcwStart done fun n x hn body => ?_
  (repeat' split at body) <;> cases body <;> dsimp only
  · exact hn.modRegs
  · exact hn.modRegs
  · exact hn

/-! #### The T slot -/

theorem Confined.fired {unit lat f} (h : Confined view o t t s) (done : s.fired unit lat f = .ok u) : Confined view o t t u := by
  cases done
  exact h.modRegs.land

theorem Confined.startTrigger {i} (h : Confined view o t t s) (done : startTrigger i s = .ok u) : Confined view o t t u := by
  unfold Machine.startTrigger at done
  split at done
  case h_21 =>
    cases done
    exact h
  all_goals exact h.fired done

theorem Confined.toPort {p d} (h : Confined view o t t s) (done : s.toPort p d = .ok u) : Confined view o t t u := by
  unfold State.toPort at done
  split at done
  · exact h.startTrigger done
  · cases done
    exact h.land

theorem Confined.startTmovPortV {p v} (h : Confined view o t t s) (done : startTmovPortV p v s = .ok u) : Confined view o t t u := by
  unfold Machine.startTmovPortV at done
  split at done
  · cases done
  · exact (h.begin ‹_›).toPort done

theorem Confined.startTmovVPort {v p} (h : Confined view o t t s) (done : startTmovVPort v p s = .ok u) : Confined view o t t u := by
  unfold Machine.startTmovVPort at done
  split at done <;> cases done
  exact (h.begin ‹_›).land

theorem Confined.startTmovPortPort {d p} (h : Confined view o t t s) (done : startTmovPortPort d p s = .ok u) :
    Confined view o t t u := by
  unfold Machine.startTmovPortPort at done
  (repeat' split at done) <;> cases done
  · exact (h.begin ‹_›).modMe
  · exact (h.begin ‹_›).land

theorem Confined.startTmovPortS {p n} (h : Confined view o t t s) (done : startTmovPortS p n s = .ok u) : Confined view o t t u := by
  unfold Machine.startTmovPortS at done
  split at done
  · cases done
  · exact (h.begin ‹_›).toPort done

theorem Confined.startTmovSPort {n p} (h : Confined view o t t s) (done : startTmovSPort n p s = .ok u) : Confined view o t t u := by
  unfold Machine.startTmovSPort at done
  split at done <;> cases done
  exact (h.begin ‹_›).land

/-! #### Every operation of a bundle -/

/-- Whatever the operation is, its start is confined to its tile. -/
theorem Confined.startOp {i} (h : Confined Part.kernels o t t s) (done : startOp i s = .ok u) : Confined Part.kernels o t t u := by
  cases i <;> dsimp only [Machine.startOp] at done
  case bprep => exact h.startBprep done
  case bprepi => exact h.startBprepi done
  case xfer | xferF | xferMz | xferMnz => exact h.transferIf done
  case call => exact h.startCall done
  case lmark | lmarkImm => exact h.mark done
  case ilock => exact h.startIlock done
  case iunlock => exact h.startIunlock done
  case wait => exact h.startWait done
  case rel => exact h.startRel done
  case done | yield | trap => exact h.ends done
  case brk => exact h.startBrk done
  case inj => exact h.startInj done
  case mma => exact h.startMma done
  case mzero => exact h.startMzero done
  case mdrain => exact h.startMdrain done
  case mdrainRed => exact h.startMdrainRed done
  case mload => exact h.startMload done
  case chset | chsetImm => exact h.chset done
  case chrun | chstep | chstepPick => exact h.chain done
  case ld => exact h.startLd done
  case st => exact h.startSt done
  case vld => exact h.startVld done
  case vst => exact h.startVst done
  case stq => exact h.startStq done
  case racq => exact h.startRacq done
  case rpub => exact h.startRpub done
  case rget => exact h.startRget done
  case rrel => exact h.startRrel done
  case sflush => exact h.startSflush done
  case sinv => exact h.startSinv done
  case cpy => exact h.startCpy done
  case msub | mret => exact h.millOf done
  case cadd | caddImm => exact h.caddOf done
  case cwait => exact h.startCwait done
  case cread => exact h.startCread done
  case amo => exact h.startAmo done
  case amoc => exact h.startAmoc done
  case mred => exact h.startMred done
  case fence => exact h.startFence done
  case spawn => exact h.startSpawn done
  case join => exact h.startJoin done
  case leave => exact h.startLeave done
  case tdef => exact h.startTdef done
  case tdrop => exact h.startTdrop done
  case nsend => exact h.startNsend done
  case nrecv => exact h.startNrecv done
  case nsendq => exact h.startNsendq done
  case tmovPortV => exact h.startTmovPortV done
  case tmovVPort => exact h.startTmovVPort done
  case tmovPortPort => exact h.startTmovPortPort done
  case tmovPortS => exact h.startTmovPortS done
  case tmovSPort => exact h.startTmovSPort done
  case qntQ | qntQs | qntDq | qntAmax | trnE8 | trnE16 | trnE32 | trnE4 | crcInit | crcV | crcS | crcFin | hshKey | hshNb | hshId
    | hshBkt | topK | topGo | topIdx | topClr => exact h.fired done
  case sadd | ssub | smul | smulh | smulhu | sand | sor | sxor | sandn | sshl | sshr | ssar | smin | smax | sminu | smaxu | sclz
    | sctz | spopc | sli | smov | sext | scmp | slget => exact h.scalar2 done
  case ssel => exact h.startSsel done
  case sqop => exact h.startSqop done
  case sgetc => exact h.startSgetc done
  case ssetc => exact h.startSsetc done
  case vabs | vneg | vmov | vfrexp => exact h.vector1 done
  case vadd | vsub | vmul | vcmp =>
    dsimp only [Machine.startVadd, Machine.startVsub, Machine.startVmul, Machine.startVcmp] at done
    exact h.vector2 done
  case vmin | vmax | vminn | vmaxn | vand | vor | vxor | vshl | vshr | vsar | vldexp => exact h.vector2 done
  case vfma | vfms | vsel => exact h.vector3 done
  case vbcast | vtrn | vrot => exact h.vector done
  case vcvt => exact h.startVcvt done
  case mpush => exact h.startMpush done
  case minv | mpop => exact h.maskOp done
  case vredsum | vredmax | vredmin => exact h.reduction done
  case vmacw => exact h.startVmacw done
  case vpopq => exact h.startVpopq done
  all_goals
    cases done
    exact h

/-! #### A bundle that comes to issue -/

theorem fail_task (x : Tile) (vector : Bool) (n : Nat) : (x.fail vector n).task = x.task := by
  cases vector <;> rfl

theorem applyFailing_task (x : Tile) : x.applyFailing.task = x.task :=
  List.foldlRecOn (motive := fun y : Tile => y.task = x.task) x.failing _ rfl fun y same f _ => (fail_task y f.1 f.2).trans same

theorem boundary_task (s : State) (t p n : Nat) : ((s.boundary t p).tile n).task = (s.tile n).task := by
  refine modTile_task _ _ _ _ fun x => ?_
  dsimp only
  split <;> exact applyFailing_task x

theorem Confined.boundary {m p} (h : Confined view o t c s) : Confined view o t c (s.boundary m p) := by
  refine h.modTile fun x idle => ?_
  dsimp only
  split <;> exact (applyFailing_task x).trans idle

theorem Confined.at_ {x} (h : Confined view o t c s) : Confined view o t c (s.at_ x) := h.same rfl rfl rfl

theorem Confined.placeRun {k} (h : Confined view o t c s) : Confined view o t c (s.placeRun t k) := by
  unfold State.placeRun
  exact h.putTask.same rfl rfl rfl

/-- Once a tile that runs a task has come to a beat, it is the one on which operations start. -/
theorem Confined.approach {b k} (h : Confined view o t c s) (runs : (s.tile t).task = some k) :
    Confined view o t t (s.approach t b) := by
  have still : ((s.modTile t fun x => x.toBeat b).tile t).task = some k := modTile_runs runs fun _ => rfl
  unfold State.approach
  dsimp only
  rw [still]
  have placed : Confined view o t c (if k.betweenBlocks then
      ((s.modTile t fun x => x.toBeat b).boundary t k.part).placeRun t k.arm else s.modTile t fun x => x.toBeat b) :=
    Confined.ite (Confined.placeRun (Confined.boundary (h.modTile fun _ => id))) (h.modTile fun _ => id)
  exact ⟨placed.parts, placed.idle, rfl⟩

theorem Confined.enterBlock (h : Confined view o t t s) : Confined view o t t s.enterBlock := h.setMe

theorem Confined.startSlot {bd x} (h : Confined Part.kernels o t t s) (done : s.startSlot bd x = .ok u) :
    Confined Part.kernels o t t u := by
  unfold State.startSlot at done
  split at done
  · cases done
    exact h.modMe
  · split at done
    · cases started : Machine.startOp x.op (s.at_ x) with
      | error e =>
        rw [started] at done
        cases done
      | ok v =>
        rw [started] at done
        cases done
        exact (h.at_.startOp started).spendInj
    · cases done
      exact h.modMe

theorem Confined.startSlots {bd xs} (h : Confined Part.kernels o t t s) (done : s.startSlots bd xs = .ok u) :
    Confined Part.kernels o t t u := by
  unfold State.startSlots at done
  refine List.foldlRecOn (motive := fun r => ∀ v, r = Except.ok v → Confined Part.kernels o t t v) xs _ ?_ ?_ u done
  · rintro v ⟨⟩
    exact h
  · intro r kept x _ v stepped
    split at stepped
    · cases stepped
    · rename_i w
      have hw := kept w rfl
      split at stepped <;> cases stepped
      rename_i started
      have hv := hw.startSlot started
      exact hv.same rfl rfl (hw.cur.trans hv.cur.symm)

theorem Confined.logPreempt {m k forced} (h : Confined Part.kernels o t c s) : Confined Part.kernels o t c (s.logPreempt m k forced) :=
  h.log.ite h

theorem Confined.takePreempt {m f forced} (h : Confined Part.kernels o t c s) :
    Confined Part.kernels o t c (s.takePreempt m f forced) := by
  unfold State.takePreempt
  split
  · exact h
  · exact h.logPreempt.giveUp

theorem Confined.spendEmpty {xs} (h : Confined view o t t s) : Confined view o t t (s.spendEmpty xs) := h.modMe

theorem Confined.splitCycle {m} (h : Confined Part.kernels o t c s) : Confined Part.kernels o t c (s.splitCycle m) :=
  h.busyHold.modTile fun _ => id

theorem Confined.tryIssue {b} (h : Confined Part.kernels o t t s) (done : s.tryIssue t b = .ok u) : Confined Part.kernels o t t u := by
  unfold State.tryIssue at done
  dsimp only at done
  split at done
  · cases done
  · replace done := ok_of_guarded (ok_of_guarded done)
    split at done
    · cases done
    · split at done
      · cases done
      · rename_i started
        have entered (eob : Bool) := Confined.enterBlock (s := { s with cur := { s.cur with eob := eob } }) (h.same rfl rfl rfl)
        have begun := (entered _).startSlots started
        cases done
        refine Confined.ite (Confined.splitCycle (Confined.busyBeats ?_)) (Confined.busyBeats ?_) <;>
          exact begun.spendEmpty.setMe.translates.ite begun.spendEmpty.setMe.translates.others

theorem Confined.bundleHalts {b e} (h : Confined Part.kernels o t t s) : Confined Part.kernels o t t (s.bundleHalts t b e) := by
  unfold State.bundleHalts
  split
  · exact Confined.decodeAt (h.same rfl rfl rfl)
  · exact h.takePreempt
  · refine Confined.settled ?_ fun _ failed => nomatch failed
    dsimp only
    split
    · exact Confined.ite (Confined.modMe (h.same rfl rfl rfl)) (h.same rfl rfl rfl)
    · exact h.same rfl rfl rfl
  · exact h

theorem Confined.issue {b} (h : Confined Part.kernels o t t s) : Confined Part.kernels o t t (s.issue t b) := by
  unfold State.issue
  split
  · exact h.tryIssue ‹_›
  · exact h.bundleHalts

theorem Confined.takeStop {f} (h : Confined Part.kernels o t c s) : Confined Part.kernels o t c (s.takeStop t f) := by
  unfold State.takeStop
  dsimp only
  split
  · exact h.modTile fun _ => id
  · split
    · exact h.modTile fun _ => id
    · exact Confined.abort (Confined.putTask (h.modTile fun _ => id))
    · exact Confined.takePreempt (h.modTile fun _ => id)

theorem Confined.force (h : Confined Part.kernels o t c s) : Confined Part.kernels o t c (s.force t) := by
  unfold State.force
  dsimp only
  split
  · exact h
  · split
    · exact h.takePreempt
    · split
      · exact Confined.takePreempt (h.modTile fun _ => id)
      · exact h.putTask

theorem Confined.overtaken {b late} (h : Confined Part.kernels o t c s) (done : s.overtaken t b late = some u) :
    Confined Part.kernels o t c u := by
  unfold State.overtaken at done
  dsimp only at done
  (repeat' split at done) <;> cases done
  · exact h.hang
  · exact h.force

theorem Confined.overdue {b} (h : Confined Part.kernels o t c s) : Confined Part.kernels o t c (s.overdue t b) := by
  unfold State.overdue
  dsimp only
  split
  · exact h
  · split
    · exact h
    · split
      · exact h.hang
      · exact h.putTask.ite h

theorem putTask_runs {k} (runs : (s.tile t).task = some k) (y : Task) : ((s.putTask t y).tile t).task = some y := by
  rw [State.putTask, modTile_eq, setTile_tile _ _ _ (tile_exists (Option.isSome_iff_exists.mpr ⟨k, runs⟩))]

/-- A bundle that nothing overtakes still has its task once what is overdue is noted: a watchdog that has run out in the window of
R276 only makes a stop due. -/
theorem overdue_runs {b k} (runs : (s.tile t).task = some k) (on : s.overtaken t b false = none) :
    ∃ y, ((s.overdue t b).tile t).task = some y := by
  unfold State.overtaken at on
  unfold State.overdue
  dsimp only at on ⊢
  rw [runs] at on ⊢
  dsimp only at on ⊢
  split
  · exact ⟨k, runs⟩
  · rename_i late
    rw [Bool.or_eq_true, not_or] at late
    obtain ⟨window, unfenced⟩ := late
    rw [if_neg unfenced] at on
    split at on
    · split at on
      · cases on
      · rename_i stays
        rw [Bool.or_eq_true, Bool.or_eq_true, not_or, not_or] at stays
        obtain ⟨⟨-, commits⟩, holds⟩ := stays
        unfold State.hang
        dsimp only
        rw [runs]
        dsimp only
        rw [if_neg window, if_neg commits, if_neg holds]
        exact ⟨_, putTask_runs runs _⟩
    · split
      · exact ⟨_, putTask_runs runs _⟩
      · exact ⟨k, runs⟩

/-- A tile that runs a task comes to its next bundle. -/
theorem Confined.bundleIssue (runs : ∃ k, (s.tile t).task = some k) : ∃ c, Confined Part.kernels s t c (s.bundleIssue t) := by
  have h := Confined.refl Part.kernels s t
  obtain ⟨k, runs⟩ := runs
  unfold State.bundleIssue
  rw [runs]
  split
  · rename_i y b d here due
    cases here
    split
    · exact ⟨_, h⟩
    · split
      · exact ⟨_, h.takeStop⟩
      · split
        · exact ⟨_, h⟩
        · split
          · exact ⟨_, h.overtaken ‹_›⟩
          · obtain ⟨z, still⟩ := overdue_runs runs ‹_›
            have near := h.overdue.approach (b := b) still
            dsimp only
            split
            · exact ⟨_, h.raiseHold⟩
            · split
              · exact ⟨_, h⟩
              · exact ⟨_, near.ite near.issue⟩
      · exact ⟨_, h⟩
  · exact ⟨_, h⟩

/-! #### Delayed starts -/

theorem Confined.lateCtx {b k d} (h : Confined view o t c s) : Confined view o t t (s.lateCtx t b k d) := ⟨h.parts, h.idle, rfl⟩

theorem Confined.tryDelayed {b k d} (h : Confined Part.kernels o t c s) (done : s.tryDelayed t b k d = .ok u) :
    Confined Part.kernels o t t u := by
  unfold State.tryDelayed at done
  dsimp only at done
  split at done
  · cases done
  · rename_i v starts
    have started : Confined Part.kernels o t t v := by
      generalize at_ : (s.lateCtx t b k d).setMe { k.undelay d with blk := { k.blk with seq := d.blk } } = w at starts
      have begun : Confined Part.kernels o t t w := at_ ▸ h.lateCtx.setMe
      cases op : Machine.startOp d.op w with
      | error e =>
        rw [op] at starts
        cases starts
      | ok x =>
        rw [op] at starts
        cases starts
        exact (begun.startOp op).spendInj
    split at done <;> cases done
    · exact started
    · exact started.setMe

theorem Confined.recordStart {d} (h : Confined view o t t s) : Confined view o t t (s.recordStart d) := by
  unfold State.recordStart
  dsimp only
  split
  · exact h
  · split
    · exact h.modMe
    · exact h

theorem Confined.catchLate {b k d x cls addr data step} (h : Confined view o t c s) :
    ∃ c, Confined view o t c (s.catchLate t b k d x cls addr data step) := by
  unfold State.catchLate
  dsimp only
  split
  · exact ⟨_, h.lateCtx.recordStart.modTile fun _ idle => congrArg (Option.map _) idle⟩
  · exact ⟨_, h.modTile fun _ idle => congrArg (Option.map _) idle⟩

theorem Confined.lateHalts {b d e} (h : Confined Part.kernels o t c s) : ∃ c, Confined Part.kernels o t c (s.lateHalts t b d e) := by
  have stopped {v : State} (hv : Confined Part.kernels o t c v) (k : Task) (window : Prop) [Decidable window] :
      ∃ c, Confined Part.kernels o t c (if window then
        match e with
        | .fault x data => v.catchLate t b k d x (Cause.startClass d.slot x) d.addr data 0
        | .late x addr data step _ => v.catchLate t b k d x .u addr data step
        | _ => (v.lateCtx t b k d).settled (.error e)
      else (v.lateCtx t b k d).settled (.error e)) := by
    split
    · split
      · exact hv.catchLate
      · exact hv.catchLate
      · exact ⟨_, hv.lateCtx.settled fun _ failed => nomatch failed⟩
    · exact ⟨_, hv.lateCtx.settled fun _ failed => nomatch failed⟩
  unfold State.lateHalts
  split
  · exact ⟨_, h⟩
  · dsimp only
    split
    · exact stopped (h.putTask.ite h) _ _
    · exact stopped h _ _

theorem Confined.tryBeat {b x} (h : Confined Part.kernels o t c s) (done : s.tryBeat t b x = .ok u) :
    ∃ c, Confined Part.kernels o t c u := by
  unfold State.tryBeat at done
  split at done
  · cases done
    exact ⟨_, h⟩
  · split at done
    · split at done <;> cases done
      exact ⟨_, h.tryDelayed ‹_›⟩
    · split at done
      · exact ⟨_, (h.approach ‹_›).tryIssue done⟩
      · cases done
        exact ⟨_, h⟩

theorem Confined.beatHalts {b e k} (h : Confined Part.kernels o t c s) (runs : (s.tile t).task = some k) :
    ∃ c, Confined Part.kernels o t c (s.beatHalts t b e) := by
  unfold State.beatHalts
  split
  · exact h.lateHalts
  · exact ⟨_, (h.approach runs).bundleHalts⟩

/-- A tile that runs a task comes to the start of a delayed operation. -/
theorem Confined.delayedStart (runs : ∃ k, (s.tile t).task = some k) : ∃ c, Confined Part.kernels s t c (s.delayedStart t) := by
  have h := Confined.refl Part.kernels s t
  obtain ⟨k, runs⟩ := runs
  unfold State.delayedStart
  rw [runs]
  split
  · rename_i b y due here
    cases here
    split
    · exact ⟨_, h⟩
    · dsimp only
      split
      · exact ⟨_, h⟩
      · split
        · exact ⟨_, h.overtaken ‹_›⟩
        · have still : ((s.modTile t fun x => x.toBeat b).tile t).task = some k :=
            modTile_runs runs fun _ => rfl
          have near := h.modTile (m := t) (f := fun x => x.toBeat b) fun _ => id
          split
          · exact ⟨_, near.raiseHold⟩
          · split
            · exact near.beatHalts still
            · have started := near.tryBeat ‹_›
              split
              · exact started
              · split
                · exact near.beatHalts still
                · split
                  · split
                    · exact near.beatHalts still
                    · exact started
                  · exact started
  · exact ⟨_, h⟩

end

/-! ### Partition reset -/

/-- No partition has lost or gained a kernel, and a tile without a task has none. -/
structure Undisturbed (o s : State) : Prop where
  kernels : s.parts.map (·.kernels) = o.parts.map (·.kernels)
  idle : ∀ i, (o.tile i).task = none → (s.tile i).task = none

section
variable {o s : State}

theorem Undisturbed.refl (s : State) : Undisturbed s s := ⟨rfl, fun _ => id⟩

theorem Undisturbed.trans {u : State} (h : Undisturbed o s) (h' : Undisturbed s u) : Undisturbed o u :=
  ⟨h'.kernels.trans h.kernels, fun i was => h'.idle i (h.idle i was)⟩

/-- What is confined to a tile, whichever it is, is confined to none. -/
theorem Undisturbed.step {u : State} (h : Undisturbed o s) (kept : ∀ t, Confined Part.kernels s t s.cur.tile u) : Undisturbed o u where
  kernels := (kept 0).parts.trans h.kernels
  idle i was := (kept (i + 1)).idle i (Nat.ne_of_lt i.lt_succ_self) (h.idle i was)

theorem Undisturbed.foldl {ι : Type} {f : State → ι → State} (h : Undisturbed o s) (is : List ι)
    (step : ∀ i u, Undisturbed o u → Undisturbed o (f u i)) : Undisturbed o (is.foldl f s) := Kept.run step h is

/-- What is confined to a tile that runs a task leaves the idle tiles idle. -/
theorem Undisturbed.of_runs {t c : Nat} {k : Task} {u : State} (h : Undisturbed o s) (runs : (s.tile t).task = some k)
    (kept : Confined Part.kernels s t c u) : Undisturbed o u where
  kernels := kept.parts.trans h.kernels
  idle i was := by
    have idle := h.idle i was
    refine kept.idle i ?_ idle
    rintro rfl
    cases runs.symm.trans idle

theorem bundleIssue_idle {t : Nat} (idle : (s.tile t).task = none) : s.bundleIssue t = s := by
  rw [State.bundleIssue, idle]

theorem delayedStart_idle {t : Nat} (idle : (s.tile t).task = none) : s.delayedStart t = s := by
  rw [State.delayedStart, idle]
  split
  · rename_i none_runs
    cases none_runs
  · rfl

/-- Only a tile that runs a task tries its `nrecv` again. -/
theorem Undisturbed.retryRecv {p c t : Nat} (h : Undisturbed o s) : Undisturbed o (s.retryRecv p c t) := by
  cases runs : (s.tile t).task with
  | none =>
    have same : s.retryRecv p c t = s := by
      rw [State.retryRecv, bundleIssue_idle runs, delayedStart_idle runs]
      split
      · rfl
      · split <;> rfl
    rwa [same]
  | some k =>
    unfold State.retryRecv
    split
    · exact h
    · split
      · obtain ⟨c, kept⟩ := Confined.delayedStart ⟨k, runs⟩
        exact h.of_runs runs kept
      · obtain ⟨c, kept⟩ := Confined.bundleIssue ⟨k, runs⟩
        exact h.of_runs runs kept

theorem Undisturbed.modChan {p c : Nat} {f : Channel → Channel} (h : Undisturbed o s) : Undisturbed o (s.modChan p c f) :=
  h.step fun t => (Confined.refl _ s t).modChan

theorem Undisturbed.disableChan {p c : Nat} (h : Undisturbed o s) : Undisturbed o (s.disableChan p c) := by
  unfold State.disableChan
  split
  · exact h
  · dsimp only
    have withdrawn (drop : Task → Task) (t : Nat) : Confined Part.kernels s t s.cur.tile { s with
        tiles := s.tiles.map fun x => x.everyTask drop
        saved := s.saved.map fun e => { e with task := drop e.task } } :=
      ((Confined.refl _ s t).mapTiles fun _ idle => congrArg (Option.map drop) idle).same rfl rfl rfl
    exact Undisturbed.foldl (h.step fun t => (withdrawn _ t).modChan.sendCredit) _ fun _ _ hu => hu.retryRecv

theorem Undisturbed.clearTile {t : Nat} (h : Undisturbed o s) : Undisturbed o (s.clearTile t) := by
  refine h.step fun i => Confined.modTile ?_ fun _ _ => rfl
  refine (Confined.refl _ s i).clearFills.foldl _ fun _ _ hu => ?_
  exact hu.recall.ite hu

theorem Undisturbed.clearGroups {p : Nat} (h : Undisturbed o s) : Undisturbed o (s.clearGroups p) := by
  unfold State.clearGroups
  split
  · exact h.step fun t => (Confined.refl _ s t).lowWrite
  · exact h

theorem Undisturbed.clearChans {p : Nat} (h : Undisturbed o s) : Undisturbed o (s.clearChans p) := by
  refine h.foldl _ fun _ _ hu => hu.foldl _ fun _ _ hv => ?_
  split
  · exact hv.disableChan.modChan
  · exact hv

theorem clearTile_idle (s : State) (t : Nat) : ((s.clearTile t).tile t).task = none := by
  unfold State.clearTile
  dsimp only
  generalize List.foldl _ _ _ = u
  rcases Nat.lt_or_ge t u.tiles.length with inside | outside
  · rw [modTile_eq, setTile_tile _ _ _ inside]
    rfl
  · rw [modTile_eq, setTile_outside _ outside, State.tile, List.getD_eq_default _ _ outside]

/-- Every tile of a run of resets is left without a task. -/
theorem clearTiles_idle (ts : List Nat) (s : State) : ∀ t ∈ ts, ((ts.foldl (fun s t => s.clearTile t) s).tile t).task = none := by
  induction ts generalizing s with
  | nil => nofun
  | cons t ts ih =>
    intro i mem
    rcases List.mem_cons.mp mem with rfl | later
    · exact ((Undisturbed.refl _).foldl ts fun _ _ hu => hu.clearTile).idle i (clearTile_idle s i)
    · exact ih _ i later

end
section
open Sys2Proof.Claims

/-- What reads the same of all partitions reads the same of each. -/
theorem view_part {α : Type} {view : Part → α} {o s : State} (same : s.parts.map view = o.parts.map view) (p : Nat) :
    view (part s p) = view (part o p) := by
  have at_ (ps : List Part) : view (ps.getD p {}) = (ps.map view).getD p (view {}) := by
    rw [List.getD_eq_getElem?_getD, List.getD_eq_getElem?_getD, List.getElem?_map, Option.getD_map]
  rw [part, part, at_, at_, same]

theorem updAt_getD {ps : List Part} {p : Nat} (inside : p < ps.length) (f : Part → Part) :
    (updAt ps p f).getD p {} = f (ps.getD p {}) := by
  simp [updAt, List.getD_eq_getElem?_getD, inside]

theorem wakeReached_parts (s : State) : s.wakeReached.parts = s.parts := by
  simpa using (Confined.refl id s 0).wakeReached.parts

/-- The tiles of a state lie apart from the rest of it; said of any values of the rest, so that no proof compares those. -/
theorem tile_apart (s : State) (parts dies waiters launchQ heldLines asks replies) (t : Nat) : State.tile { s with
    parts := parts, dies := dies, waiters := waiters, launchQ := launchQ, heldLines := heldLines, asks := asks
    replies := replies } t = s.tile t := rfl

/-- A partition reset clears the tiles of the partition, and then what lies outside its part of the state, before the part itself. -/
theorem partitionReset_from {s : State} {p : Nat} (mem : p ∈ s.partitions) : ∃ v, Undisturbed s v ∧
    (∀ t ∈ s.tilesOf p, ((s.partitionReset p).tile t).task = none) ∧
    (s.partitionReset p).parts = updAt v.parts p fun x => { kernels := x.kernels, nextLaunch := x.nextLaunch
                                                            nextGraph := x.nextGraph, nextCopy := x.nextCopy } := by
  have known : ¬ (!s.partitions.contains p) = true := by simpa using mem
  have cleared := clearTiles_idle (s.tilesOf p) s
  have first := (Undisturbed.refl s).foldl (s.tilesOf p) (f := fun s t => s.clearTile t) fun _ _ hu => hu.clearTile
  unfold State.partitionReset
  rw [if_neg known]
  dsimp only
  generalize (s.tilesOf p).foldl (fun s t => s.clearTile t) s = v at cleared first ⊢
  have freed : Undisturbed v ((v.heldLines.filter fun h => h.part == p && h.counted).foldl (fun s h => s.leaveSlices p [h.line]) v) :=
    (Undisturbed.refl v).step fun t => (Confined.refl _ v t).foldl _ fun _ _ hu => hu.leaveSlices
  have outside := freed.clearGroups (p := p) |>.clearChans (p := p)
  generalize State.clearChans _ p = w at outside ⊢
  have engines : Undisturbed v ((w.quadsOf p).foldl (fun (s : State) q => { s with quads := updAt s.quads q Quad.cleared }) w) :=
    outside.step fun t => (Confined.refl _ w t).foldl _ fun _ _ hu => hu.same rfl rfl rfl
  generalize List.foldl _ w _ = x at engines ⊢
  refine ⟨x, first.trans engines, fun t mem => ?_, wakeReached_parts _⟩
  refine ((Undisturbed.refl _).step fun t => (Confined.refl _ _ t).wakeReached).idle t ?_
  rw [tile_apart]
  exact engines.idle t (cleared t mem)

theorem partitionReset_clears {s : State} {p : Nat} (mem : p ∈ s.partitions) (inside : p < s.parts.length) :
    (part (s.partitionReset p) p).commons = [] ∧ (part (s.partitionReset p) p).nextId = 1 ∧
      (part (s.partitionReset p) p).tensors = [] ∧ (part (s.partitionReset p) p).kernels = (part s p).kernels ∧
      (part (s.partitionReset p) p).fenced = none ∧ ∀ t ∈ s.tilesOf p, ((s.partitionReset p).tile t).task = none := by
  obtain ⟨v, kept, idle, parts⟩ := partitionReset_from mem
  have size : v.parts.length = s.parts.length := by simpa using congrArg List.length kept.kernels
  rw [part, parts, updAt_getD (size ▸ inside)]
  exact ⟨rfl, rfl, rfl, view_part kept.kernels p, rfl, idle⟩

/-! ### A fence by power management -/

/-- A fence stands where it already stood, and what halting the queues does leaves it (R289). -/
theorem fencePart_fences {s : State} {p : Nat} {r : LogRec} (inside : p < s.parts.length) :
    (part (s.fencePart p r) p).fenced.isSome = true := by
  unfold State.fencePart
  dsimp only
  split
  · exact ‹_›
  · have size : (s.log p { r with cls := .f }).parts.length = s.parts.length := by
      simpa using congrArg List.length (Confined.refl Part.kernels s 0).log.parts
    generalize s.log p { r with cls := .f } = v at size
    have fenced : (part { v with parts := updAt v.parts p fun x => { x with fenced := some r.cause } } p).fenced = some r.cause := by
      rw [part, updAt_getD (size ▸ inside)]
    generalize ({ v with parts := updAt v.parts p fun x => { x with fenced := some r.cause } } : State) = w at fenced ⊢
    have halted := Confined.haltQueues (p := p) ((Confined.refl (·.fenced) w 0).foldl (f := fun s t => s.modTile t fun x =>
      { x with pairPend := [] }) (w.tilesOf p) fun _ _ hu => hu.modTile fun _ => id)
    have same := view_part (view := (·.fenced)) halted.parts p
    dsimp only at same
    rw [fenced] at same
    exact Option.isSome_iff_exists.mpr ⟨_, same⟩

theorem setPoint_parts (s : State) (i : Island) (v : OpPoint) : (s.setPoint i v).parts = s.parts := by
  cases i with
  | tile t =>
    rw [State.setPoint]
    split <;> rfl
  | l2 q => rfl
  | base d => rfl

/-- Where none but pinned islands is left to lower, lowering one fences its partition (R302, log 20). -/
theorem powerCap_fences {s : State} {i : Island} {v : OpPoint} (lowers : pointRank v < pointRank (s.pointOf i))
    (pinned : s.islandPinned i = true) (inside : s.islandPart i < s.parts.length)
    (last : ∀ q ∈ s.partitions, ∀ x ∈ s.islandsOf q, s.lowerable x = false) :
    (part (s.powerCap i v) (s.islandPart i)).fenced.isSome = true := by
  have none_left : ¬ (s.partitions.any fun q => (s.islandsOf q).any s.lowerable) = true := by
    simpa using last
  unfold State.powerCap
  dsimp only
  rw [if_neg (not_le.mpr lowers), if_pos pinned, if_neg none_left]
  exact fencePart_fences ((setPoint_parts s i v).symm ▸ inside)

end

end Sys2Proof.Laws
end

section
namespace Sys2Proof.Laws

open Machine
open Sys2Proof.Claims

/-! ### Device reset -/

theorem deviceReset_tile (s : State) (t : Nat) :
    (s.deviceReset.tile t).task = none ∧ (s.deviceReset.tile t).stash = [] ∧ (s.deviceReset.tile t).beat = 0 := by
  refine tile_of_forall (P := fun x => x.task = none ∧ x.stash = [] ∧ x.beat = 0) ⟨rfl, rfl, rfl⟩ (fun x mem => ?_) t
  obtain ⟨⟨y, i⟩, found, rfl⟩ := List.mem_map.mp mem
  rcases mem_reset_tiles (List.fst_mem_of_mem_zipIdx found) with rfl | rfl <;> exact ⟨rfl, rfl, rfl⟩

/-! ### Self-test -/

/-- Where no unit has failed, every unit is present and the two pairs are bound to the first two (R62, log 19). -/
theorem selfTest_none (x : Tile) (t : Nat) : x.selfTest t [] = { x with
    scalars := [true, true, true], vectors := [true, true, true], sa := 0, sb := 1, va := 0, vb := 1
    splits := false, splitv := false, failing := [] } := rfl

theorem testTile_fit {s : State} {t : Nat} (fit : (s.tile t).fit = true) : s.testTile t = s := if_pos fit

theorem foldl_testTile_fit {s : State} (fit : ∀ t, (s.tile t).fit = true) (ts : List Nat) :
    ts.foldl (fun s t => s.testTile t) s = s :=
  List.foldlRecOn (motive := (· = s)) ts _ rfl fun _ same t _ => by rw [same, testTile_fit (fit t)]

/-- The tiles after a self-test that finds no failure. -/
def workingTiles (s : State) : List Tile := s.tiles.zipIdx.map fun (x, t) => x.selfTest t []

theorem working_fit (s : State) (t : Nat) : (State.tile { s with tiles := workingTiles s } t).fit = true := by
  refine tile_of_forall (P := fun x => x.fit = true) rfl (fun x mem => ?_) t
  obtain ⟨⟨y, i⟩, -, rfl⟩ := List.mem_map.mp mem
  rfl

theorem selfTest_nothing_failed {s : State} (fresh : s.dev.ready = false) :
    s.selfTest [] = { s with tiles := workingTiles s, dev := { s.dev with ready := true } } := by
  have tested := foldl_testTile_fit (working_fit s)
  rw [workingTiles] at tested
  rw [State.selfTest, fresh, if_neg Bool.false_ne_true]
  dsimp only
  rw [tested, tested]
  rfl

theorem working_tile {s u : State} {t : Nat} (tested : u.tiles = workingTiles s) (there : t < s.tiles.length) :
    u.tile t = (s.tile t).selfTest t [] := by
  simp [State.tile, tested, workingTiles, List.getD_eq_getElem?_getD, there]

/-! ### Layout -/

/-- What comes of a layout that is asked for: one of the two shapes is taken where no task runs, and any other is refused (R10). -/
theorem setLayout_cases (s : State) (v : BitVec 8) : ∃ d : Device, s.setLayout v = { s with dev := d } ∧
    ((v = 0 ∨ v = 0xFF) → (∀ x ∈ s.tiles, x.task = none) → d.layout = v) ∧
    (v ≠ 0 ∧ v ≠ 0xFF → d.layout = s.dev.layout) := by
  rw [State.setLayout]
  split
  · rename_i refused
    refine ⟨_, rfl, fun shape idle => ?_, fun _ => rfl⟩
    have none_runs : s.tiles.any (fun x => x.task.isSome) = false := by simpa using idle
    rw [none_runs] at refused
    rcases shape with rfl | rfl <;> cases refused
  · rename_i taken
    have shape : (v != 0x00#8 && v != 0xFF#8) = false := by
      rw [Bool.or_eq_true, not_or, Bool.not_eq_true] at taken
      exact taken.1
    refine ⟨_, rfl, fun _ _ => rfl, fun ⟨h0, hF⟩ => absurd shape ?_⟩
    simpa using ⟨h0, hF⟩

/-! ### An island moved by power management -/

/-- An island that is raised, or may be lowered now, is moved (R151, R302). -/
theorem powerCap_moves {s : State} {t : Nat} {v : OpPoint} (may : v ≠ .off ∨ (s.tile t).life = .spare)
    (free : pointRank (s.tile t).point ≤ pointRank v
      ∨ s.islandPinned (.tile t) = false ∧ s.othersFirst (s.partOf (quadOf t)) = false) :
    s.powerCap (.tile t) v = s.modTile t fun x => { x with point := v } := by
  have set : s.setPoint (.tile t) v = s.modTile t fun x => { x with point := v } := by
    refine if_neg ?_
    rcases may with on | spare
    · simp [on]
    · simp [spare]
  rw [State.powerCap, set]
  by_cases raises : pointRank (s.pointOf (.tile t)) ≤ pointRank v
  · exact if_pos raises
  · obtain ⟨unpinned, first⟩ := free.resolve_left raises
    replace first : s.othersFirst (s.islandPart (.tile t)) = false := first
    rw [if_neg raises, unpinned, first, if_neg Bool.false_ne_true, if_neg Bool.false_ne_true]

/-! ### Resets and power -/

/-- Settles O47: a device reset starts from the state after a reset; a self-test without failures binds the first two units of each
kind; a partition reset runs through the channels it disables, where a tile that holds for their bytes starts its operation again, and
nothing that such a tile does reaches an idle tile or the kernels of a partition. -/
theorem resetsAndPower : Obligations.ResetsAndPower := by
  intro s
  refine ⟨?_, fun fresh => ?_, fun v => ?_, fun p mem inside => ?_, fun t v free may moves => ?_,
    fun i v free lowers pinned inside last => ?_⟩
  · rintro i (rfl | rfl) <;>
      exact ⟨_, rfl, rfl, rfl, rfl, rfl, rfl, rfl, rfl, rfl, rfl, deviceReset_tile s⟩
  · refine ⟨_, congrArg (happens s) (selfTest_nothing_failed fresh), rfl, rfl, rfl, rfl, fun t there => ?_⟩
    rw [working_tile (s := s) rfl there, selfTest_none]
    exact ⟨rfl, rfl, rfl, rfl, rfl, rfl, rfl⟩
  · obtain ⟨d, set, taken, refused⟩ := setLayout_cases s v
    exact ⟨_, congrArg (happens s) set, rfl, rfl, rfl, taken, refused⟩
  · exact ⟨_, rfl, rfl, partitionReset_clears mem inside⟩
  · exact (heldBack_of_unlocked free _).trans (by rw [powerCap_moves may moves])
  · exact ⟨_, heldBack_of_unlocked free _, rfl, powerCap_fences lowers pinned inside last⟩

end Sys2Proof.Laws
end
